-- ==== Sys2Proof/Word.lean ====
section
/-! DEFINITION. The word types of the block: bytes of the stream, binary32 numbers as 32-bit words, 16-bit samples. -/

namespace Sys2Proof

/-- One byte of the stream (20_memory R81). -/
abbrev Byte := BitVec 8

/-- A sample number: an IEEE 754 binary32 number, held as its 32-bit interchange word (00_scope R12). -/
abbrev F32 := BitVec 32

/-- A PCM sample: a signed 16-bit two's-complement integer (20_memory R89). -/
abbrev Sample := BitVec 16

end Sys2Proof
end

