-- ==== Sys2Proof/Config.lean ====
section
/-! DEFINITION. The implementation parameters of 00_scope R6: the fixed ones as numbers, the OPEN ones as constants without a body, so that nothing in
Lean can learn a value of them. -/

namespace Sys2Proof

/-- `RD_MAX`, the widest single bit read (R6). -/
abbrev Config.rdMax : Nat := 24

/-- `MAX_BLOCK`, the largest legal block size (R6, D35). -/
abbrev Config.maxBlock : Nat := 8192

/-- The exponents of the smallest and the largest legal block size, 64 and 8192 (R6, R345). -/
abbrev Config.minBlockExp : Nat := 6
abbrev Config.maxBlockExp : Nat := 13

/-- `N_PASSES`, the residue passes (R6). -/
abbrev Config.nPasses : Nat := 8

/-- `MAX_CW_LEN`, the longest codeword (R6). -/
abbrev Config.maxCwLen : Nat := 32

/-- `MAX_CODEBOOKS`: codebook slots (R6). -/
abbrev Config.maxCodebooks : Nat := 256

/-- `MAX_FLOORS`, `MAX_RESIDUES`, `MAX_MAPPINGS`, `MAX_MODES`: slots of each of the other tables (R6). -/
abbrev Config.maxTables : Nat := 64

/-- `FLOOR_MAX_VALUES`, the longest floor X list (R6). -/
abbrev Config.floorMaxValues : Nat := 65

/-- `INV_DB_LEN` (R6). -/
abbrev Config.invDbLen : Nat := 256

/-- OPEN parameter behind `MAX_CHANNELS`, one less than it (R6, D35; log 15). -/
opaque Config.maxChannelsLessOne : Fin 255

/-- `MAX_CHANNELS`, the channel count the buffers are built for: OPEN in 1..255 (R6). -/
def Config.maxChannels : Nat := Config.maxChannelsLessOne.val + 1

/-- FREE VALUE: what `CMD` holds after an abort (60_exceptions R401, U26) or after `CLOSE` (46_frame_output R385; log 29). -/
opaque Config.freeCmd : Nat → BitVec 8

/-- FREE VALUE: what `FLOOR_Y` holds once a `DECODE` has ended (10_state R61: it does not survive; log 31). -/
opaque Config.freeFloorY : Nat → List (List (BitVec 16))

/-- OPEN parameter `INV_DB`: the 256-entry inverse-dB ROM (10_state R52, 42_floor R258, D19; log 10). -/
opaque Config.invDb : BitVec 8 → F32

/-- OPEN parameter `WIN`, the rising half: block size, index (46_frame_output R350, D28; log 11). -/
opaque Config.winCur : Nat → Nat → F32

/-- OPEN parameter `WIN`, the falling half: block size, index (R350, D28; log 11). -/
opaque Config.winPrev : Nat → Nat → F32

/-- OPEN parameters `TW_A`, `TW_B`, `TW_C`: the twiddle tables of a block size; the source gives neither contents nor exact sizes
(45_imdct R322, D27; log 12). -/
opaque Config.twA : Nat → List F32
opaque Config.twB : Nat → List F32
opaque Config.twC : Nat → List F32

/-- OPEN parameter `BITREV`: block size, index below `n/8` (45_imdct R323; log 12). -/
opaque Config.bitrev : Nat → Nat → Nat

/-- OPEN parameter behind `IMDCT_FN`: block size, input, output index, for an input that is not all zeros (45_imdct R325, R329; log 13). -/
opaque Config.imdctBin : Nat → List F32 → Nat → F32

/-- OPEN: whether the zero at an output index of an all-zero transform is the negative zero (45_imdct R328 leaves the sign open; log 13). -/
opaque Config.imdctZeroNegative : Nat → List F32 → Nat → Bool

/-- The three binary32 operations of 00_scope R12 that can give a NaN. -/
inductive NumOp where
  | add
  | sub
  | mul
deriving DecidableEq, Repr

/-- FREE VALUE: sign and payload (23 bits) of the quiet NaN an operation gives on two operands; R12 names the operations IEEE's and states no
NaN's bits (log 14). -/
opaque Config.nanBits : NumOp → F32 → F32 → BitVec 23

end Sys2Proof
end

