-- ==== Sys2Proof/Machine/Num.lean ====
section
/-! DEFINITION. The sample numbers of 00_scope R12: IEEE 754 binary32, round to nearest, ties to even. Every finite number is an integer
multiple of 2^-149, so each operation is computed exactly in integers and rounded once. -/

namespace Sys2Proof.Machine

/-- The sign bit. -/
def f32Neg (a : F32) : Bool := a.getLsbD 31

/-- The word without its sign bit; on numbers that are no NaN it orders the magnitudes, infinity included. -/
def f32Mag (a : F32) : Nat := a.toNat % 2 ^ 31

/-- The magnitude word of infinity. -/
def f32InfMag : Nat := 0x7F800000

def f32IsNaN (a : F32) : Bool := f32InfMag < f32Mag a

def f32IsInf (a : F32) : Bool := f32Mag a = f32InfMag

/-- Zero of either sign. -/
def f32IsZero (a : F32) : Bool := f32Mag a = 0

/-- A word from a sign and a magnitude. -/
def f32Of (neg : Bool) (mag : Nat) : F32 := BitVec.ofNat 32 ((if neg then 2 ^ 31 else 0) + mag)

def f32Zero : F32 := 0#32

/-- A finite number's magnitude in units of 2^-149. -/
def f32UnitsMag (a : F32) : Nat :=
  let e := f32Mag a / 2 ^ 23
  let f := f32Mag a % 2 ^ 23
  if e = 0 then f else (2 ^ 23 + f) * 2 ^ (e - 1)

/-- A finite number in units of 2^-149. -/
def f32Units (a : F32) : Int := if f32Neg a then -(f32UnitsMag a : Int) else f32UnitsMag a

/-- Number of bits of `m`. -/
def bitLength (m : Nat) : Nat := if m = 0 then 0 else Nat.log2 m + 1

/-- `m / 2^d` rounded to an integer, to nearest, ties to even. -/
def roundShift (m d : Nat) : Nat :=
  let q := m / 2 ^ d
  let r := m % 2 ^ d
  if 2 ^ d < 2 * r ∨ (2 * r = 2 ^ d ∧ q % 2 = 1) then q + 1 else q

/-- The binary32 number nearest to `m * 2^-(149 + e)`, ties to even, with the given sign: 24 significant bits are kept, fewer where the result is
subnormal, and a magnitude beyond the format is an infinity (00_scope R12). -/
def f32Round (neg : Bool) (m e : Nat) : F32 :=
  let drop := max e (bitLength m - 24)
  let q := roundShift m drop
  f32Of neg (min ((drop - e) * 2 ^ 23 + q) f32InfMag)

/-- A quiet NaN with the given sign and payload. -/
def f32QuietNaN (bits : BitVec 23) : F32 :=
  f32Of (bits.getLsbD 22) (f32InfMag + 2 ^ 22 + bits.toNat % 2 ^ 22)

/-- The NaN that an operation gives: its bits are free (log 14). -/
def f32NaN (op : NumOp) (a b : F32) : F32 := f32QuietNaN (Config.nanBits op a b)

/-- The number with its sign changed. -/
def f32Negate (a : F32) : F32 := f32Of (!f32Neg a) (f32Mag a)

/-- `a + b'` where neither is a NaN; `nan` is what an invalid sum of infinities gives. -/
def f32Sum (nan a b : F32) : F32 :=
  if f32IsInf a then
    if f32IsInf b && (f32Neg a != f32Neg b) then nan else a
  else if f32IsInf b then b
  else
    let t := f32Units a + f32Units b
    if t = 0 then f32Of (f32Neg a && f32Neg b) 0 else f32Round (t < 0) t.natAbs 0

/-- `fadd(a, b)` (00_scope R12). -/
def fadd (a b : F32) : F32 :=
  if f32IsNaN a || f32IsNaN b then f32NaN .add a b else f32Sum (f32NaN .add a b) a b

/-- `fsub(a, b)` (00_scope R12). -/
def fsub (a b : F32) : F32 :=
  if f32IsNaN a || f32IsNaN b then f32NaN .sub a b else f32Sum (f32NaN .sub a b) a (f32Negate b)

/-- `fmul(a, b)` (00_scope R12). -/
def fmul (a b : F32) : F32 :=
  let neg := f32Neg a != f32Neg b
  if f32IsNaN a || f32IsNaN b then f32NaN .mul a b
  else if f32IsInf a || f32IsInf b then
    if f32IsZero a || f32IsZero b then f32NaN .mul a b else f32Of neg f32InfMag
  else f32Round neg (f32UnitsMag a * f32UnitsMag b) 149

/-- `f32_of_int(i)` (00_scope R12). -/
def f32OfInt (i : Int) : F32 := f32Round (i < 0) (i.natAbs * 2 ^ 149) 0

/-- A number that is no NaN as an integer that orders it, zeros of either sign alike. -/
def f32Key (a : F32) : Int := if f32Neg a then -(f32Mag a : Int) else f32Mag a

/-- IEEE `a < b`: false when an operand is a NaN (00_scope R12). -/
def f32Lt (a b : F32) : Bool := !f32IsNaN a && !f32IsNaN b && f32Key a < f32Key b

/-- A finite number truncated toward zero. -/
def f32Trunc (a : F32) : Int := (f32Units a).tdiv (2 ^ 149)

/-- 1.0 -/
def f32One : F32 := 0x3F800000#32

/-- -1.0 -/
def f32MinusOne : F32 := 0xBF800000#32

/-- 32767.0, `PCM_SCALE` (00_scope R6). -/
def f32PcmScale : F32 := 0x46FFFE00#32

end Sys2Proof.Machine
end

