-- ==== Sys2Proof/Syntax.lean ====
section
/-! DEFINITION. The instructions: one constructor per row of spec/opcode_table.json, with the operands that its rule names. -/

namespace Sys2Proof

/-- The terminal answer of a byte source (20_memory R80). -/
inductive Terminal where
  | endOfStream
  | ioError
deriving DecidableEq, Repr, Inhabited

/-- The byte source as the oracle of 20_memory R80 and D3: the bytes still to come, then one answer repeated for ever. -/
structure ByteSource where
  bytes : List Byte
  terminal : Terminal
deriving DecidableEq, Repr, Inhabited

/-- The buffers a vector decode may add into: the spectral vector of a channel in the current bank, or the interleave buffer (43_residue R287). -/
inductive BufRef where
  | cur (ch : Nat)
  | interleave
deriving DecidableEq, Repr, Inhabited

/-- A vector of `size` numbers inside a buffer (43_residue R282). -/
structure Vec where
  ref : BufRef
  size : Nat
deriving DecidableEq, Repr, Inhabited

/-- One constructor per row of spec/opcode_table.json: five host commands (30_encoding R111), twenty-five micro-operations (R137) and
twenty-seven stream selector values (R132). Operands are the ones the row's rule names; none of them has bits in the word. -/
inductive Instr where
  -- host commands
  | cmdOpen (src : ByteSource)
  | cmdSetup
  | cmdDecode
  | cmdOutput (cap : Nat)
  | cmdClose
  -- the Bit Reader
  | rdbits (n : Nat)
  | rdbit
  | tryrd (n : Nat)
  | align
  | rdu8
  | rdexact (n : Nat)
  -- the Codebook unit
  | cbSetup (c : Nat)
  | cbScalar (c : Nat)
  | cbVector (c : Nat) (buf : Vec) (base stride : Nat)
  -- the Floor unit
  | flSetup (f : Nat)
  | flDecode (ch f : Nat)
  | flSynth (ch f n : Nat)
  -- the Residue unit
  | rsSetup (r : Nat)
  | rsDecode (r : Nat) (chans : List Nat) (n : Nat)
  -- Mapping and Mode
  | mapSetup (m : Nat)
  | modeSetup (k : Nat)
  -- the IMDCT unit; `b` is the block-size selector, false short and true long
  | imdctInit (b : Bool)
  | imdct (b : Bool) (ch : Nat)
  -- the Frame Orchestrator and Output
  | hdrTag (t : Byte)
  | hdrIdent
  | hdrComment
  | hdrSetup
  | winInit (b : Bool)
  | decouple (m n : Nat)
  | pcmOut (x : F32)
  -- stream selectors; `t` is the header type expected, `sync` the six bytes after the type byte
  | hdrTypeIdent (t : Byte) (sync : List Byte)
  | hdrTypeComment (t : Byte) (sync : List Byte)
  | hdrTypeSetup (t : Byte) (sync : List Byte)
  | cbLenExplicit (c : Nat)
  | cbLenRunLength (c : Nat)
  | cbDense (c : Nat)
  | cbSparse (c : Nat)
  | cbLookupNone (c : Nat)
  | cbLookupLattice (c : Nat)
  | cbLookupExplicit (c : Nat)
  | cbSeqOff (c : Nat)
  | cbSeqOn (c : Nat)
  | floorType1 (f : Nat)
  | residueType0 (r : Nat)
  | residueType1 (r : Nat)
  | residueType2 (r : Nat)
  | mappingType0 (m : Nat)
  | mapSubmapsAbsent (m : Nat)
  | mapSubmapsPresent (m : Nat)
  | mapCouplingAbsent (m : Nat)
  | mapCouplingPresent (m : Nat)
  | modeShort (k : Nat)
  | modeLong (k : Nat)
  | packetAudio
  | packetNonAudio
  | floorSilent (ch f : Nat)
  | floorEnergy (ch f : Nat)
deriving DecidableEq, Repr

end Sys2Proof
end

