-- ==== Sys2Proof/Decode.lean ====
section
/-! DEFINITION. Decoding and encoding. A word is read on the port it stands on: the host's `CMD` port (30_encoding R111), the sequencer's
micro-operation enumeration (R137), or one of the stream's selector fields (R132). Operands stand beside the word (R111: "operands supplied
beside the word"), because no row of the table gives an operand a bit. -/

namespace Sys2Proof

/-- What a word is the contents of. The selector fields are those of 30_encoding R132, in its order. -/
inductive Port where
  | cmd
  | micro
  | hdrType
  | ordered
  | sparse
  | lookupType
  | seq
  | floorType
  | residueType
  | mappingType
  | submapsFlag
  | couplingFlag
  | blockFlag
  | packetType
  | hasEnergy
deriving DecidableEq, Repr, Inhabited

/-- Width of the word on a port, in bits (30_encoding R111, R114, R118 to R129; D2 for the enumeration numbers). -/
def Port.width : Port → Nat
  | .cmd | .micro | .hdrType => 8
  | .lookupType => 4
  | .floorType | .residueType | .mappingType => 16
  | .ordered | .sparse | .seq | .submapsFlag | .couplingFlag | .blockFlag | .packetType | .hasEnergy => 1

/-- What stands beside the word: a byte source for `OPEN`, numbers for everything else (log 19). -/
structure Operands where
  src : ByteSource
  args : List Nat
deriving DecidableEq, Repr, Inhabited

/-- Operand `k`; one that is not given is zero. -/
def Operands.arg (o : Operands) (k : Nat) : Nat := o.args.getD k 0

/-- Operand `k` as a byte; of a wider number the low byte counts, the model's choice (log 37). -/
def Operands.byte (o : Operands) (k : Nat) : Byte := BitVec.ofNat 8 (o.arg k)

/-- Operand `k` as a block-size selector, which R321, R325 and R350 give as 0 or 1: 0 is short, and that any other number is long is the model's choice (log 37). -/
def Operands.flag (o : Operands) (k : Nat) : Bool := o.arg k != 0

/-- One request: a word on a port, with its operands. -/
structure Fetch where
  port : Port
  word : BitVec 16
  ops : Operands
deriving DecidableEq, Repr, Inhabited

/-- Why a word is no instruction, by name. -/
inductive DecodeError where
  /-- a reserved `CMD` value, 0x05 to 0xFF (30_encoding R111) -/
  | badCmd
  /-- a header type byte other than 0x01, 0x03, 0x05 (R114) -/
  | headerType
  /-- `LOOKUP_TYPE` 3 to 15 (R121) -/
  | lookupType
  /-- a floor type other than 1 (R124) -/
  | floorType
  /-- a residue type above 2 (R125) -/
  | residueType
  /-- a mapping type other than 0 (R126) -/
  | mappingType
  /-- a word that the port cannot hold, or an enumeration number that no micro-operation has (R137) -/
  | noSuchWord
deriving DecidableEq, Repr

/-- A buffer operand: 0 and a channel, or 1 for the interleave buffer; then its size. That any number but 0 stands for the interleave buffer is the model's choice
(log 19, log 37). -/
def Operands.vec (o : Operands) (k : Nat) : Vec :=
  { ref := if o.arg k = 0 then .cur (o.arg (k + 1)) else .interleave, size := o.arg (k + 2) }

/-- The operands that `Operands.vec` reads back. -/
def Vec.args (v : Vec) : List Nat :=
  match v.ref with
  | .cur ch => [0, ch, v.size]
  | .interleave => [1, 0, v.size]

/-- The `CMD` word (30_encoding R111). -/
def decodeCmd (w : Nat) (o : Operands) : Except DecodeError Instr :=
  match w with
  | 0x00 => .ok (.cmdOpen o.src)
  | 0x01 => .ok .cmdSetup
  | 0x02 => .ok .cmdDecode
  | 0x03 => .ok (.cmdOutput (o.arg 0))
  | 0x04 => .ok .cmdClose
  | _ => if w < 256 then .error .badCmd else .error .noSuchWord

/-- The enumeration number of a micro-operation (30_encoding R137, D2, opcode_table.json). -/
def decodeMicro (w : Nat) (o : Operands) : Except DecodeError Instr :=
  match w with
  | 0x10 => .ok (.rdbits (o.arg 0))
  | 0x11 => .ok .rdbit
  | 0x12 => .ok (.tryrd (o.arg 0))
  | 0x13 => .ok .align
  | 0x14 => .ok .rdu8
  | 0x15 => .ok (.rdexact (o.arg 0))
  | 0x16 => .ok (.cbSetup (o.arg 0))
  | 0x17 => .ok (.cbScalar (o.arg 0))
  | 0x18 => .ok (.cbVector (o.arg 0) (o.vec 1) (o.arg 4) (o.arg 5))
  | 0x19 => .ok (.flSetup (o.arg 0))
  | 0x1A => .ok (.flDecode (o.arg 0) (o.arg 1))
  | 0x1B => .ok (.flSynth (o.arg 0) (o.arg 1) (o.arg 2))
  | 0x1C => .ok (.rsSetup (o.arg 0))
  | 0x1D => .ok (.rsDecode (o.arg 0) (o.args.drop 2) (o.arg 1))
  | 0x1E => .ok (.mapSetup (o.arg 0))
  | 0x1F => .ok (.modeSetup (o.arg 0))
  | 0x20 => .ok (.imdctInit (o.flag 0))
  | 0x21 => .ok (.imdct (o.flag 0) (o.arg 1))
  | 0x22 => .ok (.hdrTag (o.byte 0))
  | 0x23 => .ok .hdrIdent
  | 0x24 => .ok .hdrComment
  | 0x25 => .ok .hdrSetup
  | 0x26 => .ok (.winInit (o.flag 0))
  | 0x27 => .ok (.decouple (o.arg 0) (o.arg 1))
  | 0x28 => .ok (.pcmOut (BitVec.ofNat 32 (o.arg 0)))
  | _ => .error .noSuchWord

/-- The header type byte (30_encoding R114). -/
def decodeHdrType (w : Nat) (o : Operands) : Except DecodeError Instr :=
  let sync := (o.args.drop 1).map (BitVec.ofNat 8)
  match w with
  | 0x01 => .ok (.hdrTypeIdent (o.byte 0) sync)
  | 0x03 => .ok (.hdrTypeComment (o.byte 0) sync)
  | 0x05 => .ok (.hdrTypeSetup (o.byte 0) sync)
  | _ => if w < 256 then .error .headerType else .error .noSuchWord

/-- A one-bit selector field. -/
def decodeFlag (w : Nat) (zero one : Instr) : Except DecodeError Instr :=
  match w with
  | 0 => .ok zero
  | 1 => .ok one
  | _ => .error .noSuchWord

/-- `LOOKUP_TYPE` (30_encoding R121). -/
def decodeLookupType (w : Nat) (o : Operands) : Except DecodeError Instr :=
  match w with
  | 0 => .ok (.cbLookupNone (o.arg 0))
  | 1 => .ok (.cbLookupLattice (o.arg 0))
  | 2 => .ok (.cbLookupExplicit (o.arg 0))
  | _ => if w < 16 then .error .lookupType else .error .noSuchWord

/-- `residue_type` (30_encoding R125). -/
def decodeResidueType (w : Nat) (o : Operands) : Except DecodeError Instr :=
  match w with
  | 0 => .ok (.residueType0 (o.arg 0))
  | 1 => .ok (.residueType1 (o.arg 0))
  | 2 => .ok (.residueType2 (o.arg 0))
  | _ => .error .residueType

/-- The decoder: total, by port. -/
def decode (f : Fetch) : Except DecodeError Instr :=
  let w := f.word.toNat
  let o := f.ops
  match f.port with
  | .cmd => decodeCmd w o
  | .micro => decodeMicro w o
  | .hdrType => decodeHdrType w o
  | .ordered => decodeFlag w (.cbLenExplicit (o.arg 0)) (.cbLenRunLength (o.arg 0))
  | .sparse => decodeFlag w (.cbDense (o.arg 0)) (.cbSparse (o.arg 0))
  | .lookupType => decodeLookupType w o
  | .seq => decodeFlag w (.cbSeqOff (o.arg 0)) (.cbSeqOn (o.arg 0))
  | .floorType => if w = 1 then .ok (.floorType1 (o.arg 0)) else .error .floorType
  | .residueType => decodeResidueType w o
  | .mappingType => if w = 0 then .ok (.mappingType0 (o.arg 0)) else .error .mappingType
  | .submapsFlag => decodeFlag w (.mapSubmapsAbsent (o.arg 0)) (.mapSubmapsPresent (o.arg 0))
  | .couplingFlag => decodeFlag w (.mapCouplingAbsent (o.arg 0)) (.mapCouplingPresent (o.arg 0))
  | .blockFlag => decodeFlag w (.modeShort (o.arg 0)) (.modeLong (o.arg 0))
  | .packetType => decodeFlag w .packetAudio .packetNonAudio
  | .hasEnergy => decodeFlag w (.floorSilent (o.arg 0) (o.arg 1)) (.floorEnergy (o.arg 0) (o.arg 1))

/-- A block-size selector as an operand. -/
def flagArg (b : Bool) : Nat := if b then 1 else 0

/-- A request with numbers beside the word. -/
def Fetch.withArgs (port : Port) (word : BitVec 16) (args : List Nat) : Fetch :=
  { port := port, word := word, ops := { src := default, args := args } }

/-- The encoder, written from 30_encoding R111, R132 and the enumeration numbers of opcode_table.json. -/
def encode : Instr → Fetch
  | .cmdOpen src => { port := .cmd, word := 0x00#16, ops := { src := src, args := [] } }
  | .cmdSetup => .withArgs .cmd 0x01#16 []
  | .cmdDecode => .withArgs .cmd 0x02#16 []
  | .cmdOutput cap => .withArgs .cmd 0x03#16 [cap]
  | .cmdClose => .withArgs .cmd 0x04#16 []
  | .rdbits n => .withArgs .micro 0x10#16 [n]
  | .rdbit => .withArgs .micro 0x11#16 []
  | .tryrd n => .withArgs .micro 0x12#16 [n]
  | .align => .withArgs .micro 0x13#16 []
  | .rdu8 => .withArgs .micro 0x14#16 []
  | .rdexact n => .withArgs .micro 0x15#16 [n]
  | .cbSetup c => .withArgs .micro 0x16#16 [c]
  | .cbScalar c => .withArgs .micro 0x17#16 [c]
  | .cbVector c buf base stride => .withArgs .micro 0x18#16 (c :: buf.args ++ [base, stride])
  | .flSetup f => .withArgs .micro 0x19#16 [f]
  | .flDecode ch f => .withArgs .micro 0x1A#16 [ch, f]
  | .flSynth ch f n => .withArgs .micro 0x1B#16 [ch, f, n]
  | .rsSetup r => .withArgs .micro 0x1C#16 [r]
  | .rsDecode r chans n => .withArgs .micro 0x1D#16 (r :: n :: chans)
  | .mapSetup m => .withArgs .micro 0x1E#16 [m]
  | .modeSetup k => .withArgs .micro 0x1F#16 [k]
  | .imdctInit b => .withArgs .micro 0x20#16 [flagArg b]
  | .imdct b ch => .withArgs .micro 0x21#16 [flagArg b, ch]
  | .hdrTag t => .withArgs .micro 0x22#16 [t.toNat]
  | .hdrIdent => .withArgs .micro 0x23#16 []
  | .hdrComment => .withArgs .micro 0x24#16 []
  | .hdrSetup => .withArgs .micro 0x25#16 []
  | .winInit b => .withArgs .micro 0x26#16 [flagArg b]
  | .decouple m n => .withArgs .micro 0x27#16 [m, n]
  | .pcmOut x => .withArgs .micro 0x28#16 [x.toNat]
  | .hdrTypeIdent t sync => .withArgs .hdrType 0x01#16 (t.toNat :: sync.map BitVec.toNat)
  | .hdrTypeComment t sync => .withArgs .hdrType 0x03#16 (t.toNat :: sync.map BitVec.toNat)
  | .hdrTypeSetup t sync => .withArgs .hdrType 0x05#16 (t.toNat :: sync.map BitVec.toNat)
  | .cbLenExplicit c => .withArgs .ordered 0#16 [c]
  | .cbLenRunLength c => .withArgs .ordered 1#16 [c]
  | .cbDense c => .withArgs .sparse 0#16 [c]
  | .cbSparse c => .withArgs .sparse 1#16 [c]
  | .cbLookupNone c => .withArgs .lookupType 0#16 [c]
  | .cbLookupLattice c => .withArgs .lookupType 1#16 [c]
  | .cbLookupExplicit c => .withArgs .lookupType 2#16 [c]
  | .cbSeqOff c => .withArgs .seq 0#16 [c]
  | .cbSeqOn c => .withArgs .seq 1#16 [c]
  | .floorType1 f => .withArgs .floorType 1#16 [f]
  | .residueType0 r => .withArgs .residueType 0#16 [r]
  | .residueType1 r => .withArgs .residueType 1#16 [r]
  | .residueType2 r => .withArgs .residueType 2#16 [r]
  | .mappingType0 m => .withArgs .mappingType 0#16 [m]
  | .mapSubmapsAbsent m => .withArgs .submapsFlag 0#16 [m]
  | .mapSubmapsPresent m => .withArgs .submapsFlag 1#16 [m]
  | .mapCouplingAbsent m => .withArgs .couplingFlag 0#16 [m]
  | .mapCouplingPresent m => .withArgs .couplingFlag 1#16 [m]
  | .modeShort k => .withArgs .blockFlag 0#16 [k]
  | .modeLong k => .withArgs .blockFlag 1#16 [k]
  | .packetAudio => .withArgs .packetType 0#16 []
  | .packetNonAudio => .withArgs .packetType 1#16 []
  | .floorSilent ch f => .withArgs .hasEnergy 0#16 [ch, f]
  | .floorEnergy ch f => .withArgs .hasEnergy 1#16 [ch, f]

/-- The ports, in the order in which a bare word of the opcode table is tried on them (log 19). -/
def tablePorts : List Port :=
  [.cmd, .micro, .hdrType, .lookupType, .ordered, .sparse, .seq, .submapsFlag, .couplingFlag, .blockFlag, .packetType, .hasEnergy,
    .floorType, .residueType, .mappingType]

/-- Whether a row of `nbits` bits can be a word of the port: the port's width, or that width in whole bytes. -/
def Port.fits (p : Port) (nbits : Nat) : Bool := p.width = nbits || (p.width + 7) / 8 * 8 = nbits

/-- The first of some ports on which the word is an instruction, as the request that holds it, with operands zero. -/
def tableFetchOn (w : BitVec 16) : List Port → Option Fetch
  | [] => none
  | p :: rest =>
    match decode { port := p, word := w, ops := default } with
    | .ok _ => some { port := p, word := w, ops := default }
    | .error _ => tableFetchOn w rest

/-- The request that a bare word of the opcode table stands for. -/
def tableFetch (nbits w : Nat) : Option Fetch :=
  tableFetchOn (BitVec.ofNat 16 w) (tablePorts.filter fun p => p.fits nbits)

/-- The request for a bare word: the one that it stands for, or else the word on the command port. -/
def tableRequest (nbits w : Nat) : Fetch :=
  match tableFetch nbits w with
  | some f => f
  | none => { port := .cmd, word := BitVec.ofNat 16 w, ops := default }

/-- The instruction read from a bare word of the opcode table, operands zero. -/
def decodeTableWord (nbits w : Nat) : Option Instr :=
  match tableFetch nbits w with
  | some f => (decode f).toOption
  | none => none

end Sys2Proof
end

