-- ==== Sys2Proof/Machine/State.lean ====
section
/-! DEFINITION. The state of the block as plain data (10_state), the reasons a step can stop, and the state after power-on (10_state R70). -/

namespace Sys2Proof.Machine

/-- `STATE`, the top-level state machine (10_state R31). -/
inductive Phase where
  | closed
  | uninit
  | hdrs
  | ready
  | ended
  | failed
deriving DecidableEq, Repr, Inhabited

/-- `ERR.class` (60_exceptions R391). -/
inductive ErrClass where
  | none
  | streamFormatError
  | endOfStream
  | ioError
deriving DecidableEq, Repr, Inhabited

/-- `ERR` (10_state R32). -/
structure Err where
  cls : ErrClass
  cause : BitVec 8
deriving DecidableEq, Repr, Inhabited

/-- `ACC` and `NBITS` (10_state R41). -/
structure BitReader where
  acc : BitVec 32
  nbits : Nat
deriving DecidableEq, Repr, Inhabited

/-- What the identification header leaves: `CHANNELS`, `SAMPLE_RATE`, `BS_EXP0`, `BS_EXP1` (10_state R33, R34). -/
structure StreamRegs where
  channels : Nat
  sampleRate : BitVec 32
  bsExp0 : Nat
  bsExp1 : Nat
deriving DecidableEq, Repr, Inhabited

/-- The table counts and `MODE_BITS` (10_state R37). -/
structure Counts where
  nCodebooks : Nat
  nFloors : Nat
  nResidues : Nat
  nMappings : Nat
  nModes : Nat
  modeBits : Nat
deriving DecidableEq, Repr, Inhabited

/-- `CUR_BLOCK`, `PREV_BLOCK`, `CUR_FLAG`, `CURSEL`, `FRAME_PENDING`, `OUT_COUNT` (10_state R35, R36, R60). -/
structure FrameRegs where
  curBlock : Nat
  prevBlock : Nat
  curFlag : Bool
  curSel : Bool
  framePending : Bool
  outCount : BitVec 32
deriving DecidableEq, Repr, Inhabited

/-- One codeword: its length, its bits right-aligned, and the entry it stands for (10_state R44: "a model may store (length, codeword, entry)
triples"; log 16). -/
structure Code where
  len : Nat
  cw : BitVec 32
  entry : Nat
deriving DecidableEq, Repr, Inhabited

/-- `CB[c]` (10_state R43 to R45); `codes` is in storage order, by length and then in the order of assignment. -/
structure Codebook where
  dim : Nat
  entries : Nat
  codes : List Code
  lookupType : Nat
  minVal : F32
  delta : F32
  seq : Bool
  valueBits : Nat
  lookupValues : Nat
  mult : List Nat
deriving DecidableEq, Repr, Inhabited

/-- One class of a floor: `CLASS_DIM`, `CLASS_SUBEXP`, `CLASS_MASTER`, `SUBBOOK` (10_state R46); `none` is "no book". -/
structure FloorClass where
  dim : Nat
  subexp : Nat
  master : Nat
  subbook : List (Option Nat)
deriving DecidableEq, Repr, Inhabited

/-- `FL[f]` (10_state R46, R47). `NCLASSES` is the length of `classes`, `NVALUES` the length of `xs`. -/
structure Floor where
  partitions : Nat
  partClass : List Nat
  classes : List FloorClass
  mult : Nat
  range : Nat
  rangebits : Nat
  xs : List Nat
  sort : List Nat
deriving DecidableEq, Repr, Inhabited

/-- `RS[r]` (10_state R48); in `books`, `none` is "no book". -/
structure Residue where
  rtype : Nat
  beginPos : Nat
  endPos : Nat
  partSize : Nat
  nclass : Nat
  classbook : Nat
  cascade : List Nat
  books : List (List (Option Nat))
deriving DecidableEq, Repr, Inhabited

/-- One coupling step: `MAG[s]`, `ANG[s]` (10_state R49). -/
structure CouplingStep where
  mag : Nat
  ang : Nat
deriving DecidableEq, Repr, Inhabited

/-- `MP[m]` (10_state R49). `STEPS` is the length of `steps`. -/
structure Mapping where
  submaps : Nat
  mux : List Nat
  steps : List CouplingStep
  subFloor : List Nat
  subResidue : List Nat
deriving DecidableEq, Repr, Inhabited

/-- `MD[k]` (10_state R50). -/
structure Mode where
  blockFlag : Bool
  mapping : Nat
deriving DecidableEq, Repr, Inhabited

/-- The setup tables `CB`, `FL`, `RS`, `MP`, `MD` (10_state R43 to R50). -/
structure Tables where
  cb : List Codebook
  fl : List Floor
  rs : List Residue
  mp : List Mapping
  md : List Mode
deriving DecidableEq, Repr, Inhabited

/-- The precomputed tables of one block size: `WIN_CUR`, `WIN_PREV`, `TW_A`, `TW_B`, `TW_C`, `BITREV` (10_state R53, R54). -/
structure BlockTables where
  winCur : List F32
  winPrev : List F32
  twA : List F32
  twB : List F32
  twC : List F32
  bitrev : List Nat
deriving DecidableEq, Repr, Inhabited

/-- The precomputed tables of the short and of the long block size. -/
structure Precomputed where
  short : BlockTables
  long : BlockTables
deriving DecidableEq, Repr, Inhabited

/-- The work state (10_state R60 to R67): banks, floor scratch, flags, interleave buffer, and the scratch of the micro-operations. An element that a
list does not reach holds the default of its type (log 26). -/
structure Work where
  /-- `BUF[0][ch][i]` -/
  buf0 : List (List F32)
  /-- `BUF[1][ch][i]` -/
  buf1 : List (List F32)
  /-- `FLOOR_Y[ch][i]` (R61, 42_floor R245; log 32) -/
  floorY : List (List Nat)
  /-- `HAS_ENERGY[ch]` -/
  hasEnergy : List Bool
  /-- `NEED_RESIDUE[ch]` -/
  needResidue : List Bool
  /-- `INTERLEAVE[i]` -/
  interleave : List F32
  /-- `CLASSIF[j][p]` -/
  classif : List (List Nat)
  /-- `DO_NOT_DECODE[j]` -/
  doNotDecode : List Bool
  /-- `FINAL_Y[i]` -/
  finalY : List Int
  /-- `STEP2[i]` -/
  step2 : List Bool
  /-- `LEN[e]` -/
  len : List Nat
  /-- `NEXT[d]`, element 0 unused -/
  nextFree : List (BitVec 32)
deriving DecidableEq, Repr, Inhabited

/-- The source's DecoderState (10_state R30): everything that one stream owns. -/
structure Decoder where
  bits : BitReader
  hdr : StreamRegs
  counts : Counts
  frame : FrameRegs
  tabs : Tables
  pre : Precomputed
  work : Work
deriving DecidableEq, Repr, Inhabited

end Sys2Proof.Machine

namespace Sys2Proof

/-- FREE VALUE: what a decoder's state holds after an abort (60_exceptions R401, U26) or after `CLOSE` (46_frame_output R385). Nothing constrains it (log 7). -/
opaque Config.freeDecoder : Nat → Machine.Decoder

/-- FREE VALUE: what `ERR` holds after `CLOSE` (46_frame_output R385; log 8). -/
opaque Config.freeErr : Nat → Machine.Err

/-- FREE VALUES: what the byte source still holds, and how many bytes were taken from it, after an abort (60_exceptions R401, U26; log 9). -/
opaque Config.freeSource : Nat → ByteSource
opaque Config.freeSrcPos : Nat → Nat

end Sys2Proof

namespace Sys2Proof.Machine

/-- What a micro-operation returned to the sequencer: the model's own latch (log 4). -/
inductive Result where
  /-- it returns nothing -/
  | none
  /-- an unsigned integer: `RDBITS`, `RDBIT`, `TRYRD`, `RDU8`, `CB_SCALAR` -/
  | value (v : Nat)
  /-- `TRYRD` met the end of the stream (40_bit_reader R176) -/
  | eos
  /-- `RDEXACT` -/
  | bytes (b : List Byte)
  /-- `PCM_OUT` -/
  | sample (v : Sample)
deriving DecidableEq, Repr, Inhabited

/-- The whole state: plain data. -/
structure State where
  /-- `STATE` -/
  phase : Phase
  /-- `ERR` -/
  err : Err
  /-- `CMD` -/
  cmd : BitVec 8
  /-- `RET`, the word the last command returned (30_encoding R112) -/
  ret : BitVec 12
  /-- the decoder that `OPEN` creates and `CLOSE` destroys -/
  dec : Decoder
  /-- the byte source's answers still to come (20_memory R80) -/
  src : ByteSource
  /-- `SRC_POS`, the bytes taken so far (10_state R40) -/
  srcPos : Nat
  /-- the samples in the host's output buffer, from position 0 (20_memory R88) -/
  out : List Sample
  /-- the requests to come: the model's own field (log 2) -/
  script : List Fetch
  /-- what the last micro-operation returned: the model's own field (log 4) -/
  result : Result
  /-- how many free values have been drawn: the model's own field (log 7) -/
  free : Nat
deriving DecidableEq, Repr

/-- The points where the source defines no behaviour and the model must stop (60_exceptions R408, 93_implementation_defined part 1). All are
safe: the hardware may go on, and the model says nothing. -/
inductive Fault where
  /-- U1: the identification header's version is not 0; raised by HDR_IDENT; safe -/
  | version
  /-- U2: more channels than `MAX_CHANNELS`; raised by HDR_IDENT; safe -/
  | tooManyChannels
  /-- U3: a sample rate of 0; raised by HDR_IDENT; safe -/
  | zeroSampleRate
  /-- U6: a run of codeword lengths passes `ENTRIES`; raised by the run-length list; safe -/
  | lengthRunPastEntries
  /-- U7: a codeword length above 32 with entries to assign; raised by the run-length list; safe -/
  | lengthAbove32
  /-- U8: `LOOKUP_TYPE` 3 to 15; raised by CB_SETUP and by such a word on the lookup port; safe -/
  | lookupType
  /-- U9: a codebook of dimension 0 where a dimension is needed; raised by lookup type 1, CB_VECTOR, RS_SETUP, RS_DECODE; safe -/
  | zeroDim
  /-- U11: a floor's codebook number not below `N_CODEBOOKS`; raised by FL_SETUP; safe -/
  | floorBook
  /-- U12: a floor X list of more than 65 values; raised by FL_SETUP; safe -/
  | floorTooManyX
  /-- U13: two equal X values; raised by FL_SETUP, and by FL_SYNTH on such an entry; safe -/
  | floorEqualX
  /-- U14: an amplitude outside its range; raised by FL_SYNTH; safe -/
  | floorAmplitude
  /-- U15: a residue's codebook number not below `N_CODEBOOKS`; raised by RS_SETUP; safe -/
  | residueBook
  /-- U16: a codebook without lookup where a vector is decoded; raised by CB_VECTOR, and by RS_SETUP and its selectors for a residue that names one; safe -/
  | vectorWithoutLookup
  /-- U17: a vector decode that adds past its buffer; raised by CB_VECTOR; safe -/
  | vectorPastBuffer
  /-- U18: a residue with `BEGIN > END`; raised by RS_SETUP; safe -/
  | residueRange
  /-- U19: a mux value not below `SUBMAPS`; raised by MAP_SETUP; safe -/
  | muxRange
  /-- U20: a submap's floor or residue number outside its table; raised by MAP_SETUP; safe -/
  | submapEntry
  /-- U21: a coupling channel not below `CHANNELS`; raised by MAP_SETUP; safe -/
  | couplingChannel
  /-- U22: a mode's mapping number not below `N_MAPPINGS`; raised by MODE_SETUP; safe -/
  | modeMapping
  /-- U23: a packet's mode number not below `N_MODES`; raised by DECODE; safe -/
  | packetMode
  /-- U29: a NaN sample reaches the conversion; raised by OUTPUT and PCM_OUT; safe -/
  | nanSample
deriving DecidableEq, Repr

/-- Requests that the model's step does not accept. All are safe: nothing is claimed of what the hardware does with them. -/
inductive Refusal where
  /-- exec has no meaning for the instruction yet; raised by exec's arm; safe -/
  | notModelled (mnemonic : String)
  /-- U4: a bit read wider than 24 (40_bit_reader R173); raised by RDBITS and TRYRD; safe -/
  | readTooWide
  /-- U5: a byte-wise read with `NBITS` not 0 (20_memory R86); raised by RDU8, RDEXACT and what they are used in; safe -/
  | unalignedBytes
  /-- U24: the host's buffer is smaller than the count to be written (20_memory R88); raised by OUTPUT; safe -/
  | bufferTooSmall
  /-- an operand outside the range that the operation's rule gives it (20_memory R91; log 20); raised by micro-operations; safe -/
  | operandRange
  /-- a word that is no word of its port (30_encoding R137); raised by the step; safe -/
  | noSuchWord
deriving DecidableEq, Repr

/-- A bit reader that holds nothing. -/
def BitReader.empty : BitReader := { acc := 0#32, nbits := 0 }

/-- The work state of the power-on value (log 5): every element at the default of its type. -/
def Work.empty : Work :=
  { buf0 := [], buf1 := [], floorY := [], hasEnergy := [], needResidue := [], interleave := [], classif := [], doNotDecode := [],
    finalY := [], step2 := [], len := [], nextFree := [] }

/-- Tables with no entry. -/
def Tables.empty : Tables := { cb := [], fl := [], rs := [], mp := [], md := [] }

/-- Precomputed tables with no element. -/
def BlockTables.empty : BlockTables :=
  { winCur := [], winPrev := [], twA := [], twB := [], twC := [], bitrev := [] }

/-- The decoder state that `OPEN` creates (10_state R70, second column), which is also the value that the model gives the decoder at power-on
(log 5, log 6). -/
def Decoder.fresh : Decoder :=
  { bits := BitReader.empty
    hdr := { channels := 0, sampleRate := 0#32, bsExp0 := 0, bsExp1 := 0 }
    counts := { nCodebooks := 0, nFloors := 0, nResidues := 0, nMappings := 0, nModes := 0, modeBits := 0 }
    frame := { curBlock := 0, prevBlock := 0, curFlag := false, curSel := false, framePending := false, outCount := 0#32 }
    tabs := Tables.empty
    pre := { short := BlockTables.empty, long := BlockTables.empty }
    work := Work.empty }

/-- `ERR` = 0: class NONE, cause 0. -/
def Err.zero : Err := { cls := .none, cause := 0#8 }

/-- The machine after power-on: `STATE` is `CLOSED` (10_state R70, 70_reset R430); the other values are the model's (log 5). -/
def State.reset : State :=
  { phase := .closed
    err := Err.zero
    cmd := 0#8
    ret := 0#12
    dec := Decoder.fresh
    src := { bytes := [], terminal := .endOfStream }
    srcPos := 0
    out := []
    script := []
    result := .none
    free := 0 }

end Sys2Proof.Machine
end

