-- ==== Sys2Proof/Machine/Ops.lean ====
section
/-! DEFINITION. The named operations over the state: arrays, the sequencer's monad, the byte source, raising an error (60_exceptions R400), and
completing and refusing a command (30_encoding R112, 60_exceptions R407). -/

namespace Sys2Proof.Machine

-- arrays by index (20_memory R90)

/-- Element `i` of an array; one that the list does not reach has the default (log 26). -/
def aget {α : Type} [Inhabited α] (l : List α) (i : Nat) : α := l.getD i default

/-- The array with element `i` replaced. -/
def aset {α : Type} [Inhabited α] : List α → Nat → α → List α
  | [], 0, v => [v]
  | [], i + 1, v => default :: aset [] i v
  | _ :: xs, 0, v => v :: xs
  | x :: xs, i + 1, v => x :: aset xs i v

/-- Elements `0..n-1` of an array. -/
def atake {α : Type} [Inhabited α] : Nat → List α → List α
  | 0, _ => []
  | n + 1, [] => default :: atake n []
  | n + 1, x :: xs => x :: atake n xs

/-- The array with its first elements replaced by `new`; the elements after them stay. -/
def overlay {α : Type} (new old : List α) : List α := new ++ old.drop new.length

-- errors

/-- The causes that the rules raise (60_exceptions R392 to R394). -/
inductive Cause where
  | badSync
  | badHeaderTag
  | nonAudioPacket
  | reservedBits
  | unsupportedFloorType
  | unsupportedResidueType
  | unsupportedMappingType
  | badBlockSize
  | badCoupling
  | oversubscribed
  | badChannels
  | noCodeword
  | badFraming
  | cleanEnd
  | truncated
  | source
deriving DecidableEq, Repr

/-- Class and cause code (60_exceptions R392, R393, R394). -/
def Cause.err : Cause → Err
  | .badSync => { cls := .streamFormatError, cause := 1#8 }
  | .badHeaderTag => { cls := .streamFormatError, cause := 2#8 }
  | .nonAudioPacket => { cls := .streamFormatError, cause := 3#8 }
  | .reservedBits => { cls := .streamFormatError, cause := 4#8 }
  | .unsupportedFloorType => { cls := .streamFormatError, cause := 5#8 }
  | .unsupportedResidueType => { cls := .streamFormatError, cause := 6#8 }
  | .unsupportedMappingType => { cls := .streamFormatError, cause := 7#8 }
  | .badBlockSize => { cls := .streamFormatError, cause := 8#8 }
  | .badCoupling => { cls := .streamFormatError, cause := 9#8 }
  | .oversubscribed => { cls := .streamFormatError, cause := 10#8 }
  | .badChannels => { cls := .streamFormatError, cause := 11#8 }
  | .noCodeword => { cls := .streamFormatError, cause := 12#8 }
  | .badFraming => { cls := .streamFormatError, cause := 13#8 }
  | .cleanEnd => { cls := .endOfStream, cause := 1#8 }
  | .truncated => { cls := .endOfStream, cause := 2#8 }
  | .source => { cls := .ioError, cause := 1#8 }

/-- The number of a class (60_exceptions R391). -/
def ErrClass.code : ErrClass → BitVec 2
  | .none => 0#2
  | .streamFormatError => 1#2
  | .endOfStream => 2#2
  | .ioError => 3#2

/-- `ERR` as its 10 bits (10_state R32). -/
def Err.word (e : Err) : BitVec 10 := e.cls.code ++ e.cause

/-- The number of a top-level state (10_state R31). -/
def Phase.code : Phase → BitVec 3
  | .closed => 0#3
  | .uninit => 1#3
  | .hdrs => 2#3
  | .ready => 3#3
  | .ended => 4#3
  | .failed => 5#3

/-- Why a command is refused (30_encoding R112). -/
inductive Reason where
  | badState
  | badCmd
deriving DecidableEq, Repr

/-- `RET` of a command that ran: `REFUSED` 0, `REASON` 0, then `ERR` (30_encoding R112). -/
def retDone (e : Err) : BitVec 12 := 0#2 ++ e.word

/-- `RET` of a refused command: `REFUSED` 1, `REASON`, then `ERR` (30_encoding R112). -/
def retRefused (r : Reason) (e : Err) : BitVec 12 :=
  (match r with
    | .badState => 2#2
    | .badCmd => 3#2) ++ e.word

-- updates of the state, one per part of it

def State.mapBits (f : BitReader → BitReader) (s : State) : State := { s with dec := { s.dec with bits := f s.dec.bits } }

def State.mapHdr (f : StreamRegs → StreamRegs) (s : State) : State := { s with dec := { s.dec with hdr := f s.dec.hdr } }

def State.mapCounts (f : Counts → Counts) (s : State) : State := { s with dec := { s.dec with counts := f s.dec.counts } }

def State.mapFrame (f : FrameRegs → FrameRegs) (s : State) : State := { s with dec := { s.dec with frame := f s.dec.frame } }

def State.mapTabs (f : Tables → Tables) (s : State) : State := { s with dec := { s.dec with tabs := f s.dec.tabs } }

def State.mapPre (f : Precomputed → Precomputed) (s : State) : State := { s with dec := { s.dec with pre := f s.dec.pre } }

def State.mapWork (f : Work → Work) (s : State) : State := { s with dec := { s.dec with work := f s.dec.work } }

def State.setPhase (p : Phase) (s : State) : State := { s with phase := p }

def State.setOut (v : List Sample) (s : State) : State := { s with out := v }

def State.setResult (r : Result) (s : State) : State := { s with result := r }

/-- The byte source after `n` bytes of it were taken. -/
def State.dropBytes (n : Nat) (s : State) : State :=
  { s with src := { s.src with bytes := s.src.bytes.drop n }, srcPos := s.srcPos + n }

/-- Command completion (30_encoding R112): the return word is written. -/
def State.complete (s : State) : State := { s with ret := retDone s.err }

/-- Refusal of a command (60_exceptions R407): only the return word is written. -/
def State.refuse (r : Reason) (s : State) : State := { s with ret := retRefused r s.err }

/-- The decoder's state and `CMD` become unspecified (60_exceptions R401, 46_frame_output R385; log 7, log 29). -/
def State.scramble (s : State) : State :=
  { s with dec := Config.freeDecoder s.free, cmd := Config.freeCmd s.free, free := s.free + 1 }

/-- `FLOOR_Y` becomes unspecified: it does not survive a `DECODE` (10_state R61; log 31). -/
def State.dropFloorY (s : State) : State :=
  { s.mapWork (fun w => { w with floorY := (Config.freeFloorY s.free).map (List.map BitVec.toNat) }) with free := s.free + 1 }

/-- The byte source's position becomes unspecified (60_exceptions R401; log 9). -/
def State.loseSource (s : State) : State := { s with src := Config.freeSource s.free, srcPos := Config.freeSrcPos s.free }

/-- `raise` (60_exceptions R400): `ERR`, then `STATE`, then the command completes. After an abort the decoder's state, `CMD` and the source's position
are unspecified (R401); the clean end changes nothing else (R403). -/
def State.raise (c : Cause) (s : State) : State :=
  match c with
  | .cleanEnd => { s with err := c.err, phase := .ended }.complete
  | _ => { s with err := c.err, phase := .failed }.loseSource.scramble.complete

-- the sequencer's monad

/-- How a micro-operation ends without completing: it raises an error, meets a fault point, or is not accepted. -/
inductive Stop where
  | raise (c : Cause)
  | fault (f : Fault)
  | refuse (r : Refusal)
deriving DecidableEq, Repr

/-- A piece of the sequencer's work: it reads and writes the state, and completes with a value or stops. -/
abbrev M := EStateM Stop State

/-- Stop. -/
def M.stop {α : Type} (x : Stop) : M α := fun s => .error x s

/-- Go on only if `p` holds. -/
def M.ensure (p : Prop) [Decidable p] (x : Stop) : M Unit := fun s => if p then .ok () s else .error x s

/-- Read something of the state. -/
def M.read {α : Type} (f : State → α) : M α := fun s => .ok (f s) s

/-- Write the state. -/
def M.update (f : State → State) : M Unit := fun s => .ok () (f s)

/-- `raise <Class>(<cause>)` (00_scope R9). -/
abbrev M.raise {α : Type} (c : Cause) : M α := M.stop (.raise c)

/-- `fault U<n>` (00_scope R9). -/
abbrev M.fault {α : Type} (f : Fault) : M α := M.stop (.fault f)

/-- An operand must lie in its rule's range (20_memory R91; log 20). -/
abbrev M.operand (p : Prop) [Decidable p] : M Unit := M.ensure p (.refuse .operandRange)

/-- `for i in lo .. lo + k - 1` (00_scope R9): `forN k lo body`. -/
def forN : Nat → Nat → (Nat → M Unit) → M Unit
  | 0, _, _ => pure ()
  | k + 1, i, body => do
    body i
    forN k (i + 1) body

/-- The list of what `f lo`, ..., `f (lo + k - 1)` return, run in that order. -/
def collect {α : Type} : Nat → Nat → (Nat → M α) → M (List α)
  | 0, _, _ => pure []
  | k + 1, i, f => do
    let x ← f i
    let xs ← collect k (i + 1) f
    pure (x :: xs)

/-- Run `body` on each element of a list in order. -/
def forList {α : Type} : List α → (α → M Unit) → M Unit
  | [], _ => pure ()
  | x :: xs, body => do
    body x
    forList xs body

-- steps

/-- The outcome of one step. -/
abbrev Out := Host.Outcome State Fault Refusal

/-- How a stop ends a step. -/
def Stop.outcome (x : Stop) (s : State) : Out :=
  match x with
  | .raise c => .next (s.raise c)
  | .fault f => .fault f
  | .refuse r => .refused r

/-- One host command (30_encoding R111): refused in a state that does not accept it, else run to completion. -/
def command (accept : Prop) [Decidable accept] (m : M Unit) (s : State) : Out :=
  if accept then
    match m s with
    | .ok _ s' => .next s'.complete
    | .error x s' => x.outcome s'
  else .next (s.refuse .badState)

/-- One micro-operation issued alone (70_reset R443): what it returns goes to the model's latch (log 4). The spec names no `STATE` in which one is accepted; that it
runs in every `STATE`, `CLOSED`, `ENDED` and `FAILED` among them, is the model's choice (log 40), and so is that one that writes a
table runs in `READY`, where 70_reset R438 has nothing write it (log 42), and that one runs while a frame is pending (log 41). -/
def micro (m : M Result) (s : State) : Out :=
  match m s with
  | .ok r s' => .next (s'.setResult r)
  | .error x s' => x.outcome s'

/-- A micro-operation that returns nothing, issued alone. -/
def microUnit (m : M Unit) (s : State) : Out :=
  micro (do m; pure .none) s

/-- A request that is no instruction (30_encoding R111, R114, R121, R124 to R126; log 19). -/
def reject (e : DecodeError) (s : State) : Out :=
  match e with
  | .badCmd => .next (s.refuse .badCmd)
  | .headerType => .next (s.raise .badHeaderTag)
  | .lookupType => .fault .lookupType
  | .floorType => .next (s.raise .unsupportedFloorType)
  | .residueType => .next (s.raise .unsupportedResidueType)
  | .mappingType => .next (s.raise .unsupportedMappingType)
  | .noSuchWord => .refused .noSuchWord

/-- The host writes `CMD` (10_state R38): the word on the command port is latched before the command starts. -/
def State.latch (f : Fetch) (s : State) : State :=
  match f.port with
  | .cmd => { s with cmd := f.word.setWidth 8 }
  | _ => s

/-- The next request, and the state in which it is executed: it is taken off the list of requests to come (log 2), and a command word is latched. -/
def State.issue (s : State) : Option (Fetch × State) :=
  match s.script with
  | [] => none
  | f :: rest => some (f, { s with script := rest }.latch f)

/-- The state with one more request before the ones to come (log 2). -/
def State.place (f : Fetch) (s : State) : State := { s with script := f :: s.script }

-- the byte source

/-- The error that a terminal answer raises on every path but the try path (40_bit_reader R172, R178, R182). -/
def terminalCause : Terminal → Cause
  | .endOfStream => .truncated
  | .ioError => .source

/-- The answer of one `read_u8` (20_memory R80). -/
inductive ByteAnswer where
  | data (b : Byte)
  | endOfStream
  | ioError
deriving DecidableEq, Repr

/-- `RDU8_raw`: one `read_u8` of the byte source; a byte is delivered once (20_memory R80, R81). -/
def readU8Raw : M ByteAnswer := fun s =>
  match s.src.bytes with
  | b :: _ => .ok (.data b) (s.dropBytes 1)
  | [] =>
    match s.src.terminal with
    | .endOfStream => .ok .endOfStream s
    | .ioError => .ok .ioError s

/-- One `read_exact` of `n` bytes; a short one takes what is there (20_memory R80, D3). -/
def readExactRaw (n : Nat) : M (List Byte) := fun s =>
  if n ≤ s.src.bytes.length then .ok (s.src.bytes.take n) (s.dropBytes n)
  else .error (.raise (terminalCause s.src.terminal)) (s.dropBytes s.src.bytes.length)

end Sys2Proof.Machine
end

