-- ==== Sys2Proof/Machine/BitReader.lean ====
section
/-! DEFINITION. The Bit Reader (40_bit_reader): `PULL`, `RDBITS`, `RDBIT`, `TRYRD`, `ALIGN`, `RDU8`, `RDEXACT`, and the compositions `SKIP` and `RD32`. -/

namespace Sys2Proof.Machine

/-- What `PULL` answers (R171). -/
inductive Pulled where
  | ok
  | eos
  | io
deriving DecidableEq, Repr

/-- `PULL`: one byte into the accumulator above the bits it holds (R171). -/
def pull : M Pulled := do
  match ← readU8Raw with
  | .data b =>
    M.update (State.mapBits fun r => { acc := r.acc ||| (b.setWidth 32 <<< r.nbits), nbits := r.nbits + 8 })
    pure .ok
  | .endOfStream => pure .eos
  | .ioError => pure .io

/-- `while NBITS < n: PULL()` (R172, R176), where `k` bounds the pulls: every pull adds eight bits, so `n` of them are enough. -/
def fillBits (n : Nat) : Nat → M Pulled
  | 0 => pure .ok
  | k + 1 => do
    let held ← M.read fun s => s.dec.bits.nbits
    if held < n then
      match ← pull with
      | .ok => fillBits n k
      | other => pure other
    else pure .ok

/-- `let v = ACC[n-1:0]; ACC <- ACC >> n; NBITS <- NBITS - n` (R172). -/
def consumeBits (n : Nat) : M Nat := do
  let acc ← M.read fun s => s.dec.bits.acc
  M.update (State.mapBits fun r => { acc := r.acc >>> n, nbits := r.nbits - n })
  pure (acc.toNat % 2 ^ n)

/-- `RDBITS(n)` (R172); a read wider than 24 bits is not accepted (R173). -/
def readBits (n : Nat) : M Nat := do
  M.ensure (n ≤ Config.rdMax) (.refuse .readTooWide)
  match ← fillBits n n with
  | .ok => consumeBits n
  | .eos => M.raise .truncated
  | .io => M.raise .source

/-- `RDBIT()` (R174). -/
def readBit : M Nat := readBits 1

/-- `TRYRD(n)` (R176): the end of the stream is a value, `none`, and keeps what was pulled. -/
def tryReadBits (n : Nat) : M (Option Nat) := do
  M.ensure (n ≤ Config.rdMax) (.refuse .readTooWide)
  match ← fillBits n n with
  | .ok => do
    let v ← consumeBits n
    pure (some v)
  | .eos => pure none
  | .io => M.raise .source

/-- `ALIGN()` (R177). -/
def alignBits : M Unit := M.update (State.mapBits fun _ => BitReader.empty)

/-- Byte-wise reads are issued only at a byte boundary (20_memory R86). -/
def byteBoundary : M Unit := fun s => M.ensure (s.dec.bits.nbits = 0) (.refuse .unalignedBytes) s

/-- `RDU8()` (R178). -/
def readU8 : M Byte := do
  byteBoundary
  match ← readU8Raw with
  | .data b => pure b
  | .endOfStream => M.raise .truncated
  | .ioError => M.raise .source

/-- `RDEXACT(n)` (R179). -/
def readExact (n : Nat) : M (List Byte) := do
  byteBoundary
  readExactRaw n

/-- `SKIP(n)` (R180). -/
def skipBytes (n : Nat) : M Unit := do
  let _ ← readExact n
  pure ()

/-- `RD32()` (R181): the low half is read first. -/
def read32 : M Nat := do
  let lo ← readBits 16
  let hi ← readBits 16
  pure (hi * 2 ^ 16 + lo)

/-- RDBITS (R172). -/
def execRdbits (n : Nat) (s : State) : Out :=
  micro (do let v ← readBits n; pure (.value v)) s

/-- RDBIT (R174). -/
def execRdbit (s : State) : Out :=
  micro (do let v ← readBit; pure (.value v)) s

/-- TRYRD (R176). -/
def execTryrd (n : Nat) (s : State) : Out :=
  micro
    (do
      match ← tryReadBits n with
      | some v => pure (.value v)
      | none => pure .eos)
    s

/-- ALIGN (R177). -/
def execAlign (s : State) : Out := microUnit alignBits s

/-- RDU8 (R178). -/
def execRdu8 (s : State) : Out :=
  micro (do let b ← readU8; pure (.value b.toNat)) s

/-- RDEXACT (R179). -/
def execRdexact (n : Nat) (s : State) : Out :=
  micro (do let b ← readExact n; pure (.bytes b)) s

end Sys2Proof.Machine
end

