-- ==== Sys2Proof/Machine/Operands.lean ====
section
/-! DEFINITION. Operand assembly (30_encoding R131): how the rules turn raw fields into the numbers they use. -/

namespace Sys2Proof.Machine

/-- `ilog(x)`: the number of bits of `x` (00_scope R11). -/
def ilog (x : Nat) : Nat := bitLength x

/-- `le32(b, i)`: four bytes, least significant first (20_memory R85, 46_frame_output R344). -/
def le32 (b : List Byte) (i : Nat) : Nat :=
  (b.getD i 0#8).toNat + 256 * (b.getD (i + 1) 0#8).toNat + 65536 * (b.getD (i + 2) 0#8).toNat
    + 16777216 * (b.getD (i + 3) 0#8).toNat

/-- `float32_unpack(x)` (41_codebook R202, 30_encoding R122): sign by integer negation, so a zero mantissa gives +0.0. -/
def float32Unpack (x : Nat) : F32 :=
  let mant := x % 2 ^ 21
  let exp := x / 2 ^ 21 % 2 ^ 10
  let neg := x / 2 ^ 31 % 2 = 1 ∧ mant ≠ 0
  f32Round neg (mant * 2 ^ exp) (788 - 149)

/-- The root found so far, with one bit after another added where the power still fits. -/
def rootBits (entries dim : Nat) : Nat → Nat → Nat
  | 0, r => r
  | k + 1, r => rootBits entries dim k (if (r + 2 ^ k) ^ dim ≤ entries then r + 2 ^ k else r)

/-- `lookup1_values(entries, dim)`: the largest integer whose `dim`-th power is at most `entries` (41_codebook R201). -/
def lookup1Values (entries dim : Nat) : Nat := rootBits entries dim (ilog entries) 0

/-- `RANGE` from the two-bit field `MULT - 1` (42_floor R234). -/
def rangeOf (field : Nat) : Nat :=
  match field with
  | 0 => 256
  | 1 => 128
  | 2 => 86
  | _ => 64

/-- A codebook number field with bias -1, where 0 means "no book" (30_encoding R124, R131). -/
def bookOf (field : Nat) : Option Nat :=
  match field with
  | 0 => none
  | b + 1 => some b

/-- Bit `p` of a number. -/
def bitOf (v p : Nat) : Bool := v / 2 ^ p % 2 = 1

end Sys2Proof.Machine
end

