-- ==== Sys2Proof/Machine/Codebook.lean ====
section
/-! DEFINITION. The Codebook unit (41_codebook): `CB_SETUP`, `CB_SCALAR`, `CB_VECTOR`, and the stream selectors of a codebook header. -/

namespace Sys2Proof.Machine

/-- `CB[c]`. -/
def State.codebook (s : State) (c : Nat) : Codebook := aget s.dec.tabs.cb c

/-- Write `CB[c]`. -/
def setCodebook (c : Nat) (f : Codebook → Codebook) : M Unit :=
  M.update (State.mapTabs fun t => { t with cb := aset t.cb c (f (aget t.cb c)) })

/-- A codebook number is below `N_CODEBOOKS` (R191, R205, R208). -/
def bookOperand (c : Nat) : M Unit := fun s => M.operand (c < s.dec.counts.nCodebooks) s

/-- Write the length list `LEN` (10_state R67). -/
def setLengths (l : List Nat) : M Unit := M.update (State.mapWork fun w => { w with len := l })

-- length lists

/-- The list in which every entry has a length (R193, `sparse = 0`). -/
def lengthsDense (c : Nat) : M Unit := do
  bookOperand c
  let entries ← M.read fun s => (s.codebook c).entries
  let l ← collect entries 0 fun _ => do
    let v ← readBits 5
    pure (v + 1)
  setLengths l

/-- The list with a used flag per entry; 0 marks an unused entry (R193, `sparse = 1`). -/
def lengthsSparse (c : Nat) : M Unit := do
  bookOperand c
  let entries ← M.read fun s => (s.codebook c).entries
  let l ← collect entries 0 fun _ => do
    let used ← readBit
    if used = 1 then
      let v ← readBits 5
      pure (v + 1)
    else pure 0
  setLengths l

/-- The explicit length list (R193, `ordered = 0`). -/
def lengthsExplicit (c : Nat) : M Unit := do
  bookOperand c
  let sparse ← readBit
  if sparse = 1 then lengthsSparse c else lengthsDense c

/-- The runs of R194. `k` bounds the runs: while entries remain, each run reads at least one bit, so a source of `k - 1` more bits ends the
list or itself before the bound does (log 23). -/
def lengthRuns (entries : Nat) : Nat → Nat → Nat → List Nat → M (List Nat)
  | 0, _, _, _ => M.raise .truncated
  | k + 1, curEntry, curLen, acc => do
    let number ← readBits (ilog (entries - curEntry))
    M.ensure (curEntry + number ≤ entries) (.fault .lengthRunPastEntries)
    M.ensure (¬(0 < number ∧ Config.maxCwLen < curLen)) (.fault .lengthAbove32)
    let acc' := acc ++ List.replicate number curLen
    if entries ≤ curEntry + number then pure acc'
    else lengthRuns entries k (curEntry + number) (curLen + 1) acc'

/-- The bits that the block can still read: those in the accumulator and those of the bytes to come. -/
def State.bitsLeft (s : State) : Nat := s.dec.bits.nbits + 8 * s.src.bytes.length

/-- The run-length list (R194, `ordered = 1`). -/
def lengthsRunLength (c : Nat) : M Unit := do
  bookOperand c
  let entries ← M.read fun s => (s.codebook c).entries
  let first ← readBits 5
  let bound ← M.read State.bitsLeft
  let l ← lengthRuns entries (bound + 1) 0 (first + 1) []
  setLengths l

-- canonical codewords

/-- The deepest depth not above `r` that has a free node, 0 if there is none (R196). -/
def freeDepth (next : List (BitVec 32)) : Nat → Nat
  | 0 => 0
  | r + 1 => if aget next (r + 1) = 0#32 then freeDepth next r else r + 1

/-- `for d in L downto r+1: NEXT[d] := w + (1 << (32 - d))` (R196), for the `k` depths above `r`. -/
def hangSiblings (w : BitVec 32) (r : Nat) : Nat → List (BitVec 32) → List (BitVec 32)
  | 0, next => next
  | k + 1, next => hangSiblings w r k (aset next (r + k + 1) (w + (1#32 <<< (32 - (r + k + 1)))))

/-- One used entry `e` of length `l` after the first: the codeword it gets and the tracker after it; `none` if no codeword is free (R196). -/
def assignOne (next : List (BitVec 32)) (l e : Nat) : Option (Code × List (BitVec 32)) :=
  let r := freeDepth next l
  if r = 0 then none
  else
    let w := aget next r
    some ({ len := l, cw := w >>> (32 - l), entry := e }, hangSiblings w r (l - r) (aset next r 0#32))

/-- The entries after the first used one, in entry-index order, skipping unused ones (R196). -/
def assignRest : List (BitVec 32) → Nat → List Nat → Option (List Code × List (BitVec 32))
  | next, _, [] => some ([], next)
  | next, e, 0 :: ls => assignRest next (e + 1) ls
  | next, e, l :: ls =>
    match assignOne next l e with
    | none => none
    | some (c, next') =>
      match assignRest next' (e + 1) ls with
      | none => none
      | some (cs, next'') => some (c :: cs, next'')

/-- The tracker after the first used entry, of length `l`, has taken codeword 0: `NEXT[d] = 1 << (32 - d)` for `d` in `1..l`, else 0 (R196). -/
def firstFree (l : Nat) : List (BitVec 32) :=
  (List.range 33).map fun d => if 1 ≤ d ∧ d ≤ l then 1#32 <<< (32 - d) else 0#32

/-- Canonical codeword assignment (R196): the codewords in the order of assignment and the tracker at the end. -/
def assignFrom : Nat → List Nat → Option (List Code × List (BitVec 32))
  | _, [] => some ([], List.replicate 33 0#32)
  | e, 0 :: ls => assignFrom (e + 1) ls
  | e, l :: ls =>
    match assignRest (firstFree l) (e + 1) ls with
    | none => none
    | some (cs, next) => some ({ len := l, cw := 0#32, entry := e } :: cs, next)

/-- The codewords in storage order: by length, and within a length in the order of assignment (R195). -/
def storeOrder (cs : List Code) : List Code :=
  (List.range (Config.maxCwLen + 1)).flatMap fun l => cs.filter fun c => c.len = l

/-- Steps 4 and 5 of `CB_SETUP` (R195, R196). `LEN` and `NEXT` are alive only inside one `CB_SETUP` (10_state R67); that they keep the last list and
tracker after it is the model's choice (log 31). -/
def assignCodes (c : Nat) : M Unit := do
  let l ← M.read fun s => s.dec.work.len
  match assignFrom 0 l with
  | none => M.raise .oversubscribed
  | some (cs, next) => do
    M.update (State.mapWork fun w => { w with nextFree := next })
    setCodebook c fun b => { b with codes := storeOrder cs }

-- lookup

/-- No lookup (R200, `LOOKUP_TYPE = 0`). The other lookup fields are absent then (10_state R45); that the entry keeps what they held is the model's choice (log 43). -/
def lookupNone (c : Nat) : M Unit := do
  bookOperand c
  setCodebook c fun b => { b with lookupType := 0 }

/-- `SEQ = 0`: the elements of a vector are independent (R200, R211). -/
def seqOff (c : Nat) : M Unit := do
  bookOperand c
  setCodebook c fun b => { b with seq := false }

/-- `SEQ = 1`: the elements of a vector are running sums (R200, R211). -/
def seqOn (c : Nat) : M Unit := do
  bookOperand c
  setCodebook c fun b => { b with seq := true }

/-- The fields of a lookup up to `SEQ` (R200). -/
def lookupFields (c : Nat) : M Unit := do
  let lo ← read32
  setCodebook c fun b => { b with minVal := float32Unpack lo }
  let de ← read32
  setCodebook c fun b => { b with delta := float32Unpack de }
  let vb ← readBits 4
  setCodebook c fun b => { b with valueBits := vb + 1 }
  let sq ← readBit
  if sq = 1 then seqOn c else seqOff c

/-- The multiplicands (R200). -/
def lookupMults (c values : Nat) : M Unit := do
  setCodebook c fun b => { b with lookupValues := values }
  let vb ← M.read fun s => (s.codebook c).valueBits
  let ms ← collect values 0 fun _ => readBits vb
  setCodebook c fun b => { b with mult := ms }

/-- The lattice lookup (R200, `LOOKUP_TYPE = 1`); a dimension of 0 has no `lookup1_values` (R201). -/
def lookupLattice (c : Nat) : M Unit := do
  bookOperand c
  setCodebook c fun b => { b with lookupType := 1 }
  lookupFields c
  let b ← M.read fun s => s.codebook c
  M.ensure (b.dim ≠ 0) (.fault .zeroDim)
  lookupMults c (lookup1Values b.entries b.dim)

/-- The explicit lookup (R200, `LOOKUP_TYPE = 2`). -/
def lookupExplicit (c : Nat) : M Unit := do
  bookOperand c
  setCodebook c fun b => { b with lookupType := 2 }
  lookupFields c
  let b ← M.read fun s => s.codebook c
  lookupMults c (b.entries * b.dim)

/-- Step 6 of `CB_SETUP` (R200). -/
def lookupPart (c : Nat) : M Unit := do
  let t ← readBits 4
  match t with
  | 0 => lookupNone c
  | 1 => lookupLattice c
  | 2 => lookupExplicit c
  | _ => M.fault .lookupType

/-- Step 3 of `CB_SETUP` after the field `ordered` (R193, R194). -/
def lengthList (c ordered : Nat) : M Unit := if ordered = 1 then lengthsRunLength c else lengthsExplicit c

/-- `CB_SETUP(c)` (R191 to R204). -/
def codebookSetup (c : Nat) : M Unit := do
  bookOperand c
  let sync ← readBits 24
  M.ensure (sync = 0x564342) (.raise .badSync)
  let dim ← readBits 16
  setCodebook c fun b => { b with dim := dim }
  let entries ← readBits 24
  setCodebook c fun b => { b with entries := entries }
  let ordered ← readBit
  lengthList c ordered
  assignCodes c
  lookupPart c

-- decode

/-- The codeword of length `l` and value `cw` (R205). -/
def findCode (codes : List Code) (l cw : Nat) : Option Nat :=
  match codes with
  | [] => none
  | k :: rest => if k.len = l ∧ k.cw.toNat = cw then some k.entry else findCode rest l cw

/-- The walk of R205, one bit at a time: `k` lengths are left, the running value `cw` has `l` bits. R206 lets an implementation raise `NO_CODEWORD` as soon as no
codeword has the running value as a prefix; that the walk goes on to 32 bits, so that a stream which ends before them raises `TRUNCATED` or `SOURCE` instead, is the
model's choice (log 36). -/
def scalarWalk (codes : List Code) : Nat → Nat → Nat → M Nat
  | 0, _, _ => M.raise .noCodeword
  | k + 1, l, cw => do
    let b ← readBit
    match findCode codes (l + 1) (2 * cw + b) with
    | some e => pure e
    | none => scalarWalk codes k (l + 1) (2 * cw + b)

/-- `CB_SCALAR(c)` (R205). -/
def codebookScalar (c : Nat) : M Nat := do
  bookOperand c
  let codes ← M.read fun s => (s.codebook c).codes
  scalarWalk codes Config.maxCwLen 0 0

/-- `lattice_offset(e, i)` (R209). -/
def latticeOffset (values e i : Nat) : Nat := e / values ^ i % values

/-- The multiplicand that element `i` of entry `e` takes (R209, R210). -/
def multOffset (b : Codebook) (e i : Nat) : Nat :=
  if b.lookupType = 1 then latticeOffset b.lookupValues e i else e * b.dim + i

/-- `vq_value(m, last)` (R211). -/
def vqValue (b : Codebook) (m : Nat) (last : F32) : F32 :=
  fadd (fadd (fmul (f32OfInt m) b.delta) b.minVal) last

/-- The elements of entry `e` from element `i` on, `k` of them, after a running value `last` (R208). -/
def vqElements (b : Codebook) (e : Nat) : Nat → Nat → F32 → List F32
  | 0, _, _ => []
  | k + 1, i, last =>
    let v := vqValue b (aget b.mult (multOffset b e i)) last
    v :: vqElements b e k (i + 1) (if b.seq then v else last)

/-- The vector of an entry (R208). -/
def vqVector (b : Codebook) (e : Nat) : List F32 := vqElements b e b.dim 0 f32Zero

/-- `CUR[ch]` (10_state R60). -/
def State.cur (s : State) (ch : Nat) : List F32 :=
  aget (if s.dec.frame.curSel then s.dec.work.buf1 else s.dec.work.buf0) ch

/-- `PREV[ch]` (10_state R60). -/
def State.prev (s : State) (ch : Nat) : List F32 :=
  aget (if s.dec.frame.curSel then s.dec.work.buf0 else s.dec.work.buf1) ch

/-- Write `CUR[ch]`. -/
def State.setCur (ch : Nat) (v : List F32) (s : State) : State :=
  if s.dec.frame.curSel then s.mapWork fun w => { w with buf1 := aset w.buf1 ch v }
  else s.mapWork fun w => { w with buf0 := aset w.buf0 ch v }

/-- The contents of a buffer. -/
def State.bufGet (s : State) (r : BufRef) : List F32 :=
  match r with
  | .cur ch => s.cur ch
  | .interleave => s.dec.work.interleave

/-- Write the contents of a buffer. -/
def State.bufSet (r : BufRef) (v : List F32) (s : State) : State :=
  match r with
  | .cur ch => s.setCur ch v
  | .interleave => s.mapWork fun w => { w with interleave := v }

/-- `buf[i] <- fadd(buf[i], v)` inside a vector; an index at or past its size is fault U17 (R208). -/
def addInto (buf : Vec) (i : Nat) (v : F32) : M Unit := do
  M.ensure (i < buf.size) (.fault .vectorPastBuffer)
  M.update fun s => s.bufSet buf.ref (aset (s.bufGet buf.ref) i (fadd (aget (s.bufGet buf.ref) i) v))

/-- The loop of R208 over the elements of a vector. -/
def addElements (buf : Vec) (stride : Nat) : Nat → List F32 → M Unit
  | _, [] => pure ()
  | i, v :: vs => do
    addInto buf i v
    addElements buf stride (i + stride) vs

/-- `CB_VECTOR(c, buf, base, stride)` (R208); both faults are checked before any bit is read. -/
def codebookVector (c : Nat) (buf : Vec) (base stride : Nat) : M Unit := do
  bookOperand c
  M.operand (1 ≤ stride)
  let b ← M.read fun s => s.codebook c
  M.ensure (b.lookupType ≠ 0) (.fault .vectorWithoutLookup)
  M.ensure (b.dim ≠ 0) (.fault .zeroDim)
  let e ← codebookScalar c
  addElements buf stride base (vqVector b e)

/-- A vector operand names a buffer the stream has (10_state R60, R64). -/
def vecOperand (buf : Vec) : M Unit := fun s =>
  match buf.ref with
  | .cur ch => M.operand (ch < s.dec.hdr.channels ∧ buf.size ≤ Config.maxBlock) s
  | .interleave => M.operand (buf.size ≤ Config.maxChannels * (Config.maxBlock / 2)) s

/-- CB_SETUP (R191). -/
def execCbSetup (c : Nat) (s : State) : Out := microUnit (codebookSetup c) s

/-- CB_SCALAR (R205). -/
def execCbScalar (c : Nat) (s : State) : Out :=
  micro (do let e ← codebookScalar c; pure (.value e)) s

/-- CB_VECTOR (R208). -/
def execCbVector (c : Nat) (buf : Vec) (base stride : Nat) (s : State) : Out :=
  microUnit (do vecOperand buf; codebookVector c buf base stride) s

/-- CB_LEN_EXPLICIT: `ordered` has been read as 0 (R193). -/
def execCbLenExplicit (c : Nat) (s : State) : Out := microUnit (lengthsExplicit c) s

/-- CB_LEN_RUNLENGTH: `ordered` has been read as 1 (R194). -/
def execCbLenRunLength (c : Nat) (s : State) : Out := microUnit (lengthsRunLength c) s

/-- CB_DENSE: `sparse` has been read as 0 (R193). -/
def execCbDense (c : Nat) (s : State) : Out := microUnit (lengthsDense c) s

/-- CB_SPARSE: `sparse` has been read as 1 (R193). -/
def execCbSparse (c : Nat) (s : State) : Out := microUnit (lengthsSparse c) s

/-- CB_LOOKUP_NONE: `LOOKUP_TYPE` has been read as 0 (R200). -/
def execCbLookupNone (c : Nat) (s : State) : Out := microUnit (lookupNone c) s

/-- CB_LOOKUP_LATTICE: `LOOKUP_TYPE` has been read as 1 (R200). -/
def execCbLookupLattice (c : Nat) (s : State) : Out := microUnit (lookupLattice c) s

/-- CB_LOOKUP_EXPLICIT: `LOOKUP_TYPE` has been read as 2 (R200). -/
def execCbLookupExplicit (c : Nat) (s : State) : Out := microUnit (lookupExplicit c) s

/-- CB_SEQ_OFF: `SEQ` has been read as 0 (R200, R211). -/
def execCbSeqOff (c : Nat) (s : State) : Out := microUnit (seqOff c) s

/-- CB_SEQ_ON: `SEQ` has been read as 1 (R200, R211). -/
def execCbSeqOn (c : Nat) (s : State) : Out := microUnit (seqOn c) s

end Sys2Proof.Machine
end

