-- ==== Sys2Proof/Machine/Floor.lean ====
section
/-! DEFINITION. The Floor unit (42_floor): `FL_SETUP`, `FL_DECODE`, `FL_SYNTH`, and the selectors of a floor header and of a floor part. -/

namespace Sys2Proof.Machine

/-- `FL[f]`. -/
def State.floor (s : State) (f : Nat) : Floor := aget s.dec.tabs.fl f

/-- Write `FL[f]`. -/
def setFloor (f : Nat) (g : Floor → Floor) : M Unit :=
  M.update (State.mapTabs fun t => { t with fl := aset t.fl f (g (aget t.fl f)) })

/-- A floor number is below `N_FLOORS` (R231, R240). -/
def floorOperand (f : Nat) : M Unit := fun s => M.operand (f < s.dec.counts.nFloors) s

/-- A channel number is below `CHANNELS` (R240, R246). -/
def chanOperand (ch : Nat) : M Unit := fun s => M.operand (ch < s.dec.hdr.channels) s

/-- A number of bins fits the work buffers (10_state R60). -/
def binsOperand (n : Nat) : M Unit := M.operand (2 * n ≤ Config.maxBlock)

-- FL_SETUP

/-- A codebook number that a floor names must be below `N_CODEBOOKS` (R233, R238). -/
def floorBookCheck (b : Nat) : M Unit := fun s => M.ensure (b < s.dec.counts.nCodebooks) (.fault .floorBook) s

/-- One sub-book field (R233). -/
def readSubbook : M (Option Nat) := do
  let v ← readBits 8
  match bookOf v with
  | none => pure none
  | some b => do
    floorBookCheck b
    pure (some b)

/-- One class (R233). `CLASS_MASTER` of a class whose `CLASS_SUBEXP` is 0 is not read and has no value (10_state R46); that it is 0 here is the model's
choice (log 33). -/
def readFloorClass : M FloorClass := do
  let d ← readBits 3
  let e ← readBits 2
  if 0 < e then do
    let m ← readBits 8
    floorBookCheck m
    let sb ← collect (2 ^ e) 0 fun _ => readSubbook
    pure { dim := d + 1, subexp := e, master := m, subbook := sb }
  else do
    let sb ← collect (2 ^ e) 0 fun _ => readSubbook
    pure { dim := d + 1, subexp := e, master := 0, subbook := sb }

/-- `NCLASSES` of a partition class list: the largest class number plus one, 0 for no partition (R232). -/
def classCount (partClass : List Nat) : Nat := partClass.foldl (fun n c => max n (c + 1)) 0

/-- `k` X values appended to the list; the 66th value is fault U12 (R235). -/
def readXs (bits : Nat) : Nat → List Nat → M (List Nat)
  | 0, xs => pure xs
  | k + 1, xs => do
    M.ensure (xs.length ≠ Config.floorMaxValues) (.fault .floorTooManyX)
    let v ← readBits bits
    readXs bits k (xs ++ [v])

/-- The X values of each partition in declaration order (R235). -/
def readPartitionXs (bits : Nat) (classes : List FloorClass) : List Nat → List Nat → M (List Nat)
  | [], xs => pure xs
  | k :: ks, xs => do
    let xs' ← readXs bits (aget classes k).dim xs
    readPartitionXs bits classes ks xs'

/-- Insert position `i` into a list of positions sorted by X, after every position whose X is not larger (R236). -/
def insertPos (xs : List Nat) (i : Nat) : List Nat → List Nat
  | [] => [i]
  | j :: js => if aget xs j ≤ aget xs i then j :: insertPos xs i js else i :: j :: js

/-- `SORT`: the positions by X, ties by position (R236). -/
def sortPositions (xs : List Nat) : List Nat :=
  (List.range xs.length).foldl (fun acc i => insertPos xs i acc) []

/-- No two elements are equal. -/
def distinct : List Nat → Bool
  | [] => true
  | x :: xs => !xs.contains x && distinct xs

/-- What a floor that passed setup has (R238): at least the two boundary points, no two equal X, position 0 the smallest and 1 the largest. -/
def xsOk (xs : List Nat) : Bool :=
  match xs with
  | x0 :: x1 :: rest => x0 < x1 && rest.all (fun x => x0 < x && x < x1) && distinct rest
  | _ => false

/-- `FL_SETUP` after the type field (R232 to R239). -/
def floorBody (f : Nat) : M Unit := do
  floorOperand f
  let parts ← readBits 5
  let pc ← collect parts 0 fun _ => readBits 4
  let classes ← collect (classCount pc) 0 fun _ => readFloorClass
  let m ← readBits 2
  let rb ← readBits 4
  let xs ← readPartitionXs rb classes pc [0, 2 ^ rb]
  M.ensure (distinct xs = true) (.fault .floorEqualX)
  setFloor f fun _ =>
    { partitions := parts, partClass := pc, classes := classes, mult := m + 1, range := rangeOf m, rangebits := rb, xs := xs,
      sort := sortPositions xs }

/-- `FL_SETUP(f)` (R231). -/
def floorSetup (f : Nat) : M Unit := do
  floorOperand f
  let t ← readBits 16
  if t = 1 then floorBody f else M.raise .unsupportedFloorType

-- FL_DECODE

/-- Write `HAS_ENERGY[ch]` (R241). -/
def setEnergy (ch : Nat) (v : Bool) : M Unit :=
  M.update (State.mapWork fun w => { w with hasEnergy := aset w.hasEnergy ch v })

/-- The Y value of one dimension: an entry number of its sub-book, or 0 where that is "no book" (R243, R244). -/
def readDim (book : Option Nat) : M Nat :=
  match book with
  | some b => codebookScalar b
  | none => pure 0

/-- The classification of one partition: a class without sub-book bits has none (R243). -/
def readClassification (cls : FloorClass) : M Nat := if 0 < cls.subexp then codebookScalar cls.master else pure 0

/-- The Y values of one partition: `k` dimensions left, the classification shifted so far (R243). -/
def readPartitionYs (cls : FloorClass) : Nat → Nat → M (List Nat)
  | 0, _ => pure []
  | k + 1, cval => do
    let y ← readDim (aget cls.subbook (cval % 2 ^ cls.subexp))
    let ys ← readPartitionYs cls k (cval / 2 ^ cls.subexp)
    pure (y :: ys)

/-- The classification and the Y values of each partition (R243). -/
def readAllYs (fl : Floor) : List Nat → M (List Nat)
  | [] => pure []
  | k :: ks => do
    let cls := aget fl.classes k
    let cval ← readClassification cls
    let ys ← readPartitionYs cls cls.dim cval
    let rest ← readAllYs fl ks
    pure (ys ++ rest)

/-- The has-energy bit was 0 (R241). -/
def floorSilentPart (ch f : Nat) : M Unit := do
  chanOperand ch
  floorOperand f
  setEnergy ch false

/-- The has-energy bit was 1 (R241 to R245). A value from a codebook is the whole entry number, 0..2^24 - 1 (R243, R245), where 10_state R61 gives `FLOOR_Y` the range
0..65535 and names R245 for what is written: the model's choice between the rules (log 32). On an entry that no setup has filled, `RANGE` is 0 and the base values have no bits, the model's choice (log 38). -/
def floorEnergyPart (ch f : Nat) : M Unit := do
  chanOperand ch
  floorOperand f
  setEnergy ch true
  let fl ← M.read fun s => s.floor f
  let w := ilog (fl.range - 1)
  let y0 ← readBits w
  let y1 ← readBits w
  let ys ← readAllYs fl fl.partClass
  M.update (State.mapWork fun wk => { wk with floorY := aset wk.floorY ch (overlay (y0 :: y1 :: ys) (aget wk.floorY ch)) })

/-- `FL_DECODE(ch, f)` (R240). -/
def floorDecode (ch f : Nat) : M Unit := do
  chanOperand ch
  floorOperand f
  let e ← readBit
  if e = 1 then floorEnergyPart ch f else floorSilentPart ch f

-- FL_SYNTH: amplitudes

/-- `low(i)`: the position below `i` with the largest X below `X[i]` (R248). -/
def lowNeighbor (xs : List Nat) (i : Nat) : Nat :=
  (List.range i).foldl (fun best j => if aget xs j < aget xs i ∧ aget xs best < aget xs j then j else best) 0

/-- `high(i)`: the position below `i` with the smallest X above `X[i]` (R248). -/
def highNeighbor (xs : List Nat) (i : Nat) : Nat :=
  (List.range i).foldl (fun best j => if aget xs i < aget xs j ∧ aget xs j < aget xs best then j else best) 1

/-- `render_point` (R249). -/
def renderPoint (x0 : Nat) (y0 : Int) (x1 : Nat) (y1 : Int) (x : Nat) : Int :=
  let dy := y1 - y0
  let adx : Int := (x1 : Int) - x0
  let off := ((dy.natAbs : Int) * ((x : Int) - x0)).tdiv adx
  if dy < 0 then y0 - off else y0 + off

/-- The corrected amplitude of a point whose raw value is `val`, not 0 (R250). -/
def correctedY (range predicted val : Int) : Int :=
  let highroom := range - predicted
  let lowroom := predicted
  let room := 2 * min highroom lowroom
  if room ≤ val then
    if lowroom < highroom then val - lowroom + predicted else predicted - val + highroom - 1
  else if val % 2 = 1 then predicted - (val + 1) / 2
  else predicted + val / 2

/-- `FINAL_Y` and `STEP2` so far. -/
structure Amps where
  finalY : List Int
  step2 : List Bool
deriving DecidableEq, Repr, Inhabited

/-- The amplitude of list position `i` (R250). -/
def ampStep (fl : Floor) (ys : List Nat) (a : Amps) (i : Nat) : Amps :=
  let lo := lowNeighbor fl.xs i
  let hi := highNeighbor fl.xs i
  let predicted := renderPoint (aget fl.xs lo) (aget a.finalY lo) (aget fl.xs hi) (aget a.finalY hi) (aget fl.xs i)
  let val := aget ys i
  if val = 0 then { finalY := aset a.finalY i predicted, step2 := aset a.step2 i false }
  else
    { finalY := aset a.finalY i (correctedY fl.range predicted val)
      step2 := aset (aset (aset a.step2 lo true) hi true) i true }

/-- Step 1 of `FL_SYNTH` (R247 to R250): list positions in ascending order. -/
def amplitudes (fl : Floor) (ys : List Nat) : Amps :=
  (List.range' 2 (fl.xs.length - 2)).foldl (ampStep fl ys)
    { finalY := [(aget ys 0 : Int), (aget ys 1 : Int)], step2 := [true, true] }

-- FL_SYNTH: render

/-- The rest of a line: `k` bins from value `y` and error `err` (R255). -/
def lineFrom (base sy ady adx : Int) : Nat → Int → Int → List Int
  | 0, _, _ => []
  | k + 1, y, err =>
    y ::
      if adx ≤ err + ady then lineFrom base sy ady adx k (y + sy) (err + ady - adx)
      else lineFrom base sy ady adx k (y + base) (err + ady)

/-- `render_line`: the table indices of bins `x0 .. x1 - 1` (R255, R257). -/
def renderLine (x0 : Nat) (y0 : Int) (x1 : Nat) (y1 : Int) : List Int :=
  let dy := y1 - y0
  let adx : Int := (x1 : Int) - x0
  let base := dy.tdiv adx
  let sy := if dy < 0 then base - 1 else base + 1
  let ady := (dy.natAbs : Int) - base.natAbs * adx
  lineFrom base sy ady adx (x1 - x0) y0 0

/-- The rest of the curve over sorted positions, from the last vertex `(lx, ly)`: the lines, then the last vertex's value on to bin `n - 1`
(R252, R253). -/
def curveFrom (fl : Floor) (a : Amps) (n : Nat) : List Nat → Nat → Int → List Int
  | [], lx, ly => List.replicate (n - lx) ly
  | i :: rest, lx, ly =>
    if aget a.step2 i then
      let hx := aget fl.xs i
      let hy := aget a.finalY i * (fl.mult : Int)
      renderLine lx ly hx hy ++ curveFrom fl a n rest hx hy
    else curveFrom fl a n rest lx ly

/-- The `INV_DB` index of each bin `0 .. n - 1` (R252 to R255). -/
def floorCurve (fl : Floor) (a : Amps) (n : Nat) : List Int :=
  (curveFrom fl a n fl.sort.tail 0 (aget a.finalY (aget fl.sort 0) * (fl.mult : Int))).take n

/-- An amplitude is in `0 .. RANGE - 1` (R251). -/
def ampInRange (range : Nat) (y : Int) : Bool := 0 ≤ y && y < range

/-- An index is inside `INV_DB` (10_state R52). -/
def invDbIndexOk (y : Int) : Bool := 0 ≤ y && y < Config.invDbLen

/-- `INV_DB[y]`. -/
def invDbAt (y : Int) : F32 := Config.invDb (BitVec.ofInt 8 y)

/-- The channel has energy (R246, 45_imdct R325). -/
def energyOperand (ch : Nat) : M Unit := fun s => M.operand (aget s.dec.work.hasEnergy ch = true) s

/-- `FL_SYNTH(ch, f, n)` (R246). A floor whose X list could not have passed setup has no neighbours to predict from (R238; log 24). `FINAL_Y` and `STEP2`
are alive only inside one `FL_SYNTH` (10_state R65); what they hold after it is the model's choice: the last values over the older ones (log 31). -/
def floorSynth (ch f n : Nat) : M Unit := do
  chanOperand ch
  floorOperand f
  binsOperand n
  energyOperand ch
  let fl ← M.read fun s => s.floor f
  M.ensure (xsOk fl.xs = true) (.fault .floorEqualX)
  let ys ← M.read fun s => aget s.dec.work.floorY ch
  let a := amplitudes fl ys
  M.update (State.mapWork fun w => { w with finalY := overlay a.finalY w.finalY, step2 := overlay a.step2 w.step2 })
  M.ensure (a.finalY.all (ampInRange fl.range) = true) (.fault .floorAmplitude)
  let curve := floorCurve fl a n
  M.ensure (curve.all invDbIndexOk = true) (.fault .floorAmplitude)
  M.update fun s =>
    s.setCur ch (overlay (List.zipWith (fun x y => fmul x (invDbAt y)) (atake n (s.cur ch)) curve) (s.cur ch))

/-- FL_SETUP (R231). -/
def execFlSetup (f : Nat) (s : State) : Out := microUnit (floorSetup f) s

/-- FL_DECODE (R240). -/
def execFlDecode (ch f : Nat) (s : State) : Out := microUnit (floorDecode ch f) s

/-- FL_SYNTH (R246). -/
def execFlSynth (ch f n : Nat) (s : State) : Out := microUnit (floorSynth ch f n) s

/-- FLOOR_TYPE_1: `floor_type` has been read as 1 (R231). -/
def execFloorType1 (f : Nat) (s : State) : Out := microUnit (floorBody f) s

/-- FLOOR_SILENT: the has-energy bit has been read as 0 (R241). -/
def execFloorSilent (ch f : Nat) (s : State) : Out := microUnit (floorSilentPart ch f) s

/-- FLOOR_ENERGY: the has-energy bit has been read as 1 (R241). -/
def execFloorEnergy (ch f : Nat) (s : State) : Out := microUnit (floorEnergyPart ch f) s

end Sys2Proof.Machine
end

