-- ==== Sys2Proof/Machine/Imdct.lean ====
section
/-! DEFINITION. The Inverse Transform unit (45_imdct): `IMDCT_INIT` and `IMDCT`, whose result is the OPEN function `IMDCT_FN`. -/

namespace Sys2Proof.Machine

/-- `BLOCK[b]` (10_state R34). -/
def State.block (s : State) (b : Bool) : Nat := 2 ^ (if b then s.dec.hdr.bsExp1 else s.dec.hdr.bsExp0)

/-- The precomputed tables of a block size. -/
def Precomputed.get (p : Precomputed) (b : Bool) : BlockTables := if b then p.long else p.short

/-- Write the precomputed tables of a block size. -/
def Precomputed.set (p : Precomputed) (b : Bool) (t : BlockTables) : Precomputed :=
  if b then { p with long := t } else { p with short := t }

/-- `IMDCT_FN(n, X)` (R325): `n` values; all zeros where every input is a zero, of a sign that is left open (R328); otherwise the OPEN function of the
block size and the input (R329; log 13). -/
def imdctFn (n : Nat) (x : List F32) : List F32 :=
  if x.all f32IsZero then (List.range n).map fun i => f32Of (Config.imdctZeroNegative n x i) 0
  else (List.range n).map fun i => Config.imdctBin n x i

/-- `IMDCT_INIT(b)` (R321): the twiddle tables and the `n/8` entries of the bit-reversal table. That it runs where `BLOCK[b]` is none of the sizes of R324 is the
model's choice (log 39). -/
def imdctTables (b : Bool) : M Unit := fun s =>
  M.update
    (State.mapPre fun p =>
      p.set b
        { p.get b with
          twA := Config.twA (s.block b)
          twB := Config.twB (s.block b)
          twC := Config.twC (s.block b)
          bitrev := (List.range (s.block b / 8)).map (Config.bitrev (s.block b)) })
    s

/-- `IMDCT(b, ch)` (R325): the first half of the channel's buffer is transformed into the whole block, in place. R325 gives `b = CUR_FLAG`, so that
`BLOCK[b] = CUR_BLOCK`; issued alone with another `b` it runs with `n = BLOCK[b]`, which is the model's choice (log 34), and so is that
it runs where `BLOCK[b]` is none of the sizes of R324 (log 39). -/
def imdctChannel (b : Bool) (ch : Nat) : M Unit := do
  chanOperand ch
  energyOperand ch
  let n ← M.read fun s => s.block b
  M.update fun s => s.setCur ch (overlay (imdctFn n (atake (n / 2) (s.cur ch))) (s.cur ch))

/-- IMDCT_INIT (R321). -/
def execImdctInit (b : Bool) (s : State) : Out := microUnit (imdctTables b) s

/-- IMDCT (R325). -/
def execImdct (b : Bool) (ch : Nat) (s : State) : Out := microUnit (imdctChannel b ch) s

end Sys2Proof.Machine
end

