-- ==== Sys2Proof/Machine/Mapping.lean ====
section
/-! DEFINITION. Mapping and Mode tables (44_mapping_mode): `MAP_SETUP`, `MODE_SETUP`, and their selectors. -/

namespace Sys2Proof.Machine

/-- `MP[m]`. -/
def State.mapping (s : State) (m : Nat) : Mapping := aget s.dec.tabs.mp m

/-- Write `MP[m]`. -/
def setMapping (m : Nat) (g : Mapping → Mapping) : M Unit :=
  M.update (State.mapTabs fun t => { t with mp := aset t.mp m (g (aget t.mp m)) })

/-- A mapping number is below `N_MAPPINGS` (R301). -/
def mappingOperand (m : Nat) : M Unit := fun s => M.operand (m < s.dec.counts.nMappings) s

/-- `MD[k]`. -/
def State.mode (s : State) (k : Nat) : Mode := aget s.dec.tabs.md k

/-- Write `MD[k]`. -/
def setMode (k : Nat) (g : Mode → Mode) : M Unit :=
  M.update (State.mapTabs fun t => { t with md := aset t.md k (g (aget t.md k)) })

/-- A mode number is below `N_MODES` (R310). -/
def modeOperand (k : Nat) : M Unit := fun s => M.operand (k < s.dec.counts.nModes) s

/-- `submaps_flag` was 0 (R302). -/
def submapsAbsent (m : Nat) : M Unit := do
  mappingOperand m
  setMapping m fun e => { e with submaps := 1 }

/-- `submaps_flag` was 1 (R302). -/
def submapsPresent (m : Nat) : M Unit := do
  mappingOperand m
  let v ← readBits 4
  setMapping m fun e => { e with submaps := v + 1 }

/-- `coupling_flag` was 0 (R303). -/
def couplingAbsent (m : Nat) : M Unit := do
  mappingOperand m
  setMapping m fun e => { e with steps := [] }

/-- One coupling step (R303): the equality check comes first. Where `CHANNELS` is 0, as no header leaves it, `ilog(CHANNELS - 1)` has no value (00_scope R11), and
that the two fields have no bits there is the model's choice (log 38). -/
def readStep (channels : Nat) : M CouplingStep := do
  let mag ← readBits (ilog (channels - 1))
  let ang ← readBits (ilog (channels - 1))
  M.ensure (mag ≠ ang) (.raise .badCoupling)
  M.ensure (mag < channels ∧ ang < channels) (.fault .couplingChannel)
  pure { mag := mag, ang := ang }

/-- `coupling_flag` was 1 (R303). -/
def couplingPresent (m : Nat) : M Unit := do
  mappingOperand m
  let n ← readBits 8
  let channels ← M.read fun s => s.dec.hdr.channels
  let st ← collect (n + 1) 0 fun _ => readStep channels
  setMapping m fun e => { e with steps := st }

/-- The routing of one channel (R305). -/
def readMux (submaps : Nat) : M Nat :=
  if 1 < submaps then do
    let v ← readBits 4
    M.ensure (v < submaps) (.fault .muxRange)
    pure v
  else pure 0

/-- One submap: the floor and the residue number, after 8 bits that are discarded (R306). -/
def readSubmap : M (Nat × Nat) := do
  let _ ← readBits 8
  let f ← readBits 8
  let nf ← M.read fun s => s.dec.counts.nFloors
  M.ensure (f < nf) (.fault .submapEntry)
  let r ← readBits 8
  let nr ← M.read fun s => s.dec.counts.nResidues
  M.ensure (r < nr) (.fault .submapEntry)
  pure (f, r)

/-- Step 2 of `MAP_SETUP` after `submaps_flag` (R302). -/
def submapPart (m flag : Nat) : M Unit := if flag = 1 then submapsPresent m else submapsAbsent m

/-- Step 3 of `MAP_SETUP` after `coupling_flag` (R303). -/
def couplingPart (m flag : Nat) : M Unit := if flag = 1 then couplingPresent m else couplingAbsent m

/-- `MAP_SETUP` after the type field (R302 to R307). -/
def mappingBody (m : Nat) : M Unit := do
  mappingOperand m
  let sf ← readBit
  submapPart m sf
  let cf ← readBit
  couplingPart m cf
  let reserved ← readBits 2
  M.ensure (reserved = 0) (.raise .reservedBits)
  let channels ← M.read fun s => s.dec.hdr.channels
  let submaps ← M.read fun s => (s.mapping m).submaps
  let mux ← collect channels 0 fun _ => readMux submaps
  setMapping m fun e => { e with mux := mux }
  let subs ← collect submaps 0 fun _ => readSubmap
  setMapping m fun e => { e with subFloor := subs.map Prod.fst, subResidue := subs.map Prod.snd }

/-- `MAP_SETUP(m)` (R301). -/
def mappingSetup (m : Nat) : M Unit := do
  mappingOperand m
  let t ← readBits 16
  if t = 0 then mappingBody m else M.raise .unsupportedMappingType

/-- `BLOCKFLAG` was 0 (R310). -/
def blockShort (k : Nat) : M Unit := do
  modeOperand k
  setMode k fun e => { e with blockFlag := false }

/-- `BLOCKFLAG` was 1 (R310). -/
def blockLong (k : Nat) : M Unit := do
  modeOperand k
  setMode k fun e => { e with blockFlag := true }

/-- `BLOCKFLAG` of a mode (R310). -/
def blockPart (k flag : Nat) : M Unit := if flag = 1 then blockLong k else blockShort k

/-- `MODE_SETUP(k)` (R310). -/
def modeSetup (k : Nat) : M Unit := do
  modeOperand k
  let b ← readBit
  blockPart k b
  let w ← readBits 16
  M.ensure (w = 0) (.raise .reservedBits)
  let t ← readBits 16
  M.ensure (t = 0) (.raise .reservedBits)
  let m ← readBits 8
  setMode k fun e => { e with mapping := m }
  let n ← M.read fun s => s.dec.counts.nMappings
  M.ensure (m < n) (.fault .modeMapping)

/-- MAP_SETUP (R301). -/
def execMapSetup (m : Nat) (s : State) : Out := microUnit (mappingSetup m) s

/-- MODE_SETUP (R310). -/
def execModeSetup (k : Nat) (s : State) : Out := microUnit (modeSetup k) s

/-- MAPPING_TYPE_0: `mapping_type` has been read as 0 (R301). -/
def execMappingType0 (m : Nat) (s : State) : Out := microUnit (mappingBody m) s

/-- MAP_SUBMAPS_ABSENT: `submaps_flag` has been read as 0 (R302). -/
def execMapSubmapsAbsent (m : Nat) (s : State) : Out := microUnit (submapsAbsent m) s

/-- MAP_SUBMAPS_PRESENT: `submaps_flag` has been read as 1 (R302). -/
def execMapSubmapsPresent (m : Nat) (s : State) : Out := microUnit (submapsPresent m) s

/-- MAP_COUPLING_ABSENT: `coupling_flag` has been read as 0 (R303). -/
def execMapCouplingAbsent (m : Nat) (s : State) : Out := microUnit (couplingAbsent m) s

/-- MAP_COUPLING_PRESENT: `coupling_flag` has been read as 1 (R303). -/
def execMapCouplingPresent (m : Nat) (s : State) : Out := microUnit (couplingPresent m) s

/-- MODE_SHORT: `BLOCKFLAG` has been read as 0 (R310). -/
def execModeShort (k : Nat) (s : State) : Out := microUnit (blockShort k) s

/-- MODE_LONG: `BLOCKFLAG` has been read as 1 (R310). -/
def execModeLong (k : Nat) (s : State) : Out := microUnit (blockLong k) s

end Sys2Proof.Machine
end

