-- ==== Sys2Proof/Machine/Flags.lean ====
section
/-! DEFINITION. The one-bit flags of 10_state R42. There is no condition code; what is computed here is `NEED_RESIDUE` (46_frame_output R365) and
`DO_NOT_DECODE` (43_residue R280). `HAS_ENERGY` is written by the floor unit, `STEP2` by amplitude synthesis, `SEQ` by codebook setup. -/

namespace Sys2Proof.Machine

/-- One coupling step of the propagation: if either channel of the pair needs residue decode, both do (46_frame_output R365). -/
def propagateStep (need : List Bool) (st : CouplingStep) : List Bool :=
  if aget need st.mag || aget need st.ang then aset (aset need st.mag true) st.ang true else need

/-- `NEED_RESIDUE` from `HAS_ENERGY` over the coupling steps in ascending order (46_frame_output R365). -/
def propagate (channels : Nat) (hasEnergy : List Bool) (steps : List CouplingStep) : List Bool :=
  steps.foldl propagateStep (atake channels hasEnergy)

/-- `DO_NOT_DECODE[j]` of the channels of a submap (43_residue R280). -/
def doNotDecodeOf (need : List Bool) (chans : List Nat) : List Bool := chans.map fun c => !aget need c

end Sys2Proof.Machine
end

