-- ==== Sys2Proof/WellFormed.lean ====
section
/-! DEFINITION. Which instructions are well formed: every operand lies in the range its rule gives it, as far as that range does not depend on
the state. -/

namespace Sys2Proof

/-- A channel number some stream can have: channels are counted by an 8-bit field (10_state R33). -/
def chanWf (ch : Nat) : Bool := ch < 255

/-- A number of spectral bins some block size gives (46_frame_output R361). -/
def binsWf (n : Nat) : Bool := 2 * n ≤ Config.maxBlock

/-- A header type byte that `HDR_TAG` can expect (30_encoding R114). -/
def headerTypeWf (t : Byte) : Bool := t = 1#8 || t = 3#8 || t = 5#8

/-- The list of a submap's channels is strictly ascending (43_residue R280). -/
def ascending : List Nat → Bool
  | [] => true
  | [_] => true
  | a :: b :: rest => a < b && ascending (b :: rest)

/-- A vector inside one of the buffers of 10_state R60 and R64. -/
def Vec.wf (v : Vec) : Bool :=
  match v.ref with
  | .cur ch => chanWf ch && binsWf v.size
  | .interleave => v.size ≤ 255 * (Config.maxBlock / 2)

/-- Every operand of the instruction is in its rule's range. -/
def Instr.wf : Instr → Bool
  | .cmdOpen _ | .cmdSetup | .cmdDecode | .cmdOutput _ | .cmdClose => true
  | .rdbits n | .tryrd n => n ≤ Config.rdMax
  | .rdbit | .align | .rdu8 => true
  | .rdexact n => n < 2 ^ 32
  | .cbSetup c | .cbScalar c => c < Config.maxCodebooks
  | .cbVector c buf base stride => c < Config.maxCodebooks && buf.wf && base ≤ buf.size && 1 ≤ stride
  | .flSetup f => f < Config.maxTables
  | .flDecode ch f => chanWf ch && f < Config.maxTables
  | .flSynth ch f n => chanWf ch && f < Config.maxTables && binsWf n
  | .rsSetup r => r < Config.maxTables
  | .rsDecode r chans n => r < Config.maxTables && chans.all chanWf && ascending chans && binsWf n
  | .mapSetup m => m < Config.maxTables
  | .modeSetup k => k < Config.maxTables
  | .imdctInit _ => true
  | .imdct _ ch => chanWf ch
  | .hdrTag t => headerTypeWf t
  | .hdrIdent | .hdrComment | .hdrSetup => true
  | .winInit _ => true
  | .decouple m n => m < Config.maxTables && binsWf n
  | .pcmOut _ => true
  | .hdrTypeIdent t sync | .hdrTypeComment t sync | .hdrTypeSetup t sync => headerTypeWf t && sync.length = 6
  | .cbLenExplicit c | .cbLenRunLength c | .cbDense c | .cbSparse c => c < Config.maxCodebooks
  | .cbLookupNone c | .cbLookupLattice c | .cbLookupExplicit c => c < Config.maxCodebooks
  | .cbSeqOff c | .cbSeqOn c => c < Config.maxCodebooks
  | .floorType1 f => f < Config.maxTables
  | .residueType0 r | .residueType1 r | .residueType2 r => r < Config.maxTables
  | .mappingType0 m => m < Config.maxTables
  | .mapSubmapsAbsent m | .mapSubmapsPresent m => m < Config.maxTables
  | .mapCouplingAbsent m | .mapCouplingPresent m => m < Config.maxTables
  | .modeShort k | .modeLong k => k < Config.maxTables
  | .packetAudio | .packetNonAudio => true
  | .floorSilent ch f | .floorEnergy ch f => chanWf ch && f < Config.maxTables

end Sys2Proof
end

