-- ==== Sys2Proof/Machine/Residue.lean ====
section
/-! DEFINITION. The Residue unit (43_residue): `RS_SETUP`, `RS_DECODE`, and the residue type selectors. -/

namespace Sys2Proof.Machine

/-- `RS[r]`. -/
def State.residue (s : State) (r : Nat) : Residue := aget s.dec.tabs.rs r

/-- Write `RS[r]`. -/
def setResidue (r : Nat) (g : Residue → Residue) : M Unit :=
  M.update (State.mapTabs fun t => { t with rs := aset t.rs r (g (aget t.rs r)) })

/-- A residue number is below `N_RESIDUES` (R271, R280). -/
def residueOperand (r : Nat) : M Unit := fun s => M.operand (r < s.dec.counts.nResidues) s

-- RS_SETUP

/-- The high part of a cascade, where its flag is set (R273). -/
def readHigh (flag : Nat) : M Nat := if flag = 1 then readBits 5 else pure 0

/-- The cascade flags of one class (R273). -/
def readCascade : M Nat := do
  let low ← readBits 3
  let flag ← readBit
  let high ← readHigh flag
  pure (high * 8 + low)

/-- The book of one class in one pass (R274). -/
def readBook (cascade pass : Nat) : M (Option Nat) := do
  if bitOf cascade pass then
    let b ← readBits 8
    pure (some b)
  else pure none

/-- Every book named is below `N_CODEBOOKS` (R275). -/
def booksBelow (n : Nat) (books : List (List (Option Nat))) : Bool :=
  books.all fun row => row.all fun b =>
    match b with
    | some k => k < n
    | none => true

/-- Every book named has a lookup (93_implementation_defined, U16). -/
def State.booksLookUp (s : State) (books : List (List (Option Nat))) : Bool :=
  books.all fun row => row.all fun b => b.all fun k => (s.codebook k).lookupType ≠ 0

/-- `RS_SETUP` after the type field (R272 to R275). The last check is U16 of 93_implementation_defined, "fault at setup of the residue that names it", against
R275's "is not rejected here": the model's choice between the two (log 17). -/
def residueBody (r t : Nat) : M Unit := do
  residueOperand r
  let b ← readBits 24
  let e ← readBits 24
  let p ← readBits 24
  let nc ← readBits 6
  let cbk ← readBits 8
  let cascade ← collect (nc + 1) 0 fun _ => readCascade
  let books ← collect (nc + 1) 0 fun k => collect Config.nPasses 0 fun pass => readBook (aget cascade k) pass
  let n ← M.read fun s => s.dec.counts.nCodebooks
  M.ensure (cbk < n ∧ booksBelow n books = true) (.fault .residueBook)
  let dim ← M.read fun s => (s.codebook cbk).dim
  M.ensure (dim ≠ 0) (.fault .zeroDim)
  M.ensure (b ≤ e) (.fault .residueRange)
  let looked ← M.read fun s => s.booksLookUp books
  M.ensure (looked = true) (.fault .vectorWithoutLookup)
  setResidue r fun _ =>
    { rtype := t, beginPos := b, endPos := e, partSize := p + 1, nclass := nc + 1, classbook := cbk, cascade := cascade, books := books }

/-- `RS_SETUP(r)` (R271). -/
def residueSetup (r : Nat) : M Unit := do
  residueOperand r
  let t ← readBits 16
  match t with
  | 0 => residueBody r 0
  | 1 => residueBody r 1
  | 2 => residueBody r 2
  | _ => M.raise .unsupportedResidueType

-- RS_DECODE

/-- `lim_begin` (R281). -/
def limBegin (rs : Residue) (size : Nat) : Nat := min rs.beginPos size

/-- `partitions_to_read` (R281). -/
def partitionsToRead (rs : Residue) (size : Nat) : Nat := (min rs.endPos size - limBegin rs size) / rs.partSize

/-- The base-`NCLASS` digits of a classification, `k` of them, the most significant first (R283). -/
def classDigits (nclass : Nat) : Nat → Nat → List Nat
  | 0, _ => []
  | k + 1, t => classDigits nclass k (t / nclass) ++ [t % nclass]

/-- Write `CLASSIF[j][q ..]` (R283). -/
def setClassif (j q : Nat) (ds : List Nat) : M Unit :=
  M.update
    (State.mapWork fun w =>
      let row := aget w.classif j
      { w with classif := aset w.classif j (atake q row ++ overlay ds (row.drop q)) })

/-- `classify(j, q)` (R283). -/
def classify (rs : Residue) (cpc j q : Nat) : M Unit := do
  let t ← codebookScalar rs.classbook
  setClassif j q (classDigits rs.nclass cpc t)

/-- Partition format 0, strided (R285). -/
def decodeStrided (rs : Residue) (book : Nat) (v : Vec) (off : Nat) : M Unit := do
  let d ← M.read fun s => (s.codebook book).dim
  M.ensure (d ≠ 0) (.fault .zeroDim)
  forN (rs.partSize / d) 0 fun i => codebookVector book v (off + i) (rs.partSize / d)

/-- Partition format 1, contiguous (R286): the vectors start at `off`, `off + d`, ... until the partition is covered. -/
def decodeContiguous (rs : Residue) (book : Nat) (v : Vec) (off : Nat) : M Unit := do
  let d ← M.read fun s => (s.codebook book).dim
  forN (if d = 0 then 1 else (rs.partSize + d - 1) / d) 0 fun i => codebookVector book v (off + i * d) 1

/-- `decode_partition` (R284). -/
def decodePartition (rs : Residue) (book : Nat) (v : Vec) (off : Nat) : M Unit :=
  if rs.rtype = 0 then decodeStrided rs book v off else decodeContiguous rs book v off

/-- Vector `j` of partition `q` in one pass (R282). -/
def residueCell (rs : Residue) (vs : List Vec) (lim pass q j : Nat) : M Unit := do
  let cls ← M.read fun s => aget (aget s.dec.work.classif j) q
  match aget (aget rs.books cls) pass with
  | some book => decodePartition rs book (aget vs j) (lim + q * rs.partSize)
  | none => pure ()

/-- Run `body` for each vector that is not skipped (R282). -/
def forKept (dnd : List Bool) (body : Nat → M Unit) : M Unit :=
  forN dnd.length 0 fun j => if aget dnd j then pure () else body j

/-- The classifications of a group, in pass 0 only (R282). -/
def classifyGroup (rs : Residue) (dnd : List Bool) (cpc pass g : Nat) : M Unit :=
  if pass = 0 then forKept dnd fun j => classify rs cpc j (g * cpc) else pure ()

/-- One group of `cpc` partitions in one pass (R282). -/
def residueGroup (rs : Residue) (vs : List Vec) (dnd : List Bool) (lim total cpc pass g : Nat) : M Unit := do
  classifyGroup rs dnd cpc pass g
  forN (min cpc (total - g * cpc)) (g * cpc) fun q => forKept dnd fun j => residueCell rs vs lim pass q j

/-- `RS_INNER` (R282). -/
def residueInner (rs : Residue) (vs : List Vec) (dnd : List Bool) (size : Nat) : M Unit := do
  let cpc ← M.read fun s => (s.codebook rs.classbook).dim
  M.ensure (cpc ≠ 0) (.fault .zeroDim)
  let total := partitionsToRead rs size
  forN Config.nPasses 0 fun pass =>
    forN ((total + cpc - 1) / cpc) 0 fun g => residueGroup rs vs dnd (limBegin rs size) total cpc pass g

/-- `CUR[c][0..n-1] <- +0.0` (R288). -/
def zeroSpectrum (n c : Nat) : M Unit :=
  M.update fun s => s.setCur c (overlay (List.replicate n f32Zero) (s.cur c))

/-- Element `j` of every group of `m`, from position 0: the share of channel `j` (R287). -/
def deinterleave (v : List F32) (m n j : Nat) : List F32 := (List.range n).map fun i => aget v (i * m + j)

/-- `RS_DECODE` of types 0 and 1 (R287). -/
def residueSeparate (rs : Residue) (chans : List Nat) (dnd : List Bool) (n : Nat) : M Unit := do
  forList chans (zeroSpectrum n)
  residueInner rs (chans.map fun c => { ref := .cur c, size := n }) dnd n

/-- The one vector of a type 2 decode of `m` channels, unless every channel is skipped (R287). -/
def residueJoint (rs : Residue) (dnd : List Bool) (size : Nat) : M Unit :=
  if dnd.all id then pure () else residueInner rs [{ ref := .interleave, size := size }] [false] size

/-- `RS_DECODE` of type 2 (R287). R287 lets an implementation zero more than `n*m` elements of `INTERLEAVE`; that exactly `n*m` are zeroed and the elements above
them keep what they held is the model's choice (log 31): none of them is read. -/
def residueInterleaved (rs : Residue) (chans : List Nat) (dnd : List Bool) (n : Nat) : M Unit := do
  let m := chans.length
  M.update (State.mapWork fun w => { w with interleave := overlay (List.replicate (n * m) f32Zero) w.interleave })
  residueJoint rs dnd (n * m)
  forN m 0 fun j => M.update fun s =>
    s.setCur (aget chans j) (overlay (deinterleave s.dec.work.interleave m n j) (s.cur (aget chans j)))

/-- `RS_DECODE(r, chans, n)` (R280). R280 gives `n = CUR_BLOCK / 2` and the channels of one submap; issued alone with another `n` or another ascending list it runs
as given, which is the model's choice (log 35). `CLASSIF` and `DO_NOT_DECODE` are alive only inside one `RS_DECODE` (10_state R63); that they keep their last values
after it is the model's choice (log 31). -/
def residueDecode (r : Nat) (chans : List Nat) (n : Nat) : M Unit := do
  residueOperand r
  binsOperand n
  let chn ← M.read fun s => s.dec.hdr.channels
  M.operand (chans.all (fun c => c < chn) = true ∧ ascending chans = true)
  let rs ← M.read fun s => s.residue r
  M.operand (0 < rs.partSize ∧ 0 < rs.nclass)
  let need ← M.read fun s => s.dec.work.needResidue
  let dnd := doNotDecodeOf need chans
  M.update (State.mapWork fun w => { w with doNotDecode := overlay dnd w.doNotDecode })
  if rs.rtype = 2 then residueInterleaved rs chans dnd n else residueSeparate rs chans dnd n

/-- RS_SETUP (R271). -/
def execRsSetup (r : Nat) (s : State) : Out := microUnit (residueSetup r) s

/-- RS_DECODE (R280). -/
def execRsDecode (r : Nat) (chans : List Nat) (n : Nat) (s : State) : Out := microUnit (residueDecode r chans n) s

/-- RESIDUE_TYPE_0: `residue_type` has been read as 0 (R271); the entry's partitions have the strided format (R285). -/
def execResidueType0 (r : Nat) (s : State) : Out := microUnit (residueBody r 0) s

/-- RESIDUE_TYPE_1: `residue_type` has been read as 1 (R271); the entry's partitions have the contiguous format (R286). -/
def execResidueType1 (r : Nat) (s : State) : Out := microUnit (residueBody r 1) s

/-- RESIDUE_TYPE_2: `residue_type` has been read as 2 (R271); the entry's channels are one interleaved vector (R287). -/
def execResidueType2 (r : Nat) (s : State) : Out := microUnit (residueBody r 2) s

end Sys2Proof.Machine
end

