-- ==== Sys2Proof/Machine/Header.lean ====
section
/-! DEFINITION. The header operations of the orchestrator (46_frame_output R343 to R350): `HDR_TAG`, `HDR_IDENT`, `HDR_COMMENT`, `HDR_SETUP`, `WIN_INIT`, and
the header type selectors. -/

namespace Sys2Proof.Machine

/-- The six bytes after a header's type byte (30_encoding R114). -/
def syncBytes : List Byte := [0x76#8, 0x6F#8, 0x72#8, 0x62#8, 0x69#8, 0x73#8]

/-- The checks of a header tag: the type byte first (R343). -/
def tagCheck (expected type : Byte) (sync : List Byte) : M Unit := do
  M.ensure (type = expected) (.raise .badHeaderTag)
  M.ensure (sync = syncBytes) (.raise .badSync)

/-- `HDR_TAG(t)` (R343). -/
def headerTag (t : Byte) : M Unit := do
  let b ← readExact 7
  tagCheck t (b.getD 0 0#8) (b.drop 1)

/-- `HDR_IDENT()` (R344, R345). -/
def headerIdent : M Unit := do
  let h ← readExact 23
  M.ensure (le32 h 0 = 0) (.fault .version)
  let channels := (h.getD 4 0#8).toNat
  let rate := le32 h 5
  let exps := (h.getD 21 0#8).toNat
  M.update
    (State.mapHdr fun _ =>
      { channels := channels, sampleRate := BitVec.ofNat 32 rate, bsExp0 := exps % 16, bsExp1 := exps / 16 })
  M.ensure (channels ≠ 0) (.raise .badChannels)
  M.ensure (channels ≤ Config.maxChannels) (.fault .tooManyChannels)
  M.ensure (rate ≠ 0) (.fault .zeroSampleRate)
  M.ensure (Config.minBlockExp ≤ exps % 16 ∧ exps % 16 ≤ exps / 16 ∧ exps / 16 ≤ Config.maxBlockExp) (.raise .badBlockSize)
  M.ensure ((h.getD 22 0#8).toNat % 2 = 1) (.raise .badFraming)

/-- One length-prefixed string, passed over (R346). -/
def skipString : M Unit := do
  let l ← readExact 4
  skipBytes (le32 l 0)

/-- `HDR_COMMENT()` (R346): nothing is stored. -/
def headerComment : M Unit := do
  skipString
  let cc ← readExact 4
  forN (le32 cc 0) 0 fun _ => skipString
  let f ← readU8
  M.ensure (f.toNat % 2 = 1) (.raise .badFraming)

/-- One time-domain placeholder (R348). -/
def timePlaceholder : M Unit := do
  let v ← readBits 16
  M.ensure (v = 0) (.raise .reservedBits)

/-- The time-domain placeholders (R348). -/
def timePlaceholders : M Unit := do
  let tc ← readBits 6
  forN (tc + 1) 0 fun _ => timePlaceholder

/-- Codebook count and codebooks (R347). -/
def setupCodebooks : M Unit := do
  let n ← readBits 8
  M.update (State.mapCounts fun c => { c with nCodebooks := n + 1 })
  forN (n + 1) 0 codebookSetup

/-- Floor count and floors (R347). -/
def setupFloors : M Unit := do
  let n ← readBits 6
  M.update (State.mapCounts fun c => { c with nFloors := n + 1 })
  forN (n + 1) 0 floorSetup

/-- Residue count and residues (R347). -/
def setupResidues : M Unit := do
  let n ← readBits 6
  M.update (State.mapCounts fun c => { c with nResidues := n + 1 })
  forN (n + 1) 0 residueSetup

/-- Mapping count and mappings (R347). -/
def setupMappings : M Unit := do
  let n ← readBits 6
  M.update (State.mapCounts fun c => { c with nMappings := n + 1 })
  forN (n + 1) 0 mappingSetup

/-- Mode count, modes and the width of a packet's mode field (R347, 44_mapping_mode R312). -/
def setupModes : M Unit := do
  let n ← readBits 6
  M.update (State.mapCounts fun c => { c with nModes := n + 1 })
  forN (n + 1) 0 modeSetup
  M.update (State.mapCounts fun c => { c with modeBits := ilog n })

/-- The end of the setup header (R349). -/
def setupEnd : M Unit := do
  let f ← readBit
  M.ensure (f = 1) (.raise .badFraming)
  alignBits

/-- `HDR_SETUP()` (R347 to R349). -/
def headerSetup : M Unit := do
  setupCodebooks
  timePlaceholders
  setupFloors
  setupResidues
  setupMappings
  setupModes
  setupEnd

/-- `WIN_INIT(b)` (R350): the two window halves of `BLOCK[b]/2` entries from the OPEN parameter `WIN`. That it runs where
`BLOCK[b]` is no legal size (45_imdct R324) is the model's choice (log 39). -/
def windowTables (b : Bool) : M Unit := fun s =>
  M.update
    (State.mapPre fun p =>
      p.set b
        { p.get b with
          winCur := (List.range (s.block b / 2)).map (Config.winCur (s.block b))
          winPrev := (List.range (s.block b / 2)).map (Config.winPrev (s.block b)) })
    s

/-- HDR_TAG (R343). -/
def execHdrTag (t : Byte) (s : State) : Out := microUnit (headerTag t) s

/-- HDR_IDENT (R344). -/
def execHdrIdent (s : State) : Out := microUnit headerIdent s

/-- HDR_COMMENT (R346). -/
def execHdrComment (s : State) : Out := microUnit headerComment s

/-- HDR_SETUP (R347). -/
def execHdrSetup (s : State) : Out := microUnit headerSetup s

/-- WIN_INIT (R350). -/
def execWinInit (b : Bool) (s : State) : Out := microUnit (windowTables b) s

/-- HDR_TYPE_IDENT: the seven bytes of a tag have been taken where type `t` is expected, and the type byte is 0x01: the checks of R343, then the
identification header's body (30_encoding R114, R115; log 3). -/
def execHdrTypeIdent (t : Byte) (sync : List Byte) (s : State) : Out :=
  microUnit (do tagCheck t 0x01#8 sync; headerIdent) s

/-- HDR_TYPE_COMMENT: as above with type byte 0x03 and the comment header's body (R343, R346). -/
def execHdrTypeComment (t : Byte) (sync : List Byte) (s : State) : Out :=
  microUnit (do tagCheck t 0x03#8 sync; headerComment) s

/-- HDR_TYPE_SETUP: as above with type byte 0x05 and the setup header's body (R343, R347). -/
def execHdrTypeSetup (t : Byte) (sync : List Byte) (s : State) : Out :=
  microUnit (do tagCheck t 0x05#8 sync; headerSetup) s

end Sys2Proof.Machine
end

