-- ==== Sys2Proof/Machine/Frame.lean ====
section
/-! DEFINITION. The Frame Orchestrator and Output (46_frame_output): the five host commands, `DECOUPLE`, `PCM_OUT`, and the packet type selectors. -/

namespace Sys2Proof.Machine

-- DECODE

/-- One bin of inverse coupling: the four cases of R367. -/
def decoupleBin (mv av : F32) : F32 × F32 :=
  if f32Lt f32Zero mv then
    if f32Lt f32Zero av then (mv, fsub mv av) else (fadd mv av, mv)
  else
    if f32Lt f32Zero av then (mv, fadd mv av) else (fsub mv av, mv)

/-- One coupling step undone over bins `0 .. n - 1` (R367). A channel at or above `CHANNELS`, which only a header body issued alone after the mapping's setup can
leave in a step, is not stopped at: the model's choice (log 44). -/
def decoupleStep (n : Nat) (st : CouplingStep) : M Unit := fun s =>
  let pairs := List.zipWith decoupleBin (atake n (s.cur st.mag)) (atake n (s.cur st.ang))
  let s1 := s.setCur st.mag (overlay (pairs.map Prod.fst) (s.cur st.mag))
  .ok () (s1.setCur st.ang (overlay (pairs.map Prod.snd) (s.cur st.ang)))

/-- `DECOUPLE(m, n)`: the steps from the last to the first (R367). -/
def decoupleAll (m n : Nat) : M Unit := do
  mappingOperand m
  binsOperand n
  let steps ← M.read fun s => (s.mapping m).steps
  forList steps.reverse (decoupleStep n)

/-- `floor_of(ch)` (R360). A `MUX` that is shorter than `CHANNELS`, as only a header body issued alone after the mapping's setup leaves it, reads as 0 above its end:
the model's choice (log 44). -/
def floorOf (mp : Mapping) (ch : Nat) : Nat := aget mp.subFloor (aget mp.mux ch)

/-- `chans(s)`: the channels routed to a submap, ascending (R360). -/
def chansOf (mp : Mapping) (channels sub : Nat) : List Nat :=
  (List.range channels).filter fun ch => aget mp.mux ch = sub

/-- Propagation of the energy flags (R365). -/
def propagateFlags (channels : Nat) (steps : List CouplingStep) : M Unit :=
  M.update
    (State.mapWork fun w => { w with needResidue := overlay (propagate channels w.hasEnergy steps) w.needResidue })

/-- The floor multiply of one channel (R368). -/
def synthChannel (mp : Mapping) (n ch : Nat) : M Unit := do
  let e ← M.read fun s => aget s.dec.work.hasEnergy ch
  if e then floorSynth ch (floorOf mp ch) n else pure ()

/-- The time block of one channel: transformed, or zeroed if it has no energy (R369). -/
def transformChannel (ch : Nat) : M Unit := do
  let e ← M.read fun s => aget s.dec.work.hasEnergy ch
  let b ← M.read fun s => s.dec.frame.curFlag
  if e then imdctChannel b ch
  else
    M.update fun s => s.setCur ch (overlay (List.replicate s.dec.frame.curBlock f32Zero) (s.cur ch))

/-- The rest of the packet header (R361, R362): returns the packet's mapping number. Where no `HDR_IDENT` has written the block size exponents, `CUR_BLOCK` becomes a
size that 10_state R35 does not have, the model's choice (log 39). -/
def packetHeader : M Nat := do
  let mb ← M.read fun s => s.dec.counts.modeBits
  let k ← readBits mb
  let nm ← M.read fun s => s.dec.counts.nModes
  M.ensure (k < nm) (.fault .packetMode)
  let md ← M.read fun s => s.mode k
  M.update fun s => s.mapFrame fun f => { f with curFlag := md.blockFlag, curBlock := s.block md.blockFlag }
  if md.blockFlag then do
    let _ ← readBits 2
    pure md.mapping
  else pure md.mapping

/-- The frame of an audio packet on mapping `m` (R360, R363 to R370). That it runs on a mapping whose parts no longer fit each other, as MAP_SUBMAPS_PRESENT or
MAP_SUBMAPS_ABSENT issued alone after the mapping's setup leaves it (a missing `SUB_FLOOR` or `SUB_RESIDUE` is 0, a channel whose `MUX` is not below `SUBMAPS` is in
no submap), is the model's choice (log 44). At its end the life of `FLOOR_Y` is over (10_state R61; log 31). -/
def frameBody (m : Nat) : M Unit := do
  mappingOperand m
  M.update (State.mapFrame fun f => { f with curSel := !f.curSel })
  let mp ← M.read fun s => s.mapping m
  let channels ← M.read fun s => s.dec.hdr.channels
  let n ← M.read fun s => s.dec.frame.curBlock / 2
  forN channels 0 fun ch => floorDecode ch (floorOf mp ch)
  propagateFlags channels mp.steps
  forN mp.submaps 0 fun sub => residueDecode (aget mp.subResidue sub) (chansOf mp channels sub) n
  decoupleAll m n
  forN channels 0 (synthChannel mp n)
  forN channels 0 transformChannel
  M.update State.dropFloorY
  alignBits
  M.update (State.mapFrame fun f => { f with framePending := true })

/-- `DECODE` after the packet type bit 0 (R361 to R370). -/
def audioPacket : M Unit := do
  let m ← packetHeader
  frameBody m

/-- `DECODE` after the packet type bit 1 (R361). -/
def nonAudioPacket : M Unit := M.raise .nonAudioPacket

/-- `DECODE` (R360, R361, R371). -/
def decodePacket : M Unit := do
  match ← tryReadBits 1 with
  | none => M.raise .cleanEnd
  | some t => if t = 1 then nonAudioPacket else audioPacket

-- OUTPUT

/-- `PCM_OUT(s)` (R380): clamp, scale, truncate toward zero; `none` for a NaN. -/
def pcmOf (x : F32) : Option Sample :=
  if f32IsNaN x then none
  else
    let c := if f32Lt x f32MinusOne then f32MinusOne else if f32Lt f32One x then f32One else x
    some (BitVec.ofInt 16 (f32Trunc (fmul c f32PcmScale)))

/-- The conversion of one sample; a NaN is fault U29 (R380). -/
def pcmOut (x : F32) : M Sample :=
  match pcmOf x with
  | some v => pure v
  | none => M.fault .nanSample

/-- `o`, the smaller quarter block (R376). -/
def overlapHalf (p c : Nat) : Nat := min p c / 4

/-- The window pair of the smaller block (R378). -/
def windowSel (short p c : Nat) : Bool := if min p c = short then false else true

/-- `s(ch, t)` of a channel with previous block `prev` of size `p` and current block `cur` of size `c`, under a window pair (R377, R378, R379). -/
def sampleAt (prev cur winPrev winCur : List F32) (p c t : Nat) : F32 :=
  let o := overlapHalf p c
  if t < p / 4 - o then aget prev (p / 2 + t)
  else if t < p / 4 + o then
    let u := t - (p / 4 - o)
    fadd (fmul (aget prev (p / 2 + p / 4 - o + u)) (aget winPrev u)) (fmul (aget cur (c / 4 - o + u)) (aget winCur u))
  else aget cur (c / 4 + o + (t - (p / 4 + o)))

/-- The samples of one `OUTPUT` in write order: by sample index, and within one by channel (R381). -/
def outputSamples (s : State) : List F32 :=
  let p := s.dec.frame.prevBlock
  let c := s.dec.frame.curBlock
  let w := s.dec.pre.get (windowSel (s.block false) p c)
  (List.range (p / 4 + c / 4)).flatMap fun t =>
    (List.range s.dec.hdr.channels).map fun ch => sampleAt (s.prev ch) (s.cur ch) w.winPrev w.winCur p c t

/-- `MemWrite(OUT, PCM_OUT(...))` of each sample in turn (R381, 20_memory R88). -/
def writeSamples : List F32 → M Unit
  | [] => pure ()
  | x :: xs => do
    let v ← pcmOut x
    M.update fun s => s.setOut (s.out ++ [v])
    writeSamples xs

/-- What is emitted against a previous block of size `p`: nothing if there is none (R375). -/
def emitSamples (p : Nat) (xs : List F32) : M Unit := if p = 0 then pure () else writeSamples xs

/-- The number of samples that an `OUTPUT` writes (R375, R382). -/
def outputCount (s : State) : Nat :=
  if s.dec.frame.prevBlock = 0 then 0
  else (s.dec.frame.prevBlock / 4 + s.dec.frame.curBlock / 4) * s.dec.hdr.channels

/-- `OUTPUT` into a buffer of `cap` samples (R375); a buffer that is too small is outside the contract (R383, U24). -/
def outputFrame (cap : Nat) : M Unit := do
  let count ← M.read outputCount
  M.ensure (count ≤ cap) (.refuse .bufferTooSmall)
  M.update (State.setOut [])
  let p ← M.read fun s => s.dec.frame.prevBlock
  let xs ← M.read outputSamples
  emitSamples p xs
  M.update
    (State.mapFrame fun f => { f with outCount := BitVec.ofNat 32 count, prevBlock := f.curBlock, framePending := false })

-- OPEN, SETUP, CLOSE

/-- `OPEN` (R341): a decoder with the second column of 10_state R70, bound to the source. -/
def openStream (src : ByteSource) : M Unit :=
  M.update fun s => { s with phase := .uninit, err := Err.zero, dec := Decoder.fresh, src := src, srcPos := 0 }

/-- `SETUP` (R342). -/
def setupStream : M Unit := do
  headerTag 0x01#8
  headerIdent
  headerTag 0x03#8
  headerComment
  headerTag 0x05#8
  headerSetup
  M.update (State.setPhase .hdrs)
  windowTables false
  windowTables true
  imdctTables false
  imdctTables true
  M.update (State.setPhase .ready)

/-- `CLOSE` (R385): the decoder is destroyed and everything but `STATE` is unspecified; the source is released without being read (log 7, log 8). -/
def closeStream : M Unit :=
  M.update fun s =>
    { s.scramble with phase := .closed, err := Config.freeErr s.free, src := { bytes := [], terminal := .endOfStream } }

/-- OPEN: accepted when `STATE = CLOSED` (30_encoding R111, R341). -/
def execCmdOpen (src : ByteSource) (s : State) : Out := command (s.phase = .closed) (openStream src) s

/-- SETUP: accepted when `STATE = UNINIT` (R111, R342). -/
def execCmdSetup (s : State) : Out := command (s.phase = .uninit) setupStream s

/-- DECODE: accepted when `STATE = READY` and `FRAME_PENDING = 0` (R111, R360). -/
def execCmdDecode (s : State) : Out := command (s.phase = .ready ∧ s.dec.frame.framePending = false) decodePacket s

/-- OUTPUT: accepted when `STATE = READY` and `FRAME_PENDING = 1` (R111, R375). -/
def execCmdOutput (cap : Nat) (s : State) : Out := command (s.phase = .ready ∧ s.dec.frame.framePending = true) (outputFrame cap) s

/-- CLOSE: accepted in every state but `CLOSED` (R111, R385). -/
def execCmdClose (s : State) : Out := command (s.phase ≠ .closed) closeStream s

/-- DECOUPLE (R367). -/
def execDecouple (m n : Nat) (s : State) : Out := microUnit (decoupleAll m n) s

/-- PCM_OUT (R380). -/
def execPcmOut (x : F32) (s : State) : Out :=
  micro (do let v ← pcmOut x; pure (.sample v)) s

/-- PACKET_AUDIO: the packet type has been read as 0 (R361). Issued alone it runs with `FRAME_PENDING` 1 too, where a `DECODE` is refused (R386, 70_reset R435): it
exchanges the banks and overwrites the pending frame, the model's choice (log 41). -/
def execPacketAudio (s : State) : Out := microUnit audioPacket s

/-- PACKET_NON_AUDIO: the packet type has been read as 1 (R361). -/
def execPacketNonAudio (s : State) : Out := microUnit nonAudioPacket s

end Sys2Proof.Machine
end

