-- ==== Sys2Proof/Machine/Dispatch.lean ====
section
/-! DEFINITION. One arm per instruction: each is one direct call of the instruction's meaning. -/

namespace Sys2Proof.Machine

def exec (i : Instr) (s : State) : Host.Outcome State Fault Refusal :=
  match i with
  | .cmdOpen src => Sys2Proof.Machine.execCmdOpen src s
  | .cmdSetup => Sys2Proof.Machine.execCmdSetup s
  | .cmdDecode => Sys2Proof.Machine.execCmdDecode s
  | .cmdOutput cap => Sys2Proof.Machine.execCmdOutput cap s
  | .cmdClose => Sys2Proof.Machine.execCmdClose s
  | .rdbits n => Sys2Proof.Machine.execRdbits n s
  | .rdbit => Sys2Proof.Machine.execRdbit s
  | .tryrd n => Sys2Proof.Machine.execTryrd n s
  | .align => Sys2Proof.Machine.execAlign s
  | .rdu8 => Sys2Proof.Machine.execRdu8 s
  | .rdexact n => Sys2Proof.Machine.execRdexact n s
  | .cbSetup c => Sys2Proof.Machine.execCbSetup c s
  | .cbScalar c => Sys2Proof.Machine.execCbScalar c s
  | .cbVector c buf base stride => Sys2Proof.Machine.execCbVector c buf base stride s
  | .flSetup f => Sys2Proof.Machine.execFlSetup f s
  | .flDecode ch f => Sys2Proof.Machine.execFlDecode ch f s
  | .flSynth ch f n => Sys2Proof.Machine.execFlSynth ch f n s
  | .rsSetup r => Sys2Proof.Machine.execRsSetup r s
  | .rsDecode r chans n => Sys2Proof.Machine.execRsDecode r chans n s
  | .mapSetup m => Sys2Proof.Machine.execMapSetup m s
  | .modeSetup k => Sys2Proof.Machine.execModeSetup k s
  | .imdctInit b => Sys2Proof.Machine.execImdctInit b s
  | .imdct b ch => Sys2Proof.Machine.execImdct b ch s
  | .hdrTag t => Sys2Proof.Machine.execHdrTag t s
  | .hdrIdent => Sys2Proof.Machine.execHdrIdent s
  | .hdrComment => Sys2Proof.Machine.execHdrComment s
  | .hdrSetup => Sys2Proof.Machine.execHdrSetup s
  | .winInit b => Sys2Proof.Machine.execWinInit b s
  | .decouple m n => Sys2Proof.Machine.execDecouple m n s
  | .pcmOut x => Sys2Proof.Machine.execPcmOut x s
  | .hdrTypeIdent t sync => Sys2Proof.Machine.execHdrTypeIdent t sync s
  | .hdrTypeComment t sync => Sys2Proof.Machine.execHdrTypeComment t sync s
  | .hdrTypeSetup t sync => Sys2Proof.Machine.execHdrTypeSetup t sync s
  | .cbLenExplicit c => Sys2Proof.Machine.execCbLenExplicit c s
  | .cbLenRunLength c => Sys2Proof.Machine.execCbLenRunLength c s
  | .cbDense c => Sys2Proof.Machine.execCbDense c s
  | .cbSparse c => Sys2Proof.Machine.execCbSparse c s
  | .cbLookupNone c => Sys2Proof.Machine.execCbLookupNone c s
  | .cbLookupLattice c => Sys2Proof.Machine.execCbLookupLattice c s
  | .cbLookupExplicit c => Sys2Proof.Machine.execCbLookupExplicit c s
  | .cbSeqOff c => Sys2Proof.Machine.execCbSeqOff c s
  | .cbSeqOn c => Sys2Proof.Machine.execCbSeqOn c s
  | .floorType1 f => Sys2Proof.Machine.execFloorType1 f s
  | .residueType0 r => Sys2Proof.Machine.execResidueType0 r s
  | .residueType1 r => Sys2Proof.Machine.execResidueType1 r s
  | .residueType2 r => Sys2Proof.Machine.execResidueType2 r s
  | .mappingType0 m => Sys2Proof.Machine.execMappingType0 m s
  | .mapSubmapsAbsent m => Sys2Proof.Machine.execMapSubmapsAbsent m s
  | .mapSubmapsPresent m => Sys2Proof.Machine.execMapSubmapsPresent m s
  | .mapCouplingAbsent m => Sys2Proof.Machine.execMapCouplingAbsent m s
  | .mapCouplingPresent m => Sys2Proof.Machine.execMapCouplingPresent m s
  | .modeShort k => Sys2Proof.Machine.execModeShort k s
  | .modeLong k => Sys2Proof.Machine.execModeLong k s
  | .packetAudio => Sys2Proof.Machine.execPacketAudio s
  | .packetNonAudio => Sys2Proof.Machine.execPacketNonAudio s
  | .floorSilent ch f => Sys2Proof.Machine.execFloorSilent ch f s
  | .floorEnergy ch f => Sys2Proof.Machine.execFloorEnergy ch f s

end Sys2Proof.Machine
end

