-- ==== Sys2Proof/Machine/Step.lean ====
section
/-! DEFINITION. One step: the next request is taken, decoded and executed. -/

namespace Sys2Proof.Machine

/-- One step. With no request to come the block is idle (log 2); a request that is no instruction is answered by `reject`. -/
def step (s : State) : Host.Outcome State Fault Refusal :=
  match s.issue with
  | none => .next s
  | some (f, s') =>
    match decode f with
    | .ok i => exec i s'
    | .error e => reject e s'

/-- The state in which the next step takes the request that a bare word of the opcode table stands for, with operands zero. -/
def State.withFetchWord (s : State) (nbits w : Nat) : State := s.place (tableRequest nbits w)

end Sys2Proof.Machine
end

