-- ==== Sys2Proof/Safety.lean ====
section
/-! DEFINITION. The terms in which claims are stated: the unread stream as bits, the stream forms of the headers and of the table entries
(30_encoding R113 to R130), and the invariants of the machine. -/

namespace Sys2Proof.Machine

-- the stream as bits

/-- The `w` lowest bits of a number, bit 0 first (20_memory R83, R84). -/
def bitsOf : Nat → Nat → List Bool
  | 0, _ => []
  | w + 1, v => (v % 2 = 1) :: bitsOf w (v / 2)

/-- The number whose bit 0 is the first of the bits (20_memory R84). -/
def bitsNat : List Bool → Nat
  | [] => 0
  | b :: bs => b.toNat + 2 * bitsNat bs

/-- The bits of some bytes, in the order in which they are read (20_memory R83). -/
def byteBits (bs : List Byte) : List Bool := bs.flatMap fun b => bitsOf 8 b.toNat

/-- The unread bits of the stream: those that the accumulator holds, then those of the bytes to come (10_state R40, R41). -/
def State.ahead (s : State) : List Bool := bitsOf s.dec.bits.nbits s.dec.bits.acc.toNat ++ byteBits s.src.bytes

/-- The accumulator holds `NBITS` bits and no others (10_state R41). -/
abbrev BitReader.Valid (r : BitReader) : Prop := r.nbits ≤ 31 ∧ r.acc.toNat < 2 ^ r.nbits

/-- What holds whenever no bit-reader operation is in progress (40_bit_reader R170). -/
abbrev BitReader.AtRest (r : BitReader) : Prop := r.nbits ≤ 7 ∧ r.acc.toNat < 2 ^ r.nbits

/-- The bytes that a read of `k` more bits takes: the fewest that hold them (20_memory R82). -/
def State.bytesFor (s : State) (k : Nat) : Nat := (k - s.dec.bits.nbits + 7) / 8

/-- The state in which the cursor has moved on by `k` bits, and nothing else has changed (10_state R40). -/
def State.advance (k : Nat) (s : State) : State :=
  { s with
    dec :=
      { s.dec with
        bits :=
          { acc := BitVec.ofNat 32 (bitsNat ((s.ahead.drop k).take (s.dec.bits.nbits + 8 * s.bytesFor k - k)))
            nbits := s.dec.bits.nbits + 8 * s.bytesFor k - k } }
    src := { s.src with bytes := s.src.bytes.drop (s.bytesFor k) }
    srcPos := s.srcPos + s.bytesFor k }

/-- The state in which the bits left of the last byte are discarded (40_bit_reader R177). -/
def State.aligned (s : State) : State := s.mapBits fun _ => BitReader.empty

/-- The bits of a list of fields `width, value`, in the notation of the rules' worked examples (`5:16 4:0`). -/
def fieldBits : List (Nat × Nat) → List Bool
  | [] => []
  | (w, v) :: fs => bitsOf w v ++ fieldBits fs

/-- The next unread bits are those of the fields. -/
abbrev State.Reads (s : State) (fs : List (Nat × Nat)) : Prop := fieldBits fs <+: s.ahead

/-- The state after the fields. -/
def State.past (fs : List (Nat × Nat)) (s : State) : State := s.advance (fieldBits fs).length

/-- A one-bit field. -/
def flagField (b : Bool) : Nat × Nat := (1, b.toNat)

-- stream forms: codebooks (30_encoding R118 to R122)

/-- The lengths of a list in which every entry has one (R119, `sparse = 0`). -/
def denseFields (lens : List Nat) : List (Nat × Nat) := lens.map fun l => (5, l - 1)

/-- The lengths of a list with a used flag per entry (R119, `sparse = 1`). -/
def sparseFields (lens : List Nat) : List (Nat × Nat) :=
  lens.flatMap fun l => if l = 0 then [(1, 0)] else [(1, 1), (5, l - 1)]

/-- The run counts of a run-length list from entry `cur` on (R120). -/
def runFields (entries : Nat) : Nat → List Nat → List (Nat × Nat)
  | _, [] => []
  | cur, k :: ks => (ilog (entries - cur), k) :: runFields entries (cur + k) ks

/-- The lengths that run counts stand for, the first run having length `len` (R120). -/
def runLens : Nat → List Nat → List Nat
  | _, [] => []
  | len, k :: ks => List.replicate k len ++ runLens (len + 1) ks

/-- The runs end exactly where the entries do, none before the last reaches the end, and no entry gets a length above 32 (41_codebook R194). -/
def runsLegal (entries : Nat) : Nat → Nat → List Nat → Bool
  | _, _, [] => false
  | cur, len, [k] => cur + k = entries && (k = 0 || len ≤ Config.maxCwLen)
  | cur, len, k :: ks => cur + k < entries && (k = 0 || len ≤ Config.maxCwLen) && runsLegal entries (cur + k) (len + 1) ks

/-- The three forms of a length list (R119, R120). -/
inductive LenForm where
  | dense
  | sparse
  | runs (first : Nat) (counts : List Nat)
deriving DecidableEq, Repr

/-- The fields of a length list after `ordered`. -/
def LenForm.body (f : LenForm) (lens : List Nat) : List (Nat × Nat) :=
  match f with
  | .dense => (1, 0) :: denseFields lens
  | .sparse => (1, 1) :: sparseFields lens
  | .runs first counts => (5, first - 1) :: runFields lens.length 0 counts

/-- The fields of a length list from `ordered` on. -/
def LenForm.fields (f : LenForm) (lens : List Nat) : List (Nat × Nat) :=
  match f with
  | .runs _ _ => (1, 1) :: f.body lens
  | _ => (1, 0) :: f.body lens

/-- The form can hold the lengths. -/
def LenForm.legal (f : LenForm) (lens : List Nat) : Bool :=
  match f with
  | .dense => lens.all fun l => 1 ≤ l && l ≤ Config.maxCwLen
  | .sparse => lens.all fun l => l ≤ Config.maxCwLen
  | .runs first counts =>
    1 ≤ first && first ≤ Config.maxCwLen && runsLegal lens.length 0 first counts && decide (runLens first counts = lens)

/-- The lookup part of a codebook with a lookup: the two packed floats as words, and the multiplicands (R121). -/
structure LookupForm where
  minWord : BitVec 32
  deltaWord : BitVec 32
  valueBits : Nat
  seq : Bool
  mult : List Nat
deriving DecidableEq, Repr

/-- The fields of a 32-bit field read in two halves (40_bit_reader R181). -/
def halfFields (w : BitVec 32) : List (Nat × Nat) := [(16, w.toNat % 2 ^ 16), (16, w.toNat / 2 ^ 16)]

/-- The fields of a lookup after `LOOKUP_TYPE`. -/
def LookupForm.fields (f : LookupForm) : List (Nat × Nat) :=
  halfFields f.minWord ++ halfFields f.deltaWord ++ [(4, f.valueBits - 1), flagField f.seq] ++ f.mult.map fun m => (f.valueBits, m)

/-- The multiplicands are as many as the lookup type asks for, of the width given (R121). -/
def LookupForm.legal (f : LookupForm) (values : Nat) : Bool :=
  1 ≤ f.valueBits && f.valueBits ≤ 16 && f.mult.length = values && f.mult.all fun m => m < 2 ^ f.valueBits

/-- What a lookup of type `t` stores in a codebook entry (41_codebook R200). -/
def LookupForm.store (f : LookupForm) (t : Nat) (b : Codebook) : Codebook :=
  { b with
    lookupType := t
    minVal := float32Unpack f.minWord.toNat
    delta := float32Unpack f.deltaWord.toNat
    seq := f.seq
    valueBits := f.valueBits
    lookupValues := f.mult.length
    mult := f.mult }

/-- A codebook header: dimension, lengths and their form, and the lookup with its type, if there is one (R118). -/
structure CodebookForm where
  dim : Nat
  lens : List Nat
  lenForm : LenForm
  lookup : Option (Bool × LookupForm)
deriving DecidableEq, Repr

/-- The type of the lookup: false is the lattice, 1, and true the explicit one, 2 (R121). -/
def lookupNumber (explicit : Bool) : Nat := if explicit then 2 else 1

/-- The fields of the lookup part from `LOOKUP_TYPE` on. -/
def CodebookForm.lookupFields (f : CodebookForm) : List (Nat × Nat) :=
  match f.lookup with
  | none => [(4, 0)]
  | some (explicit, l) => (4, lookupNumber explicit) :: l.fields

/-- The fields of a codebook header (R118). -/
def CodebookForm.fields (f : CodebookForm) : List (Nat × Nat) :=
  [(24, 0x564342), (16, f.dim), (24, f.lens.length)] ++ f.lenForm.fields f.lens ++ f.lookupFields

/-- The number of multiplicands of a lookup (41_codebook R200). -/
def lookupCount (explicit : Bool) (entries dim : Nat) : Nat := if explicit then entries * dim else lookup1Values entries dim

/-- Every field is in its range, the code is not over-subscribed, and the lattice has a dimension. -/
def CodebookForm.legal (f : CodebookForm) : Bool :=
  f.dim < 2 ^ 16 && f.lens.length < 2 ^ 24 && f.lenForm.legal f.lens && (assignFrom 0 f.lens).isSome &&
    match f.lookup with
    | none => true
    | some (explicit, l) => (explicit || f.dim ≠ 0) && l.legal (lookupCount explicit f.lens.length f.dim)

/-- The codewords of a list of lengths, in storage order (41_codebook R195, R196). -/
def codesOf (lens : List Nat) : List Code :=
  match assignFrom 0 lens with
  | some (cs, _) => storeOrder cs
  | none => []

/-- The tracker after the assignment (41_codebook R196). -/
def trackerOf (lens : List Nat) : List (BitVec 32) :=
  match assignFrom 0 lens with
  | some (_, next) => next
  | none => []

/-- What a codebook header stores in an entry (41_codebook R192 to R200). -/
def CodebookForm.store (f : CodebookForm) (b : Codebook) : Codebook :=
  let b' := { b with dim := f.dim, entries := f.lens.length, codes := codesOf f.lens }
  match f.lookup with
  | none => { b' with lookupType := 0 }
  | some (explicit, l) => l.store (lookupNumber explicit) b'

-- stream forms: floors (30_encoding R124)

/-- A sub-book field: 0 is "no book". -/
def bookField (b : Option Nat) : Nat × Nat :=
  (8, match b with
    | none => 0
    | some k => k + 1)

/-- The fields of one class. -/
def FloorClass.fields (c : FloorClass) : List (Nat × Nat) :=
  [(3, c.dim - 1), (2, c.subexp)] ++ (if 0 < c.subexp then [(8, c.master)] else []) ++ c.subbook.map bookField

/-- A class whose books are below `n` (42_floor R233). -/
def FloorClass.legal (n : Nat) (c : FloorClass) : Bool :=
  1 ≤ c.dim && c.dim ≤ 8 && c.subexp ≤ 3 && c.subbook.length = 2 ^ c.subexp &&
    (if 0 < c.subexp then c.master < n && c.master < 256 else c.master = 0) &&
    c.subbook.all fun b =>
      match b with
      | none => true
      | some k => k < n && k < 255

/-- The fields of a floor after its type (R124). -/
def Floor.fields (fl : Floor) : List (Nat × Nat) :=
  (5, fl.partClass.length) :: fl.partClass.map (fun k => (4, k)) ++ fl.classes.flatMap FloorClass.fields ++
    [(2, fl.mult - 1), (4, fl.rangebits)] ++ (fl.xs.drop 2).map fun x => (fl.rangebits, x)

/-- The fields of a floor after its type, as far as its classes `cs` have been read. -/
def floorHead (partClass : List Nat) (cs : List FloorClass) : List (Nat × Nat) :=
  (5, partClass.length) :: partClass.map (fun k => (4, k)) ++ cs.flatMap FloorClass.fields

/-- The number of X values that the partitions give (42_floor R235). -/
def Floor.dims (fl : Floor) : Nat := (fl.partClass.map fun k => (aget fl.classes k).dim).sum

/-- A floor entry that a header can hold and setup accepts, with `n` codebooks (42_floor R232 to R238). -/
def Floor.legal (n : Nat) (fl : Floor) : Bool :=
  fl.partitions = fl.partClass.length && fl.partitions ≤ 31 && fl.partClass.all (fun k => k < 16) &&
    fl.classes.length = classCount fl.partClass && fl.classes.all (FloorClass.legal n) &&
    1 ≤ fl.mult && fl.mult ≤ 4 && fl.range = rangeOf (fl.mult - 1) && fl.rangebits ≤ 15 &&
    fl.xs.take 2 = [0, 2 ^ fl.rangebits] && fl.xs.length = 2 + fl.dims && fl.xs.length ≤ Config.floorMaxValues &&
    (fl.xs.drop 2).all (fun x => x < 2 ^ fl.rangebits) && distinct fl.xs && fl.sort = sortPositions fl.xs

-- stream forms: residues (30_encoding R125)

/-- The fields of one class's cascade; the flag says whether the high part is there. -/
def cascadeFields (p : Nat × Bool) : List (Nat × Nat) :=
  [(3, p.1 % 8), flagField p.2] ++ if p.2 then [(5, p.1 / 8)] else []

/-- The fields of one class's books: those that are there. -/
def bookRowFields (row : List (Option Nat)) : List (Nat × Nat) := row.filterMap fun b => b.map fun k => (8, k)

/-- The fields of a residue after its type. -/
def Residue.fields (flags : List Bool) (rs : Residue) : List (Nat × Nat) :=
  [(24, rs.beginPos), (24, rs.endPos), (24, rs.partSize - 1), (6, rs.nclass - 1), (8, rs.classbook)] ++
    (rs.cascade.zip flags).flatMap cascadeFields ++ rs.books.flatMap bookRowFields

/-- A row of books belongs to a cascade, and its books are below `n` (43_residue R274, R275). -/
def bookRowLegal (n : Nat) (p : Nat × List (Option Nat)) : Bool :=
  p.2.length = Config.nPasses &&
    (List.range Config.nPasses).all fun pass =>
      match aget p.2 pass with
      | none => !bitOf p.1 pass
      | some k => bitOf p.1 pass && k < n && k < 256

/-- A residue entry that a header can hold and setup accepts, with `n` codebooks, as far as these can tell without their contents (43_residue R272 to R275). -/
def Residue.legal (n : Nat) (flags : List Bool) (rs : Residue) : Bool :=
  rs.rtype ≤ 2 && rs.beginPos ≤ rs.endPos && rs.endPos < 2 ^ 24 && 1 ≤ rs.partSize && rs.partSize ≤ 2 ^ 24 && 1 ≤ rs.nclass &&
    rs.nclass ≤ 64 && rs.classbook < n && rs.classbook < 256 && rs.cascade.length = rs.nclass && flags.length = rs.nclass &&
    rs.books.length = rs.nclass && (rs.cascade.zip flags).all (fun p => if p.2 then p.1 < 256 else p.1 < 8) &&
    (rs.cascade.zip rs.books).all (bookRowLegal n)

/-- A residue entry that a header can hold, whatever setup thinks of its books and its range (43_residue R272 to R274). -/
def Residue.readable (flags : List Bool) (rs : Residue) : Bool :=
  { rs with beginPos := 0, classbook := 0 }.legal 256 flags && rs.beginPos < 2 ^ 24 && rs.classbook < 256

-- stream forms: mappings and modes (30_encoding R126, R127)

/-- Which optional fields of a mapping are there, and the discarded field of each submap. -/
structure MappingForm where
  submapsFlag : Bool
  couplingFlag : Bool
  times : List Nat
deriving DecidableEq, Repr

/-- The submap count, if it is there. -/
def MappingForm.countFields (f : MappingForm) (mp : Mapping) : List (Nat × Nat) := if f.submapsFlag then [(4, mp.submaps - 1)] else []

/-- The two channels of one coupling step. -/
def pairFields (channels : Nat) (st : CouplingStep) : List (Nat × Nat) := [(ilog (channels - 1), st.mag), (ilog (channels - 1), st.ang)]

/-- The coupling steps, if they are there. -/
def stepFields (channels : Nat) (steps : List CouplingStep) : List (Nat × Nat) := (8, steps.length - 1) :: steps.flatMap (pairFields channels)

/-- The three fields of one submap. -/
def submapTriple (p : Nat × Nat × Nat) : List (Nat × Nat) := [(8, p.1), (8, p.2.1), (8, p.2.2)]

/-- The fields of a mapping after its type, up to its reserved field. -/
def MappingForm.head (f : MappingForm) (channels : Nat) (mp : Mapping) : List (Nat × Nat) :=
  flagField f.submapsFlag :: f.countFields mp ++
    flagField f.couplingFlag :: (if f.couplingFlag then stepFields channels mp.steps else [])

/-- The routing of the channels, which is there if there is more than one submap. -/
def muxFields (submaps : Nat) (mux : List Nat) : List (Nat × Nat) := if 1 < submaps then mux.map fun v => (4, v) else []

/-- The fields of a mapping after its type. -/
def MappingForm.fields (f : MappingForm) (channels : Nat) (mp : Mapping) : List (Nat × Nat) :=
  f.head channels mp ++ (2, 0) :: muxFields mp.submaps mp.mux ++ (f.times.zip (mp.subFloor.zip mp.subResidue)).flatMap submapTriple

/-- A coupling step between two different channels of the stream (44_mapping_mode R303). -/
def CouplingStep.legal (channels : Nat) (st : CouplingStep) : Bool := st.mag ≠ st.ang && st.mag < channels && st.ang < channels

/-- The part of a mapping entry before its reserved field is one that a header can hold and setup accepts (44_mapping_mode R302, R303). -/
def MappingForm.headLegal (f : MappingForm) (channels : Nat) (mp : Mapping) : Bool :=
  1 ≤ mp.submaps && mp.submaps ≤ 16 && (f.submapsFlag || mp.submaps = 1) &&
    (if f.couplingFlag then 1 ≤ mp.steps.length && mp.steps.length ≤ 256 else mp.steps = []) &&
    mp.steps.all (CouplingStep.legal channels)

/-- A mapping entry that a header can hold and setup accepts (44_mapping_mode R302 to R307). -/
def MappingForm.legal (f : MappingForm) (channels nFloors nResidues : Nat) (mp : Mapping) : Bool :=
  f.headLegal channels mp && mp.mux.length = channels && mp.mux.all (fun v => v < mp.submaps) &&
    f.times.length = mp.submaps && f.times.all (fun v => v < 256) &&
    mp.subFloor.length = mp.submaps && mp.subFloor.all (fun v => v < nFloors && v < 256) &&
    mp.subResidue.length = mp.submaps && mp.subResidue.all fun v => v < nResidues && v < 256

/-- The fields of a mode (R127). -/
def Mode.fields (md : Mode) : List (Nat × Nat) := [flagField md.blockFlag, (16, 0), (16, 0), (8, md.mapping)]

-- stream forms: headers (30_encoding R114 to R117)

/-- A 32-bit number as four bytes, least significant first (20_memory R85). -/
def le32Bytes (v : BitVec 32) : List Byte := [v.setWidth 8, (v >>> 8).setWidth 8, (v >>> 16).setWidth 8, (v >>> 24).setWidth 8]

/-- The seven bytes of a header tag (R114). -/
def tagBytes (t : Byte) : List Byte := t :: syncBytes

/-- An identification header: the numbers that are kept, and the bytes that are ignored (R115). -/
structure IdentForm where
  version : BitVec 32
  channels : Byte
  rate : BitVec 32
  bitrates : List Byte
  exps : Byte
  framing : Byte
deriving DecidableEq, Repr

/-- The 23 bytes of an identification header after its tag (R115). -/
def IdentForm.bytes (f : IdentForm) : List Byte :=
  le32Bytes f.version ++ f.channels :: le32Bytes f.rate ++ f.bitrates ++ [f.exps, f.framing]

/-- The header is accepted (46_frame_output R344, R345). -/
abbrev IdentForm.Legal (f : IdentForm) : Prop :=
  f.bitrates.length = 12 ∧ f.version = 0#32 ∧ f.channels ≠ 0#8 ∧ f.channels.toNat ≤ Config.maxChannels ∧ f.rate ≠ 0#32 ∧
    Config.minBlockExp ≤ f.exps.toNat % 16 ∧ f.exps.toNat % 16 ≤ f.exps.toNat / 16 ∧ f.exps.toNat / 16 ≤ Config.maxBlockExp ∧
    f.framing.toNat % 2 = 1

/-- What the header stores (46_frame_output R344). -/
def IdentForm.regs (f : IdentForm) : StreamRegs :=
  { channels := f.channels.toNat, sampleRate := f.rate, bsExp0 := f.exps.toNat % 16, bsExp1 := f.exps.toNat / 16 }

/-- A string with its length before it (R116). -/
def stringBytes (v : List Byte) : List Byte := le32Bytes (BitVec.ofNat 32 v.length) ++ v

/-- A comment header: the vendor string, the comments and the framing byte (R116). -/
structure CommentForm where
  vendor : List Byte
  comments : List (List Byte)
  framing : Byte
deriving DecidableEq, Repr

/-- The bytes of a comment header after its tag (R116). -/
def CommentForm.bytes (f : CommentForm) : List Byte :=
  stringBytes f.vendor ++ le32Bytes (BitVec.ofNat 32 f.comments.length) ++ f.comments.flatMap stringBytes ++ [f.framing]

/-- The header is accepted (46_frame_output R346). -/
abbrev CommentForm.Legal (f : CommentForm) : Prop :=
  f.vendor.length < 2 ^ 32 ∧ f.comments.length < 2 ^ 32 ∧ (∀ c ∈ f.comments, c.length < 2 ^ 32) ∧ f.framing.toNat % 2 = 1

/-- A setup header: the entries of each table with their forms (R117). -/
structure SetupForm where
  codebooks : List CodebookForm
  timeCount : Nat
  floors : List Floor
  residues : List (List Bool × Residue)
  mappings : List (MappingForm × Mapping)
  modes : List Mode
deriving DecidableEq, Repr

/-- The fields of a setup header after its tag, without the framing flag (R117). -/
def SetupForm.body (f : SetupForm) (channels : Nat) : List (Nat × Nat) :=
  (8, f.codebooks.length - 1) :: f.codebooks.flatMap CodebookForm.fields ++
    (6, f.timeCount - 1) :: List.replicate f.timeCount (16, 0) ++
    (6, f.floors.length - 1) :: f.floors.flatMap (fun fl => (16, 1) :: fl.fields) ++
    (6, f.residues.length - 1) :: f.residues.flatMap (fun p => (16, p.2.rtype) :: p.2.fields p.1) ++
    (6, f.mappings.length - 1) :: f.mappings.flatMap (fun p => (16, 0) :: p.1.fields channels p.2) ++
    (6, f.modes.length - 1) :: f.modes.flatMap Mode.fields

/-- The fields of a setup header after its tag, up to the framing flag (R117). -/
def SetupForm.fields (f : SetupForm) (channels : Nat) : List (Nat × Nat) := f.body channels ++ [(1, 1)]

/-- A count that its field can hold. -/
def countLegal (n most : Nat) : Bool := 1 ≤ n && n ≤ most

/-- The dimension of the codebook that classifies a residue is not 0 (43_residue R275). -/
def classbookLegal (codebooks : List CodebookForm) (rs : Residue) : Bool :=
  match codebooks[rs.classbook]? with
  | some b => b.dim ≠ 0
  | none => false

/-- Every codebook that a residue names for a pass has a lookup (93_implementation_defined U16; log 17). -/
def passBooksLegal (codebooks : List CodebookForm) (rs : Residue) : Bool :=
  rs.books.all fun row => row.all fun b => b.all fun k => (codebooks[k]?.bind CodebookForm.lookup).isSome

/-- Every table is accepted (46_frame_output R347, R348). -/
def SetupForm.legal (f : SetupForm) (channels : Nat) : Bool :=
  countLegal f.codebooks.length Config.maxCodebooks && countLegal f.timeCount Config.maxTables && countLegal f.floors.length Config.maxTables &&
    countLegal f.residues.length Config.maxTables && countLegal f.mappings.length Config.maxTables && countLegal f.modes.length Config.maxTables &&
    f.codebooks.all CodebookForm.legal && f.floors.all (Floor.legal f.codebooks.length) &&
    f.residues.all (fun p => p.2.legal f.codebooks.length p.1 && classbookLegal f.codebooks p.2 && passBooksLegal f.codebooks p.2) &&
    f.mappings.all (fun p => p.1.legal channels f.floors.length f.residues.length p.2) &&
    f.modes.all fun md => md.mapping < f.mappings.length

/-- The counts that a setup header leaves (46_frame_output R347). -/
def SetupForm.counts (f : SetupForm) : Counts :=
  { nCodebooks := f.codebooks.length
    nFloors := f.floors.length
    nResidues := f.residues.length
    nMappings := f.mappings.length
    nModes := f.modes.length
    modeBits := ilog (f.modes.length - 1) }

/-- What a setup header leaves in the state after, against the state before: the counts, and every entry of every table (46_frame_output R347). -/
abbrev SetupForm.Stored (f : SetupForm) (s t : State) : Prop :=
  t.dec.counts = f.counts ∧
    (∀ c (h : c < f.codebooks.length), t.codebook c = f.codebooks[c].store (s.codebook c)) ∧
    (∀ k (h : k < f.floors.length), t.floor k = f.floors[k]) ∧
    (∀ r (h : r < f.residues.length), t.residue r = f.residues[r].2) ∧
    (∀ m (h : m < f.mappings.length), t.mapping m = f.mappings[m].2) ∧ ∀ k (h : k < f.modes.length), t.mode k = f.modes[k]

-- codewords (30_encoding R135)

/-- The bits of a codeword in the order in which they are read, the first transmitted first (41_codebook R197). -/
def Code.bits (k : Code) : List Bool := (bitsOf k.len k.cw.toNat).reverse

/-- No codeword is a prefix of another (41_codebook R214). -/
abbrev PrefixFree (codes : List Code) : Prop := codes.Pairwise fun a b => ¬a.bits <+: b.bits ∧ ¬b.bits <+: a.bits

/-- A length in 1..32 and no bit above it (10_state R44). -/
abbrev Code.Fits (k : Code) : Prop := 1 ≤ k.len ∧ k.len ≤ Config.maxCwLen ∧ k.cw.toNat < 2 ^ k.len

/-- A set of codewords that decoding can tell apart. -/
abbrev Decodable (codes : List Code) : Prop := PrefixFree codes ∧ ∀ k ∈ codes, k.Fits

-- the floor part of a packet (30_encoding R129)

/-- The value that one dimension of a partition takes from a codeword; a sub-book that is "no book" takes none (42_floor R243, R244). -/
def dimValue (book : Option Nat) (k : Code) : Nat :=
  match book with
  | some _ => k.entry
  | none => 0

/-- The bits that one dimension reads. -/
def dimBits (book : Option Nat) (k : Code) : List Bool :=
  match book with
  | some _ => k.bits
  | none => []

/-- The sub-books of a class's dimensions under a classification value, the lowest slice first (42_floor R243). -/
def dimBooks (cls : FloorClass) : Nat → Nat → List (Option Nat)
  | 0, _ => []
  | k + 1, cval => aget cls.subbook (cval % 2 ^ cls.subexp) :: dimBooks cls k (cval / 2 ^ cls.subexp)

/-- The codewords of one partition: the classification's, and one per dimension; those that are not read are ignored. -/
structure PartitionCodes where
  master : Code
  dims : List Code
deriving DecidableEq, Repr

/-- The classification value (42_floor R243). -/
def PartitionCodes.cval (p : PartitionCodes) (cls : FloorClass) : Nat := if 0 < cls.subexp then p.master.entry else 0

/-- The bits of one partition. -/
def PartitionCodes.bits (p : PartitionCodes) (cls : FloorClass) : List Bool :=
  (if 0 < cls.subexp then p.master.bits else []) ++ ((dimBooks cls cls.dim (p.cval cls)).zip p.dims).flatMap fun q => dimBits q.1 q.2

/-- The Y values of one partition. -/
def PartitionCodes.ys (p : PartitionCodes) (cls : FloorClass) : List Nat :=
  ((dimBooks cls cls.dim (p.cval cls)).zip p.dims).map fun q => dimValue q.1 q.2

/-- A codeword of a codebook of the stream, told apart from the others. -/
abbrev CodeOf (s : State) (c : Nat) (k : Code) : Prop := c < s.dec.counts.nCodebooks ∧ Decodable (s.codebook c).codes ∧ k ∈ (s.codebook c).codes

/-- Every codeword of a partition that is read is one of its book. -/
abbrev PartitionCodes.Legal (p : PartitionCodes) (s : State) (cls : FloorClass) : Prop :=
  p.dims.length = cls.dim ∧ (0 < cls.subexp → CodeOf s cls.master p.master) ∧
    ∀ q ∈ (dimBooks cls cls.dim (p.cval cls)).zip p.dims, ∀ b ∈ q.1, CodeOf s b q.2

/-- The partitions of a floor with their codewords. -/
def partsOf (fl : Floor) (ps : List PartitionCodes) : List (FloorClass × PartitionCodes) :=
  (fl.partClass.map (aget fl.classes)).zip ps

/-- The floor part of a channel with energy, after the has-energy bit (30_encoding R129). -/
def floorPartBits (fl : Floor) (y0 y1 : Nat) (ps : List PartitionCodes) : List Bool :=
  fieldBits [(ilog (fl.range - 1), y0), (ilog (fl.range - 1), y1)] ++ (partsOf fl ps).flatMap fun q => q.2.bits q.1

/-- The raw values of a floor part, in list order (42_floor R245). -/
def floorPartYs (fl : Floor) (y0 y1 : Nat) (ps : List PartitionCodes) : List Nat :=
  y0 :: y1 :: (partsOf fl ps).flatMap fun q => q.2.ys q.1

-- the amplitudes of a floor (42_floor R247 to R250)

/-- `low(i)`: an earlier position whose X is the largest one below `X[i]` (R248). -/
abbrev IsLow (xs : List Nat) (i j : Nat) : Prop :=
  j < i ∧ aget xs j < aget xs i ∧ ∀ k, k < i → aget xs k < aget xs i → aget xs k ≤ aget xs j

/-- `high(i)`: an earlier position whose X is the smallest one above `X[i]` (R248). -/
abbrev IsHigh (xs : List Nat) (i j : Nat) : Prop :=
  j < i ∧ aget xs i < aget xs j ∧ ∀ k, k < i → aget xs i < aget xs k → aget xs j ≤ aget xs k

/-- The linear prediction at `x` between two points (R249). -/
def predictedY (x0 : Nat) (y0 : Int) (x1 : Nat) (y1 : Int) (x : Nat) : Int :=
  let off : Nat := (y1 - y0).natAbs * (x - x0) / (x1 - x0)
  if y1 < y0 then y0 - off else y0 + off

/-- The amplitude of a point with raw value `v` where `p` is predicted (R250). -/
def amplitudeOf (range p : Int) (v : Nat) : Int :=
  if v = 0 then p
  else if 2 * min (range - p) p ≤ v then if p < range - p then v - p + p else p - v + (range - p) - 1
  else if v % 2 = 1 then p - ((v + 1) / 2 : Nat)
  else p + (v / 2 : Nat)

-- the residue part of a packet (30_encoding R130, 43_residue R281 to R287)

/-- One codeword of the residue part: the classification of group `g` of vector `j`, or a vector of a book that is added into vector `j`. -/
inductive ResidueRead where
  | cls (j g : Nat)
  | vec (j book pos stride : Nat)
deriving DecidableEq, Repr

/-- The vectors of one partition at position `off` of vector `j`: strided in type 0 (R285), one after the other until the partition is covered in the other
types (R286). A book of dimension 0 is fault U9: it has one read, which no codeword makes legal. -/
def partitionReads (rtype size dim j book off : Nat) : List ResidueRead :=
  if dim = 0 then [.vec j book off 1]
  else if rtype = 0 then (List.range (size / dim)).map fun i => .vec j book (off + i) (size / dim)
  else (List.range ((size + dim - 1) / dim)).map fun i => .vec j book (off + i * dim) 1

/-- The class of partition `q` of vector `j`: a digit of its group's classification entry, the group's first partition having the most significant of `cpc`
digits (R283). -/
def classOf (nclass cpc : Nat) (entry : Nat → Nat → Nat) (j q : Nat) : Nat := entry j (q / cpc) / nclass ^ (cpc - 1 - q % cpc) % nclass

/-- The codewords of one group in one pass: in pass 0 first the classifications, then partition by partition and vector by vector (R282). -/
def State.groupReads (s : State) (rs : Residue) (kept : List Nat) (lim total cpc : Nat) (entry : Nat → Nat → Nat) (pass g : Nat) :
    List ResidueRead :=
  (if pass = 0 then kept.map fun j => .cls j g else []) ++
    ((List.range total).filter fun q => q / cpc = g).flatMap fun q => kept.flatMap fun j =>
      match aget (aget rs.books (classOf rs.nclass cpc entry j q)) pass with
      | none => []
      | some b => partitionReads rs.rtype rs.partSize (s.codebook b).dim j b (lim + q * rs.partSize)

/-- The codewords of the residue part of the vectors that are not skipped, each of `size` elements: pass by pass and group by group (R281, R282). -/
def State.residueReads (s : State) (rs : Residue) (kept : List Nat) (size : Nat) (entry : Nat → Nat → Nat) : List ResidueRead :=
  let lim := min rs.beginPos size
  let total := (min rs.endPos size - lim) / rs.partSize
  let cpc := (s.codebook rs.classbook).dim
  (List.range 8).flatMap fun pass => (List.range ((total + cpc - 1) / cpc)).flatMap fun g => s.groupReads rs kept lim total cpc entry pass g

/-- The codebook of a read. -/
def ResidueRead.book (rs : Residue) (r : ResidueRead) : Nat :=
  match r with
  | .cls _ _ => rs.classbook
  | .vec _ b _ _ => b

/-- A classification's codeword is of the entry that it stands for; a vector's book has a lookup, and the vector lies inside the buffer. -/
def ResidueRead.ok (s : State) (size : Nat) (entry : Nat → Nat → Nat) (k : Code) (r : ResidueRead) : Bool :=
  match r with
  | .cls j g => k.entry = entry j g
  | .vec _ b pos stride => (s.codebook b).lookupType ≠ 0 && (s.codebook b).dim ≠ 0 && pos + ((s.codebook b).dim - 1) * stride < size

/-- What the vectors of the reads add to element `i` of vector `j`, one after the other, from the value `x` on (R285, R286). -/
def State.addedAt (s : State) (j i : Nat) : List (ResidueRead × Code) → F32 → F32
  | [], x => x
  | (.cls _ _, _) :: rest, x => s.addedAt j i rest x
  | (.vec v b pos stride, k) :: rest, x =>
    if v = j ∧ pos ≤ i ∧ (i - pos) % stride = 0 ∧ (i - pos) / stride < (s.codebook b).dim then
      s.addedAt j i rest (fadd x (aget (vqVector (s.codebook b) k.entry) ((i - pos) / stride)))
    else s.addedAt j i rest x

-- the frame of an audio packet as a sequence of micro-operations (46_frame_output R360)

/-- Run the steps one after the other; one that does not complete is the last (60_exceptions R400). -/
def runSeq : List (State → Out) → State → Out
  | [], s => .next s
  | f :: fs, s =>
    match f s with
    | .next t => if t.phase = .failed then .next t else runSeq fs t
    | o => o

/-- Run `i` if the channel has energy, and otherwise `f`. -/
def ifEnergy (ch : Nat) (i : Instr) (f : State → State) (u : State) : Out := if aget u.dec.work.hasEnergy ch then exec i u else .next (f u)

/-- The sequence of R360 on mapping `m`, whose entry is `mp`, for a block of `c` values of the size that `b` selects: the exchange of the banks, the floors,
the propagation, the residues, the coupling, the floor multiply, the transform or the zeroing, the end of the packet. -/
def frameSteps (m : Nat) (mp : Mapping) (channels c : Nat) (b : Bool) : List (State → Out) :=
  let each := fun f : Nat → State → Out => (List.range channels).map f
  [fun u => .next (u.mapFrame fun f => { f with curSel := !f.curSel })] ++ each (fun ch => exec (.flDecode ch (aget mp.subFloor (aget mp.mux ch)))) ++
    [fun u => .next (u.mapWork fun w => { w with needResidue := overlay (propagate channels w.hasEnergy mp.steps) w.needResidue })] ++
    (List.range mp.submaps).map (fun sub =>
      exec (.rsDecode (aget mp.subResidue sub) ((List.range channels).filter fun ch => aget mp.mux ch = sub) (c / 2))) ++
    [exec (.decouple m (c / 2))] ++ each (fun ch => ifEnergy ch (.flSynth ch (aget mp.subFloor (aget mp.mux ch)) (c / 2)) id) ++
    each (fun ch => ifEnergy ch (.imdct b ch) fun u => u.setCur ch (overlay (List.replicate c f32Zero) (u.cur ch))) ++
    [fun u => .next u.dropFloorY, exec .align, fun u => .next (u.mapFrame fun f => { f with framePending := true })]

/-- The fields of a packet's header after its type: the mode number, and the two window flags of a long block (R361, R362). -/
def modeFields (s : State) (k w : Nat) : List (Nat × Nat) := (s.dec.counts.modeBits, k) :: if (s.mode k).blockFlag then [(2, w)] else []

/-- The frame of a packet of mode `k` from the state after its header. -/
def State.runFrame (k : Nat) (s : State) : Out :=
  let md := s.mode k
  runSeq (frameSteps md.mapping (s.mapping md.mapping) s.dec.hdr.channels (s.block md.blockFlag) md.blockFlag)
    (s.mapFrame fun f => { f with curFlag := md.blockFlag, curBlock := s.block md.blockFlag })

/-- The next state of an outcome, completed by `f`. -/
def mapNext (f : State → State) (o : Out) : Out :=
  match o with
  | .next t => .next (f t)
  | .fault e => .fault e
  | .refused r => .refused r

-- audio packets in which no channel has energy (30_encoding R128)

/-- A packet of mode `k` in which every channel's floor is silent: the fields after the packet type. `w` holds the two window flags of a long block. -/
def silentFields (s : State) (k w : Nat) : List (Nat × Nat) :=
  modeFields s k w ++ List.replicate s.dec.hdr.channels (1, 0)

/-- The mapping of a mode. -/
def State.mappingOf (s : State) (k : Nat) : Mapping := s.mapping (s.mode k).mapping

/-- Every number that the packet's mode leads to names an entry of its table, and the entries are ones that setup accepts (46_frame_output R360,
R361, 43_residue R275). -/
abbrev SilentPacket (s : State) (k w : Nat) : Prop :=
  s.dec.counts.modeBits ≤ 6 ∧ k < 2 ^ s.dec.counts.modeBits ∧ w < 4 ∧ k < s.dec.counts.nModes ∧ (s.mode k).mapping < s.dec.counts.nMappings ∧
    s.block (s.mode k).blockFlag ≤ Config.maxBlock ∧
    (∀ ch, ch < s.dec.hdr.channels → aget (s.mappingOf k).subFloor (aget (s.mappingOf k).mux ch) < s.dec.counts.nFloors) ∧
    ∀ sub, sub < (s.mappingOf k).submaps →
      aget (s.mappingOf k).subResidue sub < s.dec.counts.nResidues ∧ 0 < (s.residue (aget (s.mappingOf k).subResidue sub)).partSize ∧
        0 < (s.residue (aget (s.mappingOf k).subResidue sub)).nclass ∧
        (s.codebook (s.residue (aget (s.mappingOf k).subResidue sub)).classbook).dim ≠ 0

/-- What such a packet leaves (46_frame_output R361 to R370): a pending frame of zeros in the other bank, the frame before it where it was, and no
register of another kind changed. -/
abbrev SilentFrame (s t : State) (k : Nat) : Prop :=
  t.dec.frame =
      { s.dec.frame with
        curFlag := (s.mode k).blockFlag, curBlock := s.block (s.mode k).blockFlag, curSel := !s.dec.frame.curSel, framePending := true } ∧
    t.dec.bits = BitReader.empty ∧ t.dec.hdr = s.dec.hdr ∧ t.dec.counts = s.dec.counts ∧ t.dec.tabs = s.dec.tabs ∧ t.dec.pre = s.dec.pre ∧
    (∀ ch, ch < s.dec.hdr.channels →
      aget t.dec.work.hasEnergy ch = false ∧ aget t.dec.work.needResidue ch = false ∧
        ∀ i, i < s.block (s.mode k).blockFlag → aget (t.cur ch) i = f32Zero) ∧
    ∀ ch, t.prev ch = s.cur ch

-- inverse coupling (46_frame_output R367)

/-- One bin of a magnitude and angle pair, undone (R367). -/
def undoneBin (mv av : F32) : F32 × F32 :=
  match f32Lt f32Zero mv, f32Lt f32Zero av with
  | true, true => (mv, fsub mv av)
  | true, false => (fadd mv av, mv)
  | false, true => (mv, fadd mv av)
  | false, false => (fsub mv av, mv)

/-- The state after one coupling step is undone over bins `0 .. n - 1`: the magnitude channel is written, then the angle channel. -/
def State.undone (n : Nat) (st : CouplingStep) (s : State) : State :=
  let bins := (List.range n).map fun i => undoneBin (aget (s.cur st.mag) i) (aget (s.cur st.ang) i)
  let u := s.setCur st.mag (overlay (bins.map Prod.fst) (s.cur st.mag))
  u.setCur st.ang (overlay (bins.map Prod.snd) (u.cur st.ang))

-- codebooks that decode every stream

/-- Every string of 32 bits begins with a codeword. -/
abbrev Complete (codes : List Code) : Prop := ∀ bits : List Bool, bits.length = Config.maxCwLen → ∃ k ∈ codes, k.bits <+: bits

/-- A codebook that vector decode can use on any stream, in steps that divide a partition (41_codebook R208, 43_residue R286). -/
abbrev VectorBook (s : State) (partSize b : Nat) : Prop :=
  b < s.dec.counts.nCodebooks ∧ (∀ k ∈ (s.codebook b).codes, k.Fits) ∧ Complete (s.codebook b).codes ∧ (s.codebook b).lookupType ≠ 0 ∧
    (s.codebook b).dim ≠ 0 ∧ (s.codebook b).dim ∣ partSize

-- what a step changes

/-- An abort (60_exceptions R400, R401): `ERR`, `STATE` and `RET` are written, the rest of the block's own state is free (`CMD` too), and outside it nothing
changes: the host's buffer, the requests to come and the latch of micro-operations are as they were. -/
abbrev Aborted (s t : State) : Prop :=
  t.phase = .failed ∧ (∃ c : Cause, c ≠ .cleanEnd ∧ t.err = c.err) ∧ t.ret = retDone t.err ∧ t.out = s.out ∧ t.script = s.script ∧ t.result = s.result

/-- The source has given some bytes, each of them once (20_memory R81). -/
abbrev SourceMoved (s t : State) : Prop :=
  t.src.terminal = s.src.terminal ∧
    ∃ k, k ≤ s.src.bytes.length ∧ t.src.bytes = s.src.bytes.drop k ∧ t.srcPos = s.srcPos + k

/-- Nothing outside the decoder, the source and the latch of the micro-operations has changed. -/
abbrev Outside (s t : State) : Prop :=
  t.phase = s.phase ∧ t.err = s.err ∧ t.cmd = s.cmd ∧ t.ret = s.ret ∧ t.out = s.out ∧ t.script = s.script ∧ t.free = s.free ∧ SourceMoved s t

/-- A bank other than the current one, and the channels but some of the current one, are as they were. -/
abbrev BanksBut (s t : State) (chans : List Nat) : Prop :=
  (∀ ch, t.prev ch = s.prev ch) ∧ ∀ ch, ch ∉ chans → t.cur ch = s.cur ch

-- whole-machine invariants

/-- The states in which a decoder exists whose contents the rules give: every state but `CLOSED` and `FAILED` (60_exceptions R401, 46_frame_output R385). -/
abbrev State.Live (s : State) : Prop := s.phase ≠ .closed ∧ s.phase ≠ .failed

/-- While the decoder is live, the accumulator holds `NBITS` bits and no others, and leaves room for the widest read (10_state R41, 40_bit_reader
R171, R176). -/
abbrev State.BitsInv (s : State) : Prop := s.Live → s.dec.bits.nbits ≤ 23 ∧ s.dec.bits.acc.toNat < 2 ^ s.dec.bits.nbits

/-- Between commands a live stream stands at a byte boundary (30_encoding R113, 70_reset_and_hazards R442). -/
abbrev State.BoundaryInv (s : State) : Prop := s.Live → s.dec.bits = BitReader.empty

/-- The stream's registers are in the ranges that the identification header's validation leaves (10_state R33, R34, 46_frame_output R345). -/
abbrev StreamRegs.Legal (h : StreamRegs) : Prop :=
  1 ≤ h.channels ∧ h.channels ≤ Config.maxChannels ∧ h.sampleRate ≠ 0#32 ∧ Config.minBlockExp ≤ h.bsExp0 ∧ h.bsExp0 ≤ h.bsExp1 ∧
    h.bsExp1 ≤ Config.maxBlockExp

/-- In `READY` and `ENDED` the stream's registers are legal. -/
abbrev State.HeaderInv (s : State) : Prop := s.phase = .ready ∨ s.phase = .ended → s.dec.hdr.Legal

/-- While the decoder is live, the registers of 10_state R33 to R37 are within the ranges that the spec gives them, and the block sizes at most
`MAX_BLOCK`. -/
abbrev State.RangeInv (s : State) : Prop :=
  s.Live →
    s.dec.hdr.channels < 2 ^ 8 ∧ s.dec.hdr.bsExp0 ≤ Config.maxBlockExp ∧ s.dec.hdr.bsExp1 ≤ Config.maxBlockExp ∧
      s.dec.frame.curBlock ≤ Config.maxBlock ∧ s.dec.frame.prevBlock ≤ Config.maxBlock ∧ s.dec.counts.nCodebooks ≤ Config.maxCodebooks ∧
      s.dec.counts.nFloors ≤ Config.maxTables ∧ s.dec.counts.nResidues ≤ Config.maxTables ∧ s.dec.counts.nMappings ≤ Config.maxTables ∧
      s.dec.counts.nModes ≤ Config.maxTables ∧ s.dec.counts.modeBits ≤ 6

/-- The next request, if there is one, is a word on the command port. -/
abbrev State.CommandNext (s : State) : Prop := ∀ f ∈ s.script.head?, f.port = .cmd

end Sys2Proof.Machine
end

