-- ==== Sys2Proof/Certificates/Slice0/Obligations.lean ====
section
/-! DEFINITION. The statements about the machine, from the numbered rules of spec/. A statement about a micro-operation or a selector issued alone is of every
`STATE` that it does not name: the spec names none in which one is accepted (log 40). It is also of states with a frame pending
(log 41), and of `READY` where the operation writes a table that 70_reset_and_hazards R438 has nothing write then (log 42). -/

open Sys2Proof Sys2Proof.Machine

-- encodings and steps

/-- Decoding the request that the encoder gives an instruction gives that instruction back, and every word that decodes is the encoder's word for what it
decodes to (30_encoding R111, R132, R137). The operands' place beside the word is the model's choice (log 19). -/
def Obligations.DecodeEncodeAgree : Prop :=
  (∀ i : Instr, decode (encode i) = .ok i) ∧
    ∀ (f : Fetch) (i : Instr), decode f = .ok i → (encode i).port = f.port ∧ (encode i).word = f.word

/-- A step runs the decoded request: it is taken off the list, a word on the command port is latched, and the rest is exec; a word that is no instruction is
answered by reject; with no request the block is idle. The list of requests is the model's choice (log 2, log 29). -/
def Obligations.StepRunsDecoded : Prop :=
  ∀ s : State,
    (s.script = [] → step s = .next s) ∧
      ∀ (f : Fetch) (rest : List Fetch), s.script = f :: rest →
        let u := { s with script := rest, cmd := if f.port = .cmd then f.word.setWidth 8 else s.cmd }
        (∀ i, decode f = .ok i → step s = exec i u) ∧ ∀ e, decode f = .error e → step s = reject e u

/-- A few words, decoded as the tables of 30_encoding R111, R121, R124, R125, R132 and R137 say, and words that no table has. The operands' places beside the words,
and that the enumeration number 0x29 is refused under the name noSuchWord, are the model's choice (log 19). -/
def Obligations.WordsDecode : Prop :=
  decode { port := .cmd, word := 0x04#16, ops := default } = .ok .cmdClose ∧
    decode { port := .micro, word := 0x12#16, ops := { src := default, args := [1] } } = .ok (.tryrd 1) ∧
    decode { port := .hdrType, word := 0x03#16, ops := { src := default, args := [3] } } = .ok (.hdrTypeComment 3#8 []) ∧
    decode { port := .lookupType, word := 2#16, ops := { src := default, args := [7] } } = .ok (.cbLookupExplicit 7) ∧
    decode { port := .floorType, word := 1#16, ops := { src := default, args := [5] } } = .ok (.floorType1 5) ∧
    decode { port := .residueType, word := 2#16, ops := { src := default, args := [9] } } = .ok (.residueType2 9) ∧
    decode { port := .blockFlag, word := 1#16, ops := { src := default, args := [3] } } = .ok (.modeLong 3) ∧
    decode { port := .hasEnergy, word := 0#16, ops := { src := default, args := [1, 2] } } = .ok (.floorSilent 1 2) ∧
    decode { port := .cmd, word := 0x05#16, ops := default } = .error .badCmd ∧
    decode { port := .lookupType, word := 3#16, ops := default } = .error .lookupType ∧
    decode { port := .floorType, word := 0#16, ops := default } = .error .floorType ∧
    decode { port := .residueType, word := 3#16, ops := default } = .error .residueType ∧
    decode { port := .mappingType, word := 1#16, ops := default } = .error .mappingType ∧
    decode { port := .micro, word := 0x29#16, ops := default } = .error .noSuchWord

-- errors, refusals and the host commands

/-- A raised error (60_exceptions R391 to R394, R400, R403): the numbers, and what is written. -/
def Obligations.RaiseWrites : Prop :=
  (∀ (c : Cause) (s : State),
      (s.raise c).err = c.err ∧ (s.raise c).phase = (if c = .cleanEnd then .ended else .failed) ∧ (s.raise c).ret = retDone c.err ∧
        (s.raise c).out = s.out ∧ (s.raise c).script = s.script ∧ (Stop.raise c).outcome s = .next (s.raise c)) ∧
    (∀ s : State, s.raise .cleanEnd = { s with err := Cause.cleanEnd.err, phase := .ended, ret := retDone Cause.cleanEnd.err }) ∧
    (∀ c : Cause, c.err.word =
      match c with
      | .badSync => 0x101#10
      | .badHeaderTag => 0x102#10
      | .nonAudioPacket => 0x103#10
      | .reservedBits => 0x104#10
      | .unsupportedFloorType => 0x105#10
      | .unsupportedResidueType => 0x106#10
      | .unsupportedMappingType => 0x107#10
      | .badBlockSize => 0x108#10
      | .badCoupling => 0x109#10
      | .oversubscribed => 0x10A#10
      | .badChannels => 0x10B#10
      | .noCodeword => 0x10C#10
      | .badFraming => 0x10D#10
      | .cleanEnd => 0x201#10
      | .truncated => 0x202#10
      | .source => 0x301#10) ∧
    ∀ e : Err, (retDone e).getLsbD 11 = false ∧ (retDone e).setWidth 10 = e.word

/-- A command that its state does not accept writes only the return word; a reserved command word, in any state, only the return word and `CMD`, the host's own
register (46_frame_output R386, 60_exceptions R407, 30_encoding R111, R112). That the host writes `CMD` when the word is taken is read from 10_state R38 (log 29,
DEDUCED), and the list of requests is the model's choice (log 2). -/
def Obligations.CommandsRefused : Prop :=
  (∀ (s : State) (src : ByteSource) (cap : Nat),
      (s.phase ≠ .closed → exec (.cmdOpen src) s = .next { s with ret := retRefused .badState s.err }) ∧
        (s.phase ≠ .uninit → exec .cmdSetup s = .next { s with ret := retRefused .badState s.err }) ∧
        (s.phase ≠ .ready ∨ s.dec.frame.framePending = true → exec .cmdDecode s = .next { s with ret := retRefused .badState s.err }) ∧
        (s.phase ≠ .ready ∨ s.dec.frame.framePending = false → exec (.cmdOutput cap) s = .next { s with ret := retRefused .badState s.err }) ∧
        (s.phase = .closed → exec .cmdClose s = .next { s with ret := retRefused .badState s.err })) ∧
    (∀ (s : State) (f : Fetch) (rest : List Fetch), s.script = f :: rest → f.port = .cmd → 5 ≤ f.word.toNat → f.word.toNat < 256 →
      step s = .next { s with script := rest, cmd := f.word.setWidth 8, ret := retRefused .badCmd s.err }) ∧
    ∀ (r : Reason) (e : Err),
      (retRefused r e).getLsbD 11 = true ∧ (retRefused r e).getLsbD 10 = (r == .badCmd) ∧ (retRefused r e).setWidth 10 = e.word

/-- `OPEN` in `CLOSED`: a decoder with the values that 10_state R70 gives after `OPEN`, bound to the source, of which nothing is read (46_frame_output R341). -/
def Obligations.OpenCreates : Prop :=
  ∀ (s : State) (src : ByteSource), s.phase = .closed →
    ∃ t, exec (.cmdOpen src) s = .next t ∧ t.phase = .uninit ∧ t.err = { cls := .none, cause := 0#8 } ∧ t.ret = 0#12 ∧
      t.dec.bits = { acc := 0#32, nbits := 0 } ∧
      t.dec.frame = { curBlock := 0, prevBlock := 0, curFlag := false, curSel := false, framePending := false, outCount := 0#32 } ∧
      t.dec.counts = { nCodebooks := 0, nFloors := 0, nResidues := 0, nMappings := 0, nModes := 0, modeBits := 0 } ∧
      t.src = src ∧ t.srcPos = 0 ∧ t.cmd = s.cmd ∧ t.out = s.out ∧ t.script = s.script

/-- `CLOSE` in every state but `CLOSED`: `STATE` becomes `CLOSED` and the source is not read (46_frame_output R385). That the released source holds no byte, and
that the position stays where it was, is the model's choice (log 9); `CMD`, `ERR` and the decoder are free values (log 7, log 8, log 29). -/
def Obligations.CloseReleases : Prop :=
  ∀ s : State, s.phase ≠ .closed →
    ∃ t, exec .cmdClose s = .next t ∧ t.phase = .closed ∧ t.srcPos = s.srcPos ∧ t.src.bytes = [] ∧ t.out = s.out ∧ t.script = s.script ∧
      t.ret.getLsbD 11 = false

/-- `SETUP` in `UNINIT` on a stream that begins with any three legal headers: `READY`, with exactly what the headers hold in the registers and the tables, and
the source standing after the last byte of the setup header (46_frame_output R342 to R351). Three points of what is stored are the model's: 0 as the master book of a
floor class that has none (log 33), what the entry held before in the lookup fields of a codebook without lookup (log 43), and no header is legal that has a
residue naming a codebook without lookup (log 17). -/
def Obligations.SetupReachesReady : Prop :=
  ∀ (s : State) (id : IdentForm) (cm : CommentForm) (su : SetupForm) (tail : List Byte),
    s.phase = .uninit → s.dec.bits = BitReader.empty → id.Legal → cm.Legal → su.legal id.channels.toNat = true →
      s.src.bytes = tagBytes 0x01#8 ++ id.bytes ++ (tagBytes 0x03#8 ++ cm.bytes ++ (tagBytes 0x05#8 ++ tail)) →
        fieldBits (su.fields id.channels.toNat) <+: byteBits tail →
          ∃ t, exec .cmdSetup s = .next t ∧ t.phase = .ready ∧ t.err = s.err ∧ t.ret = retDone s.err ∧ t.dec.bits = BitReader.empty ∧
            t.dec.hdr = id.regs ∧ su.Stored s t ∧ t.dec.frame = s.dec.frame ∧
            (∀ b, (t.dec.pre.get b).winCur.length = t.block b / 2 ∧ (t.dec.pre.get b).winPrev.length = t.block b / 2 ∧
              (t.dec.pre.get b).bitrev.length = t.block b / 8) ∧
            t.src.bytes = tail.drop (((fieldBits (su.fields id.channels.toNat)).length + 7) / 8) ∧
            t.srcPos = s.srcPos + (s.src.bytes.length - tail.length) + ((fieldBits (su.fields id.channels.toNat)).length + 7) / 8 ∧
            t.cmd = s.cmd ∧ t.out = s.out ∧ t.script = s.script

/-- `DECODE` of an audio packet, with or without energy, and the same packet after its type bit: the micro-operations of its mode's mapping in the order of
R360, each run as if issued alone, the first that does not complete deciding; the propagation of the energy flags, one coupling step after another (R365); and a
packet in which no channel has energy leaves a pending frame whose every channel is zero, whatever the coupling and the residues of its mapping
(46_frame_output R360 to R370, 43_residue R289, R290). What a selector alone stands for is the model's reading (log 3), as is what a micro-operation issued alone
leaves (log 4, log 27) and that an audio packet issued alone runs with a frame pending too (log 41), on block sizes
that no header leaves (log 39) and on a mapping whose parts do not fit each other or `CHANNELS` (log 44); `FLOOR_Y` is a free value at the end (log 31). -/
def Obligations.SilentPacketDecodes : Prop :=
  (∀ (s : State) (k w : Nat), s.dec.counts.modeBits ≤ 6 → k < 2 ^ s.dec.counts.modeBits → w < 4 → k < s.dec.counts.nModes →
    (s.mode k).mapping < s.dec.counts.nMappings →
      (s.phase = .ready → s.dec.frame.framePending = false → s.dec.bits = BitReader.empty → s.Reads ((1, 0) :: modeFields s k w) →
        exec .cmdDecode s =
          mapNext (fun t => { t with ret := retDone t.err, result := s.result }) ((s.past ((1, 0) :: modeFields s k w)).runFrame k)) ∧
      (s.phase ≠ .failed → s.dec.bits.Valid → s.Reads (modeFields s k w) →
        exec .packetAudio s =
          mapNext (fun t => { t with result := if t.phase = .failed then s.result else .none }) ((s.past (modeFields s k w)).runFrame k))) ∧
  (∀ (channels : Nat) (energy : List Bool) (steps : List CouplingStep) (st : CouplingStep) (c : Nat),
    let need := propagate channels energy steps
    (c < channels → aget (propagate channels energy []) c = aget energy c) ∧
      (aget (propagate channels energy (steps ++ [st])) c = true ↔
        aget need c = true ∨ ((c = st.mag ∨ c = st.ang) ∧ (aget need st.mag = true ∨ aget need st.ang = true)))) ∧
  ∀ (s : State) (k w : Nat), SilentPacket s k w →
    (s.phase = .ready → s.dec.frame.framePending = false → s.dec.bits = BitReader.empty → s.Reads ((1, 0) :: silentFields s k w) →
      ∃ t, exec .cmdDecode s = .next t ∧ SilentFrame s t k ∧ t.phase = .ready ∧ t.err = s.err ∧ t.ret = retDone s.err ∧
        t.src = (s.past ((1, 0) :: silentFields s k w)).src ∧ t.srcPos = (s.past ((1, 0) :: silentFields s k w)).srcPos ∧
        t.out = s.out ∧ t.cmd = s.cmd ∧ t.script = s.script ∧ t.result = s.result) ∧
    (s.dec.bits.Valid → s.Reads (silentFields s k w) →
      ∃ t, exec .packetAudio s = .next t ∧ SilentFrame s t k ∧ t.phase = s.phase ∧ t.err = s.err ∧ t.ret = s.ret ∧
        t.src = (s.past (silentFields s k w)).src ∧ t.srcPos = (s.past (silentFields s k w)).srcPos ∧ t.out = s.out ∧ t.cmd = s.cmd ∧
        t.script = s.script ∧ t.result = .none)

/-- How `DECODE` ends without a frame: the clean end, which changes nothing but `ERR`, `STATE` and `RET`; an `IoError` on the try path; a packet that is not
audio (46_frame_output R361, R371, 60_exceptions R393, R394). What a selector alone stands for is the model's reading (log 3), and that it runs in every
`STATE` is its choice (log 40). -/
def Obligations.DecodeEnds : Prop :=
  ∀ s : State,
    (s.phase = .ready → s.dec.frame.framePending = false → s.dec.bits = BitReader.empty →
      (s.src.bytes = [] → s.src.terminal = .endOfStream →
        exec .cmdDecode s =
          .next { s with err := { cls := .endOfStream, cause := 1#8 }, phase := .ended, ret := retDone { cls := .endOfStream, cause := 1#8 } }) ∧
      (s.src.bytes = [] → s.src.terminal = .ioError →
        ∃ t, exec .cmdDecode s = .next t ∧ Aborted s t ∧ t.err = { cls := .ioError, cause := 1#8 }) ∧
      ∀ b rest, s.src.bytes = b :: rest → b.toNat % 2 = 1 →
        ∃ t, exec .cmdDecode s = .next t ∧ Aborted s t ∧ t.err = { cls := .streamFormatError, cause := 3#8 }) ∧
    ∃ t, exec .packetNonAudio s = .next t ∧ Aborted s t ∧ t.err = { cls := .streamFormatError, cause := 3#8 }

/-- `OUTPUT` with a pending frame, a buffer large enough and no NaN among the samples: the count of R382, the samples of the three regions of R376 to R379 in
the order of R381, each converted by R380; then the current block is the previous one (46_frame_output R375 to R382). That it runs on windows that do not fit the blocks is the
model's choice (log 44). -/
def Obligations.OutputEmits : Prop :=
  ∀ (s : State) (cap : Nat),
    let p := s.dec.frame.prevBlock
    let c := s.dec.frame.curBlock
    let o := min p c / 4
    let ch := s.dec.hdr.channels
    let count := if p = 0 then 0 else (p / 4 + c / 4) * ch
    let win := s.dec.pre.get (decide (min p c ≠ s.block false))
    s.phase = .ready → s.dec.frame.framePending = true → count ≤ cap → (p ≠ 0 → ∀ x ∈ outputSamples s, f32IsNaN x = false) →
      ∃ t, exec (.cmdOutput cap) s = .next t ∧ t.out.length = count ∧
        t = { s with
          dec := { s.dec with frame := { s.dec.frame with outCount := BitVec.ofNat 32 count, prevBlock := c, framePending := false } }
          ret := retDone s.err, out := t.out } ∧
        (p ≠ 0 → ∀ j, j < ch →
          (∀ i, i < p / 4 - o → some (aget t.out (i * ch + j)) = pcmOf (aget (s.prev j) (p / 2 + i))) ∧
          (∀ i, i < 2 * o → some (aget t.out ((p / 4 - o + i) * ch + j)) =
            pcmOf (fadd (fmul (aget (s.prev j) (p / 2 + p / 4 - o + i)) (aget win.winPrev i))
              (fmul (aget (s.cur j) (c / 4 - o + i)) (aget win.winCur i)))) ∧
          ∀ i, i < c / 4 - o → some (aget t.out ((p / 4 + o + i) * ch + j)) = pcmOf (aget (s.cur j) (c / 4 + o + i)))

/-- `PCM_OUT` of a number that is no NaN: clamped, scaled and truncated, so within -32767..32767; of a NaN, fault U29 (46_frame_output R380). The product is the
rounded one of R380's pseudocode, so that 0x38000100, the largest number below 1/32767, gives 1, where a sentence of R380 says 0: the model's choice (log 30). -/
def Obligations.PcmOutClamps : Prop :=
  ∀ (s : State) (x : F32),
    (f32IsNaN x = true → exec (.pcmOut x) s = .fault .nanSample) ∧
      (f32IsNaN x = false →
        ∃ v, exec (.pcmOut x) s = .next { s with result := .sample v } ∧ -32767 ≤ v.toInt ∧ v.toInt ≤ 32767 ∧
          (f32Lt x f32MinusOne = true → v.toInt = -32767) ∧ (f32Lt f32One x = true → v.toInt = 32767) ∧
          (f32Lt x f32MinusOne = false → f32Lt f32One x = false → v.toInt = f32Trunc (fmul x f32PcmScale)) ∧
          (f32IsZero x = true → v = 0#16))

/-- Where the rules ask for a stop, by name: U4 and U5 (40_bit_reader R173, 20_memory R86), U6 to U8 of a codebook (41_codebook R194, R200), U9, U16 and U17 of a
vector decode (R208), U11 to U13 of a floor (42_floor R233, R235, R238), U15, U9, U18 and U16 of a residue (43_residue R275), U19 to U22 of a mapping and a mode
(44_mapping_mode R303, R305, R306, R310), U23 of a packet, U24 and U29 of an output (46_frame_output R361, R380, R383); log 21. U1 to U3 stand in IdentHeaderChecks, U9
of a lattice in LatticeRoot, U14 in FloorSynthesises. What a selector alone stands for is the model's reading (log 3); that a residue naming a codebook without
lookup stops at setup too, after the three checks of R275, is its choice between R275 and 93_implementation_defined (log 17), and that a buffer which is too small
stops `OUTPUT` before it writes a sample is its choice (log 25). -/
def Obligations.StopsAsRuled : Prop :=
  ∀ s : State,
    (∀ n, 24 < n → exec (.rdbits n) s = .refused .readTooWide ∧ exec (.tryrd n) s = .refused .readTooWide) ∧
    (∀ n, s.dec.bits.nbits ≠ 0 → exec .rdu8 s = .refused .unalignedBytes ∧ exec (.rdexact n) s = .refused .unalignedBytes) ∧
    -- U6, U7: the run after the runs `pre`, which leave entries over and give no length above 32
    (∀ c first k (pre : List Nat), s.dec.bits.Valid → c < s.dec.counts.nCodebooks → (s.codebook c).entries < 2 ^ 24 → 1 ≤ first → first ≤ 32 →
      pre.sum < (s.codebook c).entries → (∀ i, i < pre.length → aget pre i = 0 ∨ first + i ≤ 32) → k < 2 ^ ilog ((s.codebook c).entries - pre.sum) →
        s.Reads ((5, first - 1) :: runFields (s.codebook c).entries 0 (pre ++ [k])) →
          ((s.codebook c).entries < pre.sum + k → exec (.cbLenRunLength c) s = .fault .lengthRunPastEntries) ∧
            (pre.sum + k ≤ (s.codebook c).entries → 0 < k → 32 < first + pre.length → exec (.cbLenRunLength c) s = .fault .lengthAbove32)) ∧
    -- U8
    (∀ (c v : Nat) (f : CodebookForm), s.dec.bits.Valid → c < s.dec.counts.nCodebooks → f.dim < 2 ^ 16 → f.lens.length < 2 ^ 24 →
      f.lenForm.legal f.lens = true → assignFrom 0 f.lens ≠ none → 3 ≤ v → v < 16 →
        s.Reads ([(24, 0x564342), (16, f.dim), (24, f.lens.length)] ++ f.lenForm.fields f.lens ++ [(4, v)]) →
          exec (.cbSetup c) s = .fault .lookupType) ∧
    -- U9, U16, U17 of a vector decode
    (∀ (c : Nat) (v : Vec) (base stride : Nat), c < s.dec.counts.nCodebooks → 1 ≤ stride →
      (match v.ref with
        | .cur ch => ch < s.dec.hdr.channels ∧ v.size ≤ Config.maxBlock
        | .interleave => v.size ≤ Config.maxChannels * (Config.maxBlock / 2)) →
        ((s.codebook c).lookupType = 0 → exec (.cbVector c v base stride) s = .fault .vectorWithoutLookup) ∧
          ((s.codebook c).lookupType ≠ 0 → (s.codebook c).dim = 0 → exec (.cbVector c v base stride) s = .fault .zeroDim) ∧
          ∀ k : Code, s.dec.bits.Valid → CodeOf s c k → k.bits <+: s.ahead → (s.codebook c).lookupType ≠ 0 → (s.codebook c).dim ≠ 0 →
            v.size ≤ base + ((s.codebook c).dim - 1) * stride → exec (.cbVector c v base stride) s = .fault .vectorPastBuffer) ∧
    -- U11, U12, U13: after the classes `cs`
    (∀ (f : Nat) (pc : List Nat) (cs : List FloorClass),
      let stops := fun (fs : List (Nat × Nat)) (x : Fault) =>
        (s.Reads ((16, 1) :: floorHead pc cs ++ fs) → exec (.flSetup f) s = .fault x) ∧
          (s.Reads (floorHead pc cs ++ fs) → exec (.floorType1 f) s = .fault x)
      s.dec.bits.Valid → f < s.dec.counts.nFloors → pc.length < 32 → (∀ k ∈ pc, k < 16) → cs.all (FloorClass.legal s.dec.counts.nCodebooks) = true →
        (∀ d e m : Nat, (∃ k ∈ pc, cs.length ≤ k) → 1 ≤ d → d ≤ 8 → e < 4 → m < 256 →
          (0 < e → s.dec.counts.nCodebooks ≤ m → stops [(3, d - 1), (2, e), (8, m)] .floorBook) ∧
            ∀ (sb : List (Option Nat)) (b : Nat), (0 < e → m < s.dec.counts.nCodebooks) → sb.length < 2 ^ e →
              (∀ o ∈ sb, ∀ k ∈ o, k < s.dec.counts.nCodebooks ∧ k < 255) → s.dec.counts.nCodebooks ≤ b → b < 255 →
                stops ([(3, d - 1), (2, e)] ++ (if 0 < e then [(8, m)] else []) ++ sb.map bookField ++ [(8, b + 1)]) .floorBook) ∧
        ∀ (mf rb : Nat) (xs : List Nat), cs.length = classCount pc → mf < 4 → rb < 16 → (∀ x ∈ xs, x < 2 ^ rb) →
          (xs.length = 63 → 63 < (pc.map fun k => (aget cs k).dim).sum → stops ((2, mf) :: (4, rb) :: xs.map fun x => (rb, x)) .floorTooManyX) ∧
            (xs.length ≤ 63 → xs.length = (pc.map fun k => (aget cs k).dim).sum → ¬(0 :: 2 ^ rb :: xs).Nodup →
              stops ((2, mf) :: (4, rb) :: xs.map fun x => (rb, x)) .floorEqualX)) ∧
    -- U15, U9, U18, U16: at the end of a residue, in this order
    (∀ (r : Nat) (rs : Residue) (flags : List Bool) (x : Fault),
      let unknown := s.dec.counts.nCodebooks ≤ rs.classbook ∨ ∃ row ∈ rs.books, ∃ b ∈ row, ∃ k ∈ b, s.dec.counts.nCodebooks ≤ k
      s.dec.bits.Valid → r < s.dec.counts.nResidues → rs.readable flags = true →
        (unknown ∧ x = .residueBook ∨ ¬unknown ∧ (s.codebook rs.classbook).dim = 0 ∧ x = .zeroDim ∨
          ¬unknown ∧ (s.codebook rs.classbook).dim ≠ 0 ∧ rs.endPos < rs.beginPos ∧ x = .residueRange ∨
          ¬unknown ∧ (s.codebook rs.classbook).dim ≠ 0 ∧ rs.beginPos ≤ rs.endPos ∧ s.booksLookUp rs.books = false ∧ x = .vectorWithoutLookup) →
          (s.Reads ((16, rs.rtype) :: rs.fields flags) → exec (.rsSetup r) s = .fault x) ∧
            (s.Reads (rs.fields flags) →
              (rs.rtype = 0 → exec (.residueType0 r) s = .fault x) ∧ (rs.rtype = 1 → exec (.residueType1 r) s = .fault x) ∧
                (rs.rtype = 2 → exec (.residueType2 r) s = .fault x))) ∧
    -- U21, U19, U20: in the steps after `pre`, the routing after `mux`, the submaps after `subs`
    (∀ (m : Nat) (f : MappingForm) (mp : Mapping),
      let ch := s.dec.hdr.channels
      let stops := fun (fs : List (Nat × Nat)) (x : Fault) =>
        (s.Reads ((16, 0) :: fs) → exec (.mapSetup m) s = .fault x) ∧ (s.Reads fs → exec (.mappingType0 m) s = .fault x)
      s.dec.bits.Valid → m < s.dec.counts.nMappings → ch < 2 ^ 8 → f.headLegal ch mp = true →
        (∀ (pre : List CouplingStep) (c a b : Nat), pre.all (CouplingStep.legal ch) = true → pre.length ≤ c → c < 256 → a ≠ b → ch ≤ max a b →
          a < 2 ^ ilog (ch - 1) → b < 2 ^ ilog (ch - 1) →
            stops (flagField f.submapsFlag :: f.countFields mp ++ (1, 1) :: (8, c) :: pre.flatMap (pairFields ch) ++
              [(ilog (ch - 1), a), (ilog (ch - 1), b)]) .couplingChannel) ∧
        (∀ (mux : List Nat) (v : Nat), 1 < mp.submaps → mux.length < ch → (∀ u ∈ mux, u < mp.submaps) → mp.submaps ≤ v → v < 16 →
          stops (f.head ch mp ++ (2, 0) :: muxFields mp.submaps mux ++ [(4, v)]) .muxRange) ∧
        ∀ (mux : List Nat) (subs : List (Nat × Nat × Nat)) (t fl v : Nat), mux.length = ch → (∀ u ∈ mux, u < mp.submaps) → subs.length < mp.submaps →
          (∀ p ∈ subs, p.1 < 256 ∧ p.2.1 < 256 ∧ p.2.2 < 256 ∧ p.2.1 < s.dec.counts.nFloors ∧ p.2.2 < s.dec.counts.nResidues) → t < 256 → v < 256 →
            let fs := f.head ch mp ++ (2, 0) :: muxFields mp.submaps mux ++ subs.flatMap submapTriple
            (s.dec.counts.nFloors ≤ v → stops (fs ++ [(8, t), (8, v)]) .submapEntry) ∧
              (fl < 256 → fl < s.dec.counts.nFloors → s.dec.counts.nResidues ≤ v → stops (fs ++ [(8, t), (8, fl), (8, v)]) .submapEntry)) ∧
    -- U22, U23
    (∀ (k : Nat) (md : Mode), s.dec.bits.Valid → k < s.dec.counts.nModes → s.dec.counts.nMappings ≤ md.mapping → md.mapping < 256 → s.Reads md.fields →
      exec (.modeSetup k) s = .fault .modeMapping) ∧
    (∀ k, s.dec.counts.modeBits ≤ 6 → s.dec.counts.nModes ≤ k → k < 2 ^ s.dec.counts.modeBits →
      (s.phase = .ready → s.dec.frame.framePending = false → s.dec.bits = BitReader.empty → s.Reads [(1, 0), (s.dec.counts.modeBits, k)] →
        exec .cmdDecode s = .fault .packetMode) ∧
        (s.dec.bits.Valid → s.Reads [(s.dec.counts.modeBits, k)] → exec .packetAudio s = .fault .packetMode)) ∧
    -- U24, U29
    ∀ cap, s.phase = .ready → s.dec.frame.framePending = true → s.dec.frame.prevBlock ≠ 0 →
      let count := (s.dec.frame.prevBlock / 4 + s.dec.frame.curBlock / 4) * s.dec.hdr.channels
      (cap < count → exec (.cmdOutput cap) s = .refused .bufferTooSmall) ∧
        (count ≤ cap → (∃ x ∈ outputSamples s, f32IsNaN x = true) → exec (.cmdOutput cap) s = .fault .nanSample)

-- the Bit Reader

/-- `RDBITS(n)` and `RDBIT()`: the next bits as a number, least significant first, from the fewest bytes that hold them; too few bits raise (40_bit_reader
R172, R174, 20_memory R82 to R84). -/
def Obligations.RdbitsReads : Prop :=
  ∀ (s : State) (n : Nat), s.dec.bits.Valid → n ≤ 24 →
    (n ≤ s.ahead.length →
      ∃ t, exec (.rdbits n) s = .next t ∧ t.result = .value (bitsNat (s.ahead.take n)) ∧ t.ahead = s.ahead.drop n ∧
        t = { (s.advance n) with result := t.result } ∧ t.src.bytes = s.src.bytes.drop ((n - s.dec.bits.nbits + 7) / 8) ∧
        t.srcPos = s.srcPos + (n - s.dec.bits.nbits + 7) / 8 ∧ (s.dec.bits.AtRest → t.dec.bits.AtRest) ∧
        (n = 1 → exec .rdbit s = .next t)) ∧
    (s.ahead.length < n →
      ∃ t, exec (.rdbits n) s = .next t ∧ Aborted s t ∧
        t.err = (match s.src.terminal with
          | .endOfStream => { cls := .endOfStream, cause := 2#8 }
          | .ioError => { cls := .ioError, cause := 1#8 }) ∧
        (n = 1 → exec .rdbit s = .next t))

/-- `TRYRD(n)`: as `RDBITS(n)` while there are bits; at the end of the stream the value `Eos`, no error, and the bits pulled are kept; an `IoError` raises
(40_bit_reader R176). That the bits pulled are kept then, so that more than 7 bits can be held, decides R176 against the invariant of R170: the model's reading
(log 18, DEDUCED). -/
def Obligations.TryrdReads : Prop :=
  ∀ (s : State) (n : Nat), s.dec.bits.Valid → n ≤ 24 →
    (n ≤ s.ahead.length → exec (.tryrd n) s = .next { (s.advance n) with result := .value (bitsNat (s.ahead.take n)) }) ∧
    (s.ahead.length < n → s.src.terminal = .endOfStream →
      ∃ t, exec (.tryrd n) s = .next t ∧ t.result = .eos ∧ t.ahead = s.ahead ∧ t.src.bytes = [] ∧ t.srcPos = s.srcPos + s.src.bytes.length ∧
        t.phase = s.phase ∧ t.err = s.err ∧ t.ret = s.ret ∧ t.dec = { s.dec with bits := t.dec.bits }) ∧
    (s.ahead.length < n → s.src.terminal = .ioError →
      ∃ t, exec (.tryrd n) s = .next t ∧ Aborted s t ∧ t.err = { cls := .ioError, cause := 1#8 })

/-- `ALIGN()` discards the bits held and touches nothing else (40_bit_reader R177). -/
def Obligations.AlignDiscards : Prop :=
  ∀ s : State, exec .align s = .next { s with dec := { s.dec with bits := { acc := 0#32, nbits := 0 } }, result := .none }

/-- `RDU8()` and `RDEXACT(n)` at a byte boundary: the next bytes, straight from the source; too few raise, a short `RDEXACT` having taken what there was
(40_bit_reader R178, R179). -/
def Obligations.ByteReads : Prop :=
  ∀ (s : State) (n : Nat), s.dec.bits.nbits = 0 →
    (∀ b rest, s.src.bytes = b :: rest →
      exec .rdu8 s = .next { s with src := { s.src with bytes := rest }, srcPos := s.srcPos + 1, result := .value b.toNat }) ∧
    (n ≤ s.src.bytes.length →
      exec (.rdexact n) s =
        .next { s with src := { s.src with bytes := s.src.bytes.drop n }, srcPos := s.srcPos + n, result := .bytes (s.src.bytes.take n) }) ∧
    ∀ e : Err,
      e = (match s.src.terminal with
        | .endOfStream => { cls := .endOfStream, cause := 2#8 }
        | .ioError => { cls := .ioError, cause := 1#8 }) →
        (s.src.bytes = [] → ∃ t, exec .rdu8 s = .next t ∧ Aborted s t ∧ t.err = e) ∧
          (s.src.bytes.length < n → ∃ t, exec (.rdexact n) s = .next t ∧ Aborted s t ∧ t.err = e)

-- the Codebook unit

/-- `CB_SETUP(c)` on the bits of any legal codebook header stores that codebook, with the canonical codewords of its lengths, and moves past exactly those
bits (41_codebook R191 to R204). That `LEN` and `NEXT` keep the last list and tracker, though they are dead after it, is the model's choice (log 31), and so is that a
codebook without lookup keeps what the entry's other lookup fields held (log 43). -/
def Obligations.CodebookSetupStores : Prop :=
  ∀ (s : State) (c : Nat) (f : CodebookForm), s.dec.bits.Valid → c < s.dec.counts.nCodebooks → f.legal = true → s.Reads f.fields →
    exec (.cbSetup c) s =
      .next
        ((((s.past f.fields).mapTabs fun t => { t with cb := aset t.cb c (f.store (aget t.cb c)) }).mapWork fun w =>
          { w with len := f.lens, nextFree := trackerOf f.lens }).setResult .none)

/-- The three forms of a length list, after the selector that chose them: `LEN` becomes the list that the fields stand for (41_codebook R193, R194).
What a selector alone stands for is the model's reading (log 3), and so is that `LEN` holds the list after one (log 31). -/
def Obligations.LengthListsRead : Prop :=
  ∀ (s : State) (c : Nat) (f : LenForm) (lens : List Nat),
    s.dec.bits.Valid → c < s.dec.counts.nCodebooks → (s.codebook c).entries = lens.length → lens.length < 2 ^ 24 → f.legal lens = true →
      let stored := fun fs : List (Nat × Nat) => ((s.past fs).mapWork fun w => { w with len := lens }).setResult .none
      match f with
      | .dense =>
        (s.Reads (denseFields lens) → exec (.cbDense c) s = .next (stored (denseFields lens))) ∧
          (s.Reads (f.body lens) → exec (.cbLenExplicit c) s = .next (stored (f.body lens)))
      | .sparse =>
        (s.Reads (sparseFields lens) → exec (.cbSparse c) s = .next (stored (sparseFields lens))) ∧
          (s.Reads (f.body lens) → exec (.cbLenExplicit c) s = .next (stored (f.body lens)))
      | .runs _ _ => s.Reads (f.body lens) → exec (.cbLenRunLength c) s = .next (stored (f.body lens))

/-- The lookup part after its selector: nothing but the type for none; minimum, delta, flags and multiplicands for the lattice and the explicit lookup; and the
two values of the sequence flag (41_codebook R200, R202, R211). What a selector alone stands for is the model's reading (log 3), and that an entry without lookup
keeps what its other lookup fields held is its choice (log 43). -/
def Obligations.LookupsRead : Prop :=
  ∀ (s : State) (c : Nat), c < s.dec.counts.nCodebooks →
    let put := fun (u : State) (g : Codebook → Codebook) =>
      (u.mapTabs fun t => { t with cb := aset t.cb c (g (aget t.cb c)) }).setResult .none
    exec (.cbLookupNone c) s = .next (put s fun b => { b with lookupType := 0 }) ∧
      exec (.cbSeqOff c) s = .next (put s fun b => { b with seq := false }) ∧
      exec (.cbSeqOn c) s = .next (put s fun b => { b with seq := true }) ∧
      ∀ f : LookupForm, s.dec.bits.Valid → s.Reads f.fields →
        ((s.codebook c).dim ≠ 0 → f.legal (lookup1Values (s.codebook c).entries (s.codebook c).dim) = true →
          exec (.cbLookupLattice c) s = .next (put (s.past f.fields) (f.store 1))) ∧
        (f.legal ((s.codebook c).entries * (s.codebook c).dim) = true →
          exec (.cbLookupExplicit c) s = .next (put (s.past f.fields) (f.store 2)))

/-- `lookup1_values` is the integer root; a dimension of 0 has none, and a lattice lookup there is fault U9, after the four fields that R200 reads before the
root is taken (41_codebook R200, R201). The fault is stated of the lookup selector issued alone, which is the model's reading (log 3, DEDUCED). -/
def Obligations.LatticeRoot : Prop :=
  (∀ entries dim : Nat, 1 ≤ dim → lookup1Values entries dim ^ dim ≤ entries ∧ entries < (lookup1Values entries dim + 1) ^ dim) ∧
    ∀ (s : State) (c vb : Nat) (mn de : BitVec 32) (sq : Bool), s.dec.bits.Valid → c < s.dec.counts.nCodebooks → (s.codebook c).dim = 0 → vb < 16 →
      s.Reads (halfFields mn ++ halfFields de ++ [(4, vb), flagField sq]) → exec (.cbLookupLattice c) s = .fault .zeroDim

/-- A packed float is `m * 2^(exp - 788)` rounded to nearest, ties to even: +0.0 for a zero mantissa whatever the sign; the value itself where binary32 holds it; an
infinity from half a unit past the largest number on; else a finite number to which no other is nearer, an even one where another is as near (41_codebook R202).
Magnitudes are in units of 2^-788, a number's own being in units of 2^-149. -/
def Obligations.PackedFloatExact : Prop :=
  ∀ x : BitVec 32,
    let mant := x.toNat % 2 ^ 21
    let exp := x.toNat / 2 ^ 21 % 2 ^ 10
    let m := mant * 2 ^ exp
    let y := float32Unpack x.toNat
    (mant = 0 → y = 0#32) ∧
      (mant ≠ 0 → f32Neg y = x.getLsbD 31) ∧
      (∀ u : Nat, m = u * 2 ^ 639 → u < 2 ^ 277 → f32Units y = (if x.getLsbD 31 then -1 else 1) * (u : Int)) ∧
      ((2 ^ 25 - 1) * 2 ^ 891 ≤ m → f32Mag y = 0x7F800000) ∧
      (m < (2 ^ 25 - 1) * 2 ^ 891 → f32Mag y < 0x7F800000 ∧ ∀ z : F32, f32Mag z < 0x7F800000 →
        let dist := fun v : F32 => ((f32UnitsMag v * 2 ^ 639 : Nat) - (m : Int)).natAbs
        dist y ≤ dist z ∧ (dist y = dist z → f32UnitsMag z = f32UnitsMag y ∨ y.toNat % 2 = 0))

/-- Canonical assignment: every used entry gets a codeword of its length, in entry order; no codeword is a prefix of another; each is the lowest one that the
codewords before it leave free; and the storage order is by length (41_codebook R195 to R197, R214). -/
def Obligations.CodewordsCanonical : Prop :=
  ∀ (lens : List Nat) (cs : List Code) (next : List (BitVec 32)), (∀ l ∈ lens, l ≤ 32) → assignFrom 0 lens = some (cs, next) →
    cs.map (fun k => (k.entry, k.len)) = ((List.range lens.length).map fun e => (e, aget lens e)).filter (fun p => decide (p.2 ≠ 0)) ∧
      (∀ k ∈ cs, k.Fits) ∧ PrefixFree cs ∧
      (∀ i (h : i < cs.length) (w : Nat), w < cs[i].cw.toNat →
        ∃ j, ∃ hj : j < cs.length, j < i ∧ (cs[j].bits <+: (bitsOf cs[i].len w).reverse ∨ (bitsOf cs[i].len w).reverse <+: cs[j].bits)) ∧
      (storeOrder cs).Perm cs ∧ (storeOrder cs).Pairwise fun a b => a.len ≤ b.len

/-- The assignment fails exactly on a length list that asks for more than the whole code space (41_codebook R196, R198, R199). -/
def Obligations.OversubscribedExactly : Prop :=
  ∀ lens : List Nat, (∀ l ∈ lens, l ≤ 32) → (assignFrom 0 lens = none ↔ 2 ^ 32 < ((lens.filter (fun l => decide (l ≠ 0))).map fun l => 2 ^ (32 - l)).sum)

/-- Round trip: with the codewords of any assignable length list, `CB_SCALAR` fed a codeword's bits returns its entry and consumes exactly its length
(41_codebook R205, R213). -/
def Obligations.CodewordsRoundTrip : Prop :=
  ∀ (s : State) (c : Nat) (lens : List Nat) (cs : List Code) (next : List (BitVec 32)) (k : Code),
    (∀ l ∈ lens, l ≤ 32) → assignFrom 0 lens = some (cs, next) → (s.codebook c).codes = storeOrder cs → c < s.dec.counts.nCodebooks →
      s.dec.bits.Valid → k ∈ cs → k.bits <+: s.ahead →
        exec (.cbScalar c) s = .next { (s.advance (aget lens k.entry)) with result := .value k.entry }

/-- `CB_SCALAR` on any codebook whose codewords can be told apart (41_codebook R205), and the error when 32 bits match none (R206). -/
def Obligations.ScalarDecodes : Prop :=
  ∀ (s : State) (c : Nat), c < s.dec.counts.nCodebooks → s.dec.bits.Valid →
    (∀ k : Code, CodeOf s c k → k.bits <+: s.ahead → exec (.cbScalar c) s = .next { (s.advance k.len) with result := .value k.entry }) ∧
      ((∀ k ∈ (s.codebook c).codes, k.Fits ∧ ¬k.bits <+: s.ahead) → 32 ≤ s.ahead.length →
        ∃ t, exec (.cbScalar c) s = .next t ∧ Aborted s t ∧ t.err = { cls := .streamFormatError, cause := 12#8 })

/-- The vector of an entry: multiplicands by lattice digit or by slice, the value formula with its two roundings, running sums in a sequenced codebook
(41_codebook R208 to R211). -/
def Obligations.VectorElements : Prop :=
  ∀ (b : Codebook) (e : Nat),
    (vqVector b e).length = b.dim ∧
      ∀ j, j < b.dim →
        aget (vqVector b e) j =
          fadd
            (fadd
              (fmul (f32OfInt (aget b.mult (if b.lookupType = 1 then e / b.lookupValues ^ j % b.lookupValues else e * b.dim + j))) b.delta)
              b.minVal)
            (if b.seq = true ∧ j ≠ 0 then aget (vqVector b e) (j - 1) else 0#32)

/-- `CB_VECTOR`: the entry's vector is added into the buffer at the stride, every other element and all else unchanged (41_codebook R208). That it runs on an
entry whose lookup fields do not fit each other is the model's choice (log 44). -/
def Obligations.VectorAdds : Prop :=
  ∀ (s : State) (c : Nat) (v : Vec) (base stride : Nat) (k : Code),
    s.dec.bits.Valid → CodeOf s c k → k.bits <+: s.ahead → (s.codebook c).lookupType ≠ 0 → (s.codebook c).dim ≠ 0 → 1 ≤ stride →
      (match v.ref with
        | .cur ch => ch < s.dec.hdr.channels ∧ v.size ≤ Config.maxBlock
        | .interleave => v.size ≤ Config.maxChannels * (Config.maxBlock / 2)) →
      base + ((s.codebook c).dim - 1) * stride < v.size →
        ∃ t, exec (.cbVector c v base stride) s = .next t ∧ t = ((s.advance k.len).bufSet v.ref (t.bufGet v.ref)).setResult .none ∧
          (∀ j, j < (s.codebook c).dim →
            aget (t.bufGet v.ref) (base + j * stride) =
              fadd (aget (s.bufGet v.ref) (base + j * stride)) (aget (vqVector (s.codebook c) k.entry) j)) ∧
          ∀ i, (∀ j, j < (s.codebook c).dim → i ≠ base + j * stride) → aget (t.bufGet v.ref) i = aget (s.bufGet v.ref) i

-- the Floor unit

/-- `FL_SETUP(f)`, from its type field and after it, on the bits of any legal floor stores that floor (42_floor R231 to R239).
That a class without a master book has 0 stored for it is the model's choice (log 33).
What a selector alone stands for is the model's reading (log 3). -/
def Obligations.FloorSetupStores : Prop :=
  ∀ (s : State) (f : Nat) (fl : Floor), s.dec.bits.Valid → f < s.dec.counts.nFloors → fl.legal s.dec.counts.nCodebooks = true →
    (s.Reads fl.fields →
      exec (.floorType1 f) s = .next (((s.past fl.fields).mapTabs fun t => { t with fl := aset t.fl f fl }).setResult .none)) ∧
    (s.Reads ((16, 1) :: fl.fields) →
      exec (.flSetup f) s = .next (((s.past ((16, 1) :: fl.fields)).mapTabs fun t => { t with fl := aset t.fl f fl }).setResult .none))

/-- `SORT` is the stable sort of the X list: a permutation of its positions in which X rises, and where X is equal the position does; every `FL_SETUP` that is
not aborted stores it (42_floor R236). -/
def Obligations.SortIsStable : Prop :=
  (∀ xs : List Nat,
    (sortPositions xs).Perm (List.range xs.length) ∧
      (sortPositions xs).Pairwise fun i j => aget xs i < aget xs j ∨ (aget xs i = aget xs j ∧ i < j)) ∧
    ∀ (s t : State) (f : Nat), exec (.flSetup f) s = .next t → ¬Aborted s t →
      (t.floor f).sort = sortPositions (t.floor f).xs

/-- `FL_DECODE` and its two selectors: a silent channel writes its flag alone; a channel with energy writes its flag and the raw values in list order, read as
base values, classifications and sub-book codewords (42_floor R240 to R245). An entry number is kept whole (R243, R245), also above the 65535 of 10_state R61:
the model's choice between the rules (log 32). That a floor with `RANGE` 0 has base values of no bits is its choice too (log 38). What a selector alone stands
for, and what `FL_DECODE` does with a floor that no mapping gives it, is its reading (log 3, log 35). -/
def Obligations.FloorDecodes : Prop :=
  ∀ (s : State) (ch f : Nat), s.dec.bits.Valid → ch < s.dec.hdr.channels → f < s.dec.counts.nFloors →
    exec (.floorSilent ch f) s = .next ((s.mapWork fun w => { w with hasEnergy := aset w.hasEnergy ch false }).setResult .none) ∧
      (s.Reads [(1, 0)] →
        exec (.flDecode ch f) s = .next (((s.past [(1, 0)]).mapWork fun w => { w with hasEnergy := aset w.hasEnergy ch false }).setResult .none)) ∧
      ∀ (y0 y1 : Nat) (ps : List PartitionCodes),
        let fl := s.floor f
        let bits := floorPartBits fl y0 y1 ps
        let stored := fun u : State =>
          (u.mapWork fun w =>
            { w with
              hasEnergy := aset w.hasEnergy ch true
              floorY := aset w.floorY ch (overlay (floorPartYs fl y0 y1 ps) (aget w.floorY ch)) }).setResult .none
        ilog (fl.range - 1) ≤ 24 → y0 < 2 ^ ilog (fl.range - 1) → y1 < 2 ^ ilog (fl.range - 1) → ps.length = fl.partClass.length →
          (∀ q ∈ partsOf fl ps, q.2.Legal s q.1) →
            (bits <+: s.ahead → exec (.floorEnergy ch f) s = .next (stored (s.advance bits.length))) ∧
              ((fieldBits [(1, 1)] ++ bits) <+: s.ahead → exec (.flDecode ch f) s = .next (stored (s.advance (1 + bits.length))))

/-- `FL_SYNTH` on a floor that passed setup: it completes when every amplitude is in range, and then multiplies each bin once by the table value of the curve;
it stops when one is not (42_floor R246, R251 to R256, U14). What the amplitudes and the curve are is CurveInterpolates. That it runs with any floor and any number
of bins is the model's choice (log 35). -/
def Obligations.FloorSynthesises : Prop :=
  ∀ (s : State) (ch f n : Nat),
    let fl := s.floor f
    let a := amplitudes fl (aget s.dec.work.floorY ch)
    ch < s.dec.hdr.channels → f < s.dec.counts.nFloors → 2 * n ≤ Config.maxBlock → aget s.dec.work.hasEnergy ch = true → xsOk fl.xs = true →
      fl.sort = sortPositions fl.xs → 1 ≤ fl.mult → fl.mult ≤ 4 → fl.range = rangeOf (fl.mult - 1) →
        ((∀ y ∈ a.finalY, 0 ≤ y ∧ y < (fl.range : Int)) →
          ∃ t, exec (.flSynth ch f n) s = .next t ∧ BanksBut s t [ch] ∧ t.dec.bits = s.dec.bits ∧ t.src = s.src ∧
            (∀ i, i < n → aget (t.cur ch) i = fmul (aget (s.cur ch) i) (Config.invDb (BitVec.ofInt 8 (aget (floorCurve fl a n) i)))) ∧
            ∀ i, n ≤ i → aget (t.cur ch) i = aget (s.cur ch) i) ∧
        (¬(∀ y ∈ a.finalY, 0 ≤ y ∧ y < (fl.range : Int)) → exec (.flSynth ch f n) s = .fault .floorAmplitude)

/-- The amplitudes: the base values at positions 0 and 1; at every later position the prediction from its two neighbours, corrected by the raw value in the four
cases; a point is set if its raw value is not 0 or it is a neighbour of a later such point (42_floor R247 to R250). The curve: the drawn line is the linear
prediction at every bin, so it stays between its end values; every bin gets exactly one value; every set point is on the curve, between two set points that
follow each other it is their line, and after the last it is flat (R249, R252 to R255, R257). -/
def Obligations.CurveInterpolates : Prop :=
  (∀ (fl : Floor) (ys : List Nat), xsOk fl.xs = true →
    let a := amplitudes fl ys
    let xs := fl.xs
    a.finalY.length = xs.length ∧ a.step2.length = xs.length ∧
      (∀ i, i < 2 → aget a.finalY i = (aget ys i : Int) ∧ aget a.step2 i = true) ∧
      ∀ i, 2 ≤ i → i < xs.length →
        (aget a.step2 i = true ↔ aget ys i ≠ 0 ∨ ∃ k, i < k ∧ k < xs.length ∧ aget ys k ≠ 0 ∧ (IsLow xs k i ∨ IsHigh xs k i)) ∧
          ∃ lo hi, IsLow xs i lo ∧ IsHigh xs i hi ∧
            aget a.finalY i =
              amplitudeOf fl.range (predictedY (aget xs lo) (aget a.finalY lo) (aget xs hi) (aget a.finalY hi) (aget xs i)) (aget ys i)) ∧
  (∀ (x0 x1 : Nat) (y0 y1 : Int), x0 < x1 →
    renderLine x0 y0 x1 y1 = (List.range (x1 - x0)).map (fun k => renderPoint x0 y0 x1 y1 (x0 + k)) ∧
      (∀ x, x0 ≤ x → renderPoint x0 y0 x1 y1 x = predictedY x0 y0 x1 y1 x) ∧
      ∀ y ∈ renderLine x0 y0 x1 y1, min y0 y1 ≤ y ∧ y ≤ max y0 y1) ∧
    ∀ (fl : Floor) (a : Amps) (n : Nat), xsOk fl.xs = true → fl.sort = sortPositions fl.xs → aget fl.xs 0 = 0 →
      let set := fun i : Nat => i < fl.xs.length ∧ (i = 0 ∨ aget a.step2 i = true)
      let y := fun i : Nat => aget a.finalY i * (fl.mult : Int)
      (floorCurve fl a n).length = n ∧
        ∀ i, set i → ∀ x, aget fl.xs i ≤ x → x < n →
          (x = aget fl.xs i → aget (floorCurve fl a n) x = y i) ∧
            (∀ k, set k → x < aget fl.xs k → (∀ j, set j → aget fl.xs j ≤ aget fl.xs i ∨ aget fl.xs k ≤ aget fl.xs j) →
              aget (floorCurve fl a n) x = predictedY (aget fl.xs i) (y i) (aget fl.xs k) (y k) x) ∧
            ((∀ j, set j → aget fl.xs j ≤ aget fl.xs i) → aget (floorCurve fl a n) x = y i)

-- the Residue unit

/-- `RS_SETUP(r)`, from its type field and after it, on the bits of any legal residue stores that residue (43_residue R271 to R275), where
every codebook that it names for a pass has a lookup: the fault on one without is row U16 of 93_implementation_defined against R275, the model's choice (log 17, stated
in StopsAsRuled). What a selector alone stands for is the model's reading (log 3). -/
def Obligations.ResidueSetupStores : Prop :=
  ∀ (s : State) (r : Nat) (rs : Residue) (flags : List Bool),
    s.dec.bits.Valid → r < s.dec.counts.nResidues → rs.legal s.dec.counts.nCodebooks flags = true → (s.codebook rs.classbook).dim ≠ 0 →
      s.booksLookUp rs.books = true →
      let stored := fun fs : List (Nat × Nat) => ((s.past fs).mapTabs fun t => { t with rs := aset t.rs r rs }).setResult .none
      (s.Reads (rs.fields flags) →
        (rs.rtype = 0 → exec (.residueType0 r) s = .next (stored (rs.fields flags))) ∧
          (rs.rtype = 1 → exec (.residueType1 r) s = .next (stored (rs.fields flags))) ∧
          (rs.rtype = 2 → exec (.residueType2 r) s = .next (stored (rs.fields flags)))) ∧
        (s.Reads ((16, rs.rtype) :: rs.fields flags) → exec (.rsSetup r) s = .next (stored ((16, rs.rtype) :: rs.fields flags)))

/-- `RS_DECODE` that has nothing to read, every channel skipped or no partition to read: the channels' vectors are zero, and no bit is read (43_residue R287 to
R290). That it runs on any ascending list of channels and any number of bins is the model's choice (log 35). -/
def Obligations.ResidueZeroes : Prop :=
  ∀ (s : State) (r : Nat) (chans : List Nat) (n : Nat),
    let rs := s.residue r
    let size := if rs.rtype = 2 then n * chans.length else n
    r < s.dec.counts.nResidues → 2 * n ≤ Config.maxBlock → (∀ c ∈ chans, c < s.dec.hdr.channels) → ascending chans = true → 0 < rs.partSize →
      0 < rs.nclass → (s.codebook rs.classbook).dim ≠ 0 →
        ((∀ c ∈ chans, aget s.dec.work.needResidue c = false) ∨ (min rs.endPos size - min rs.beginPos size) / rs.partSize = 0) →
          ∃ t, exec (.rsDecode r chans n) s = .next t ∧ t.dec.bits = s.dec.bits ∧ t.src = s.src ∧ t.srcPos = s.srcPos ∧ t.phase = s.phase ∧
            t.err = s.err ∧ BanksBut s t chans ∧
            ∀ c ∈ chans, (∀ i, i < n → aget (t.cur c) i = f32Zero) ∧ ∀ i, n ≤ i → aget (t.cur c) i = aget (s.cur c) i

/-- `RS_DECODE` on the codewords of a residue part, in the order of R282, takes exactly their bits and leaves in each channel's vector, from +0.0 on, the sum of the
vectors that they stand for: classification digits, strided and contiguous partitions, and the share of a channel in the interleaved vector of type 2
(43_residue R280 to R289). And it completes on every stream with enough bits when its codebooks decode every stream, have lookups, and divide the partition: data
do not end a run (R291). That it runs on any ascending list of channels and any number of bins is the model's choice (log 35). -/
def Obligations.ResidueCompletes : Prop :=
  (∀ (s : State) (r : Nat) (chans : List Nat) (n : Nat) (entry : Nat → Nat → Nat) (ks : List Code),
    let rs := s.residue r
    let m := chans.length
    let joint := rs.rtype = 2
    let size := if joint then n * m else n
    let needed := (List.range m).filter fun j => aget s.dec.work.needResidue (aget chans j)
    let kept := if joint then (if needed = [] then [] else [0]) else needed
    let reads := s.residueReads rs kept size entry
    let bits := ks.flatMap Code.bits
    r < s.dec.counts.nResidues → 2 * n ≤ Config.maxBlock → (∀ c ∈ chans, c < s.dec.hdr.channels) → ascending chans = true → 0 < rs.partSize →
      0 < rs.nclass → s.dec.bits.Valid → (s.codebook rs.classbook).dim ≠ 0 → ks.length = reads.length →
        (∀ p ∈ reads.zip ks, CodeOf s (p.1.book rs) p.2 ∧ p.1.ok s size entry p.2 = true) → bits <+: s.ahead →
          ∃ t, exec (.rsDecode r chans n) s = .next t ∧ t.dec.bits = (s.advance bits.length).dec.bits ∧ t.src = (s.advance bits.length).src ∧
            t.srcPos = (s.advance bits.length).srcPos ∧ t.phase = s.phase ∧ t.err = s.err ∧ BanksBut s t chans ∧
            ∀ j, j < m →
              (∀ i, i < n →
                aget (t.cur (aget chans j)) i =
                  if joint then s.addedAt 0 (i * m + j) (reads.zip ks) f32Zero else s.addedAt j i (reads.zip ks) f32Zero) ∧
                ∀ i, n ≤ i → aget (t.cur (aget chans j)) i = aget (s.cur (aget chans j)) i) ∧
  ∀ (s : State) (r : Nat) (chans : List Nat) (n : Nat),
    let rs := s.residue r
    let size := if rs.rtype = 2 then n * chans.length else n
    let parts := (min rs.endPos size - min rs.beginPos size) / rs.partSize
    r < s.dec.counts.nResidues → 2 * n ≤ Config.maxBlock → (∀ c ∈ chans, c < s.dec.hdr.channels) → ascending chans = true → 0 < rs.partSize →
      0 < rs.nclass → s.dec.bits.Valid → rs.classbook < s.dec.counts.nCodebooks → (s.codebook rs.classbook).dim ≠ 0 →
        (∀ k ∈ (s.codebook rs.classbook).codes, k.Fits) → Complete (s.codebook rs.classbook).codes →
          (∀ row ∈ rs.books, ∀ b ∈ row, ∀ k ∈ b, VectorBook s rs.partSize k) →
            32 * ((chans.length + 1) * (parts * (1 + 8 * rs.partSize))) ≤ s.ahead.length →
              ∃ t, exec (.rsDecode r chans n) s = .next t ∧ t.phase = s.phase ∧ t.err = s.err ∧ t.dec.tabs = s.dec.tabs ∧ BanksBut s t chans ∧
                SourceMoved s t

-- Mapping and Mode

/-- `MAP_SETUP(m)`, from its type field and after it, on the bits of any legal mapping stores that mapping (44_mapping_mode R301 to R307).
What a selector alone stands for is the model's reading (log 3). -/
def Obligations.MappingSetupStores : Prop :=
  ∀ (s : State) (m : Nat) (f : MappingForm) (mp : Mapping),
    s.dec.bits.Valid → m < s.dec.counts.nMappings → s.dec.hdr.channels < 2 ^ 8 →
      f.legal s.dec.hdr.channels s.dec.counts.nFloors s.dec.counts.nResidues mp = true →
        let fs := f.fields s.dec.hdr.channels mp
        (s.Reads fs → exec (.mappingType0 m) s = .next (((s.past fs).mapTabs fun t => { t with mp := aset t.mp m mp }).setResult .none)) ∧
          (s.Reads ((16, 0) :: fs) →
            exec (.mapSetup m) s = .next (((s.past ((16, 0) :: fs)).mapTabs fun t => { t with mp := aset t.mp m mp }).setResult .none))

/-- The four selectors of a mapping: a count that is absent is one submap, or no step; one that is present is read (44_mapping_mode R302, R303).
What a selector alone stands for is the model's reading (log 3). -/
def Obligations.MappingSelectors : Prop :=
  ∀ (s : State) (m : Nat), s.dec.bits.Valid → m < s.dec.counts.nMappings → s.dec.hdr.channels < 2 ^ 8 →
    let put := fun (u : State) (g : Mapping → Mapping) => (u.mapTabs fun t => { t with mp := aset t.mp m (g (aget t.mp m)) }).setResult .none
    exec (.mapSubmapsAbsent m) s = .next (put s fun e => { e with submaps := 1 }) ∧
      exec (.mapCouplingAbsent m) s = .next (put s fun e => { e with steps := [] }) ∧
      (∀ v, v < 16 → s.Reads [(4, v)] → exec (.mapSubmapsPresent m) s = .next (put (s.past [(4, v)]) fun e => { e with submaps := v + 1 })) ∧
      ∀ st : List CouplingStep, 1 ≤ st.length → st.length ≤ 256 → st.all (CouplingStep.legal s.dec.hdr.channels) = true →
        s.Reads (stepFields s.dec.hdr.channels st) →
          exec (.mapCouplingPresent m) s = .next (put (s.past (stepFields s.dec.hdr.channels st)) fun e => { e with steps := st })

/-- `MODE_SETUP(k)` on the bits of any mode whose mapping exists, and the two values of the block flag (44_mapping_mode R310, R311).
What a selector alone stands for is the model's reading (log 3). -/
def Obligations.ModeSetupStores : Prop :=
  ∀ (s : State) (k : Nat) (md : Mode), s.dec.bits.Valid → k < s.dec.counts.nModes →
    let put := fun (u : State) (g : Mode → Mode) => (u.mapTabs fun t => { t with md := aset t.md k (g (aget t.md k)) }).setResult .none
    (md.mapping < s.dec.counts.nMappings → md.mapping < 256 → s.Reads md.fields →
      exec (.modeSetup k) s = .next (put (s.past md.fields) fun _ => md)) ∧
    exec (.modeShort k) s = .next (put s fun e => { e with blockFlag := false }) ∧
    exec (.modeLong k) s = .next (put s fun e => { e with blockFlag := true })

/-- Fields that setup refuses: unsupported types, a codebook's sync, reserved bits of a mode, a mapping and a time-domain placeholder, a coupling step of one channel
with itself, an over-subscribed code, a framing flag of 0, each with its cause (41_codebook R191, R196, 42_floor R231, 43_residue R271, 44_mapping_mode R301, R303,
R304, R310, 46_frame_output R348, R349, 60_exceptions R392). What a selector alone stands for is the model's reading (log 3, DEDUCED), and that a
coupling step has no bits where `CHANNELS` is 0 is its choice (log 38). -/
def Obligations.SetupErrors : Prop :=
  ∀ (s : State) (c v : Nat), s.dec.bits.Valid → v < 2 ^ 16 →
    let fails := fun (i : Instr) (cause : BitVec 8) => ∃ t, exec i s = .next t ∧ Aborted s t ∧ t.err = { cls := .streamFormatError, cause := cause }
    (c < s.dec.counts.nFloors → v ≠ 1 → s.Reads [(16, v)] → fails (.flSetup c) 5#8) ∧
      (c < s.dec.counts.nResidues → 2 < v → s.Reads [(16, v)] → fails (.rsSetup c) 6#8) ∧
      (c < s.dec.counts.nMappings → v ≠ 0 → s.Reads [(16, v)] → fails (.mapSetup c) 7#8) ∧
      (∀ w, w < 2 ^ 24 → w ≠ 0x564342 → c < s.dec.counts.nCodebooks → s.Reads [(24, w)] → fails (.cbSetup c) 1#8) ∧
      (∀ b : Bool, c < s.dec.counts.nModes → v ≠ 0 →
        (s.Reads [flagField b, (16, v)] → fails (.modeSetup c) 4#8) ∧ (s.Reads [flagField b, (16, 0), (16, v)] → fails (.modeSetup c) 4#8)) ∧
      (∀ (f : MappingForm) (mp : Mapping),
        let ch := s.dec.hdr.channels
        let refused := fun (fs : List (Nat × Nat)) (cause : BitVec 8) =>
          (s.Reads ((16, 0) :: fs) → fails (.mapSetup c) cause) ∧ (s.Reads fs → fails (.mappingType0 c) cause)
        c < s.dec.counts.nMappings → ch < 2 ^ 8 → f.headLegal ch mp = true →
          (v < 4 → v ≠ 0 → refused (f.head ch mp ++ [(2, v)]) 4#8) ∧
            ∀ (pre : List CouplingStep) (n : Nat), pre.all (CouplingStep.legal ch) = true → pre.length ≤ n → n < 256 → v < 2 ^ ilog (ch - 1) →
              let fs := (8, n) :: pre.flatMap (pairFields ch) ++ [(ilog (ch - 1), v), (ilog (ch - 1), v)]
              (s.Reads fs → fails (.mapCouplingPresent c) 9#8) ∧ refused (flagField f.submapsFlag :: f.countFields mp ++ (1, 1) :: fs) 9#8) ∧
      (∀ su : SetupForm, s.dec.hdr.channels < 2 ^ 8 → su.legal s.dec.hdr.channels = true →
        (∀ j, j < su.timeCount → v ≠ 0 →
          s.Reads ((8, su.codebooks.length - 1) :: su.codebooks.flatMap CodebookForm.fields ++ (6, su.timeCount - 1) :: List.replicate j (16, 0) ++
            [(16, v)]) → fails .hdrSetup 4#8) ∧
          (s.Reads (su.body s.dec.hdr.channels ++ [(1, 0)]) → fails .hdrSetup 13#8)) ∧
      ∀ f : CodebookForm, c < s.dec.counts.nCodebooks → f.dim < 2 ^ 16 → f.lens.length < 2 ^ 24 → f.lenForm.legal f.lens = true →
        assignFrom 0 f.lens = none → s.Reads ([(24, 0x564342), (16, f.dim), (24, f.lens.length)] ++ f.lenForm.fields f.lens) →
          fails (.cbSetup c) 10#8

-- the Inverse Transform unit and the windows

/-- `IMDCT_INIT` and `WIN_INIT` write the tables of their block size, as functions of that size alone, of the sizes that the rules give, and no other table
(45_imdct R321, R323, 46_frame_output R350). That they run on block sizes that R324 does not have is the model's choice (log 39). -/
def Obligations.BlockTablesWritten : Prop :=
  ∀ (s : State) (b : Bool),
    (∃ t, exec (.imdctInit b) s = .next t ∧ (t.dec.pre.get b).bitrev.length = s.block b / 8 ∧
      t.dec.pre.get b = { s.dec.pre.get b with twA := (t.dec.pre.get b).twA, twB := (t.dec.pre.get b).twB, twC := (t.dec.pre.get b).twC, bitrev := (t.dec.pre.get b).bitrev } ∧
      t.dec.pre.get (!b) = s.dec.pre.get (!b) ∧ t = { s with dec := { s.dec with pre := t.dec.pre }, result := .none } ∧
      ∀ (u v : State) (b' : Bool), u.block b' = s.block b → exec (.imdctInit b') u = .next v →
        (v.dec.pre.get b').twA = (t.dec.pre.get b).twA ∧ (v.dec.pre.get b').twB = (t.dec.pre.get b).twB ∧
          (v.dec.pre.get b').twC = (t.dec.pre.get b).twC ∧ (v.dec.pre.get b').bitrev = (t.dec.pre.get b).bitrev) ∧
    ∃ t, exec (.winInit b) s = .next t ∧ (t.dec.pre.get b).winCur.length = s.block b / 2 ∧ (t.dec.pre.get b).winPrev.length = s.block b / 2 ∧
      t.dec.pre.get b = { s.dec.pre.get b with winCur := (t.dec.pre.get b).winCur, winPrev := (t.dec.pre.get b).winPrev } ∧
      t.dec.pre.get (!b) = s.dec.pre.get (!b) ∧ t = { s with dec := { s.dec with pre := t.dec.pre }, result := .none } ∧
      ∀ (u v : State) (b' : Bool), u.block b' = s.block b → exec (.winInit b') u = .next v →
        (v.dec.pre.get b').winCur = (t.dec.pre.get b).winCur ∧ (v.dec.pre.get b').winPrev = (t.dec.pre.get b).winPrev

/-- `IMDCT` of a channel with energy completes: the whole block of that channel, and nothing else but the returned value, is written from the first half alone, an
all-zero spectrum gives an all-zero block, and equal inputs of equal size give equal outputs (45_imdct R325, R328, R329). That it runs on a block selector other
than `CUR_FLAG` too, and on block sizes that R324 does not have, is the model's choice (log 34, log 39). -/
def Obligations.TransformWrites : Prop :=
  ∀ (s : State) (b : Bool) (ch : Nat), ch < s.dec.hdr.channels → aget s.dec.work.hasEnergy ch = true →
    ∃ t, exec (.imdct b ch) s = .next t ∧ BanksBut s t [ch] ∧
      t =
        { s with
          dec := { s.dec with work := { s.dec.work with buf0 := t.dec.work.buf0, buf1 := t.dec.work.buf1 } }
          result := .none } ∧
      (∀ i, s.block b ≤ i → aget (t.cur ch) i = aget (s.cur ch) i) ∧
      ((∀ k, k < s.block b / 2 → f32IsZero (aget (s.cur ch) k) = true) → ∀ i, i < s.block b → f32IsZero (aget (t.cur ch) i) = true) ∧
      ∀ (u v : State) (b' : Bool) (ch' : Nat), u.block b' = s.block b → exec (.imdct b' ch') u = .next v →
        (∀ k, k < s.block b / 2 → aget (u.cur ch') k = aget (s.cur ch) k) → ∀ i, i < s.block b → aget (v.cur ch') i = aget (t.cur ch) i

-- the headers

/-- `HDR_TAG(t)`: the type byte is checked first, then the six bytes after it (46_frame_output R343, 60_exceptions R397). -/
def Obligations.HeaderTagChecks : Prop :=
  ∀ (s : State) (t b : Byte) (sync rest : List Byte), s.dec.bits.nbits = 0 → s.src.bytes = b :: sync ++ rest → sync.length = 6 →
    let u := s.dropBytes 7
    (b ≠ t → exec (.hdrTag t) s = .next (u.raise .badHeaderTag)) ∧
      (b = t → sync ≠ [0x76#8, 0x6F#8, 0x72#8, 0x62#8, 0x69#8, 0x73#8] → exec (.hdrTag t) s = .next (u.raise .badSync)) ∧
      (b = t → sync = [0x76#8, 0x6F#8, 0x72#8, 0x62#8, 0x69#8, 0x73#8] → exec (.hdrTag t) s = .next (u.setResult .none))

/-- `HDR_IDENT()` on any 23 bytes: the fields kept, and every check in the order that the rules give, the first that fails deciding (46_frame_output R344,
R345, 60_exceptions R397). -/
def Obligations.IdentHeaderChecks : Prop :=
  ∀ (s : State) (id : IdentForm) (rest : List Byte), s.dec.bits.nbits = 0 → id.bitrates.length = 12 → s.src.bytes = id.bytes ++ rest →
    let u := (s.dropBytes 23).mapHdr fun _ => id.regs
    (id.Legal → exec .hdrIdent s = .next (u.setResult .none)) ∧
      exec .hdrIdent s =
        if id.version ≠ 0#32 then .fault .version
        else if id.channels = 0#8 then .next (u.raise .badChannels)
        else if Config.maxChannels < id.channels.toNat then .fault .tooManyChannels
        else if id.rate = 0#32 then .fault .zeroSampleRate
        else if ¬(6 ≤ id.regs.bsExp0 ∧ id.regs.bsExp0 ≤ id.regs.bsExp1 ∧ id.regs.bsExp1 ≤ 13) then .next (u.raise .badBlockSize)
        else if id.framing.toNat % 2 = 0 then .next (u.raise .badFraming)
        else .next (u.setResult .none)

/-- `HDR_COMMENT()` on any vendor string and comments: passed over to the last byte, nothing stored; a framing flag of 0 raises (46_frame_output R346). -/
def Obligations.CommentHeaderSkips : Prop :=
  ∀ (s : State) (cm : CommentForm) (rest : List Byte), s.dec.bits.nbits = 0 → cm.vendor.length < 2 ^ 32 → cm.comments.length < 2 ^ 32 →
    (∀ c ∈ cm.comments, c.length < 2 ^ 32) → s.src.bytes = cm.bytes ++ rest →
      (cm.framing.toNat % 2 = 1 → exec .hdrComment s = .next ((s.dropBytes cm.bytes.length).setResult .none)) ∧
        (cm.framing.toNat % 2 = 0 → exec .hdrComment s = .next ((s.dropBytes cm.bytes.length).raise .badFraming))

/-- `HDR_SETUP()` on the bits of any legal setup header stores every table and its count, and ends at a byte boundary (46_frame_output R347 to R349,
44_mapping_mode R312). Three points of what is stored are the model's: 0 as the master book of a floor class that has none (log 33),
what the entry held before in the lookup fields of a codebook without lookup (log 43), and no header is legal that has a
residue naming a codebook without lookup (log 17). -/
def Obligations.SetupHeaderStores : Prop :=
  ∀ (s : State) (su : SetupForm), s.dec.bits.Valid → s.dec.hdr.channels < 2 ^ 8 → su.legal s.dec.hdr.channels = true →
    s.Reads (su.fields s.dec.hdr.channels) →
      ∃ t, exec .hdrSetup s = .next t ∧ su.Stored s t ∧ t.dec.bits = BitReader.empty ∧ t.src = (s.past (su.fields s.dec.hdr.channels)).src ∧
        t.srcPos = (s.past (su.fields s.dec.hdr.channels)).srcPos ∧ t.dec.hdr = s.dec.hdr ∧ t.dec.frame = s.dec.frame ∧ t.dec.pre = s.dec.pre ∧
        t.dec.work = { s.dec.work with len := t.dec.work.len, nextFree := t.dec.work.nextFree } ∧ t.free = s.free ∧
        t.phase = s.phase ∧ t.err = s.err ∧ t.ret = s.ret ∧ t.cmd = s.cmd ∧ t.out = s.out ∧ t.script = s.script ∧ t.result = .none

/-- The three header types, where the seven bytes of a tag have been taken: the checks of the tag, and on a tag that passes, the header's body, which completes on
a legal one (30_encoding R114, 46_frame_output R343 to R349). What a selector alone stands for is the model's reading (log 3), and of what the setup header stores, 0 as
the master book of a floor class that has none (log 33), the old lookup fields of a codebook without lookup (log 43) and the refusal of a residue naming a
codebook without lookup (log 17) are its choices. -/
def Obligations.HeaderTypesRun : Prop :=
  ∀ (s : State) (t : Byte) (sync : List Byte),
    ((t ≠ 1#8 → exec (.hdrTypeIdent t sync) s = .next (s.raise .badHeaderTag)) ∧ (t ≠ 3#8 → exec (.hdrTypeComment t sync) s = .next (s.raise .badHeaderTag)) ∧
      (t ≠ 5#8 → exec (.hdrTypeSetup t sync) s = .next (s.raise .badHeaderTag))) ∧
    (sync ≠ syncBytes →
      exec (.hdrTypeIdent 1#8 sync) s = .next (s.raise .badSync) ∧ exec (.hdrTypeComment 3#8 sync) s = .next (s.raise .badSync) ∧
        exec (.hdrTypeSetup 5#8 sync) s = .next (s.raise .badSync)) ∧
    (∀ (id : IdentForm) (rest : List Byte), s.dec.bits.nbits = 0 → id.Legal → s.src.bytes = id.bytes ++ rest →
      exec (.hdrTypeIdent 1#8 syncBytes) s = .next (((s.dropBytes 23).mapHdr fun _ => id.regs).setResult .none)) ∧
    (∀ (cm : CommentForm) (rest : List Byte), s.dec.bits.nbits = 0 → cm.Legal → s.src.bytes = cm.bytes ++ rest →
      exec (.hdrTypeComment 3#8 syncBytes) s = .next ((s.dropBytes cm.bytes.length).setResult .none)) ∧
    ∀ su : SetupForm, s.dec.bits.Valid → s.dec.hdr.channels < 2 ^ 8 → su.legal s.dec.hdr.channels = true →
      s.Reads (su.fields s.dec.hdr.channels) →
        ∃ u, exec (.hdrTypeSetup 5#8 syncBytes) s = .next u ∧ su.Stored s u ∧ u.dec.bits = BitReader.empty

-- inverse coupling

/-- `DECOUPLE(m, n)`: the steps undone from the last to the first, each bin by the four cases on the signs of the pair (46_frame_output R367).
That it runs on a step with a channel at or above `CHANNELS` is the model's choice (log 44). -/
def Obligations.DecoupleUndoes : Prop :=
  ∀ (s : State) (m n : Nat), m < s.dec.counts.nMappings → 2 * n ≤ Config.maxBlock →
    exec (.decouple m n) s = .next (((s.mapping m).steps.reverse.foldl (fun u st => u.undone n st) s).setResult .none) ∧
      ∀ st, (s.mapping m).steps = [st] → st.mag ≠ st.ang →
        ∃ t, exec (.decouple m n) s = .next t ∧ BanksBut s t [st.mag, st.ang] ∧
          (∀ i, i < n → (aget (t.cur st.mag) i, aget (t.cur st.ang) i) = undoneBin (aget (s.cur st.mag) i) (aget (s.cur st.ang) i)) ∧
          ∀ i, n ≤ i → aget (t.cur st.mag) i = aget (s.cur st.mag) i ∧ aget (t.cur st.ang) i = aget (s.cur st.ang) i

-- frames

/-- The frame of the operations that only read the stream, and of the header bodies: of the decoder, the bits held alone; the stream registers alone; the bits held, the
counts, the tables and the codebook scratch. Outside it, the source and the latch. Or the command is aborted (40_bit_reader, 41_codebook R205, 46_frame_output R343
to R349). -/
def Obligations.ReadsAndHeadersFrame : Prop :=
  ∀ (s t : State) (i : Instr), exec i s = .next t →
    ((match i with
      | .rdbits _ | .rdbit | .tryrd _ | .align | .rdu8 | .rdexact _ | .cbScalar _ | .hdrTag _ | .hdrComment | .hdrTypeComment _ _ | .pcmOut _ => True
      | _ => False) →
      Aborted s t ∨ (Outside s t ∧ t.dec = { s.dec with bits := t.dec.bits })) ∧
    ((i = .hdrIdent ∨ ∃ b sync, i = .hdrTypeIdent b sync) → Aborted s t ∨ (Outside s t ∧ t.dec = { s.dec with hdr := t.dec.hdr })) ∧
    ((i = .hdrSetup ∨ ∃ b sync, i = .hdrTypeSetup b sync) →
      Aborted s t ∨
        (Outside s t ∧
          t.dec =
            { s.dec with
              bits := t.dec.bits, counts := t.dec.counts, tabs := t.dec.tabs
              work := { s.dec.work with len := t.dec.work.len, nextFree := t.dec.work.nextFree } }))

/-- The frame of the operations that fill a table entry: of the decoder, only the bits held and that entry change (and the codebook scratch, for a codebook), or the
command is aborted (10_state R51, R67, 41_codebook, 42_floor R239, 43_residue R275, 44_mapping_mode). -/
def Obligations.TableEntryFrame : Prop :=
  ∀ (s t : State) (i : Instr), exec i s = .next t →
    (∀ c, i ∈ [Instr.cbSetup c, .cbLenExplicit c, .cbLenRunLength c, .cbDense c, .cbSparse c, .cbLookupNone c, .cbLookupLattice c, .cbLookupExplicit c,
        .cbSeqOff c, .cbSeqOn c] →
      Aborted s t ∨
        (Outside s t ∧ (∀ k, k ≠ c → t.codebook k = s.codebook k) ∧
          t.dec =
            { s.dec with
              bits := t.dec.bits, tabs := { s.dec.tabs with cb := t.dec.tabs.cb }
              work := { s.dec.work with len := t.dec.work.len, nextFree := t.dec.work.nextFree } })) ∧
    (∀ f, i ∈ [Instr.flSetup f, .floorType1 f] →
      Aborted s t ∨
        (Outside s t ∧ (∀ k, k ≠ f → t.floor k = s.floor k) ∧
          t.dec = { s.dec with bits := t.dec.bits, tabs := { s.dec.tabs with fl := t.dec.tabs.fl } })) ∧
    (∀ r, i ∈ [Instr.rsSetup r, .residueType0 r, .residueType1 r, .residueType2 r] →
      Aborted s t ∨
        (Outside s t ∧ (∀ k, k ≠ r → t.residue k = s.residue k) ∧
          t.dec = { s.dec with bits := t.dec.bits, tabs := { s.dec.tabs with rs := t.dec.tabs.rs } })) ∧
    (∀ m, i ∈ [Instr.mapSetup m, .mappingType0 m, .mapSubmapsAbsent m, .mapSubmapsPresent m, .mapCouplingAbsent m, .mapCouplingPresent m] →
      Aborted s t ∨
        (Outside s t ∧ (∀ k, k ≠ m → t.mapping k = s.mapping k) ∧
          t.dec = { s.dec with bits := t.dec.bits, tabs := { s.dec.tabs with mp := t.dec.tabs.mp } })) ∧
    ∀ k, i ∈ [Instr.modeSetup k, .modeShort k, .modeLong k] →
      Aborted s t ∨
        (Outside s t ∧ (∀ j, j ≠ k → t.mode j = s.mode j) ∧
          t.dec = { s.dec with bits := t.dec.bits, tabs := { s.dec.tabs with md := t.dec.tabs.md } })

/-- The frame of the operations on the work buffers: the previous bank, the channels that the operation does not name and every register outside the named scratch are
unchanged, or the command is aborted (41_codebook R208, 42_floor R241, R245, R246, 43_residue R287, 45_imdct R325, 46_frame_output R367). What the named scratch
holds is no claim: it is dead after the operation (log 31). -/
def Obligations.BufferFrame : Prop :=
  ∀ (s t : State) (i : Instr), exec i s = .next t →
    (∀ c v base stride, i = .cbVector c v base stride →
      Aborted s t ∨
        (Outside s t ∧
          t.dec =
            { s.dec with
              bits := t.dec.bits
              work := { s.dec.work with buf0 := t.dec.work.buf0, buf1 := t.dec.work.buf1, interleave := t.dec.work.interleave } } ∧
          (match v.ref with
            | .cur ch => BanksBut s t [ch] ∧ t.dec.work.interleave = s.dec.work.interleave
            | .interleave => t.dec.work.buf0 = s.dec.work.buf0 ∧ t.dec.work.buf1 = s.dec.work.buf1))) ∧
    (∀ ch f, i ∈ [Instr.flDecode ch f, .floorSilent ch f, .floorEnergy ch f] →
      Aborted s t ∨
        (Outside s t ∧
          t.dec =
            { s.dec with
              bits := t.dec.bits, work := { s.dec.work with hasEnergy := t.dec.work.hasEnergy, floorY := t.dec.work.floorY } } ∧
          ∀ j, j ≠ ch → aget t.dec.work.hasEnergy j = aget s.dec.work.hasEnergy j ∧ aget t.dec.work.floorY j = aget s.dec.work.floorY j)) ∧
    (∀ ch f n, i = .flSynth ch f n →
      Outside s t ∧ BanksBut s t [ch] ∧
        t.dec =
          { s.dec with
            work :=
              { s.dec.work with
                buf0 := t.dec.work.buf0, buf1 := t.dec.work.buf1, finalY := t.dec.work.finalY, step2 := t.dec.work.step2 } }) ∧
    (∀ r chans n, i = .rsDecode r chans n →
      Aborted s t ∨
        (Outside s t ∧ BanksBut s t chans ∧
          t.dec =
            { s.dec with
              bits := t.dec.bits
              work :=
                { s.dec.work with
                  buf0 := t.dec.work.buf0, buf1 := t.dec.work.buf1, interleave := t.dec.work.interleave, classif := t.dec.work.classif
                  doNotDecode := t.dec.work.doNotDecode } })) ∧
    (∀ b ch, i = .imdct b ch →
      Outside s t ∧ BanksBut s t [ch] ∧
        t.dec = { s.dec with work := { s.dec.work with buf0 := t.dec.work.buf0, buf1 := t.dec.work.buf1 } }) ∧
    ∀ m n, i = .decouple m n →
      Outside s t ∧ BanksBut s t ((s.mapping m).steps.flatMap fun st => [st.mag, st.ang]) ∧
        t.dec = { s.dec with work := { s.dec.work with buf0 := t.dec.work.buf0, buf1 := t.dec.work.buf1 } }

/-- The frame of the commands that run on a stream: `DECODE` and an audio packet after its type leave the tables, the stream registers and the previous frame alone;
`OUTPUT` leaves all of the decoder but three registers alone (10_state R51, 46_frame_output R360, R375). -/
def Obligations.CommandFrame : Prop :=
  ∀ (s t : State) (i : Instr), exec i s = .next t →
    ((i = .cmdDecode ∨ i = .packetAudio) → t.phase ≠ .failed →
      t.dec.tabs = s.dec.tabs ∧ t.dec.counts = s.dec.counts ∧ t.dec.hdr = s.dec.hdr ∧ t.dec.pre = s.dec.pre ∧
        t.dec.frame.prevBlock = s.dec.frame.prevBlock ∧ t.dec.frame.outCount = s.dec.frame.outCount ∧ t.dec.work.len = s.dec.work.len ∧
        t.dec.work.nextFree = s.dec.work.nextFree ∧ t.out = s.out ∧ t.cmd = s.cmd ∧ t.script = s.script ∧ SourceMoved s t ∧
        (t.dec.frame.curSel ≠ s.dec.frame.curSel → ∀ ch, t.prev ch = s.cur ch)) ∧
      ∀ cap, i = .cmdOutput cap →
        t.phase = s.phase ∧ t.err = s.err ∧ t.src = s.src ∧ t.srcPos = s.srcPos ∧ t.cmd = s.cmd ∧ t.script = s.script ∧ t.result = s.result ∧
          t.dec =
            { s.dec with
              frame :=
                { s.dec.frame with
                  outCount := t.dec.frame.outCount, prevBlock := t.dec.frame.prevBlock, framePending := t.dec.frame.framePending } }

-- whole-machine rules

/-- At reset every invariant holds, `STATE` is `CLOSED`, and no request is waiting (10_state R70, 70_reset_and_hazards R430). Every value but that of `STATE` is
the model's choice (log 5, log 2). -/
def Obligations.ResetMeetsInvariants : Prop :=
  State.reset.phase = .closed ∧ State.reset.script = [] ∧ State.reset.BitsInv ∧ State.reset.BoundaryInv ∧ State.reset.HeaderInv ∧ State.reset.RangeInv

/-- Every step of a live decoder leaves the accumulator holding `NBITS` bits and no others, with room for the widest read (10_state R41, 40_bit_reader R170,
R171). -/
def Obligations.BitsInvariantKept : Prop := ∀ s t : State, s.BitsInv → step s = .next t → t.BitsInv

/-- Every command leaves a live stream at a byte boundary (30_encoding R113, 70_reset_and_hazards R442). -/
def Obligations.BoundaryInvariantKept : Prop := ∀ s t : State, s.CommandNext → s.BoundaryInv → step s = .next t → t.BoundaryInv

/-- Every step keeps the stream registers legal in `READY` and `ENDED` (10_state R33, R34, 46_frame_output R345). -/
def Obligations.HeaderInvariantKept : Prop := ∀ s t : State, s.HeaderInv → step s = .next t → t.HeaderInv

/-- Every step of a live decoder keeps its registers in their ranges (10_state R33 to R37). -/
def Obligations.RangeInvariantKept : Prop := ∀ s t : State, s.RangeInv → step s = .next t → t.RangeInv

/-- The top-level state machine: a command moves `STATE` only along the transitions that 10_state R31 lists, each by its command; and `DECODE` and `OUTPUT`
alternate: in `READY` a frame is pending after a command exactly if a `DECODE` left one or it was pending and not output (10_state R31, R36,
70_reset_and_hazards R435). -/
def Obligations.StateTransitions : Prop :=
  ∀ (s t : State) (f : Fetch) (rest : List Fetch), s.script = f :: rest → f.port = .cmd → step s = .next t →
    (t.phase = s.phase ∨
      (f.word = 0x00#16 ∧ s.phase = .closed ∧ t.phase = .uninit) ∨
      (f.word = 0x01#16 ∧ s.phase = .uninit ∧ (t.phase = .ready ∨ t.phase = .failed)) ∨
      (f.word = 0x02#16 ∧ s.phase = .ready ∧ (t.phase = .ended ∨ t.phase = .failed)) ∨ (f.word = 0x04#16 ∧ t.phase = .closed)) ∧
    (s.phase = .ready → t.phase = .ready →
      (f.word = 0x02#16 → t.dec.frame.framePending = true) ∧ (f.word = 0x03#16 → t.dec.frame.framePending = false) ∧
        (f.word ≠ 0x02#16 → f.word ≠ 0x03#16 → t.dec.frame.framePending = s.dec.frame.framePending))

/-- The setup tables and the precomputed tables are read-only after setup: no command issued in `READY` changes them while the decoder lives (10_state R51,
70_reset_and_hazards R438). A micro-operation issued alone can, which is the model's choice (log 42). -/
def Obligations.TablesReadOnly : Prop :=
  ∀ s t : State, s.CommandNext → s.phase = .ready → step s = .next t → t.Live →
    t.dec.tabs = s.dec.tabs ∧ t.dec.counts = s.dec.counts ∧ t.dec.hdr = s.dec.hdr ∧ t.dec.pre = s.dec.pre

/-- Every step takes the source's bytes in order, each once, and never gives one back, unless it opens or closes the stream or aborts it (20_memory R81, 10_state
R40). -/
def Obligations.SourceIsSequential : Prop :=
  ∀ (s t : State) (f : Fetch) (rest : List Fetch), s.script = f :: rest → step s = .next t → t.phase ≠ .failed →
    ¬(f.port = .cmd ∧ (f.word = 0x00#16 ∨ f.word = 0x04#16)) → SourceMoved s t
end

