-- ==== Sys2Proof/Laws/Arrays.lean ====
section
/-! SUPPORT. The laws of arrays held as lists: a read after a write, and what taking and overlaying leave. -/

namespace Sys2Proof.Machine

section

variable {α : Type} [Inhabited α]

@[simp] theorem aget_nil (i : Nat) : aget ([] : List α) i = default := rfl

@[simp] theorem aget_cons_zero (x : α) (xs : List α) : aget (x :: xs) 0 = x := rfl

@[simp] theorem aget_cons_succ (x : α) (xs : List α) (i : Nat) : aget (x :: xs) (i + 1) = aget xs i := rfl

theorem aget_of_lt {l : List α} {i : Nat} (h : i < l.length) : aget l i = l[i] := by simp [aget, h]

theorem aget_of_le {l : List α} {i : Nat} (h : l.length ≤ i) : aget l i = default := by simp [aget, h]

/-- A read after a write: the written element has the new value, every other one its old value. -/
theorem aget_aset (l : List α) (i j : Nat) (v : α) : aget (aset l i v) j = if j = i then v else aget l j := by
  induction l generalizing i j with
  | nil =>
    induction i generalizing j with
    | zero => cases j <;> simp [aset]
    | succ i ih =>
      cases j with
      | zero => simp [aset]
      | succ j => simpa [aset] using ih j
  | cons x xs ih =>
    cases i <;> cases j <;> simp [aset, ih]

@[simp] theorem aget_aset_self (l : List α) (i : Nat) (v : α) : aget (aset l i v) i = v := by simp [aget_aset]

theorem aget_aset_of_ne (l : List α) {i j : Nat} (v : α) (h : j ≠ i) : aget (aset l i v) j = aget l j := by simp [aget_aset, h]

@[simp] theorem aset_aset (l : List α) (i : Nat) (v w : α) : aset (aset l i v) i w = aset l i w := by
  induction l generalizing i with
  | nil => induction i with
    | zero => rfl
    | succ i ih => simpa [aset] using ih
  | cons x xs ih => cases i <;> simp [aset, ih]

theorem length_aset (l : List α) (i : Nat) (v : α) : (aset l i v).length = max l.length (i + 1) := by
  induction l generalizing i with
  | nil => induction i with
    | zero => rfl
    | succ i ih => simp [aset, ih]
  | cons x xs ih => cases i <;> simp [aset, ih]

@[simp] theorem length_atake (n : Nat) (l : List α) : (atake n l).length = n := by
  induction n generalizing l with
  | zero => rfl
  | succ n ih => cases l <;> simp [atake, ih]

theorem aget_atake (n i : Nat) (l : List α) : aget (atake n l) i = if i < n then aget l i else default := by
  induction n generalizing l i with
  | zero => simp [atake]
  | succ n ih =>
    cases l <;> cases i <;> simp [atake, ih]

omit [Inhabited α] in
theorem length_overlay (new old : List α) : (overlay new old).length = max new.length old.length := by
  simp [overlay]; omega

/-- What an overlay leaves: the new elements, and the old ones after them. -/
theorem aget_overlay (new old : List α) (i : Nat) : aget (overlay new old) i = if i < new.length then aget new i else aget old i := by
  unfold overlay aget
  split
  · rw [List.getD_append _ _ _ _ (by assumption)]
  · rename_i h
    rw [List.getD_append_right _ _ _ _ (by omega)]
    simp only [List.getD_eq_getElem?_getD, List.getElem?_drop]
    congr 2
    omega

theorem aget_replicate (n i : Nat) (v : α) : aget (List.replicate n v) i = if i < n then v else default := by
  unfold aget
  split <;> simp_all

theorem aget_map_range {β : Type} [Inhabited β] (f : Nat → β) (n i : Nat) (h : i < n) : aget ((List.range n).map f) i = f i := by
  simp [aget, h]

end

end Sys2Proof.Machine
end

