-- ==== Sys2Proof/Laws/State.lean ====
section
/-! SUPPORT. One small lemma per field and update of the state, so that no later proof unfolds a record update. -/

namespace Sys2Proof.Machine

-- mapBits

section

variable (f : BitReader → BitReader) (s : State)

@[simp] theorem State.mapBits_phase : (s.mapBits f).phase = s.phase := rfl
@[simp] theorem State.mapBits_err : (s.mapBits f).err = s.err := rfl
@[simp] theorem State.mapBits_cmd : (s.mapBits f).cmd = s.cmd := rfl
@[simp] theorem State.mapBits_ret : (s.mapBits f).ret = s.ret := rfl
@[simp] theorem State.mapBits_src : (s.mapBits f).src = s.src := rfl
@[simp] theorem State.mapBits_srcPos : (s.mapBits f).srcPos = s.srcPos := rfl
@[simp] theorem State.mapBits_out : (s.mapBits f).out = s.out := rfl
@[simp] theorem State.mapBits_script : (s.mapBits f).script = s.script := rfl
@[simp] theorem State.mapBits_result : (s.mapBits f).result = s.result := rfl
@[simp] theorem State.mapBits_free : (s.mapBits f).free = s.free := rfl
@[simp] theorem State.mapBits_bits : (s.mapBits f).dec.bits = f s.dec.bits := rfl
@[simp] theorem State.mapBits_hdr : (s.mapBits f).dec.hdr = s.dec.hdr := rfl
@[simp] theorem State.mapBits_counts : (s.mapBits f).dec.counts = s.dec.counts := rfl
@[simp] theorem State.mapBits_frame : (s.mapBits f).dec.frame = s.dec.frame := rfl
@[simp] theorem State.mapBits_tabs : (s.mapBits f).dec.tabs = s.dec.tabs := rfl
@[simp] theorem State.mapBits_pre : (s.mapBits f).dec.pre = s.dec.pre := rfl
@[simp] theorem State.mapBits_work : (s.mapBits f).dec.work = s.dec.work := rfl

end

-- mapHdr

section

variable (f : StreamRegs → StreamRegs) (s : State)

@[simp] theorem State.mapHdr_phase : (s.mapHdr f).phase = s.phase := rfl
@[simp] theorem State.mapHdr_err : (s.mapHdr f).err = s.err := rfl
@[simp] theorem State.mapHdr_cmd : (s.mapHdr f).cmd = s.cmd := rfl
@[simp] theorem State.mapHdr_ret : (s.mapHdr f).ret = s.ret := rfl
@[simp] theorem State.mapHdr_src : (s.mapHdr f).src = s.src := rfl
@[simp] theorem State.mapHdr_srcPos : (s.mapHdr f).srcPos = s.srcPos := rfl
@[simp] theorem State.mapHdr_out : (s.mapHdr f).out = s.out := rfl
@[simp] theorem State.mapHdr_script : (s.mapHdr f).script = s.script := rfl
@[simp] theorem State.mapHdr_result : (s.mapHdr f).result = s.result := rfl
@[simp] theorem State.mapHdr_free : (s.mapHdr f).free = s.free := rfl
@[simp] theorem State.mapHdr_bits : (s.mapHdr f).dec.bits = s.dec.bits := rfl
@[simp] theorem State.mapHdr_hdr : (s.mapHdr f).dec.hdr = f s.dec.hdr := rfl
@[simp] theorem State.mapHdr_counts : (s.mapHdr f).dec.counts = s.dec.counts := rfl
@[simp] theorem State.mapHdr_frame : (s.mapHdr f).dec.frame = s.dec.frame := rfl
@[simp] theorem State.mapHdr_tabs : (s.mapHdr f).dec.tabs = s.dec.tabs := rfl
@[simp] theorem State.mapHdr_pre : (s.mapHdr f).dec.pre = s.dec.pre := rfl
@[simp] theorem State.mapHdr_work : (s.mapHdr f).dec.work = s.dec.work := rfl

end

-- mapCounts

section

variable (f : Counts → Counts) (s : State)

@[simp] theorem State.mapCounts_phase : (s.mapCounts f).phase = s.phase := rfl
@[simp] theorem State.mapCounts_err : (s.mapCounts f).err = s.err := rfl
@[simp] theorem State.mapCounts_cmd : (s.mapCounts f).cmd = s.cmd := rfl
@[simp] theorem State.mapCounts_ret : (s.mapCounts f).ret = s.ret := rfl
@[simp] theorem State.mapCounts_src : (s.mapCounts f).src = s.src := rfl
@[simp] theorem State.mapCounts_srcPos : (s.mapCounts f).srcPos = s.srcPos := rfl
@[simp] theorem State.mapCounts_out : (s.mapCounts f).out = s.out := rfl
@[simp] theorem State.mapCounts_script : (s.mapCounts f).script = s.script := rfl
@[simp] theorem State.mapCounts_result : (s.mapCounts f).result = s.result := rfl
@[simp] theorem State.mapCounts_free : (s.mapCounts f).free = s.free := rfl
@[simp] theorem State.mapCounts_bits : (s.mapCounts f).dec.bits = s.dec.bits := rfl
@[simp] theorem State.mapCounts_hdr : (s.mapCounts f).dec.hdr = s.dec.hdr := rfl
@[simp] theorem State.mapCounts_counts : (s.mapCounts f).dec.counts = f s.dec.counts := rfl
@[simp] theorem State.mapCounts_frame : (s.mapCounts f).dec.frame = s.dec.frame := rfl
@[simp] theorem State.mapCounts_tabs : (s.mapCounts f).dec.tabs = s.dec.tabs := rfl
@[simp] theorem State.mapCounts_pre : (s.mapCounts f).dec.pre = s.dec.pre := rfl
@[simp] theorem State.mapCounts_work : (s.mapCounts f).dec.work = s.dec.work := rfl

end

-- mapFrame

section

variable (f : FrameRegs → FrameRegs) (s : State)

@[simp] theorem State.mapFrame_phase : (s.mapFrame f).phase = s.phase := rfl
@[simp] theorem State.mapFrame_err : (s.mapFrame f).err = s.err := rfl
@[simp] theorem State.mapFrame_cmd : (s.mapFrame f).cmd = s.cmd := rfl
@[simp] theorem State.mapFrame_ret : (s.mapFrame f).ret = s.ret := rfl
@[simp] theorem State.mapFrame_src : (s.mapFrame f).src = s.src := rfl
@[simp] theorem State.mapFrame_srcPos : (s.mapFrame f).srcPos = s.srcPos := rfl
@[simp] theorem State.mapFrame_out : (s.mapFrame f).out = s.out := rfl
@[simp] theorem State.mapFrame_script : (s.mapFrame f).script = s.script := rfl
@[simp] theorem State.mapFrame_result : (s.mapFrame f).result = s.result := rfl
@[simp] theorem State.mapFrame_free : (s.mapFrame f).free = s.free := rfl
@[simp] theorem State.mapFrame_bits : (s.mapFrame f).dec.bits = s.dec.bits := rfl
@[simp] theorem State.mapFrame_hdr : (s.mapFrame f).dec.hdr = s.dec.hdr := rfl
@[simp] theorem State.mapFrame_counts : (s.mapFrame f).dec.counts = s.dec.counts := rfl
@[simp] theorem State.mapFrame_frame : (s.mapFrame f).dec.frame = f s.dec.frame := rfl
@[simp] theorem State.mapFrame_tabs : (s.mapFrame f).dec.tabs = s.dec.tabs := rfl
@[simp] theorem State.mapFrame_pre : (s.mapFrame f).dec.pre = s.dec.pre := rfl
@[simp] theorem State.mapFrame_work : (s.mapFrame f).dec.work = s.dec.work := rfl

end

-- mapTabs

section

variable (f : Tables → Tables) (s : State)

@[simp] theorem State.mapTabs_phase : (s.mapTabs f).phase = s.phase := rfl
@[simp] theorem State.mapTabs_err : (s.mapTabs f).err = s.err := rfl
@[simp] theorem State.mapTabs_cmd : (s.mapTabs f).cmd = s.cmd := rfl
@[simp] theorem State.mapTabs_ret : (s.mapTabs f).ret = s.ret := rfl
@[simp] theorem State.mapTabs_src : (s.mapTabs f).src = s.src := rfl
@[simp] theorem State.mapTabs_srcPos : (s.mapTabs f).srcPos = s.srcPos := rfl
@[simp] theorem State.mapTabs_out : (s.mapTabs f).out = s.out := rfl
@[simp] theorem State.mapTabs_script : (s.mapTabs f).script = s.script := rfl
@[simp] theorem State.mapTabs_result : (s.mapTabs f).result = s.result := rfl
@[simp] theorem State.mapTabs_free : (s.mapTabs f).free = s.free := rfl
@[simp] theorem State.mapTabs_bits : (s.mapTabs f).dec.bits = s.dec.bits := rfl
@[simp] theorem State.mapTabs_hdr : (s.mapTabs f).dec.hdr = s.dec.hdr := rfl
@[simp] theorem State.mapTabs_counts : (s.mapTabs f).dec.counts = s.dec.counts := rfl
@[simp] theorem State.mapTabs_frame : (s.mapTabs f).dec.frame = s.dec.frame := rfl
@[simp] theorem State.mapTabs_tabs : (s.mapTabs f).dec.tabs = f s.dec.tabs := rfl
@[simp] theorem State.mapTabs_pre : (s.mapTabs f).dec.pre = s.dec.pre := rfl
@[simp] theorem State.mapTabs_work : (s.mapTabs f).dec.work = s.dec.work := rfl

end

-- mapPre

section

variable (f : Precomputed → Precomputed) (s : State)

@[simp] theorem State.mapPre_phase : (s.mapPre f).phase = s.phase := rfl
@[simp] theorem State.mapPre_err : (s.mapPre f).err = s.err := rfl
@[simp] theorem State.mapPre_cmd : (s.mapPre f).cmd = s.cmd := rfl
@[simp] theorem State.mapPre_ret : (s.mapPre f).ret = s.ret := rfl
@[simp] theorem State.mapPre_src : (s.mapPre f).src = s.src := rfl
@[simp] theorem State.mapPre_srcPos : (s.mapPre f).srcPos = s.srcPos := rfl
@[simp] theorem State.mapPre_out : (s.mapPre f).out = s.out := rfl
@[simp] theorem State.mapPre_script : (s.mapPre f).script = s.script := rfl
@[simp] theorem State.mapPre_result : (s.mapPre f).result = s.result := rfl
@[simp] theorem State.mapPre_free : (s.mapPre f).free = s.free := rfl
@[simp] theorem State.mapPre_bits : (s.mapPre f).dec.bits = s.dec.bits := rfl
@[simp] theorem State.mapPre_hdr : (s.mapPre f).dec.hdr = s.dec.hdr := rfl
@[simp] theorem State.mapPre_counts : (s.mapPre f).dec.counts = s.dec.counts := rfl
@[simp] theorem State.mapPre_frame : (s.mapPre f).dec.frame = s.dec.frame := rfl
@[simp] theorem State.mapPre_tabs : (s.mapPre f).dec.tabs = s.dec.tabs := rfl
@[simp] theorem State.mapPre_pre : (s.mapPre f).dec.pre = f s.dec.pre := rfl
@[simp] theorem State.mapPre_work : (s.mapPre f).dec.work = s.dec.work := rfl

end

-- mapWork

section

variable (f : Work → Work) (s : State)

@[simp] theorem State.mapWork_phase : (s.mapWork f).phase = s.phase := rfl
@[simp] theorem State.mapWork_err : (s.mapWork f).err = s.err := rfl
@[simp] theorem State.mapWork_cmd : (s.mapWork f).cmd = s.cmd := rfl
@[simp] theorem State.mapWork_ret : (s.mapWork f).ret = s.ret := rfl
@[simp] theorem State.mapWork_src : (s.mapWork f).src = s.src := rfl
@[simp] theorem State.mapWork_srcPos : (s.mapWork f).srcPos = s.srcPos := rfl
@[simp] theorem State.mapWork_out : (s.mapWork f).out = s.out := rfl
@[simp] theorem State.mapWork_script : (s.mapWork f).script = s.script := rfl
@[simp] theorem State.mapWork_result : (s.mapWork f).result = s.result := rfl
@[simp] theorem State.mapWork_free : (s.mapWork f).free = s.free := rfl
@[simp] theorem State.mapWork_bits : (s.mapWork f).dec.bits = s.dec.bits := rfl
@[simp] theorem State.mapWork_hdr : (s.mapWork f).dec.hdr = s.dec.hdr := rfl
@[simp] theorem State.mapWork_counts : (s.mapWork f).dec.counts = s.dec.counts := rfl
@[simp] theorem State.mapWork_frame : (s.mapWork f).dec.frame = s.dec.frame := rfl
@[simp] theorem State.mapWork_tabs : (s.mapWork f).dec.tabs = s.dec.tabs := rfl
@[simp] theorem State.mapWork_pre : (s.mapWork f).dec.pre = s.dec.pre := rfl
@[simp] theorem State.mapWork_work : (s.mapWork f).dec.work = f s.dec.work := rfl

end

-- setPhase

section

variable (p : Phase) (s : State)

@[simp] theorem State.setPhase_phase : (s.setPhase p).phase = p := rfl
@[simp] theorem State.setPhase_err : (s.setPhase p).err = s.err := rfl
@[simp] theorem State.setPhase_cmd : (s.setPhase p).cmd = s.cmd := rfl
@[simp] theorem State.setPhase_ret : (s.setPhase p).ret = s.ret := rfl
@[simp] theorem State.setPhase_src : (s.setPhase p).src = s.src := rfl
@[simp] theorem State.setPhase_srcPos : (s.setPhase p).srcPos = s.srcPos := rfl
@[simp] theorem State.setPhase_out : (s.setPhase p).out = s.out := rfl
@[simp] theorem State.setPhase_script : (s.setPhase p).script = s.script := rfl
@[simp] theorem State.setPhase_result : (s.setPhase p).result = s.result := rfl
@[simp] theorem State.setPhase_free : (s.setPhase p).free = s.free := rfl
@[simp] theorem State.setPhase_dec : (s.setPhase p).dec = s.dec := rfl

end

-- setOut

section

variable (v : List Sample) (s : State)

@[simp] theorem State.setOut_phase : (s.setOut v).phase = s.phase := rfl
@[simp] theorem State.setOut_err : (s.setOut v).err = s.err := rfl
@[simp] theorem State.setOut_cmd : (s.setOut v).cmd = s.cmd := rfl
@[simp] theorem State.setOut_ret : (s.setOut v).ret = s.ret := rfl
@[simp] theorem State.setOut_src : (s.setOut v).src = s.src := rfl
@[simp] theorem State.setOut_srcPos : (s.setOut v).srcPos = s.srcPos := rfl
@[simp] theorem State.setOut_out : (s.setOut v).out = v := rfl
@[simp] theorem State.setOut_script : (s.setOut v).script = s.script := rfl
@[simp] theorem State.setOut_result : (s.setOut v).result = s.result := rfl
@[simp] theorem State.setOut_free : (s.setOut v).free = s.free := rfl
@[simp] theorem State.setOut_dec : (s.setOut v).dec = s.dec := rfl

end

-- setResult

section

variable (r : Result) (s : State)

@[simp] theorem State.setResult_phase : (s.setResult r).phase = s.phase := rfl
@[simp] theorem State.setResult_err : (s.setResult r).err = s.err := rfl
@[simp] theorem State.setResult_cmd : (s.setResult r).cmd = s.cmd := rfl
@[simp] theorem State.setResult_ret : (s.setResult r).ret = s.ret := rfl
@[simp] theorem State.setResult_src : (s.setResult r).src = s.src := rfl
@[simp] theorem State.setResult_srcPos : (s.setResult r).srcPos = s.srcPos := rfl
@[simp] theorem State.setResult_out : (s.setResult r).out = s.out := rfl
@[simp] theorem State.setResult_script : (s.setResult r).script = s.script := rfl
@[simp] theorem State.setResult_result : (s.setResult r).result = r := rfl
@[simp] theorem State.setResult_free : (s.setResult r).free = s.free := rfl
@[simp] theorem State.setResult_dec : (s.setResult r).dec = s.dec := rfl

end

-- dropBytes

section

variable (n : Nat) (s : State)

@[simp] theorem State.dropBytes_phase : (s.dropBytes n).phase = s.phase := rfl
@[simp] theorem State.dropBytes_err : (s.dropBytes n).err = s.err := rfl
@[simp] theorem State.dropBytes_cmd : (s.dropBytes n).cmd = s.cmd := rfl
@[simp] theorem State.dropBytes_ret : (s.dropBytes n).ret = s.ret := rfl
@[simp] theorem State.dropBytes_src : (s.dropBytes n).src = { s.src with bytes := s.src.bytes.drop n } := rfl
@[simp] theorem State.dropBytes_srcPos : (s.dropBytes n).srcPos = s.srcPos + n := rfl
@[simp] theorem State.dropBytes_out : (s.dropBytes n).out = s.out := rfl
@[simp] theorem State.dropBytes_script : (s.dropBytes n).script = s.script := rfl
@[simp] theorem State.dropBytes_result : (s.dropBytes n).result = s.result := rfl
@[simp] theorem State.dropBytes_free : (s.dropBytes n).free = s.free := rfl
@[simp] theorem State.dropBytes_dec : (s.dropBytes n).dec = s.dec := rfl

end

-- complete

section

variable  (s : State)

@[simp] theorem State.complete_phase : (s.complete).phase = s.phase := rfl
@[simp] theorem State.complete_err : (s.complete).err = s.err := rfl
@[simp] theorem State.complete_cmd : (s.complete).cmd = s.cmd := rfl
@[simp] theorem State.complete_ret : (s.complete).ret = retDone s.err := rfl
@[simp] theorem State.complete_src : (s.complete).src = s.src := rfl
@[simp] theorem State.complete_srcPos : (s.complete).srcPos = s.srcPos := rfl
@[simp] theorem State.complete_out : (s.complete).out = s.out := rfl
@[simp] theorem State.complete_script : (s.complete).script = s.script := rfl
@[simp] theorem State.complete_result : (s.complete).result = s.result := rfl
@[simp] theorem State.complete_free : (s.complete).free = s.free := rfl
@[simp] theorem State.complete_dec : (s.complete).dec = s.dec := rfl

end

-- refuse

section

variable (r : Reason) (s : State)

@[simp] theorem State.refuse_phase : (s.refuse r).phase = s.phase := rfl
@[simp] theorem State.refuse_err : (s.refuse r).err = s.err := rfl
@[simp] theorem State.refuse_cmd : (s.refuse r).cmd = s.cmd := rfl
@[simp] theorem State.refuse_ret : (s.refuse r).ret = retRefused r s.err := rfl
@[simp] theorem State.refuse_src : (s.refuse r).src = s.src := rfl
@[simp] theorem State.refuse_srcPos : (s.refuse r).srcPos = s.srcPos := rfl
@[simp] theorem State.refuse_out : (s.refuse r).out = s.out := rfl
@[simp] theorem State.refuse_script : (s.refuse r).script = s.script := rfl
@[simp] theorem State.refuse_result : (s.refuse r).result = s.result := rfl
@[simp] theorem State.refuse_free : (s.refuse r).free = s.free := rfl
@[simp] theorem State.refuse_dec : (s.refuse r).dec = s.dec := rfl

end

-- scramble

section

variable  (s : State)

@[simp] theorem State.scramble_phase : (s.scramble).phase = s.phase := rfl
@[simp] theorem State.scramble_err : (s.scramble).err = s.err := rfl
@[simp] theorem State.scramble_cmd : (s.scramble).cmd = Config.freeCmd s.free := rfl
@[simp] theorem State.scramble_ret : (s.scramble).ret = s.ret := rfl
@[simp] theorem State.scramble_src : (s.scramble).src = s.src := rfl
@[simp] theorem State.scramble_srcPos : (s.scramble).srcPos = s.srcPos := rfl
@[simp] theorem State.scramble_out : (s.scramble).out = s.out := rfl
@[simp] theorem State.scramble_script : (s.scramble).script = s.script := rfl
@[simp] theorem State.scramble_result : (s.scramble).result = s.result := rfl
@[simp] theorem State.scramble_free : (s.scramble).free = s.free + 1 := rfl
@[simp] theorem State.scramble_dec : (s.scramble).dec = Config.freeDecoder s.free := rfl

end

-- dropFloorY

section

variable  (s : State)

@[simp] theorem State.dropFloorY_phase : (s.dropFloorY).phase = s.phase := rfl
@[simp] theorem State.dropFloorY_err : (s.dropFloorY).err = s.err := rfl
@[simp] theorem State.dropFloorY_cmd : (s.dropFloorY).cmd = s.cmd := rfl
@[simp] theorem State.dropFloorY_ret : (s.dropFloorY).ret = s.ret := rfl
@[simp] theorem State.dropFloorY_src : (s.dropFloorY).src = s.src := rfl
@[simp] theorem State.dropFloorY_srcPos : (s.dropFloorY).srcPos = s.srcPos := rfl
@[simp] theorem State.dropFloorY_out : (s.dropFloorY).out = s.out := rfl
@[simp] theorem State.dropFloorY_script : (s.dropFloorY).script = s.script := rfl
@[simp] theorem State.dropFloorY_result : (s.dropFloorY).result = s.result := rfl
@[simp] theorem State.dropFloorY_free : (s.dropFloorY).free = s.free + 1 := rfl
@[simp] theorem State.dropFloorY_dec :
    (s.dropFloorY).dec = { s.dec with work := { s.dec.work with floorY := (Config.freeFloorY s.free).map (List.map BitVec.toNat) } } := rfl

end

-- loseSource

section

variable  (s : State)

@[simp] theorem State.loseSource_phase : (s.loseSource).phase = s.phase := rfl
@[simp] theorem State.loseSource_err : (s.loseSource).err = s.err := rfl
@[simp] theorem State.loseSource_cmd : (s.loseSource).cmd = s.cmd := rfl
@[simp] theorem State.loseSource_ret : (s.loseSource).ret = s.ret := rfl
@[simp] theorem State.loseSource_src : (s.loseSource).src = Config.freeSource s.free := rfl
@[simp] theorem State.loseSource_srcPos : (s.loseSource).srcPos = Config.freeSrcPos s.free := rfl
@[simp] theorem State.loseSource_out : (s.loseSource).out = s.out := rfl
@[simp] theorem State.loseSource_script : (s.loseSource).script = s.script := rfl
@[simp] theorem State.loseSource_result : (s.loseSource).result = s.result := rfl
@[simp] theorem State.loseSource_free : (s.loseSource).free = s.free := rfl
@[simp] theorem State.loseSource_dec : (s.loseSource).dec = s.dec := rfl

end

-- place

section

variable (f : Fetch) (s : State)

@[simp] theorem State.place_phase : (s.place f).phase = s.phase := rfl
@[simp] theorem State.place_err : (s.place f).err = s.err := rfl
@[simp] theorem State.place_cmd : (s.place f).cmd = s.cmd := rfl
@[simp] theorem State.place_ret : (s.place f).ret = s.ret := rfl
@[simp] theorem State.place_src : (s.place f).src = s.src := rfl
@[simp] theorem State.place_srcPos : (s.place f).srcPos = s.srcPos := rfl
@[simp] theorem State.place_out : (s.place f).out = s.out := rfl
@[simp] theorem State.place_script : (s.place f).script = f :: s.script := rfl
@[simp] theorem State.place_result : (s.place f).result = s.result := rfl
@[simp] theorem State.place_free : (s.place f).free = s.free := rfl
@[simp] theorem State.place_dec : (s.place f).dec = s.dec := rfl

end

-- raise

section

variable (c : Cause) (s : State)

@[simp] theorem State.raise_err : (s.raise c).err = c.err := by cases c <;> rfl
@[simp] theorem State.raise_cmd : (s.raise c).cmd = if c = .cleanEnd then s.cmd else Config.freeCmd s.free := by cases c <;> rfl
@[simp] theorem State.raise_ret : (s.raise c).ret = retDone c.err := by cases c <;> rfl
@[simp] theorem State.raise_out : (s.raise c).out = s.out := by cases c <;> rfl
@[simp] theorem State.raise_script : (s.raise c).script = s.script := by cases c <;> rfl
@[simp] theorem State.raise_result : (s.raise c).result = s.result := by cases c <;> rfl
@[simp] theorem State.raise_phase : (s.raise c).phase = if c = .cleanEnd then .ended else .failed := by cases c <;> rfl

/-- The clean end leaves the decoder and the source as they are (60_exceptions R403). -/
theorem State.raise_cleanEnd : s.raise .cleanEnd = { s with err := Cause.cleanEnd.err, phase := .ended, ret := retDone Cause.cleanEnd.err } := rfl

/-- Every other error is an abort (60_exceptions R400, R401). -/
theorem State.raise_abort (h : c ≠ .cleanEnd) :
    s.raise c =
      { s with
        err := c.err, phase := .failed, ret := retDone c.err, dec := Config.freeDecoder s.free, cmd := Config.freeCmd s.free
        src := Config.freeSource s.free, srcPos := Config.freeSrcPos s.free, free := s.free + 1 } := by
  cases c <;> first | rfl | exact absurd rfl h

end

-- latch and issue

section

variable (f : Fetch) (s : State)

@[simp] theorem State.latch_phase : (s.latch f).phase = s.phase := by unfold State.latch; split <;> rfl
@[simp] theorem State.latch_err : (s.latch f).err = s.err := by unfold State.latch; split <;> rfl
@[simp] theorem State.latch_ret : (s.latch f).ret = s.ret := by unfold State.latch; split <;> rfl
@[simp] theorem State.latch_src : (s.latch f).src = s.src := by unfold State.latch; split <;> rfl
@[simp] theorem State.latch_srcPos : (s.latch f).srcPos = s.srcPos := by unfold State.latch; split <;> rfl
@[simp] theorem State.latch_out : (s.latch f).out = s.out := by unfold State.latch; split <;> rfl
@[simp] theorem State.latch_script : (s.latch f).script = s.script := by unfold State.latch; split <;> rfl
@[simp] theorem State.latch_result : (s.latch f).result = s.result := by unfold State.latch; split <;> rfl
@[simp] theorem State.latch_free : (s.latch f).free = s.free := by unfold State.latch; split <;> rfl
@[simp] theorem State.latch_dec : (s.latch f).dec = s.dec := by unfold State.latch; split <;> rfl

/-- A word on the command port is latched; any other word is not. -/
theorem State.latch_cmd : (s.latch f).cmd = if f.port = .cmd then f.word.setWidth 8 else s.cmd := by
  unfold State.latch
  cases f.port <;> rfl

end

theorem State.issue_nil {s : State} (h : s.script = []) : s.issue = none := by simp [State.issue, h]

theorem State.issue_cons {s : State} {f : Fetch} {rest : List Fetch} (h : s.script = f :: rest) :
    s.issue = some (f, { s with script := rest }.latch f) := by simp [State.issue, h]

end Sys2Proof.Machine
end

