-- ==== Sys2Proof/Laws/Monad.lean ====
section
/-! SUPPORT. The laws of the sequencer's monad: how each piece runs, and what a whole run keeps (`Keeps`), from which frames and invariants follow. -/

namespace Sys2Proof.Machine

section

variable {α β : Type}

-- running

@[simp] theorem M.run_pure (a : α) (s : State) : (pure a : M α) s = .ok a s := rfl

theorem M.run_bind (m : M α) (f : α → M β) (s : State) :
    (m >>= f) s =
      match m s with
      | .ok a t => f a t
      | .error x t => .error x t := by
  show EStateM.bind m f s = _
  unfold EStateM.bind
  cases m s <;> rfl

theorem M.bind_ok {m : M α} {f : α → M β} {s t : State} {a : α} (h : m s = .ok a t) : (m >>= f) s = f a t := by
  simp [M.run_bind, h]

theorem M.bind_error {m : M α} {f : α → M β} {s t : State} {x : Stop} (h : m s = .error x t) : (m >>= f) s = .error x t := by
  simp [M.run_bind, h]

/-- A bind that completes is two runs that complete. -/
theorem M.bind_eq_ok {m : M α} {f : α → M β} {s t : State} {b : β} (h : (m >>= f) s = .ok b t) :
    ∃ a u, m s = .ok a u ∧ f a u = .ok b t := by
  rw [M.run_bind] at h
  split at h
  · exact ⟨_, _, by assumption, h⟩
  · cases h

/-- A bind that stops has stopped in its first part, or in its second after the first completed. -/
theorem M.bind_eq_error {m : M α} {f : α → M β} {s t : State} {x : Stop} (h : (m >>= f) s = .error x t) :
    m s = .error x t ∨ ∃ a u, m s = .ok a u ∧ f a u = .error x t := by
  rw [M.run_bind] at h
  split at h
  · exact .inr ⟨_, _, by assumption, h⟩
  · cases h
    exact .inl (by assumption)

@[simp] theorem M.run_stop (x : Stop) (s : State) : (M.stop x : M α) s = .error x s := rfl

theorem M.run_ensure (p : Prop) [Decidable p] (x : Stop) (s : State) : M.ensure p x s = if p then .ok () s else .error x s := rfl

@[simp] theorem M.run_ensure_pos {p : Prop} [Decidable p] (h : p) (x : Stop) (s : State) : M.ensure p x s = .ok () s := by
  simp [M.run_ensure, h]

@[simp] theorem M.run_ensure_neg {p : Prop} [Decidable p] (h : ¬p) (x : Stop) (s : State) : M.ensure p x s = .error x s := by
  simp [M.run_ensure, h]

@[simp] theorem M.run_read (f : State → α) (s : State) : M.read f s = .ok (f s) s := rfl

@[simp] theorem M.run_update (f : State → State) (s : State) : M.update f s = .ok () (f s) := rfl

@[simp] theorem forN_zero (i : Nat) (body : Nat → M Unit) : forN 0 i body = pure () := rfl

theorem forN_succ (k i : Nat) (body : Nat → M Unit) : forN (k + 1) i body = (do body i; forN k (i + 1) body) := rfl

@[simp] theorem collect_zero (i : Nat) (f : Nat → M α) : collect 0 i f = pure [] := rfl

theorem collect_succ (k i : Nat) (f : Nat → M α) :
    collect (k + 1) i f = (do let x ← f i; let xs ← collect k (i + 1) f; pure (x :: xs)) := rfl

@[simp] theorem forList_nil (body : α → M Unit) : forList [] body = pure () := rfl

theorem forList_cons (x : α) (xs : List α) (body : α → M Unit) : forList (x :: xs) body = (do body x; forList xs body) := rfl

/-- A loop whose every turn completes completes; `st k` is the state after `k` turns. -/
theorem forN_ok {body : Nat → M Unit} (st : Nat → State) (n i : Nat) (h : ∀ k, k < n → body (i + k) (st k) = .ok () (st (k + 1))) :
    forN n i body (st 0) = .ok () (st n) := by
  induction n generalizing i st with
  | zero => rfl
  | succ n ih =>
    rw [forN_succ, M.bind_ok (by simpa using h 0 (by omega))]
    exact ih (fun k => st (k + 1)) (i + 1) fun k hk => by simpa [Nat.add_assoc, Nat.add_comm 1 k] using h (k + 1) (by omega)

/-- A collecting loop whose every turn completes completes with the list of what the turns return. -/
theorem collect_ok {f : Nat → M α} (st : Nat → State) (xs : List α) (i : Nat)
    (h : ∀ k (hk : k < xs.length), f (i + k) (st k) = .ok xs[k] (st (k + 1))) :
    collect xs.length i f (st 0) = .ok xs (st xs.length) := by
  induction xs generalizing i st with
  | nil => rfl
  | cons x xs ih =>
    rw [List.length_cons, collect_succ, M.bind_ok (by simpa using h 0 (by simp))]
    have h' : collect xs.length (i + 1) f (st 1) = .ok xs (st (xs.length + 1)) :=
      ih (fun k => st (k + 1)) (i + 1) fun k hk => by
        have := h (k + 1) (by simpa using hk)
        rwa [List.getElem_cons_succ, ← Nat.add_assoc, Nat.add_right_comm] at this
    rw [M.bind_ok h']
    rfl

/-- What a completed collecting loop returns has one element per turn. -/
theorem collect_length {f : Nat → M α} {n i : Nat} {s t : State} {xs : List α} (h : collect n i f s = .ok xs t) : xs.length = n := by
  induction n generalizing i s t xs with
  | zero => cases h; rfl
  | succ n ih =>
    rw [collect_succ] at h
    obtain ⟨_, _, _, h⟩ := M.bind_eq_ok h
    obtain ⟨_, _, h', h⟩ := M.bind_eq_ok h
    cases h
    simp [ih h']

-- what a run keeps

/-- A relation between states that holds of doing nothing, and of two runs in a row when it holds of each. -/
structure Chain (R : State → State → Prop) : Prop where
  refl : ∀ s, R s s
  trans : ∀ {s t u}, R s t → R t u → R s u

/-- Every run of the piece, completed or stopped, leaves a state that stands in the relation to the first. -/
def Keeps (R : State → State → Prop) (m : M α) : Prop :=
  ∀ s,
    match m s with
    | .ok _ t => R s t
    | .error _ t => R s t

theorem Keeps.ok {R : State → State → Prop} {m : M α} (hm : Keeps R m) {s t : State} {a : α} (h : m s = .ok a t) : R s t := by
  have := hm s
  rwa [h] at this

theorem Keeps.error {R : State → State → Prop} {m : M α} (hm : Keeps R m) {s t : State} {x : Stop} (h : m s = .error x t) : R s t := by
  have := hm s
  rwa [h] at this

/-- An invariant is a chain: it holds after if it held before. -/
theorem Chain.inv (P : State → Prop) : Chain fun s t => P s → P t := ⟨fun _ h => h, fun h h' p => h' (h p)⟩

/-- A part of the state that stays the same is a chain. -/
theorem Chain.eq (f : State → β) : Chain fun s t => f t = f s := ⟨fun _ => rfl, fun h h' => h'.trans h⟩

/-- Two chains at once are a chain. -/
theorem Chain.and {R Q : State → State → Prop} (hR : Chain R) (hQ : Chain Q) : Chain fun s t => R s t ∧ Q s t :=
  ⟨fun s => ⟨hR.refl s, hQ.refl s⟩, fun h h' => ⟨hR.trans h.1 h'.1, hQ.trans h.2 h'.2⟩⟩

variable {R : State → State → Prop}

theorem Keeps.pure (hR : Chain R) (a : α) : Keeps R (pure a : M α) := fun s => hR.refl s

theorem Keeps.stop (hR : Chain R) (x : Stop) : Keeps R (M.stop x : M α) := fun s => hR.refl s

theorem Keeps.ensure (hR : Chain R) (p : Prop) [Decidable p] (x : Stop) : Keeps R (M.ensure p x) := fun s => by
  rw [M.run_ensure]
  split <;> rename_i h <;> split at h <;> cases h <;> exact hR.refl s

theorem Keeps.read (hR : Chain R) (f : State → α) : Keeps R (M.read f) := fun s => hR.refl s

theorem Keeps.update {f : State → State} (h : ∀ s, R s (f s)) : Keeps R (M.update f) := h

theorem Keeps.bind (hR : Chain R) {m : M α} {f : α → M β} (hm : Keeps R m) (hf : ∀ a, Keeps R (f a)) : Keeps R (m >>= f) := by
  intro s
  rw [M.run_bind]
  cases h : m s with
  | ok a t =>
    have h' := hf a t
    simp only
    cases h'' : f a t with
    | ok b u => rw [h''] at h'; exact hR.trans (hm.ok h) h'
    | error x u => rw [h''] at h'; exact hR.trans (hm.ok h) h'
  | error x t => exact hm.error h

/-- A piece that looks at the state before it chooses what to do. -/
theorem Keeps.look {g : State → M α} (h : ∀ s, Keeps R (g s)) : Keeps R (fun s => g s s) := fun s => h s s

theorem Keeps.ite {p : Prop} [Decidable p] {m n : M α} (hm : Keeps R m) (hn : Keeps R n) : Keeps R (if p then m else n) := by
  split <;> assumption

theorem Keeps.forN (hR : Chain R) {body : Nat → M Unit} (h : ∀ i, Keeps R (body i)) (k i : Nat) : Keeps R (forN k i body) := by
  induction k generalizing i with
  | zero => exact Keeps.pure hR ()
  | succ k ih => exact Keeps.bind hR (h i) fun _ => ih (i + 1)

theorem Keeps.collect (hR : Chain R) {f : Nat → M α} (h : ∀ i, Keeps R (f i)) (k i : Nat) : Keeps R (collect k i f) := by
  induction k generalizing i with
  | zero => exact Keeps.pure hR _
  | succ k ih => exact Keeps.bind hR (h i) fun _ => Keeps.bind hR (ih (i + 1)) fun _ => Keeps.pure hR _

theorem Keeps.forList (hR : Chain R) {body : α → M Unit} (h : ∀ x, Keeps R (body x)) (xs : List α) : Keeps R (forList xs body) := by
  induction xs with
  | nil => exact Keeps.pure hR ()
  | cons x xs ih => exact Keeps.bind hR (h x) fun _ => ih

-- steps

/-- A stop that ends in a next state is an error raised. -/
theorem Stop.outcome_eq_next {x : Stop} {s t : State} (h : x.outcome s = .next t) : ∃ c, x = .raise c ∧ t = s.raise c := by
  cases x with
  | raise c =>
    simp only [Stop.outcome, Host.Outcome.next.injEq] at h
    exact ⟨c, rfl, h.symm⟩
  | fault f => cases h
  | refuse r => cases h

/-- A micro-operation that answers a next state has completed, or has raised an error. -/
theorem micro_eq_next {m : M Result} {s t : State} (h : micro m s = .next t) :
    (∃ r u, m s = .ok r u ∧ t = u.setResult r) ∨ ∃ c u, m s = .error (.raise c) u ∧ t = u.raise c := by
  unfold micro at h
  split at h
  · simp only [Host.Outcome.next.injEq] at h
    exact .inl ⟨_, _, by assumption, h.symm⟩
  · obtain ⟨c, rfl, rfl⟩ := Stop.outcome_eq_next h
    exact .inr ⟨c, _, by assumption, rfl⟩

/-- The same for one that returns nothing. -/
theorem microUnit_eq_next {m : M Unit} {s t : State} (h : microUnit m s = .next t) :
    (∃ u, m s = .ok () u ∧ t = u.setResult .none) ∨ ∃ c u, m s = .error (.raise c) u ∧ t = u.raise c := by
  rcases micro_eq_next h with ⟨r, u, h', rfl⟩ | ⟨c, u, h', rfl⟩
  · obtain ⟨_, _, h1, h2⟩ := M.bind_eq_ok h'
    cases h2
    exact .inl ⟨_, h1, rfl⟩
  · rcases M.bind_eq_error h' with h1 | ⟨_, _, _, h2⟩
    · exact .inr ⟨c, u, h1, rfl⟩
    · cases h2

theorem micro_of_ok {m : M Result} {s t : State} {r : Result} (h : m s = .ok r t) : micro m s = .next (t.setResult r) := by
  simp [micro, h]

theorem micro_of_error {m : M Result} {s t : State} {x : Stop} (h : m s = .error x t) : micro m s = x.outcome t := by
  simp [micro, h]

theorem microUnit_of_ok {m : M Unit} {s t : State} (h : m s = .ok () t) : microUnit m s = .next (t.setResult .none) :=
  micro_of_ok (by rw [M.bind_ok h]; rfl)

theorem microUnit_of_error {m : M Unit} {s t : State} {x : Stop} (h : m s = .error x t) : microUnit m s = x.outcome t :=
  micro_of_error (by rw [M.bind_error h])

/-- A command that answers a next state was refused, has completed, or has raised an error. -/
theorem command_eq_next {p : Prop} [Decidable p] {m : M Unit} {s t : State} (h : command p m s = .next t) :
    (¬p ∧ t = s.refuse .badState) ∨ (p ∧ ∃ u, m s = .ok () u ∧ t = u.complete) ∨ (p ∧ ∃ c u, m s = .error (.raise c) u ∧ t = u.raise c) := by
  unfold command at h
  split at h
  · split at h
    · simp only [Host.Outcome.next.injEq] at h
      exact .inr (.inl ⟨by assumption, _, by assumption, h.symm⟩)
    · obtain ⟨c, rfl, rfl⟩ := Stop.outcome_eq_next h
      exact .inr (.inr ⟨by assumption, c, _, by assumption, rfl⟩)
  · simp only [Host.Outcome.next.injEq] at h
    exact .inl ⟨by assumption, h.symm⟩

theorem command_of_not {p : Prop} [Decidable p] {m : M Unit} {s : State} (h : ¬p) : command p m s = .next (s.refuse .badState) := by
  simp [command, h]

theorem command_of_ok {p : Prop} [Decidable p] {m : M Unit} {s t : State} (h : p) (hm : m s = .ok () t) :
    command p m s = .next t.complete := by simp [command, h, hm]

theorem command_of_error {p : Prop} [Decidable p] {m : M Unit} {s t : State} {x : Stop} (h : p) (hm : m s = .error x t) :
    command p m s = x.outcome t := by simp [command, h, hm]

end

end Sys2Proof.Machine
end

