-- ==== Sys2Proof/Laws/Bits.lean ====
section
/-! SUPPORT. The laws of the stream as bits, and one law per operation of the Bit Reader: what it returns and where it leaves the cursor. -/

namespace Sys2Proof.Machine

-- numbers and their bits

@[simp] theorem length_bitsOf (w v : Nat) : (bitsOf w v).length = w := by
  induction w generalizing v with
  | zero => rfl
  | succ w ih => simp [bitsOf, ih]

theorem bitsNat_bitsOf (w v : Nat) : bitsNat (bitsOf w v) = v % 2 ^ w := by
  induction w generalizing v with
  | zero => simp [bitsOf, bitsNat, Nat.mod_one]
  | succ w ih =>
    rw [bitsOf, bitsNat, ih, Nat.pow_succ', Nat.mod_mul]
    rcases Nat.mod_two_eq_zero_or_one v with h | h <;> simp [h]

theorem bitsNat_lt (l : List Bool) : bitsNat l < 2 ^ l.length := by
  induction l with
  | nil => simp [bitsNat]
  | cons b bs ih =>
    rw [bitsNat, List.length_cons, Nat.pow_succ']
    cases b <;> simp <;> omega

theorem bitsOf_bitsNat (l : List Bool) : bitsOf l.length (bitsNat l) = l := by
  induction l with
  | nil => rfl
  | cons b bs ih =>
    rw [List.length_cons, bitsOf, bitsNat]
    have h : (b.toNat + 2 * bitsNat bs) / 2 = bitsNat bs := by have := b.toNat_le; omega
    rw [h, ih]
    cases b
    · simp
    · simp

theorem bitsNat_append (a b : List Bool) : bitsNat (a ++ b) = bitsNat a + 2 ^ a.length * bitsNat b := by
  induction a with
  | nil => simp [bitsNat]
  | cons x xs ih => rw [List.cons_append, bitsNat, bitsNat, ih, List.length_cons, Nat.pow_succ']; ring

theorem bitsOf_append (a b v : Nat) : bitsOf (a + b) v = bitsOf a v ++ bitsOf b (v / 2 ^ a) := by
  induction a generalizing v with
  | zero => simp [bitsOf]
  | succ a ih => rw [Nat.add_right_comm, bitsOf, bitsOf, ih, List.cons_append, Nat.pow_succ', Nat.div_div_eq_div_mul]

/-- The low bits of a number are the first ones. -/
theorem bitsNat_take_mod (l : List Bool) {m n : Nat} (h : n ≤ m) : bitsNat (l.take m) % 2 ^ n = bitsNat (l.take n) := by
  have hs : l.take m = l.take n ++ (l.take m).drop n := by
    conv_lhs => rw [← List.take_append_drop n (l.take m), List.take_take, Nat.min_eq_left h]
  have hlt := bitsNat_lt (l.take n)
  by_cases hl : n ≤ l.length
  · rw [hs, bitsNat_append, List.length_take, Nat.min_eq_left hl, Nat.add_mul_mod_self_left, Nat.mod_eq_of_lt]
    simpa [hl] using hlt
  · rw [List.take_of_length_le (by omega), List.take_of_length_le (by omega), Nat.mod_eq_of_lt]
    exact lt_of_lt_of_le (bitsNat_lt l) (Nat.pow_le_pow_right (by omega) (by omega))

/-- Dividing by a power of two drops the first bits. -/
theorem bitsNat_div (l : List Bool) (n : Nat) : bitsNat l / 2 ^ n = bitsNat (l.drop n) := by
  induction n generalizing l with
  | zero => simp
  | succ n ih =>
    cases l with
    | nil => simp [bitsNat]
    | cons b bs =>
      rw [List.drop_succ_cons, ← ih, Nat.pow_succ', ← Nat.div_div_eq_div_mul, bitsNat]
      congr 1
      cases b
      · simp
      · simp
        omega

@[simp] theorem byteBits_nil : byteBits [] = [] := rfl

theorem byteBits_cons (b : Byte) (bs : List Byte) : byteBits (b :: bs) = bitsOf 8 b.toNat ++ byteBits bs := rfl

theorem byteBits_append (a b : List Byte) : byteBits (a ++ b) = byteBits a ++ byteBits b := by simp [byteBits]

@[simp] theorem length_byteBits (bs : List Byte) : (byteBits bs).length = 8 * bs.length := by
  induction bs with
  | nil => rfl
  | cons b bs ih => simp [byteBits_cons, ih]; omega

theorem byteBits_drop (bs : List Byte) (k : Nat) : byteBits (bs.drop k) = (byteBits bs).drop (8 * k) := by
  induction k generalizing bs with
  | zero => simp
  | succ k ih =>
    cases bs with
    | nil => simp
    | cons b bs => rw [List.drop_succ_cons, ih, byteBits_cons, Nat.mul_succ, Nat.add_comm, ← List.drop_drop, List.drop_left' (by simp)]

@[simp] theorem fieldBits_nil : fieldBits [] = [] := rfl

theorem fieldBits_cons (w v : Nat) (fs : List (Nat × Nat)) : fieldBits ((w, v) :: fs) = bitsOf w v ++ fieldBits fs := rfl

theorem fieldBits_append (a b : List (Nat × Nat)) : fieldBits (a ++ b) = fieldBits a ++ fieldBits b := by
  induction a with
  | nil => rfl
  | cons x xs ih => rw [List.cons_append, fieldBits, fieldBits, ih, List.append_assoc]

-- the unread bits

theorem State.length_ahead (s : State) : s.ahead.length = s.dec.bits.nbits + 8 * s.src.bytes.length := by simp [State.ahead]

theorem BitReader.AtRest.valid {r : BitReader} (h : r.AtRest) : r.Valid := ⟨by have := h.1; omega, h.2⟩

/-- What is ahead from a byte boundary on is the bits of whole bytes. -/
theorem State.drop_ahead (s : State) (j : Nat) : s.ahead.drop (s.dec.bits.nbits + 8 * j) = byteBits (s.src.bytes.drop j) := by
  rw [State.ahead, ← List.drop_drop, List.drop_left' (by simp), byteBits_drop]

@[simp] theorem State.advance_phase (k : Nat) (s : State) : (s.advance k).phase = s.phase := rfl
@[simp] theorem State.advance_err (k : Nat) (s : State) : (s.advance k).err = s.err := rfl
@[simp] theorem State.advance_cmd (k : Nat) (s : State) : (s.advance k).cmd = s.cmd := rfl
@[simp] theorem State.advance_ret (k : Nat) (s : State) : (s.advance k).ret = s.ret := rfl
@[simp] theorem State.advance_out (k : Nat) (s : State) : (s.advance k).out = s.out := rfl
@[simp] theorem State.advance_script (k : Nat) (s : State) : (s.advance k).script = s.script := rfl
@[simp] theorem State.advance_result (k : Nat) (s : State) : (s.advance k).result = s.result := rfl
@[simp] theorem State.advance_free (k : Nat) (s : State) : (s.advance k).free = s.free := rfl
@[simp] theorem State.advance_hdr (k : Nat) (s : State) : (s.advance k).dec.hdr = s.dec.hdr := rfl
@[simp] theorem State.advance_counts (k : Nat) (s : State) : (s.advance k).dec.counts = s.dec.counts := rfl
@[simp] theorem State.advance_frame (k : Nat) (s : State) : (s.advance k).dec.frame = s.dec.frame := rfl
@[simp] theorem State.advance_tabs (k : Nat) (s : State) : (s.advance k).dec.tabs = s.dec.tabs := rfl
@[simp] theorem State.advance_pre (k : Nat) (s : State) : (s.advance k).dec.pre = s.dec.pre := rfl
@[simp] theorem State.advance_work (k : Nat) (s : State) : (s.advance k).dec.work = s.dec.work := rfl
@[simp] theorem State.advance_terminal (k : Nat) (s : State) : (s.advance k).src.terminal = s.src.terminal := rfl
theorem State.advance_nbits (k : Nat) (s : State) : (s.advance k).dec.bits.nbits = s.dec.bits.nbits + 8 * s.bytesFor k - k := rfl
theorem State.advance_bytes (k : Nat) (s : State) : (s.advance k).src.bytes = s.src.bytes.drop (s.bytesFor k) := rfl
theorem State.advance_srcPos (k : Nat) (s : State) : (s.advance k).srcPos = s.srcPos + s.bytesFor k := rfl

theorem State.advance_mapHdr (k : Nat) (f : StreamRegs → StreamRegs) (s : State) : (s.mapHdr f).advance k = (s.advance k).mapHdr f := rfl
theorem State.advance_mapCounts (k : Nat) (f : Counts → Counts) (s : State) : (s.mapCounts f).advance k = (s.advance k).mapCounts f := rfl
theorem State.advance_mapFrame (k : Nat) (f : FrameRegs → FrameRegs) (s : State) : (s.mapFrame f).advance k = (s.advance k).mapFrame f := rfl
theorem State.advance_mapTabs (k : Nat) (f : Tables → Tables) (s : State) : (s.mapTabs f).advance k = (s.advance k).mapTabs f := rfl
theorem State.advance_mapWork (k : Nat) (f : Work → Work) (s : State) : (s.mapWork f).advance k = (s.advance k).mapWork f := rfl

@[simp] theorem State.ahead_mapHdr (f : StreamRegs → StreamRegs) (s : State) : (s.mapHdr f).ahead = s.ahead := rfl
@[simp] theorem State.ahead_mapCounts (f : Counts → Counts) (s : State) : (s.mapCounts f).ahead = s.ahead := rfl
@[simp] theorem State.ahead_mapFrame (f : FrameRegs → FrameRegs) (s : State) : (s.mapFrame f).ahead = s.ahead := rfl
@[simp] theorem State.ahead_mapTabs (f : Tables → Tables) (s : State) : (s.mapTabs f).ahead = s.ahead := rfl
@[simp] theorem State.ahead_mapWork (f : Work → Work) (s : State) : (s.mapWork f).ahead = s.ahead := rfl

section

variable {s : State}

/-- The bits that an advance leaves in the accumulator are the next ones. -/
theorem State.advance_acc {k : Nat} (hv : s.dec.bits.Valid) :
    (s.advance k).dec.bits.acc.toNat = bitsNat ((s.ahead.drop k).take (s.advance k).dec.bits.nbits) := by
  have hb : (s.advance k).dec.bits.nbits ≤ 31 := by
    have := hv.1
    simp only [State.advance_nbits, State.bytesFor]
    omega
  have hlt := bitsNat_lt ((s.ahead.drop k).take (s.advance k).dec.bits.nbits)
  show (BitVec.ofNat 32 (bitsNat ((s.ahead.drop k).take (s.advance k).dec.bits.nbits))).toNat = _
  rw [BitVec.toNat_ofNat, Nat.mod_eq_of_lt]
  refine lt_of_lt_of_le hlt (Nat.pow_le_pow_right (by omega) ?_)
  simp only [List.length_take]
  omega

theorem State.advance_valid {k : Nat} (hv : s.dec.bits.Valid) : (s.advance k).dec.bits.Valid := by
  refine ⟨?_, ?_⟩
  · have := hv.1
    simp only [State.advance_nbits, State.bytesFor]
    omega
  · rw [State.advance_acc hv]
    refine lt_of_lt_of_le (bitsNat_lt _) (Nat.pow_le_pow_right (by omega) ?_)
    simp

theorem State.advance_atRest {k : Nat} (hv : s.dec.bits.AtRest) : (s.advance k).dec.bits.AtRest := by
  refine ⟨?_, (State.advance_valid hv.valid).2⟩
  have := hv.1
  simp only [State.advance_nbits, State.bytesFor]
  omega

/-- After an advance, what is ahead is what was ahead without the bits passed. -/
theorem State.ahead_advance {k : Nat} (hv : s.dec.bits.Valid) (hk : k ≤ s.ahead.length) : (s.advance k).ahead = s.ahead.drop k := by
  have hl := s.length_ahead
  have hn : (s.advance k).dec.bits.nbits ≤ (s.ahead.drop k).length := by
    rw [List.length_drop, State.advance_nbits, State.bytesFor]
    omega
  have hd : k + (s.advance k).dec.bits.nbits = s.dec.bits.nbits + 8 * s.bytesFor k := by
    rw [State.advance_nbits, State.bytesFor]
    omega
  rw [State.ahead, State.advance_acc hv, State.advance_bytes, ← s.drop_ahead, ← hd, ← List.drop_drop]
  conv_rhs => rw [← List.take_append_drop (s.advance k).dec.bits.nbits (s.ahead.drop k)]
  congr 1
  have h := bitsOf_bitsNat ((s.ahead.drop k).take (s.advance k).dec.bits.nbits)
  rwa [List.length_take, Nat.min_eq_left hn] at h

theorem State.advance_zero (hv : s.dec.bits.Valid) : s.advance 0 = s := by
  have hb : s.bytesFor 0 = 0 := by simp [State.bytesFor]
  have ha : (BitVec.ofNat 32 (bitsNat (s.ahead.take s.dec.bits.nbits))) = s.dec.bits.acc := by
    rw [State.ahead, List.take_left' (by simp), bitsNat_bitsOf, Nat.mod_eq_of_lt hv.2]
    simp
  simp [State.advance, hb, ha]

/-- Two advances in a row are one. -/
theorem State.advance_advance {a b : Nat} (hv : s.dec.bits.Valid) (ha : a ≤ s.ahead.length) : (s.advance a).advance b = s.advance (a + b) := by
  have hl := s.length_ahead
  have h1 : s.bytesFor a + (s.advance a).bytesFor b = s.bytesFor (a + b) := by
    simp only [State.bytesFor, State.advance_nbits]
    omega
  have h2 : (s.advance a).dec.bits.nbits + 8 * (s.advance a).bytesFor b - b = s.dec.bits.nbits + 8 * s.bytesFor (a + b) - (a + b) := by
    rw [← h1, State.advance_nbits]
    simp only [State.bytesFor]
    omega
  have h3 : ((s.advance a).ahead.drop b) = s.ahead.drop (a + b) := by rw [State.ahead_advance hv ha, List.drop_drop]
  have e1 : (s.advance a).srcPos + (s.advance a).bytesFor b = s.srcPos + s.bytesFor (a + b) := by rw [State.advance_srcPos]; omega
  have e2 : (s.advance a).src.bytes.drop ((s.advance a).bytesFor b) = s.src.bytes.drop (s.bytesFor (a + b)) := by
    rw [State.advance_bytes, List.drop_drop, h1]
  rw [State.advance, h2, h3, e1, e2]
  rfl

-- pulling

/-- The state in which `j` bytes have been pulled and no bit consumed. -/
def State.pulled (j : Nat) (s : State) : State :=
  { s with
    dec := { s.dec with bits := { acc := BitVec.ofNat 32 (bitsNat (s.ahead.take (s.dec.bits.nbits + 8 * j))), nbits := s.dec.bits.nbits + 8 * j } }
    src := { s.src with bytes := s.src.bytes.drop j }
    srcPos := s.srcPos + j }

theorem State.pulled_zero (hv : s.dec.bits.Valid) : s.pulled 0 = s := by
  have ha : (BitVec.ofNat 32 (bitsNat (s.ahead.take s.dec.bits.nbits))) = s.dec.bits.acc := by
    rw [State.ahead, List.take_left' (by simp), bitsNat_bitsOf, Nat.mod_eq_of_lt hv.2]
    simp
  simp [State.pulled, ha]

theorem pull_pulled {j : Nat} (hj : j < s.src.bytes.length) (hn : s.dec.bits.nbits + 8 * j ≤ 23) :
    pull (s.pulled j) = .ok .ok (s.pulled (j + 1)) := by
  have hb : s.src.bytes.drop j = s.src.bytes[j] :: s.src.bytes.drop (j + 1) := List.drop_eq_getElem_cons hj
  have hlen := s.length_ahead
  have hacc : (BitVec.ofNat 32 (bitsNat (s.ahead.take (s.dec.bits.nbits + 8 * j))) |||
      (s.src.bytes[j].setWidth 32 <<< (s.dec.bits.nbits + 8 * j))) =
        BitVec.ofNat 32 (bitsNat (s.ahead.take (s.dec.bits.nbits + 8 * (j + 1)))) := by
    generalize hN : s.dec.bits.nbits + 8 * j = N at hn
    have hsplit : s.ahead.take (s.dec.bits.nbits + 8 * (j + 1)) = s.ahead.take N ++ bitsOf 8 s.src.bytes[j].toNat := by
      have : s.dec.bits.nbits + 8 * (j + 1) = N + 8 := by omega
      rw [this, List.take_add, ← hN, s.drop_ahead, hb, byteBits_cons, List.take_left' (by simp)]
    have hNl : N ≤ s.ahead.length := by omega
    have hlt : bitsNat (s.ahead.take N) < 2 ^ N := by simpa [hNl] using bitsNat_lt (s.ahead.take N)
    have h23 : (2 : Nat) ^ N ≤ 2 ^ 23 := Nat.pow_le_pow_right (by omega) hn
    have hbl := s.src.bytes[j].isLt
    have hmul : s.src.bytes[j].toNat * 2 ^ N < 2 ^ 32 := by
      calc s.src.bytes[j].toNat * 2 ^ N ≤ 255 * 2 ^ 23 := Nat.mul_le_mul (by omega) h23
        _ < 2 ^ 32 := by norm_num
    apply BitVec.eq_of_toNat_eq
    rw [hsplit, bitsNat_append, bitsNat_bitsOf, List.length_take, Nat.min_eq_left hNl, Nat.mod_eq_of_lt (by omega : s.src.bytes[j].toNat < 2 ^ 8)]
    rw [BitVec.toNat_or, BitVec.toNat_ofNat, BitVec.toNat_shiftLeft, BitVec.toNat_setWidth, BitVec.toNat_ofNat, Nat.shiftLeft_eq,
      Nat.mod_eq_of_lt (by omega : s.src.bytes[j].toNat < 2 ^ 32), Nat.mod_eq_of_lt hmul, Nat.mod_eq_of_lt (by omega : bitsNat (s.ahead.take N) < 2 ^ 32),
      Nat.or_comm, ← Nat.shiftLeft_eq, ← Nat.shiftLeft_add_eq_or_of_lt hlt, Nat.shiftLeft_eq]
    rw [Nat.mod_eq_of_lt (by
      have : s.src.bytes[j].toNat * 2 ^ N ≤ 255 * 2 ^ 23 := Nat.mul_le_mul (by omega) h23
      rw [Nat.mul_comm (2 ^ N)]
      omega)]
    ring
  unfold pull
  have hr : readU8Raw (s.pulled j) = .ok (.data s.src.bytes[j]) ((s.pulled j).dropBytes 1) := by
    show (match (s.src.bytes.drop j) with
      | b :: _ => EStateM.Result.ok (ByteAnswer.data b) ((s.pulled j).dropBytes 1)
      | [] => match s.src.terminal with
        | .endOfStream => .ok .endOfStream (s.pulled j)
        | .ioError => .ok .ioError (s.pulled j)) = _
    rw [hb]
  rw [M.bind_ok hr]
  simp only [M.run_bind, M.run_update, M.run_pure]
  congr 1
  simp only [State.pulled, State.dropBytes, State.mapBits, hacc, List.drop_drop, Nat.mul_add, Nat.add_assoc]

theorem pull_none (h : s.src.bytes = []) : pull s = .ok (match s.src.terminal with | .endOfStream => .eos | .ioError => .io) s := by
  unfold pull
  have hr : readU8Raw s = .ok (match s.src.terminal with | .endOfStream => .endOfStream | .ioError => .ioError) s := by
    unfold readU8Raw
    rw [h]
    cases s.src.terminal <;> rfl
  rw [M.bind_ok hr]
  cases s.src.terminal <;> rfl

/-- Filling the accumulator pulls the fewest bytes that hold the bits asked for. -/
theorem fillBits_ok {n : Nat} (hn : n ≤ 24) (hl : n ≤ s.ahead.length) (j k : Nat) (hj : j ≤ s.bytesFor n) (hk : s.bytesFor n ≤ j + k) :
    fillBits n k (s.pulled j) = .ok .ok (s.pulled (s.bytesFor n)) := by
  have hlen := s.length_ahead
  induction k generalizing j with
  | zero => rw [Nat.le_antisymm hj hk]; rfl
  | succ k ih =>
    rw [fillBits, M.bind_ok (M.run_read _ _)]
    by_cases h : s.dec.bits.nbits + 8 * j < n
    · rw [if_pos (show (s.pulled j).dec.bits.nbits < n from h), M.bind_ok (pull_pulled _ _)]
      · exact ih (j + 1) (by simp only [State.bytesFor]; omega) (by omega)
      · omega
      · omega
    · rw [if_neg (show ¬(s.pulled j).dec.bits.nbits < n from h)]
      have : j = s.bytesFor n := by simp only [State.bytesFor] at hj ⊢; omega
      rw [this]
      rfl

/-- When the source ends first, filling stops with every byte pulled that there was. -/
theorem fillBits_short {n : Nat} (hn : n ≤ 24) (hl : s.ahead.length < n) (j k : Nat) (hj : j ≤ s.src.bytes.length)
    (hk : s.src.bytes.length < j + k) :
    fillBits n k (s.pulled j) = .ok (match s.src.terminal with | .endOfStream => .eos | .ioError => .io) (s.pulled s.src.bytes.length) := by
  have hlen := s.length_ahead
  induction k generalizing j with
  | zero => omega
  | succ k ih =>
    have h : (s.pulled j).dec.bits.nbits < n := by
      show s.dec.bits.nbits + 8 * j < n
      omega
    rw [fillBits, M.bind_ok (M.run_read _ _), if_pos h]
    by_cases he : j = s.src.bytes.length
    · subst he
      rw [M.bind_ok (pull_none (by simp [State.pulled]))]
      show (match (match s.src.terminal with | .endOfStream => Pulled.eos | .ioError => Pulled.io) with
        | .ok => fillBits n k
        | other => pure other) _ = _
      cases s.src.terminal <;> rfl
    · rw [M.bind_ok (pull_pulled (by omega) (by omega))]
      exact ih (j + 1) (by omega) (by omega)

theorem consumeBits_pulled {n : Nat} (hv : s.dec.bits.Valid) (hn : n ≤ 24) :
    consumeBits n (s.pulled (s.bytesFor n)) = .ok (bitsNat (s.ahead.take n)) (s.advance n) := by
  have hlen := s.length_ahead
  have hN : s.dec.bits.nbits ≤ 31 := hv.1
  have hnm : n ≤ s.dec.bits.nbits + 8 * s.bytesFor n := by simp only [State.bytesFor]; omega
  have hm : s.dec.bits.nbits + 8 * s.bytesFor n ≤ 31 := by simp only [State.bytesFor]; omega
  generalize hM : s.dec.bits.nbits + 8 * s.bytesFor n = m at hnm hm
  have hlt : bitsNat (s.ahead.take m) < 2 ^ 32 := by
    refine lt_of_lt_of_le (bitsNat_lt _) (Nat.pow_le_pow_right (by omega) ?_)
    simp only [List.length_take]
    omega
  have hacc : ((s.pulled (s.bytesFor n)).dec.bits.acc).toNat = bitsNat (s.ahead.take m) := by
    show (BitVec.ofNat 32 (bitsNat (s.ahead.take (s.dec.bits.nbits + 8 * s.bytesFor n)))).toNat = _
    rw [hM, BitVec.toNat_ofNat, Nat.mod_eq_of_lt hlt]
  have hshift : (s.pulled (s.bytesFor n)).dec.bits.acc >>> n = BitVec.ofNat 32 (bitsNat ((s.ahead.drop n).take (m - n))) := by
    apply BitVec.eq_of_toNat_eq
    rw [BitVec.toNat_ushiftRight, hacc, Nat.shiftRight_eq_div_pow, bitsNat_div, List.drop_take, BitVec.toNat_ofNat, Nat.mod_eq_of_lt]
    refine lt_of_lt_of_le (bitsNat_lt _) (Nat.pow_le_pow_right (by omega) ?_)
    simp only [List.length_take]
    omega
  unfold consumeBits
  simp only [M.run_bind, M.run_read, M.run_update, M.run_pure, hacc, bitsNat_take_mod _ hnm]
  congr 1
  simp only [State.mapBits, hshift, State.advance, hM]
  show ({ s.pulled (s.bytesFor n) with dec := { s.dec with bits := { acc := _, nbits := (s.pulled (s.bytesFor n)).dec.bits.nbits - n } } } : State) = _
  rw [show (s.pulled (s.bytesFor n)).dec.bits.nbits = m from hM]
  rfl

/-- `RDBITS(n)` with enough bits ahead: it returns them as a number and moves past them (40_bit_reader R172). -/
theorem readBits_ok {n : Nat} (hv : s.dec.bits.Valid) (hn : n ≤ 24) (hl : n ≤ s.ahead.length) :
    readBits n s = .ok (bitsNat (s.ahead.take n)) (s.advance n) := by
  have hf := fillBits_ok hn hl 0 n (by omega) (by simp only [State.bytesFor]; omega)
  rw [State.pulled_zero hv] at hf
  unfold readBits
  rw [M.bind_ok (M.run_ensure_pos hn _ _), M.bind_ok hf]
  exact consumeBits_pulled hv hn

/-- `RDBITS(n)` with too few bits ahead: it raises what the source's terminal answer says (R172, R182). -/
theorem readBits_short {n : Nat} (hv : s.dec.bits.Valid) (hn : n ≤ 24) (hl : s.ahead.length < n) :
    readBits n s = .error (.raise (terminalCause s.src.terminal)) (s.pulled s.src.bytes.length) := by
  have hlen := s.length_ahead
  have hf := fillBits_short hn hl 0 n (by omega) (by omega)
  rw [State.pulled_zero hv] at hf
  unfold readBits
  rw [M.bind_ok (M.run_ensure_pos hn _ _), M.bind_ok hf]
  cases s.src.terminal <;> rfl

/-- `TRYRD(n)` with enough bits ahead (R176). -/
theorem tryReadBits_ok {n : Nat} (hv : s.dec.bits.Valid) (hn : n ≤ 24) (hl : n ≤ s.ahead.length) :
    tryReadBits n s = .ok (some (bitsNat (s.ahead.take n))) (s.advance n) := by
  have hf := fillBits_ok hn hl 0 n (by omega) (by simp only [State.bytesFor]; omega)
  rw [State.pulled_zero hv] at hf
  unfold tryReadBits
  rw [M.bind_ok (M.run_ensure_pos hn _ _), M.bind_ok hf]
  show (consumeBits n >>= fun v => pure (some v)) _ = _
  rw [M.bind_ok (consumeBits_pulled hv hn)]
  rfl

/-- `TRYRD(n)` with too few bits ahead: the end of the stream is a value, and the bytes pulled stay (R176). -/
theorem tryReadBits_short {n : Nat} (hv : s.dec.bits.Valid) (hn : n ≤ 24) (hl : s.ahead.length < n) :
    tryReadBits n s =
      match s.src.terminal with
      | .endOfStream => .ok none (s.pulled s.src.bytes.length)
      | .ioError => .error (.raise .source) (s.pulled s.src.bytes.length) := by
  have hlen := s.length_ahead
  have hf := fillBits_short hn hl 0 n (by omega) (by omega)
  rw [State.pulled_zero hv] at hf
  unfold tryReadBits
  rw [M.bind_ok (M.run_ensure_pos hn _ _), M.bind_ok hf]
  cases s.src.terminal <;> rfl

-- reading fields

/-- The first field ahead is what a read of its width returns; the rest of the fields are ahead after it. -/
theorem readBits_field {w v : Nat} {fs : List (Nat × Nat)} (hv : s.dec.bits.Valid) (hw : w ≤ 24) (hlt : v < 2 ^ w) (hr : s.Reads ((w, v) :: fs)) :
    readBits w s = .ok v (s.advance w) ∧ (s.advance w).Reads fs := by
  obtain ⟨rest, h⟩ := hr
  have hle : w ≤ s.ahead.length := by rw [← h, fieldBits_cons]; simp
  refine ⟨?_, rest, ?_⟩
  · rw [readBits_ok hv hw hle, ← h, fieldBits_cons, List.append_assoc, List.take_left' (by simp), bitsNat_bitsOf, Nat.mod_eq_of_lt hlt]
  · rw [State.ahead_advance hv hle, ← h, fieldBits_cons, List.append_assoc, List.drop_left' (by simp)]

theorem State.past_nil (hv : s.dec.bits.Valid) : s.past [] = s := State.advance_zero hv

theorem State.past_cons {w v : Nat} {fs : List (Nat × Nat)} (hv : s.dec.bits.Valid) (hr : s.Reads ((w, v) :: fs)) :
    s.past ((w, v) :: fs) = (s.advance w).past fs := by
  have hle : w ≤ s.ahead.length := by
    obtain ⟨rest, h⟩ := hr
    rw [← h, fieldBits_cons]
    simp
  rw [State.past, State.past, State.advance_advance hv hle, fieldBits_cons, List.length_append, length_bitsOf]

theorem State.Reads.left {fs gs : List (Nat × Nat)} (hr : s.Reads (fs ++ gs)) : s.Reads fs := by
  rw [State.Reads, fieldBits_append] at hr
  exact (List.prefix_append _ _).trans hr

theorem State.Reads.right {fs gs : List (Nat × Nat)} (hv : s.dec.bits.Valid) (hr : s.Reads (fs ++ gs)) : (s.past fs).Reads gs := by
  obtain ⟨rest, h⟩ := hr
  rw [fieldBits_append, List.append_assoc] at h
  have hle : (fieldBits fs).length ≤ s.ahead.length := by rw [← h]; simp
  exact ⟨rest, by rw [State.past, State.ahead_advance hv hle, ← h, List.drop_left' rfl]⟩

theorem State.past_append {fs gs : List (Nat × Nat)} (hv : s.dec.bits.Valid) (hr : s.Reads fs) : s.past (fs ++ gs) = (s.past fs).past gs := by
  have hle : (fieldBits fs).length ≤ s.ahead.length := hr.length_le
  rw [State.past, State.past, State.past, State.advance_advance hv hle, fieldBits_append, List.length_append]

theorem State.past_valid {fs : List (Nat × Nat)} (hv : s.dec.bits.Valid) : (s.past fs).dec.bits.Valid := State.advance_valid hv

-- byte-wise reads

/-- `RDEXACT(n)` at a byte boundary with enough bytes (R179). -/
theorem readExact_ok {n : Nat} (hb : s.dec.bits.nbits = 0) (hl : n ≤ s.src.bytes.length) :
    readExact n s = .ok (s.src.bytes.take n) (s.dropBytes n) := by
  unfold readExact
  rw [M.bind_ok (show byteBoundary s = .ok () s by simp [byteBoundary, hb])]
  simp [readExactRaw, hl]

/-- `RDEXACT(n)` at a byte boundary with too few bytes (R179). -/
theorem readExact_short {n : Nat} (hb : s.dec.bits.nbits = 0) (hl : s.src.bytes.length < n) :
    readExact n s = .error (.raise (terminalCause s.src.terminal)) (s.dropBytes s.src.bytes.length) := by
  unfold readExact
  rw [M.bind_ok (show byteBoundary s = .ok () s by simp [byteBoundary, hb])]
  simp [readExactRaw, Nat.not_le.mpr hl]

/-- A byte-wise read off a byte boundary is not accepted (20_memory R86). -/
theorem readExact_unaligned {n : Nat} (hb : s.dec.bits.nbits ≠ 0) : readExact n s = .error (.refuse .unalignedBytes) s := by
  unfold readExact
  rw [M.bind_error (show byteBoundary s = .error (.refuse .unalignedBytes) s by simp [byteBoundary, hb])]

end

end Sys2Proof.Machine
end

