-- ==== Sys2Proof/Laws/Keeps.lean ====
section
/-! SUPPORT. What each operation keeps, said once for every relation between states: if a relation holds of the reads and of the updates that an operation
makes, it holds of the operation. Frames and invariants follow by choosing the relation. -/

namespace Sys2Proof.Machine

variable {α : Type} {R : State → State → Prop}

-- the Bit Reader

theorem readU8Raw_keeps (hR : Chain R) (hd : ∀ s, s.src.bytes ≠ [] → R s (s.dropBytes 1)) : Keeps R readU8Raw := by
  intro s
  unfold readU8Raw
  cases h : s.src.bytes with
  | nil => cases s.src.terminal <;> exact hR.refl s
  | cons b bs => exact hd s (by simp [h])

theorem readExactRaw_keeps (hd : ∀ s n, n ≤ s.src.bytes.length → R s (s.dropBytes n)) (n : Nat) : Keeps R (readExactRaw n) := by
  intro s
  unfold readExactRaw
  by_cases h : n ≤ s.src.bytes.length
  · rw [if_pos h]
    exact hd s n h
  · rw [if_neg h]
    exact hd s _ (Nat.le_refl _)

theorem byteBoundary_keeps (hR : Chain R) : Keeps R byteBoundary := fun s => Keeps.ensure hR _ _ s

theorem readExact_keeps (hR : Chain R) (hd : ∀ s n, n ≤ s.src.bytes.length → R s (s.dropBytes n)) (n : Nat) : Keeps R (readExact n) :=
  Keeps.bind hR (byteBoundary_keeps hR) fun _ => readExactRaw_keeps hd n

theorem readU8_keeps (hR : Chain R) (hd : ∀ s n, n ≤ s.src.bytes.length → R s (s.dropBytes n)) : Keeps R readU8 := by
  refine Keeps.bind hR (byteBoundary_keeps hR) fun _ => Keeps.bind hR (readU8Raw_keeps hR fun s h => hd s 1 (List.length_pos_iff.mpr h)) fun a => ?_
  cases a
  · exact Keeps.pure hR _
  · exact Keeps.stop hR _
  · exact Keeps.stop hR _

theorem skipBytes_keeps (hR : Chain R) (hd : ∀ s n, n ≤ s.src.bytes.length → R s (s.dropBytes n)) (n : Nat) : Keeps R (skipBytes n) :=
  Keeps.bind hR (readExact_keeps hR hd n) fun _ => Keeps.pure hR _

theorem read32_keeps (hR : Chain R) (hb : ∀ n, Keeps R (readBits n)) : Keeps R read32 :=
  Keeps.bind hR (hb _) fun _ => Keeps.bind hR (hb _) fun _ => Keeps.pure hR _

theorem alignBits_keeps (ha : ∀ s : State, R s (s.mapBits fun _ => BitReader.empty)) : Keeps R alignBits := Keeps.update ha

-- operands

theorem bookOperand_keeps (hR : Chain R) (c : Nat) : Keeps R (bookOperand c) := fun s => Keeps.ensure hR _ _ s
theorem floorOperand_keeps (hR : Chain R) (f : Nat) : Keeps R (floorOperand f) := fun s => Keeps.ensure hR _ _ s
theorem chanOperand_keeps (hR : Chain R) (ch : Nat) : Keeps R (chanOperand ch) := fun s => Keeps.ensure hR _ _ s
theorem binsOperand_keeps (hR : Chain R) (n : Nat) : Keeps R (binsOperand n) := Keeps.ensure hR _ _
theorem energyOperand_keeps (hR : Chain R) (ch : Nat) : Keeps R (energyOperand ch) := fun s => Keeps.ensure hR _ _ s
theorem residueOperand_keeps (hR : Chain R) (r : Nat) : Keeps R (residueOperand r) := fun s => Keeps.ensure hR _ _ s
theorem mappingOperand_keeps (hR : Chain R) (m : Nat) : Keeps R (mappingOperand m) := fun s => Keeps.ensure hR _ _ s
theorem modeOperand_keeps (hR : Chain R) (k : Nat) : Keeps R (modeOperand k) := fun s => Keeps.ensure hR _ _ s
theorem floorBookCheck_keeps (hR : Chain R) (b : Nat) : Keeps R (floorBookCheck b) := fun s => Keeps.ensure hR _ _ s

theorem vecOperand_keeps (hR : Chain R) (buf : Vec) : Keeps R (vecOperand buf) := by
  intro s
  unfold vecOperand
  cases buf.ref
  · exact Keeps.ensure hR _ _ s
  · exact Keeps.ensure hR _ _ s

-- the Codebook unit

/-- The updates that filling codebook entry `c` makes. -/
structure BookUpdates (R : State → State → Prop) (c : Nat) : Prop where
  entry : ∀ s (f : Codebook → Codebook), R s (s.mapTabs fun t => { t with cb := aset t.cb c (f (aget t.cb c)) })
  len : ∀ s l, R s (s.mapWork fun w => { w with len := l })
  next : ∀ s l, R s (s.mapWork fun w => { w with nextFree := l })

section

variable {c : Nat}

theorem setCodebook_keeps (hu : BookUpdates R c) (f : Codebook → Codebook) : Keeps R (setCodebook c f) := Keeps.update fun s => hu.entry s f

theorem setLengths_keeps (hu : BookUpdates R c) (l : List Nat) : Keeps R (setLengths l) := Keeps.update fun s => hu.len s l

theorem lengthsDense_keeps (hR : Chain R) (hb : ∀ n, Keeps R (readBits n)) (hu : BookUpdates R c) : Keeps R (lengthsDense c) :=
  Keeps.bind hR (bookOperand_keeps hR c) fun _ => Keeps.bind hR (Keeps.read hR _) fun _ =>
    Keeps.bind hR (Keeps.collect hR (fun _ => Keeps.bind hR (hb _) fun _ => Keeps.pure hR _) _ _) fun _ => setLengths_keeps hu _

theorem lengthsSparse_keeps (hR : Chain R) (hb : ∀ n, Keeps R (readBits n)) (hu : BookUpdates R c) : Keeps R (lengthsSparse c) :=
  Keeps.bind hR (bookOperand_keeps hR c) fun _ => Keeps.bind hR (Keeps.read hR _) fun _ =>
    Keeps.bind hR
      (Keeps.collect hR
        (fun _ => Keeps.bind hR (hb _) fun _ => Keeps.ite (Keeps.bind hR (hb _) fun _ => Keeps.pure hR _) (Keeps.pure hR _)) _ _)
      fun _ => setLengths_keeps hu _

theorem lengthsExplicit_keeps (hR : Chain R) (hb : ∀ n, Keeps R (readBits n)) (hu : BookUpdates R c) : Keeps R (lengthsExplicit c) :=
  Keeps.bind hR (bookOperand_keeps hR c) fun _ => Keeps.bind hR (hb _) fun _ =>
    Keeps.ite (lengthsSparse_keeps hR hb hu) (lengthsDense_keeps hR hb hu)

theorem lengthRuns_keeps (hR : Chain R) (hb : ∀ n, Keeps R (readBits n)) (entries k curEntry curLen : Nat) (acc : List Nat) :
    Keeps R (lengthRuns entries k curEntry curLen acc) := by
  induction k generalizing curEntry curLen acc with
  | zero => exact Keeps.stop hR _
  | succ k ih =>
    exact Keeps.bind hR (hb _) fun _ => Keeps.bind hR (Keeps.ensure hR _ _) fun _ => Keeps.bind hR (Keeps.ensure hR _ _) fun _ =>
      Keeps.ite (Keeps.pure hR _) (ih _ _ _)

theorem lengthsRunLength_keeps (hR : Chain R) (hb : ∀ n, Keeps R (readBits n)) (hu : BookUpdates R c) : Keeps R (lengthsRunLength c) :=
  Keeps.bind hR (bookOperand_keeps hR c) fun _ => Keeps.bind hR (Keeps.read hR _) fun _ => Keeps.bind hR (hb _) fun _ =>
    Keeps.bind hR (Keeps.read hR _) fun _ => Keeps.bind hR (lengthRuns_keeps hR hb _ _ _ _ _) fun _ => setLengths_keeps hu _

theorem assignCodes_keeps (hR : Chain R) (hu : BookUpdates R c) : Keeps R (assignCodes c) := by
  refine Keeps.bind hR (Keeps.read hR _) fun l => ?_
  cases assignFrom 0 l with
  | none => exact Keeps.stop hR _
  | some p => exact Keeps.bind hR (Keeps.update fun s => hu.next s _) fun _ => setCodebook_keeps hu _

theorem lookupNone_keeps (hR : Chain R) (hu : BookUpdates R c) : Keeps R (lookupNone c) :=
  Keeps.bind hR (bookOperand_keeps hR c) fun _ => setCodebook_keeps hu _

theorem seqOff_keeps (hR : Chain R) (hu : BookUpdates R c) : Keeps R (seqOff c) :=
  Keeps.bind hR (bookOperand_keeps hR c) fun _ => setCodebook_keeps hu _

theorem seqOn_keeps (hR : Chain R) (hu : BookUpdates R c) : Keeps R (seqOn c) :=
  Keeps.bind hR (bookOperand_keeps hR c) fun _ => setCodebook_keeps hu _

theorem lookupFields_keeps (hR : Chain R) (hb : ∀ n, Keeps R (readBits n)) (hu : BookUpdates R c) : Keeps R (lookupFields c) :=
  Keeps.bind hR (read32_keeps hR hb) fun _ => Keeps.bind hR (setCodebook_keeps hu _) fun _ => Keeps.bind hR (read32_keeps hR hb) fun _ =>
    Keeps.bind hR (setCodebook_keeps hu _) fun _ => Keeps.bind hR (hb _) fun _ => Keeps.bind hR (setCodebook_keeps hu _) fun _ =>
      Keeps.bind hR (hb _) fun _ => Keeps.ite (seqOn_keeps hR hu) (seqOff_keeps hR hu)

theorem lookupMults_keeps (hR : Chain R) (hb : ∀ n, Keeps R (readBits n)) (hu : BookUpdates R c) (values : Nat) :
    Keeps R (lookupMults c values) :=
  Keeps.bind hR (setCodebook_keeps hu _) fun _ => Keeps.bind hR (Keeps.read hR _) fun _ =>
    Keeps.bind hR (Keeps.collect hR (fun _ => hb _) _ _) fun _ => setCodebook_keeps hu _

theorem lookupLattice_keeps (hR : Chain R) (hb : ∀ n, Keeps R (readBits n)) (hu : BookUpdates R c) : Keeps R (lookupLattice c) :=
  Keeps.bind hR (bookOperand_keeps hR c) fun _ => Keeps.bind hR (setCodebook_keeps hu _) fun _ =>
    Keeps.bind hR (lookupFields_keeps hR hb hu) fun _ => Keeps.bind hR (Keeps.read hR _) fun _ => Keeps.bind hR (Keeps.ensure hR _ _) fun _ =>
      lookupMults_keeps hR hb hu _

theorem lookupExplicit_keeps (hR : Chain R) (hb : ∀ n, Keeps R (readBits n)) (hu : BookUpdates R c) : Keeps R (lookupExplicit c) :=
  Keeps.bind hR (bookOperand_keeps hR c) fun _ => Keeps.bind hR (setCodebook_keeps hu _) fun _ =>
    Keeps.bind hR (lookupFields_keeps hR hb hu) fun _ => Keeps.bind hR (Keeps.read hR _) fun _ => lookupMults_keeps hR hb hu _

theorem lookupPart_keeps (hR : Chain R) (hb : ∀ n, Keeps R (readBits n)) (hu : BookUpdates R c) : Keeps R (lookupPart c) := by
  refine Keeps.bind hR (hb _) fun t => ?_
  split
  · exact lookupNone_keeps hR hu
  · exact lookupLattice_keeps hR hb hu
  · exact lookupExplicit_keeps hR hb hu
  · exact Keeps.stop hR _

theorem codebookSetup_keeps (hR : Chain R) (hb : ∀ n, Keeps R (readBits n)) (hu : BookUpdates R c) : Keeps R (codebookSetup c) :=
  Keeps.bind hR (bookOperand_keeps hR c) fun _ => Keeps.bind hR (hb _) fun _ => Keeps.bind hR (Keeps.ensure hR _ _) fun _ =>
    Keeps.bind hR (hb _) fun _ => Keeps.bind hR (setCodebook_keeps hu _) fun _ => Keeps.bind hR (hb _) fun _ =>
      Keeps.bind hR (setCodebook_keeps hu _) fun _ => Keeps.bind hR (hb _) fun _ =>
        Keeps.bind hR (Keeps.ite (lengthsRunLength_keeps hR hb hu) (lengthsExplicit_keeps hR hb hu)) fun _ =>
          Keeps.bind hR (assignCodes_keeps hR hu) fun _ => lookupPart_keeps hR hb hu

end

theorem scalarWalk_keeps (hR : Chain R) (hb : ∀ n, Keeps R (readBits n)) (codes : List Code) (k l cw : Nat) :
    Keeps R (scalarWalk codes k l cw) := by
  induction k generalizing l cw with
  | zero => exact Keeps.stop hR _
  | succ k ih =>
    refine Keeps.bind hR (hb _) fun b => ?_
    cases findCode codes (l + 1) (2 * cw + b) with
    | some e => exact Keeps.pure hR _
    | none => exact ih _ _

theorem codebookScalar_keeps (hR : Chain R) (hb : ∀ n, Keeps R (readBits n)) (c : Nat) : Keeps R (codebookScalar c) :=
  Keeps.bind hR (bookOperand_keeps hR c) fun _ => Keeps.bind hR (Keeps.read hR _) fun _ => scalarWalk_keeps hR hb _ _ _ _

/-- The updates of a buffer that a vector decode makes. -/
def BufUpdates (R : State → State → Prop) (r : BufRef) : Prop := ∀ s v, R s (s.bufSet r v)

theorem addInto_keeps (hR : Chain R) {buf : Vec} (hu : BufUpdates R buf.ref) (i : Nat) (v : F32) : Keeps R (addInto buf i v) :=
  Keeps.bind hR (Keeps.ensure hR _ _) fun _ => Keeps.update fun s => hu s _

theorem addElements_keeps (hR : Chain R) {buf : Vec} (hu : BufUpdates R buf.ref) (stride i : Nat) (vs : List F32) :
    Keeps R (addElements buf stride i vs) := by
  induction vs generalizing i with
  | nil => exact Keeps.pure hR ()
  | cons v vs ih => exact Keeps.bind hR (addInto_keeps hR hu i v) fun _ => ih _

theorem codebookVector_keeps (hR : Chain R) (hb : ∀ n, Keeps R (readBits n)) {buf : Vec} (hu : BufUpdates R buf.ref) (c base stride : Nat) :
    Keeps R (codebookVector c buf base stride) :=
  Keeps.bind hR (bookOperand_keeps hR c) fun _ => Keeps.bind hR (Keeps.ensure hR _ _) fun _ => Keeps.bind hR (Keeps.read hR _) fun _ =>
    Keeps.bind hR (Keeps.ensure hR _ _) fun _ => Keeps.bind hR (Keeps.ensure hR _ _) fun _ =>
      Keeps.bind hR (codebookScalar_keeps hR hb c) fun _ => addElements_keeps hR hu _ _ _

-- the Floor unit

theorem readSubbook_keeps (hR : Chain R) (hb : ∀ n, Keeps R (readBits n)) : Keeps R readSubbook := by
  refine Keeps.bind hR (hb _) fun v => ?_
  cases bookOf v with
  | none => exact Keeps.pure hR _
  | some b => exact Keeps.bind hR (floorBookCheck_keeps hR b) fun _ => Keeps.pure hR _

theorem readFloorClass_keeps (hR : Chain R) (hb : ∀ n, Keeps R (readBits n)) : Keeps R readFloorClass :=
  have hc := fun k => Keeps.collect (R := R) hR (fun _ => readSubbook_keeps hR hb) k 0
  Keeps.bind hR (hb _) fun _ => Keeps.bind hR (hb _) fun _ =>
    Keeps.ite
      (Keeps.bind hR (hb _) fun _ => Keeps.bind hR (floorBookCheck_keeps hR _) fun _ => Keeps.bind hR (hc _) fun _ => Keeps.pure hR _)
      (Keeps.bind hR (hc _) fun _ => Keeps.pure hR _)

theorem readXs_keeps (hR : Chain R) (hb : ∀ n, Keeps R (readBits n)) (bits k : Nat) (xs : List Nat) : Keeps R (readXs bits k xs) := by
  induction k generalizing xs with
  | zero => exact Keeps.pure hR _
  | succ k ih => exact Keeps.bind hR (Keeps.ensure hR _ _) fun _ => Keeps.bind hR (hb _) fun _ => ih _

theorem readPartitionXs_keeps (hR : Chain R) (hb : ∀ n, Keeps R (readBits n)) (bits : Nat) (classes : List FloorClass) (ks xs : List Nat) :
    Keeps R (readPartitionXs bits classes ks xs) := by
  induction ks generalizing xs with
  | nil => exact Keeps.pure hR _
  | cons k ks ih => exact Keeps.bind hR (readXs_keeps hR hb _ _ _) fun _ => ih _

/-- The update that filling floor entry `f` makes. -/
def FloorUpdates (R : State → State → Prop) (f : Nat) : Prop := ∀ s (g : Floor → Floor), R s (s.mapTabs fun t => { t with fl := aset t.fl f (g (aget t.fl f)) })

theorem setFloor_keeps {f : Nat} (hu : FloorUpdates R f) (g : Floor → Floor) : Keeps R (setFloor f g) := Keeps.update fun s => hu s g

theorem floorBody_keeps (hR : Chain R) (hb : ∀ n, Keeps R (readBits n)) {f : Nat} (hu : FloorUpdates R f) : Keeps R (floorBody f) :=
  Keeps.bind hR (floorOperand_keeps hR f) fun _ => Keeps.bind hR (hb _) fun _ => Keeps.bind hR (Keeps.collect hR (fun _ => hb _) _ _) fun _ =>
    Keeps.bind hR (Keeps.collect hR (fun _ => readFloorClass_keeps hR hb) _ _) fun _ => Keeps.bind hR (hb _) fun _ =>
      Keeps.bind hR (hb _) fun _ => Keeps.bind hR (readPartitionXs_keeps hR hb _ _ _ _) fun _ => Keeps.bind hR (Keeps.ensure hR _ _) fun _ =>
        setFloor_keeps hu _

theorem floorSetup_keeps (hR : Chain R) (hb : ∀ n, Keeps R (readBits n)) {f : Nat} (hu : FloorUpdates R f) : Keeps R (floorSetup f) :=
  Keeps.bind hR (floorOperand_keeps hR f) fun _ => Keeps.bind hR (hb _) fun _ => Keeps.ite (floorBody_keeps hR hb hu) (Keeps.stop hR _)

/-- The updates that decoding a channel's floor makes. -/
structure FloorValueUpdates (R : State → State → Prop) (ch : Nat) : Prop where
  energy : ∀ s v, R s (s.mapWork fun w => { w with hasEnergy := aset w.hasEnergy ch v })
  values : ∀ s l, R s (s.mapWork fun w => { w with floorY := aset w.floorY ch (overlay l (aget w.floorY ch)) })

theorem setEnergy_keeps {ch : Nat} (hu : FloorValueUpdates R ch) (v : Bool) : Keeps R (setEnergy ch v) := Keeps.update fun s => hu.energy s v

theorem readDim_keeps (hR : Chain R) (hb : ∀ n, Keeps R (readBits n)) (book : Option Nat) : Keeps R (readDim book) := by
  cases book with
  | none => exact Keeps.pure hR _
  | some b => exact codebookScalar_keeps hR hb b

theorem readPartitionYs_keeps (hR : Chain R) (hb : ∀ n, Keeps R (readBits n)) (cls : FloorClass) (k cval : Nat) :
    Keeps R (readPartitionYs cls k cval) := by
  induction k generalizing cval with
  | zero => exact Keeps.pure hR _
  | succ k ih =>
    exact Keeps.bind hR (readDim_keeps hR hb _) fun _ => Keeps.bind hR (ih _) fun _ => Keeps.pure hR _

theorem readAllYs_keeps (hR : Chain R) (hb : ∀ n, Keeps R (readBits n)) (fl : Floor) (ks : List Nat) : Keeps R (readAllYs fl ks) := by
  induction ks with
  | nil => exact Keeps.pure hR _
  | cons k ks ih =>
    exact Keeps.bind hR (Keeps.ite (codebookScalar_keeps hR hb _) (Keeps.pure hR _)) fun _ =>
      Keeps.bind hR (readPartitionYs_keeps hR hb _ _ _) fun _ => Keeps.bind hR ih fun _ => Keeps.pure hR _

theorem floorSilentPart_keeps (hR : Chain R) {ch : Nat} (hu : FloorValueUpdates R ch) (f : Nat) : Keeps R (floorSilentPart ch f) :=
  Keeps.bind hR (chanOperand_keeps hR ch) fun _ => Keeps.bind hR (floorOperand_keeps hR f) fun _ => setEnergy_keeps hu _

theorem floorEnergyPart_keeps (hR : Chain R) (hb : ∀ n, Keeps R (readBits n)) {ch : Nat} (hu : FloorValueUpdates R ch) (f : Nat) :
    Keeps R (floorEnergyPart ch f) :=
  Keeps.bind hR (chanOperand_keeps hR ch) fun _ => Keeps.bind hR (floorOperand_keeps hR f) fun _ => Keeps.bind hR (setEnergy_keeps hu _) fun _ =>
    Keeps.bind hR (Keeps.read hR _) fun _ => Keeps.bind hR (hb _) fun _ => Keeps.bind hR (hb _) fun _ =>
      Keeps.bind hR (readAllYs_keeps hR hb _ _) fun _ => Keeps.update fun s => hu.values s _

theorem floorDecode_keeps (hR : Chain R) (hb : ∀ n, Keeps R (readBits n)) {ch : Nat} (hu : FloorValueUpdates R ch) (f : Nat) :
    Keeps R (floorDecode ch f) :=
  Keeps.bind hR (chanOperand_keeps hR ch) fun _ => Keeps.bind hR (floorOperand_keeps hR f) fun _ => Keeps.bind hR (hb _) fun _ =>
    Keeps.ite (floorEnergyPart_keeps hR hb hu f) (floorSilentPart_keeps hR hu f)

/-- The updates that synthesising a channel's floor makes. -/
structure FloorSynthUpdates (R : State → State → Prop) (ch : Nat) : Prop where
  amps : ∀ s y b, R s (s.mapWork fun w => { w with finalY := overlay y w.finalY, step2 := overlay b w.step2 })
  cur : ∀ s v, R s (State.setCur ch v s)

theorem floorSynth_keeps (hR : Chain R) {ch : Nat} (hu : FloorSynthUpdates R ch) (f n : Nat) : Keeps R (floorSynth ch f n) :=
  Keeps.bind hR (chanOperand_keeps hR ch) fun _ => Keeps.bind hR (floorOperand_keeps hR f) fun _ => Keeps.bind hR (binsOperand_keeps hR n) fun _ =>
    Keeps.bind hR (energyOperand_keeps hR ch) fun _ => Keeps.bind hR (Keeps.read hR _) fun _ => Keeps.bind hR (Keeps.ensure hR _ _) fun _ =>
      Keeps.bind hR (Keeps.read hR _) fun _ => Keeps.bind hR (Keeps.update fun s => hu.amps s _ _) fun _ =>
        Keeps.bind hR (Keeps.ensure hR _ _) fun _ => Keeps.bind hR (Keeps.ensure hR _ _) fun _ => Keeps.update fun s => hu.cur s _

-- the Residue unit

theorem readCascade_keeps (hR : Chain R) (hb : ∀ n, Keeps R (readBits n)) : Keeps R readCascade :=
  Keeps.bind hR (hb _) fun _ => Keeps.bind hR (hb _) fun _ => Keeps.bind hR (Keeps.ite (hb _) (Keeps.pure hR _)) fun _ => Keeps.pure hR _

theorem readBook_keeps (hR : Chain R) (hb : ∀ n, Keeps R (readBits n)) (cascade pass : Nat) : Keeps R (readBook cascade pass) := by
  unfold readBook
  exact Keeps.ite (Keeps.bind hR (hb _) fun _ => Keeps.pure hR _) (Keeps.pure hR _)

/-- The update that filling residue entry `r` makes. -/
def ResidueUpdates (R : State → State → Prop) (r : Nat) : Prop := ∀ s (g : Residue → Residue), R s (s.mapTabs fun t => { t with rs := aset t.rs r (g (aget t.rs r)) })

theorem setResidue_keeps {r : Nat} (hu : ResidueUpdates R r) (g : Residue → Residue) : Keeps R (setResidue r g) := Keeps.update fun s => hu s g

theorem residueBody_keeps (hR : Chain R) (hb : ∀ n, Keeps R (readBits n)) {r : Nat} (hu : ResidueUpdates R r) (t : Nat) :
    Keeps R (residueBody r t) :=
  Keeps.bind hR (residueOperand_keeps hR r) fun _ => Keeps.bind hR (hb _) fun _ => Keeps.bind hR (hb _) fun _ => Keeps.bind hR (hb _) fun _ =>
    Keeps.bind hR (hb _) fun _ => Keeps.bind hR (hb _) fun _ => Keeps.bind hR (Keeps.collect hR (fun _ => readCascade_keeps hR hb) _ _) fun _ =>
      Keeps.bind hR (Keeps.collect hR (fun _ => Keeps.collect hR (fun _ => readBook_keeps hR hb _ _) _ _) _ _) fun _ =>
        Keeps.bind hR (Keeps.read hR _) fun _ => Keeps.bind hR (Keeps.ensure hR _ _) fun _ => Keeps.bind hR (Keeps.read hR _) fun _ =>
          Keeps.bind hR (Keeps.ensure hR _ _) fun _ => Keeps.bind hR (Keeps.ensure hR _ _) fun _ => Keeps.bind hR (Keeps.read hR _) fun _ =>
            Keeps.bind hR (Keeps.ensure hR _ _) fun _ => setResidue_keeps hu _

theorem residueSetup_keeps (hR : Chain R) (hb : ∀ n, Keeps R (readBits n)) {r : Nat} (hu : ResidueUpdates R r) : Keeps R (residueSetup r) := by
  refine Keeps.bind hR (residueOperand_keeps hR r) fun _ => Keeps.bind hR (hb _) fun t => ?_
  split
  · exact residueBody_keeps hR hb hu 0
  · exact residueBody_keeps hR hb hu 1
  · exact residueBody_keeps hR hb hu 2
  · exact Keeps.stop hR _

/-- The updates that decoding residue vectors makes: the classifications and the buffers. -/
structure ResidueValueUpdates (R : State → State → Prop) : Prop where
  classif : ∀ s l, R s (s.mapWork fun w => { w with classif := l })
  flags : ∀ s l, R s (s.mapWork fun w => { w with doNotDecode := l })
  interleave : ∀ s l, R s (s.mapWork fun w => { w with interleave := l })
  cur : ∀ s ch v, R s (State.setCur ch v s)

theorem ResidueValueUpdates.buf (hu : ResidueValueUpdates R) (r : BufRef) : BufUpdates R r := by
  intro s v
  cases r with
  | cur ch => exact hu.cur s ch v
  | interleave => exact hu.interleave s v

theorem setClassif_keeps (hu : ResidueValueUpdates R) (j q : Nat) (ds : List Nat) : Keeps R (setClassif j q ds) :=
  Keeps.update fun s => hu.classif s _

theorem classify_keeps (hR : Chain R) (hb : ∀ n, Keeps R (readBits n)) (hu : ResidueValueUpdates R) (rs : Residue) (cpc j q : Nat) :
    Keeps R (classify rs cpc j q) :=
  Keeps.bind hR (codebookScalar_keeps hR hb _) fun _ => setClassif_keeps hu _ _ _

theorem decodePartition_keeps (hR : Chain R) (hb : ∀ n, Keeps R (readBits n)) (hu : ResidueValueUpdates R) (rs : Residue) (book : Nat) (v : Vec)
    (off : Nat) : Keeps R (decodePartition rs book v off) := by
  unfold decodePartition
  refine Keeps.ite ?_ ?_
  · exact Keeps.bind hR (Keeps.read hR _) fun _ => Keeps.bind hR (Keeps.ensure hR _ _) fun _ =>
      Keeps.forN hR (fun _ => codebookVector_keeps hR hb (hu.buf v.ref) _ _ _) _ _
  · exact Keeps.bind hR (Keeps.read hR _) fun _ => Keeps.forN hR (fun _ => codebookVector_keeps hR hb (hu.buf v.ref) _ _ _) _ _

theorem residueCell_keeps (hR : Chain R) (hb : ∀ n, Keeps R (readBits n)) (hu : ResidueValueUpdates R) (rs : Residue) (vs : List Vec)
    (lim pass q j : Nat) : Keeps R (residueCell rs vs lim pass q j) := by
  refine Keeps.bind hR (Keeps.read hR _) fun cls => ?_
  cases aget (aget rs.books cls) pass with
  | none => exact Keeps.pure hR _
  | some book => exact decodePartition_keeps hR hb hu rs book _ _

theorem forKept_keeps (hR : Chain R) {body : Nat → M Unit} (h : ∀ j, Keeps R (body j)) (dnd : List Bool) : Keeps R (forKept dnd body) :=
  Keeps.forN hR (fun j => Keeps.ite (Keeps.pure hR _) (h j)) _ _

theorem residueGroup_keeps (hR : Chain R) (hb : ∀ n, Keeps R (readBits n)) (hu : ResidueValueUpdates R) (rs : Residue) (vs : List Vec)
    (dnd : List Bool) (lim total cpc pass g : Nat) : Keeps R (residueGroup rs vs dnd lim total cpc pass g) :=
  Keeps.bind hR (Keeps.ite (forKept_keeps hR (fun _ => classify_keeps hR hb hu rs cpc _ _) dnd) (Keeps.pure hR _)) fun _ =>
    Keeps.forN hR (fun _ => forKept_keeps hR (fun _ => residueCell_keeps hR hb hu rs vs lim pass _ _) dnd) _ _

theorem residueInner_keeps (hR : Chain R) (hb : ∀ n, Keeps R (readBits n)) (hu : ResidueValueUpdates R) (rs : Residue) (vs : List Vec)
    (dnd : List Bool) (size : Nat) : Keeps R (residueInner rs vs dnd size) :=
  Keeps.bind hR (Keeps.read hR _) fun _ => Keeps.bind hR (Keeps.ensure hR _ _) fun _ =>
    Keeps.forN hR (fun _ => Keeps.forN hR (fun _ => residueGroup_keeps hR hb hu rs vs dnd _ _ _ _ _) _ _) _ _

theorem zeroSpectrum_keeps (hu : ResidueValueUpdates R) (n c : Nat) : Keeps R (zeroSpectrum n c) := Keeps.update fun s => hu.cur s _ _

theorem residueSeparate_keeps (hR : Chain R) (hb : ∀ n, Keeps R (readBits n)) (hu : ResidueValueUpdates R) (rs : Residue) (chans : List Nat)
    (dnd : List Bool) (n : Nat) : Keeps R (residueSeparate rs chans dnd n) :=
  Keeps.bind hR (Keeps.forList hR (zeroSpectrum_keeps hu n) chans) fun _ => residueInner_keeps hR hb hu rs _ dnd n

theorem residueInterleaved_keeps (hR : Chain R) (hb : ∀ n, Keeps R (readBits n)) (hu : ResidueValueUpdates R) (rs : Residue) (chans : List Nat)
    (dnd : List Bool) (n : Nat) : Keeps R (residueInterleaved rs chans dnd n) :=
  Keeps.bind hR (Keeps.update fun s => hu.interleave s _) fun _ =>
    Keeps.bind hR (Keeps.ite (Keeps.pure hR _) (residueInner_keeps hR hb hu rs _ _ _)) fun _ =>
      Keeps.forN hR (fun _ => Keeps.update fun s => hu.cur s _ _) _ _

theorem residueDecode_keeps (hR : Chain R) (hb : ∀ n, Keeps R (readBits n)) (hu : ResidueValueUpdates R) (r : Nat) (chans : List Nat) (n : Nat) :
    Keeps R (residueDecode r chans n) :=
  Keeps.bind hR (residueOperand_keeps hR r) fun _ => Keeps.bind hR (binsOperand_keeps hR n) fun _ => Keeps.bind hR (Keeps.read hR _) fun _ =>
    Keeps.bind hR (Keeps.ensure hR _ _) fun _ => Keeps.bind hR (Keeps.read hR _) fun _ => Keeps.bind hR (Keeps.ensure hR _ _) fun _ =>
      Keeps.bind hR (Keeps.read hR _) fun _ => Keeps.bind hR (Keeps.update fun s => hu.flags s _) fun _ =>
        Keeps.ite (residueInterleaved_keeps hR hb hu _ chans _ n) (residueSeparate_keeps hR hb hu _ chans _ n)

-- Mapping and Mode

/-- The update that filling mapping entry `m` makes. -/
def MappingUpdates (R : State → State → Prop) (m : Nat) : Prop := ∀ s (g : Mapping → Mapping), R s (s.mapTabs fun t => { t with mp := aset t.mp m (g (aget t.mp m)) })

/-- The update that filling mode entry `k` makes. -/
def ModeUpdates (R : State → State → Prop) (k : Nat) : Prop := ∀ s (g : Mode → Mode), R s (s.mapTabs fun t => { t with md := aset t.md k (g (aget t.md k)) })

section

variable {m : Nat}

theorem setMapping_keeps (hu : MappingUpdates R m) (g : Mapping → Mapping) : Keeps R (setMapping m g) := Keeps.update fun s => hu s g

theorem submapsAbsent_keeps (hR : Chain R) (hu : MappingUpdates R m) : Keeps R (submapsAbsent m) :=
  Keeps.bind hR (mappingOperand_keeps hR m) fun _ => setMapping_keeps hu _

theorem submapsPresent_keeps (hR : Chain R) (hb : ∀ n, Keeps R (readBits n)) (hu : MappingUpdates R m) : Keeps R (submapsPresent m) :=
  Keeps.bind hR (mappingOperand_keeps hR m) fun _ => Keeps.bind hR (hb _) fun _ => setMapping_keeps hu _

theorem couplingAbsent_keeps (hR : Chain R) (hu : MappingUpdates R m) : Keeps R (couplingAbsent m) :=
  Keeps.bind hR (mappingOperand_keeps hR m) fun _ => setMapping_keeps hu _

theorem readStep_keeps (hR : Chain R) (hb : ∀ n, Keeps R (readBits n)) (channels : Nat) : Keeps R (readStep channels) :=
  Keeps.bind hR (hb _) fun _ => Keeps.bind hR (hb _) fun _ => Keeps.bind hR (Keeps.ensure hR _ _) fun _ =>
    Keeps.bind hR (Keeps.ensure hR _ _) fun _ => Keeps.pure hR _

theorem couplingPresent_keeps (hR : Chain R) (hb : ∀ n, Keeps R (readBits n)) (hu : MappingUpdates R m) : Keeps R (couplingPresent m) :=
  Keeps.bind hR (mappingOperand_keeps hR m) fun _ => Keeps.bind hR (hb _) fun _ => Keeps.bind hR (Keeps.read hR _) fun _ =>
    Keeps.bind hR (Keeps.collect hR (fun _ => readStep_keeps hR hb _) _ _) fun _ => setMapping_keeps hu _

theorem readMux_keeps (hR : Chain R) (hb : ∀ n, Keeps R (readBits n)) (submaps : Nat) : Keeps R (readMux submaps) := by
  unfold readMux
  exact Keeps.ite (Keeps.bind hR (hb _) fun _ => Keeps.bind hR (Keeps.ensure hR _ _) fun _ => Keeps.pure hR _) (Keeps.pure hR _)

theorem readSubmap_keeps (hR : Chain R) (hb : ∀ n, Keeps R (readBits n)) : Keeps R readSubmap :=
  Keeps.bind hR (hb _) fun _ => Keeps.bind hR (hb _) fun _ => Keeps.bind hR (Keeps.read hR _) fun _ => Keeps.bind hR (Keeps.ensure hR _ _) fun _ =>
    Keeps.bind hR (hb _) fun _ => Keeps.bind hR (Keeps.read hR _) fun _ => Keeps.bind hR (Keeps.ensure hR _ _) fun _ => Keeps.pure hR _

theorem mappingBody_keeps (hR : Chain R) (hb : ∀ n, Keeps R (readBits n)) (hu : MappingUpdates R m) : Keeps R (mappingBody m) :=
  Keeps.bind hR (mappingOperand_keeps hR m) fun _ => Keeps.bind hR (hb _) fun _ =>
    Keeps.bind hR (Keeps.ite (submapsPresent_keeps hR hb hu) (submapsAbsent_keeps hR hu)) fun _ => Keeps.bind hR (hb _) fun _ =>
      Keeps.bind hR (Keeps.ite (couplingPresent_keeps hR hb hu) (couplingAbsent_keeps hR hu)) fun _ => Keeps.bind hR (hb _) fun _ =>
        Keeps.bind hR (Keeps.ensure hR _ _) fun _ => Keeps.bind hR (Keeps.read hR _) fun _ => Keeps.bind hR (Keeps.read hR _) fun _ =>
          Keeps.bind hR (Keeps.collect hR (fun _ => readMux_keeps hR hb _) _ _) fun _ => Keeps.bind hR (setMapping_keeps hu _) fun _ =>
            Keeps.bind hR (Keeps.collect hR (fun _ => readSubmap_keeps hR hb) _ _) fun _ => setMapping_keeps hu _

theorem mappingSetup_keeps (hR : Chain R) (hb : ∀ n, Keeps R (readBits n)) (hu : MappingUpdates R m) : Keeps R (mappingSetup m) :=
  Keeps.bind hR (mappingOperand_keeps hR m) fun _ => Keeps.bind hR (hb _) fun _ => Keeps.ite (mappingBody_keeps hR hb hu) (Keeps.stop hR _)

end

section

variable {k : Nat}

theorem setMode_keeps (hu : ModeUpdates R k) (g : Mode → Mode) : Keeps R (setMode k g) := Keeps.update fun s => hu s g

theorem blockShort_keeps (hR : Chain R) (hu : ModeUpdates R k) : Keeps R (blockShort k) :=
  Keeps.bind hR (modeOperand_keeps hR k) fun _ => setMode_keeps hu _

theorem blockLong_keeps (hR : Chain R) (hu : ModeUpdates R k) : Keeps R (blockLong k) :=
  Keeps.bind hR (modeOperand_keeps hR k) fun _ => setMode_keeps hu _

theorem modeSetup_keeps (hR : Chain R) (hb : ∀ n, Keeps R (readBits n)) (hu : ModeUpdates R k) : Keeps R (modeSetup k) :=
  Keeps.bind hR (modeOperand_keeps hR k) fun _ => Keeps.bind hR (hb _) fun _ =>
    Keeps.bind hR (Keeps.ite (blockLong_keeps hR hu) (blockShort_keeps hR hu)) fun _ => Keeps.bind hR (hb _) fun _ =>
      Keeps.bind hR (Keeps.ensure hR _ _) fun _ => Keeps.bind hR (hb _) fun _ => Keeps.bind hR (Keeps.ensure hR _ _) fun _ =>
        Keeps.bind hR (hb _) fun _ => Keeps.bind hR (setMode_keeps hu _) fun _ => Keeps.bind hR (Keeps.read hR _) fun _ => Keeps.ensure hR _ _

end

-- the Inverse Transform unit and the windows

theorem imdctTables_keeps (hp : ∀ s f, R s (s.mapPre f)) (b : Bool) : Keeps R (imdctTables b) := fun s => hp s _

theorem windowTables_keeps (hp : ∀ s f, R s (s.mapPre f)) (b : Bool) : Keeps R (windowTables b) := fun s => hp s _

theorem imdctChannel_keeps (hR : Chain R) {ch : Nat} (hu : ∀ s v, R s (State.setCur ch v s)) (b : Bool) : Keeps R (imdctChannel b ch) :=
  Keeps.bind hR (chanOperand_keeps hR ch) fun _ => Keeps.bind hR (energyOperand_keeps hR ch) fun _ => Keeps.bind hR (Keeps.read hR _) fun _ =>
    Keeps.update fun s => hu s _

-- the headers

theorem tagCheck_keeps (hR : Chain R) (e t : Byte) (sync : List Byte) : Keeps R (tagCheck e t sync) :=
  Keeps.bind hR (Keeps.ensure hR _ _) fun _ => Keeps.ensure hR _ _

theorem headerTag_keeps (hR : Chain R) (hd : ∀ s n, n ≤ s.src.bytes.length → R s (s.dropBytes n)) (t : Byte) : Keeps R (headerTag t) :=
  Keeps.bind hR (readExact_keeps hR hd _) fun _ => tagCheck_keeps hR _ _ _

theorem headerIdent_keeps (hR : Chain R) (hd : ∀ s n, n ≤ s.src.bytes.length → R s (s.dropBytes n)) (hh : ∀ s f, R s (s.mapHdr f)) :
    Keeps R headerIdent :=
  Keeps.bind hR (readExact_keeps hR hd _) fun _ => Keeps.bind hR (Keeps.ensure hR _ _) fun _ => Keeps.bind hR (Keeps.update fun s => hh s _) fun _ =>
    Keeps.bind hR (Keeps.ensure hR _ _) fun _ => Keeps.bind hR (Keeps.ensure hR _ _) fun _ => Keeps.bind hR (Keeps.ensure hR _ _) fun _ =>
      Keeps.bind hR (Keeps.ensure hR _ _) fun _ => Keeps.ensure hR _ _

theorem skipString_keeps (hR : Chain R) (hd : ∀ s n, n ≤ s.src.bytes.length → R s (s.dropBytes n)) : Keeps R skipString :=
  Keeps.bind hR (readExact_keeps hR hd _) fun _ => skipBytes_keeps hR hd _

theorem headerComment_keeps (hR : Chain R) (hd : ∀ s n, n ≤ s.src.bytes.length → R s (s.dropBytes n)) : Keeps R headerComment :=
  Keeps.bind hR (skipString_keeps hR hd) fun _ => Keeps.bind hR (readExact_keeps hR hd _) fun _ =>
    Keeps.bind hR (Keeps.forN hR (fun _ => skipString_keeps hR hd) _ _) fun _ => Keeps.bind hR (readU8_keeps hR hd) fun _ => Keeps.ensure hR _ _

theorem timePlaceholders_keeps (hR : Chain R) (hb : ∀ n, Keeps R (readBits n)) : Keeps R timePlaceholders :=
  Keeps.bind hR (hb _) fun _ => Keeps.forN hR (fun _ => Keeps.bind hR (hb _) fun _ => Keeps.ensure hR _ _) _ _

/-- The updates that a setup header makes. -/
structure SetupUpdates (R : State → State → Prop) : Prop where
  counts : ∀ s f, R s (s.mapCounts f)
  tabs : ∀ s f, R s (s.mapTabs f)
  len : ∀ s l, R s (s.mapWork fun w => { w with len := l })
  next : ∀ s l, R s (s.mapWork fun w => { w with nextFree := l })

theorem SetupUpdates.book (hu : SetupUpdates R) (c : Nat) : BookUpdates R c := ⟨fun s _ => hu.tabs s _, hu.len, hu.next⟩

theorem setupCodebooks_keeps (hR : Chain R) (hb : ∀ n, Keeps R (readBits n)) (hu : SetupUpdates R) : Keeps R setupCodebooks :=
  Keeps.bind hR (hb _) fun _ => Keeps.bind hR (Keeps.update fun s => hu.counts s _) fun _ =>
    Keeps.forN hR (fun c => codebookSetup_keeps hR hb (hu.book c)) _ _

theorem setupFloors_keeps (hR : Chain R) (hb : ∀ n, Keeps R (readBits n)) (hu : SetupUpdates R) : Keeps R setupFloors :=
  Keeps.bind hR (hb _) fun _ => Keeps.bind hR (Keeps.update fun s => hu.counts s _) fun _ =>
    Keeps.forN hR (fun _ => floorSetup_keeps hR hb fun s _ => hu.tabs s _) _ _

theorem setupResidues_keeps (hR : Chain R) (hb : ∀ n, Keeps R (readBits n)) (hu : SetupUpdates R) : Keeps R setupResidues :=
  Keeps.bind hR (hb _) fun _ => Keeps.bind hR (Keeps.update fun s => hu.counts s _) fun _ =>
    Keeps.forN hR (fun _ => residueSetup_keeps hR hb fun s _ => hu.tabs s _) _ _

theorem setupMappings_keeps (hR : Chain R) (hb : ∀ n, Keeps R (readBits n)) (hu : SetupUpdates R) : Keeps R setupMappings :=
  Keeps.bind hR (hb _) fun _ => Keeps.bind hR (Keeps.update fun s => hu.counts s _) fun _ =>
    Keeps.forN hR (fun _ => mappingSetup_keeps hR hb fun s _ => hu.tabs s _) _ _

theorem setupModes_keeps (hR : Chain R) (hb : ∀ n, Keeps R (readBits n)) (hu : SetupUpdates R) : Keeps R setupModes :=
  Keeps.bind hR (hb _) fun _ => Keeps.bind hR (Keeps.update fun s => hu.counts s _) fun _ =>
    Keeps.bind hR (Keeps.forN hR (fun _ => modeSetup_keeps hR hb fun s _ => hu.tabs s _) _ _) fun _ => Keeps.update fun s => hu.counts s _

theorem setupEnd_keeps (hR : Chain R) (hb : ∀ n, Keeps R (readBits n)) (ha : ∀ s : State, R s (s.mapBits fun _ => BitReader.empty)) :
    Keeps R setupEnd :=
  Keeps.bind hR (hb _) fun _ => Keeps.bind hR (Keeps.ensure hR _ _) fun _ => alignBits_keeps ha

theorem headerSetup_keeps (hR : Chain R) (hb : ∀ n, Keeps R (readBits n)) (ha : ∀ s : State, R s (s.mapBits fun _ => BitReader.empty))
    (hu : SetupUpdates R) : Keeps R headerSetup :=
  Keeps.bind hR (setupCodebooks_keeps hR hb hu) fun _ => Keeps.bind hR (timePlaceholders_keeps hR hb) fun _ =>
    Keeps.bind hR (setupFloors_keeps hR hb hu) fun _ => Keeps.bind hR (setupResidues_keeps hR hb hu) fun _ =>
      Keeps.bind hR (setupMappings_keeps hR hb hu) fun _ => Keeps.bind hR (setupModes_keeps hR hb hu) fun _ => setupEnd_keeps hR hb ha

-- frames

theorem decoupleStep_keeps (hR : Chain R) (hu : ∀ s ch v, R s (State.setCur ch v s)) (n : Nat) (st : CouplingStep) : Keeps R (decoupleStep n st) :=
  fun s => hR.trans (hu s st.mag _) (hu _ st.ang _)

theorem decoupleAll_keeps (hR : Chain R) (hu : ∀ s ch v, R s (State.setCur ch v s)) (m n : Nat) : Keeps R (decoupleAll m n) :=
  Keeps.bind hR (mappingOperand_keeps hR m) fun _ => Keeps.bind hR (binsOperand_keeps hR n) fun _ => Keeps.bind hR (Keeps.read hR _) fun _ =>
    Keeps.forList hR (decoupleStep_keeps hR hu n) _

theorem packetHeader_keeps (hR : Chain R) (hb : ∀ n, Keeps R (readBits n))
    (hf : ∀ s b, R s (s.mapFrame fun f => { f with curFlag := b, curBlock := s.block b })) : Keeps R packetHeader :=
  Keeps.bind hR (Keeps.read hR _) fun _ => Keeps.bind hR (hb _) fun _ => Keeps.bind hR (Keeps.read hR _) fun _ =>
    Keeps.bind hR (Keeps.ensure hR _ _) fun _ => Keeps.bind hR (Keeps.read hR _) fun _ => Keeps.bind hR (Keeps.update fun s => hf s _) fun _ =>
      Keeps.ite (Keeps.bind hR (hb _) fun _ => Keeps.pure hR _) (Keeps.pure hR _)

/-- The updates that decoding a frame makes after the packet header. -/
structure FrameUpdates (R : State → State → Prop) : Prop where
  work : ∀ s f, R s (s.mapWork f)
  bank : ∀ s, R s (s.mapFrame fun f => { f with curSel := !f.curSel })
  pending : ∀ s, R s (s.mapFrame fun f => { f with framePending := true })
  floors : ∀ s : State, R s s.dropFloorY
  align : ∀ s : State, R s (s.mapBits fun _ => BitReader.empty)

theorem FrameUpdates.cur (hu : FrameUpdates R) (s : State) (ch : Nat) (v : List F32) : R s (State.setCur ch v s) := by
  unfold State.setCur
  split
  · exact hu.work s _
  · exact hu.work s _

theorem frameBody_keeps (hR : Chain R) (hb : ∀ n, Keeps R (readBits n)) (hu : FrameUpdates R) (m : Nat) : Keeps R (frameBody m) :=
  have hv : ResidueValueUpdates R := ⟨fun s _ => hu.work s _, fun s _ => hu.work s _, fun s _ => hu.work s _, hu.cur⟩
  Keeps.bind hR (mappingOperand_keeps hR m) fun _ => Keeps.bind hR (Keeps.update hu.bank) fun _ => Keeps.bind hR (Keeps.read hR _) fun _ =>
    Keeps.bind hR (Keeps.read hR _) fun _ => Keeps.bind hR (Keeps.read hR _) fun _ =>
      Keeps.bind hR (Keeps.forN hR (fun _ => floorDecode_keeps hR hb ⟨fun s _ => hu.work s _, fun s _ => hu.work s _⟩ _) _ _) fun _ =>
        Keeps.bind hR (Keeps.update fun s => hu.work s _) fun _ =>
          Keeps.bind hR (Keeps.forN hR (fun _ => residueDecode_keeps hR hb hv _ _ _) _ _) fun _ =>
            Keeps.bind hR (decoupleAll_keeps hR hu.cur _ _) fun _ =>
              Keeps.bind hR
                (Keeps.forN hR
                  (fun ch => Keeps.bind hR (Keeps.read hR _) fun _ =>
                    Keeps.ite (floorSynth_keeps hR ⟨fun s _ _ => hu.work s _, fun s v => hu.cur s ch v⟩ _ _) (Keeps.pure hR _)) _ _)
                fun _ =>
                  Keeps.bind hR
                    (Keeps.forN hR
                      (fun ch => Keeps.bind hR (Keeps.read hR _) fun _ => Keeps.bind hR (Keeps.read hR _) fun _ =>
                        Keeps.ite (imdctChannel_keeps hR (fun s v => hu.cur s ch v) _) (Keeps.update fun s => hu.cur s ch _)) _ _)
                    fun _ => Keeps.bind hR (Keeps.update hu.floors) fun _ => Keeps.bind hR (alignBits_keeps hu.align) fun _ => Keeps.update hu.pending

theorem audioPacket_keeps (hR : Chain R) (hb : ∀ n, Keeps R (readBits n))
    (hf : ∀ s b, R s (s.mapFrame fun f => { f with curFlag := b, curBlock := s.block b })) (hu : FrameUpdates R) : Keeps R audioPacket :=
  Keeps.bind hR (packetHeader_keeps hR hb hf) fun _ => frameBody_keeps hR hb hu _

theorem decodePacket_keeps (hR : Chain R) (ht : ∀ n, Keeps R (tryReadBits n)) (hb : ∀ n, Keeps R (readBits n))
    (hf : ∀ s b, R s (s.mapFrame fun f => { f with curFlag := b, curBlock := s.block b })) (hu : FrameUpdates R) : Keeps R decodePacket := by
  refine Keeps.bind hR (ht _) fun t => ?_
  cases t with
  | none => exact Keeps.stop hR _
  | some t => exact Keeps.ite (Keeps.stop hR _) (audioPacket_keeps hR hb hf hu)

theorem pcmOut_keeps (hR : Chain R) (x : F32) : Keeps R (pcmOut x) := by
  unfold pcmOut
  cases pcmOf x with
  | none => exact Keeps.stop hR _
  | some v => exact Keeps.pure hR _

theorem writeSamples_keeps (hR : Chain R) (ho : ∀ s v, R s (State.setOut v s)) (xs : List F32) : Keeps R (writeSamples xs) := by
  induction xs with
  | nil => exact Keeps.pure hR ()
  | cons x xs ih => exact Keeps.bind hR (pcmOut_keeps hR x) fun _ => Keeps.bind hR (Keeps.update fun s => ho s _) fun _ => ih

theorem outputFrame_keeps (hR : Chain R) (ho : ∀ s v, R s (State.setOut v s))
    (hf : ∀ s v, R s (s.mapFrame fun f => { f with outCount := v, prevBlock := f.curBlock, framePending := false })) (cap : Nat) :
    Keeps R (outputFrame cap) :=
  Keeps.bind hR (Keeps.read hR _) fun _ => Keeps.bind hR (Keeps.ensure hR _ _) fun _ => Keeps.bind hR (Keeps.update fun s => ho s _) fun _ =>
    Keeps.bind hR (Keeps.read hR _) fun _ => Keeps.bind hR (Keeps.read hR _) fun _ =>
      Keeps.bind hR (Keeps.ite (Keeps.pure hR _) (writeSamples_keeps hR ho _)) fun _ => Keeps.update fun s => hf s _

end Sys2Proof.Machine
end

