-- ==== Sys2Proof/Laws/PerInstr.lean ====
section
/-! SUPPORT. Statements about every instruction, one lemma per constructor. -/

namespace Sys2Proof.Laws.EncodedWordFits

/-- The word that the encoder gives an instruction fits the width of its port, so that the port can carry it (30_encoding R111, R132, R137). -/
def Statement (i : Instr) : Prop := (encode i).word.toNat < 2 ^ (encode i).port.width

theorem cmdOpen (src : ByteSource) : Statement (.cmdOpen src) := Nat.le_of_ble_eq_true rfl

theorem cmdSetup : Statement (.cmdSetup) := Nat.le_of_ble_eq_true rfl

theorem cmdDecode : Statement (.cmdDecode) := Nat.le_of_ble_eq_true rfl

theorem cmdOutput (cap : Nat) : Statement (.cmdOutput cap) := Nat.le_of_ble_eq_true rfl

theorem cmdClose : Statement (.cmdClose) := Nat.le_of_ble_eq_true rfl

theorem rdbits (n : Nat) : Statement (.rdbits n) := Nat.le_of_ble_eq_true rfl

theorem rdbit : Statement (.rdbit) := Nat.le_of_ble_eq_true rfl

theorem tryrd (n : Nat) : Statement (.tryrd n) := Nat.le_of_ble_eq_true rfl

theorem align : Statement (.align) := Nat.le_of_ble_eq_true rfl

theorem rdu8 : Statement (.rdu8) := Nat.le_of_ble_eq_true rfl

theorem rdexact (n : Nat) : Statement (.rdexact n) := Nat.le_of_ble_eq_true rfl

theorem cbSetup (c : Nat) : Statement (.cbSetup c) := Nat.le_of_ble_eq_true rfl

theorem cbScalar (c : Nat) : Statement (.cbScalar c) := Nat.le_of_ble_eq_true rfl

theorem cbVector (c : Nat) (buf : Vec) (base stride : Nat) : Statement (.cbVector c buf base stride) := Nat.le_of_ble_eq_true rfl

theorem flSetup (f : Nat) : Statement (.flSetup f) := Nat.le_of_ble_eq_true rfl

theorem flDecode (ch f : Nat) : Statement (.flDecode ch f) := Nat.le_of_ble_eq_true rfl

theorem flSynth (ch f n : Nat) : Statement (.flSynth ch f n) := Nat.le_of_ble_eq_true rfl

theorem rsSetup (r : Nat) : Statement (.rsSetup r) := Nat.le_of_ble_eq_true rfl

theorem rsDecode (r : Nat) (chans : List Nat) (n : Nat) : Statement (.rsDecode r chans n) := Nat.le_of_ble_eq_true rfl

theorem mapSetup (m : Nat) : Statement (.mapSetup m) := Nat.le_of_ble_eq_true rfl

theorem modeSetup (k : Nat) : Statement (.modeSetup k) := Nat.le_of_ble_eq_true rfl

theorem imdctInit (b : Bool) : Statement (.imdctInit b) := Nat.le_of_ble_eq_true rfl

theorem imdct (b : Bool) (ch : Nat) : Statement (.imdct b ch) := Nat.le_of_ble_eq_true rfl

theorem hdrTag (t : Byte) : Statement (.hdrTag t) := Nat.le_of_ble_eq_true rfl

theorem hdrIdent : Statement (.hdrIdent) := Nat.le_of_ble_eq_true rfl

theorem hdrComment : Statement (.hdrComment) := Nat.le_of_ble_eq_true rfl

theorem hdrSetup : Statement (.hdrSetup) := Nat.le_of_ble_eq_true rfl

theorem winInit (b : Bool) : Statement (.winInit b) := Nat.le_of_ble_eq_true rfl

theorem decouple (m n : Nat) : Statement (.decouple m n) := Nat.le_of_ble_eq_true rfl

theorem pcmOut (x : F32) : Statement (.pcmOut x) := Nat.le_of_ble_eq_true rfl

theorem hdrTypeIdent (t : Byte) (sync : List Byte) : Statement (.hdrTypeIdent t sync) := Nat.le_of_ble_eq_true rfl

theorem hdrTypeComment (t : Byte) (sync : List Byte) : Statement (.hdrTypeComment t sync) := Nat.le_of_ble_eq_true rfl

theorem hdrTypeSetup (t : Byte) (sync : List Byte) : Statement (.hdrTypeSetup t sync) := Nat.le_of_ble_eq_true rfl

theorem cbLenExplicit (c : Nat) : Statement (.cbLenExplicit c) := Nat.le_of_ble_eq_true rfl

theorem cbLenRunLength (c : Nat) : Statement (.cbLenRunLength c) := Nat.le_of_ble_eq_true rfl

theorem cbDense (c : Nat) : Statement (.cbDense c) := Nat.le_of_ble_eq_true rfl

theorem cbSparse (c : Nat) : Statement (.cbSparse c) := Nat.le_of_ble_eq_true rfl

theorem cbLookupNone (c : Nat) : Statement (.cbLookupNone c) := Nat.le_of_ble_eq_true rfl

theorem cbLookupLattice (c : Nat) : Statement (.cbLookupLattice c) := Nat.le_of_ble_eq_true rfl

theorem cbLookupExplicit (c : Nat) : Statement (.cbLookupExplicit c) := Nat.le_of_ble_eq_true rfl

theorem cbSeqOff (c : Nat) : Statement (.cbSeqOff c) := Nat.le_of_ble_eq_true rfl

theorem cbSeqOn (c : Nat) : Statement (.cbSeqOn c) := Nat.le_of_ble_eq_true rfl

theorem floorType1 (f : Nat) : Statement (.floorType1 f) := Nat.le_of_ble_eq_true rfl

theorem residueType0 (r : Nat) : Statement (.residueType0 r) := Nat.le_of_ble_eq_true rfl

theorem residueType1 (r : Nat) : Statement (.residueType1 r) := Nat.le_of_ble_eq_true rfl

theorem residueType2 (r : Nat) : Statement (.residueType2 r) := Nat.le_of_ble_eq_true rfl

theorem mappingType0 (m : Nat) : Statement (.mappingType0 m) := Nat.le_of_ble_eq_true rfl

theorem mapSubmapsAbsent (m : Nat) : Statement (.mapSubmapsAbsent m) := Nat.le_of_ble_eq_true rfl

theorem mapSubmapsPresent (m : Nat) : Statement (.mapSubmapsPresent m) := Nat.le_of_ble_eq_true rfl

theorem mapCouplingAbsent (m : Nat) : Statement (.mapCouplingAbsent m) := Nat.le_of_ble_eq_true rfl

theorem mapCouplingPresent (m : Nat) : Statement (.mapCouplingPresent m) := Nat.le_of_ble_eq_true rfl

theorem modeShort (k : Nat) : Statement (.modeShort k) := Nat.le_of_ble_eq_true rfl

theorem modeLong (k : Nat) : Statement (.modeLong k) := Nat.le_of_ble_eq_true rfl

theorem packetAudio : Statement (.packetAudio) := Nat.le_of_ble_eq_true rfl

theorem packetNonAudio : Statement (.packetNonAudio) := Nat.le_of_ble_eq_true rfl

theorem floorSilent (ch f : Nat) : Statement (.floorSilent ch f) := Nat.le_of_ble_eq_true rfl

theorem floorEnergy (ch f : Nat) : Statement (.floorEnergy ch f) := Nat.le_of_ble_eq_true rfl

end Sys2Proof.Laws.EncodedWordFits
end

