-- ==== Sys2Proof/Laws/Reader.lean ====
section
/-! SUPPORT. What the reads of the Bit Reader keep: everything but the bits and the source, and of those the invariants. -/

namespace Sys2Proof.Machine

variable {R : State → State → Prop}

theorem pull_keeps (hR : Chain R) (hd : ∀ s, s.src.bytes ≠ [] → R s (s.dropBytes 1)) (hm : ∀ s f, R s (State.mapBits f s)) : Keeps R pull := by
  refine Keeps.bind hR (readU8Raw_keeps hR hd) fun a => ?_
  cases a
  · exact Keeps.bind hR (Keeps.update fun s => hm s _) fun _ => Keeps.pure hR _
  · exact Keeps.pure hR _
  · exact Keeps.pure hR _

theorem fillBits_keeps (hR : Chain R) (hp : Keeps R pull) (n k : Nat) : Keeps R (fillBits n k) := by
  induction k with
  | zero => exact Keeps.pure hR _
  | succ k ih =>
    refine Keeps.bind hR (Keeps.read hR _) fun held => Keeps.ite (Keeps.bind hR hp fun a => ?_) (Keeps.pure hR _)
    cases a
    · exact ih
    · exact Keeps.pure hR _
    · exact Keeps.pure hR _

theorem consumeBits_keeps (hR : Chain R) (hm : ∀ s f, R s (State.mapBits f s)) (n : Nat) : Keeps R (consumeBits n) :=
  Keeps.bind hR (Keeps.read hR _) fun _ => Keeps.bind hR (Keeps.update fun s => hm s _) fun _ => Keeps.pure hR _

/-- A read keeps every relation that the bits and the source's position may change under. -/
theorem readBits_keeps (hR : Chain R) (hd : ∀ s, s.src.bytes ≠ [] → R s (s.dropBytes 1)) (hm : ∀ s f, R s (State.mapBits f s)) (n : Nat) :
    Keeps R (readBits n) := by
  refine Keeps.bind hR (Keeps.ensure hR _ _) fun _ => Keeps.bind hR (fillBits_keeps hR (pull_keeps hR hd hm) n n) fun a => ?_
  cases a
  · exact consumeBits_keeps hR hm n
  · exact Keeps.stop hR _
  · exact Keeps.stop hR _

theorem tryReadBits_keeps (hR : Chain R) (hd : ∀ s, s.src.bytes ≠ [] → R s (s.dropBytes 1)) (hm : ∀ s f, R s (State.mapBits f s)) (n : Nat) :
    Keeps R (tryReadBits n) := by
  refine Keeps.bind hR (Keeps.ensure hR _ _) fun _ => Keeps.bind hR (fillBits_keeps hR (pull_keeps hR hd hm) n n) fun a => ?_
  cases a
  · exact Keeps.bind hR (consumeBits_keeps hR hm n) fun _ => Keeps.pure hR _
  · exact Keeps.pure hR _
  · exact Keeps.stop hR _

/-- The accumulator holds its bits and no others, and has room for the widest read. -/
abbrev BitReader.Room (r : BitReader) : Prop := r.nbits ≤ 23 ∧ r.acc.toNat < 2 ^ r.nbits

theorem State.advance_room {s : State} {k : Nat} (h : s.dec.bits.Room) : (s.advance k).dec.bits.Room := by
  have hv : s.dec.bits.Valid := ⟨by have := h.1; omega, h.2⟩
  refine ⟨?_, (State.advance_valid hv).2⟩
  have := h.1
  simp only [State.advance_nbits, State.bytesFor]
  omega

theorem State.pulled_room {s : State} {j : Nat} (hn : s.dec.bits.nbits + 8 * j ≤ 23) : (s.pulled j).dec.bits.Room := by
  refine ⟨hn, ?_⟩
  show (BitVec.ofNat 32 (bitsNat (s.ahead.take (s.dec.bits.nbits + 8 * j)))).toNat < 2 ^ (s.dec.bits.nbits + 8 * j)
  rw [BitVec.toNat_ofNat]
  refine lt_of_le_of_lt (Nat.mod_le _ _) (lt_of_lt_of_le (bitsNat_lt _) (Nat.pow_le_pow_right (by omega) ?_))
  simp

/-- A read leaves room. -/
theorem readBits_room (n : Nat) : Keeps (fun s t => s.dec.bits.Room → t.dec.bits.Room) (readBits n) := by
  intro s
  by_cases hn : n ≤ 24
  · by_cases h : s.dec.bits.Room
    · have hv : s.dec.bits.Valid := ⟨by have := h.1; omega, h.2⟩
      by_cases hl : n ≤ s.ahead.length
      · rw [readBits_ok hv hn hl]
        exact fun _ => State.advance_room h
      · rw [readBits_short hv hn (by omega)]
        have := s.length_ahead
        exact fun _ => State.pulled_room (by omega)
    · cases readBits n s <;> exact fun h' => absurd h' h
  · have : readBits n s = .error (.refuse .readTooWide) s := by
      unfold readBits
      rw [M.bind_error (M.run_ensure_neg hn _ _)]
    rw [this]
    exact id

/-- A read on the try path leaves room. -/
theorem tryReadBits_room (n : Nat) : Keeps (fun s t => s.dec.bits.Room → t.dec.bits.Room) (tryReadBits n) := by
  intro s
  by_cases hn : n ≤ 24
  · by_cases h : s.dec.bits.Room
    · have hv : s.dec.bits.Valid := ⟨by have := h.1; omega, h.2⟩
      by_cases hl : n ≤ s.ahead.length
      · rw [tryReadBits_ok hv hn hl]
        exact fun _ => State.advance_room h
      · rw [tryReadBits_short hv hn (by omega)]
        have := s.length_ahead
        cases s.src.terminal <;> exact fun _ => State.pulled_room (by omega)
    · cases tryReadBits n s <;> exact fun h' => absurd h' h
  · have : tryReadBits n s = .error (.refuse .readTooWide) s := by
      unfold tryReadBits
      rw [M.bind_error (M.run_ensure_neg hn _ _)]
    rw [this]
    exact id

/-- What a piece that only reads and decodes leaves alone: everything outside the decoder but the source, which may have given bytes, and the counter of free
values, for which see `Undrawn`. -/
structure Quiet (s t : State) : Prop where
  phase : t.phase = s.phase
  err : t.err = s.err
  cmd : t.cmd = s.cmd
  ret : t.ret = s.ret
  out : t.out = s.out
  script : t.script = s.script
  result : t.result = s.result
  terminal : t.src.terminal = s.src.terminal
  source : ∃ k, k ≤ s.src.bytes.length ∧ t.src.bytes = s.src.bytes.drop k ∧ t.srcPos = s.srcPos + k

theorem Quiet.chain : Chain Quiet := by
  refine ⟨fun s => ⟨rfl, rfl, rfl, rfl, rfl, rfl, rfl, rfl, 0, Nat.zero_le _, rfl, rfl⟩, fun {s t u} h h' => ?_⟩
  obtain ⟨k, hk, hb, hp⟩ := h.source
  obtain ⟨k', hk', hb', hp'⟩ := h'.source
  refine ⟨h'.phase.trans h.phase, h'.err.trans h.err, h'.cmd.trans h.cmd, h'.ret.trans h.ret, h'.out.trans h.out, h'.script.trans h.script,
    h'.result.trans h.result, h'.terminal.trans h.terminal, k + k', ?_, ?_, ?_⟩
  · rw [hb, List.length_drop] at hk'
    omega
  · rw [hb', hb, List.drop_drop]
  · omega

theorem Quiet.dropBytes {s : State} {n : Nat} (h : n ≤ s.src.bytes.length) : Quiet s (s.dropBytes n) :=
  ⟨rfl, rfl, rfl, rfl, rfl, rfl, rfl, rfl, n, h, rfl, rfl⟩

/-- An update inside the decoder is quiet. -/
theorem Quiet.dec {s t : State} (h : t = { s with dec := t.dec }) : Quiet s t := by
  rw [h]
  exact ⟨rfl, rfl, rfl, rfl, rfl, rfl, rfl, rfl, 0, Nat.zero_le _, rfl, rfl⟩

/-- The end of the life of `FLOOR_Y` is quiet. -/
theorem Quiet.dropFloorY (s : State) : Quiet s s.dropFloorY := ⟨rfl, rfl, rfl, rfl, rfl, rfl, rfl, rfl, 0, Nat.zero_le _, rfl, rfl⟩

/-- No free value is drawn. -/
abbrev Undrawn (s t : State) : Prop := t.free = s.free

theorem Undrawn.chain : Chain Undrawn := ⟨fun _ => rfl, fun h h' => Eq.trans h' h⟩

theorem readBits_quiet (n : Nat) : Keeps Quiet (readBits n) :=
  readBits_keeps Quiet.chain (fun _ h => Quiet.dropBytes (List.length_pos_iff.mpr h)) (fun _ _ => Quiet.dec rfl) n

theorem tryReadBits_quiet (n : Nat) : Keeps Quiet (tryReadBits n) :=
  tryReadBits_keeps Quiet.chain (fun _ h => Quiet.dropBytes (List.length_pos_iff.mpr h)) (fun _ _ => Quiet.dec rfl) n

theorem readBits_undrawn (n : Nat) : Keeps Undrawn (readBits n) := readBits_keeps Undrawn.chain (fun _ _ => rfl) (fun _ _ => rfl) n

theorem tryReadBits_undrawn (n : Nat) : Keeps Undrawn (tryReadBits n) := tryReadBits_keeps Undrawn.chain (fun _ _ => rfl) (fun _ _ => rfl) n

theorem State.setCur_undrawn (s : State) (ch : Nat) (v : List F32) : Undrawn s (State.setCur ch v s) := by
  unfold State.setCur
  split <;> rfl

theorem State.setCur_quiet (s : State) (ch : Nat) (v : List F32) : Quiet s (State.setCur ch v s) := by
  unfold State.setCur
  split
  · exact Quiet.dec rfl
  · exact Quiet.dec rfl

theorem codebookSetup_quiet (c : Nat) : Keeps Quiet (codebookSetup c) :=
  codebookSetup_keeps Quiet.chain readBits_quiet ⟨fun _ _ => Quiet.dec rfl, fun _ _ => Quiet.dec rfl, fun _ _ => Quiet.dec rfl⟩

theorem headerSetup_quiet : Keeps Quiet headerSetup :=
  headerSetup_keeps Quiet.chain readBits_quiet (fun _ => Quiet.dec rfl)
    ⟨fun _ _ => Quiet.dec rfl, fun _ _ => Quiet.dec rfl, fun _ _ => Quiet.dec rfl, fun _ _ => Quiet.dec rfl⟩

theorem codebookSetup_undrawn (c : Nat) : Keeps Undrawn (codebookSetup c) :=
  codebookSetup_keeps Undrawn.chain readBits_undrawn ⟨fun _ _ => rfl, fun _ _ => rfl, fun _ _ => rfl⟩

theorem headerSetup_undrawn : Keeps Undrawn headerSetup :=
  headerSetup_keeps Undrawn.chain readBits_undrawn (fun _ => rfl) ⟨fun _ _ => rfl, fun _ _ => rfl, fun _ _ => rfl, fun _ _ => rfl⟩

theorem residueDecode_undrawn (r : Nat) (chans : List Nat) (n : Nat) : Keeps Undrawn (residueDecode r chans n) :=
  residueDecode_keeps Undrawn.chain readBits_undrawn ⟨fun _ _ => rfl, fun _ _ => rfl, fun _ _ => rfl, State.setCur_undrawn⟩ r chans n

theorem decodePacket_quiet : Keeps Quiet decodePacket :=
  decodePacket_keeps Quiet.chain tryReadBits_quiet readBits_quiet (fun _ _ => Quiet.dec rfl)
    ⟨fun _ _ => Quiet.dec rfl, fun _ => Quiet.dec rfl, fun _ => Quiet.dec rfl, Quiet.dropFloorY, fun _ => Quiet.dec rfl⟩

end Sys2Proof.Machine
end

