-- ==== Sys2Proof/Tests/Slice0.lean ====
section
/-! SUPPORT. Tests: ill-formed operands, words written out from the encoding tables, the vectors of 95_test_vectors, and for every statement with hypotheses a
state and operands that meet them. -/

namespace Sys2Proof.Tests

-- one theorem after another: a thread each is more than the memory limit leaves room for
set_option Elab.async false

open Sys2Proof Sys2Proof.Machine

-- helpers

/-- Bytes from numbers. -/
def bytesOf (l : List Nat) : List Byte := l.map (BitVec.ofNat 8)

/-- Bits in bytes, eight to a byte, the first lowest; `k` bounds the bytes. -/
def packBits : Nat → List Bool → List Byte
  | 0, _ => []
  | k + 1, bs => if bs.isEmpty then [] else BitVec.ofNat 8 (bitsNat (bs.take 8)) :: packBits k (bs.drop 8)

/-- Fields in bytes, as the worked examples write them. -/
def pack (fs : List (Nat × Nat)) : List Byte :=
  let bs := fieldBits fs
  packBits ((bs.length + 7) / 8) bs

/-- The outcome is a next state with a property. -/
def nextIs (o : Out) (p : State → Bool) : Bool :=
  match o with
  | .next t => p t
  | _ => false

theorem exists_next {o : Out} {p : State → Bool} (h : nextIs o p = true) : ∃ t, o = .next t ∧ p t = true := by
  cases o with
  | next t => exact ⟨t, rfl, h⟩
  | fault _ => simp [nextIs] at h
  | refused _ => simp [nextIs] at h

/-- The outcome is a fault. -/
def faultIs (o : Out) (f : Fault) : Bool :=
  match o with
  | .fault g => g = f
  | _ => false

/-- The outcome is a refusal. -/
def refusedIs (o : Out) (r : Refusal) : Bool :=
  match o with
  | .refused q => q = r
  | _ => false

/-- The outcome is an abort of class `StreamFormatError` with a cause. -/
def badStream (o : Out) (cause : Nat) : Bool :=
  nextIs o fun t => t.phase = .failed && t.err = { cls := .streamFormatError, cause := BitVec.ofNat 8 cause }

/-- Codeword triples. -/
def codes (l : List (Nat × Nat × Nat)) : List Code := l.map fun p => { len := p.1, cw := BitVec.ofNat 32 p.2.1, entry := p.2.2 }

/-- The codebook of vector V39a: lattice, two values, minimum -1.0, delta 2.0. -/
def book0 : Codebook :=
  { dim := 2, entries := 4, codes := codes [(2, 0, 0), (2, 1, 1), (2, 2, 2), (2, 3, 3)], lookupType := 1, minVal := 0xBF800000#32
    delta := 0x40000000#32, seq := false, valueBits := 1, lookupValues := 2, mult := [0, 1] }

/-- Two entries of length 1, no lookup. -/
def book1 : Codebook :=
  { dim := 1, entries := 2, codes := codes [(1, 0, 0), (1, 1, 1)], lookupType := 0, minVal := 0#32, delta := 0#32, seq := false, valueBits := 1
    lookupValues := 0, mult := [] }

/-- The code of vector V20: lengths 2, 4, 4, 4, 4, 2, 3, 3. -/
def book2 : Codebook :=
  { book1 with
    entries := 8
    codes := codes [(2, 0, 0), (2, 2, 5), (3, 6, 6), (3, 7, 7), (4, 4, 1), (4, 5, 2), (4, 6, 3), (4, 7, 4)] }

/-- The floor of program P4: one partition of a class with two dimensions on codebook 2. -/
def floor0 : Floor :=
  { partitions := 1, partClass := [0], classes := [{ dim := 2, subexp := 0, master := 0, subbook := [some 2] }], mult := 1, range := 256
    rangebits := 5, xs := [0, 32, 16, 8], sort := [0, 3, 2, 1] }

/-- A floor whose class is chosen by a master book, with multiplier 3 and so range 86. -/
def floor1 : Floor :=
  { partitions := 1, partClass := [0], classes := [{ dim := 1, subexp := 1, master := 1, subbook := [none, some 1] }], mult := 3, range := 86
    rangebits := 6, xs := [0, 64, 63], sort := [0, 2, 1] }

/-- The residue of vector V60, of any type, with codebook 1 for the classes and codebook 0 in pass 0 of class 1. -/
def residueOf (t : Nat) : Residue :=
  { rtype := t, beginPos := 0, endPos := 32, partSize := 8, nclass := 2, classbook := 1, cascade := [0, 1]
    books :=
      [[none, none, none, none, none, none, none, none], [some 0, none, none, none, none, none, none, none]] }

/-- The mapping of vector V70. -/
def mapping0 : Mapping := { submaps := 1, mux := [0, 0], steps := [{ mag := 0, ang := 1 }], subFloor := [0], subResidue := [0] }

/-- A stereo stream with block sizes 64 and 128 in `READY`, on a source. -/
def live (bs : List Byte) : State :=
  { State.reset with
    phase := .ready
    src := { bytes := bs, terminal := .endOfStream }
    dec :=
      { Decoder.fresh with
        hdr := { channels := 2, sampleRate := 0xAC44#32, bsExp0 := 6, bsExp1 := 7 }
        counts := { nCodebooks := 3, nFloors := 2, nResidues := 3, nMappings := 1, nModes := 2, modeBits := 1 }
        tabs :=
          { cb := [book0, book1, book2], fl := [floor0, floor1], rs := [residueOf 0, residueOf 1, residueOf 2], mp := [mapping0]
            md := [{ blockFlag := false, mapping := 0 }, { blockFlag := true, mapping := 0 }] } } }

/-- The same on fields. -/
def liveOn (fs : List (Nat × Nat)) : State := live (pack fs)

/-- The state with the energy and residue flags of its channels. -/
def flags (e n : List Bool) (s : State) : State := s.mapWork fun w => { w with hasEnergy := e, needResidue := n }

/-- The state with bins in the two channels of bank 0. -/
def bins (a b : List F32) (s : State) : State := s.mapWork fun w => { w with buf0 := [a, b] }

-- ill-formed operands, one for each check of WellFormed

theorem test_wf_rdbits : (Instr.rdbits 24).wf = true ∧ (Instr.rdbits 25).wf = false ∧ (Instr.tryrd 25).wf = false := by decide
theorem test_wf_rdexact : (Instr.rdexact (2 ^ 32 - 1)).wf = true ∧ (Instr.rdexact (2 ^ 32)).wf = false := by decide
theorem test_wf_codebook :
    (Instr.cbSetup 255).wf = true ∧ (Instr.cbSetup 256).wf = false ∧ (Instr.cbScalar 256).wf = false ∧ (Instr.cbDense 256).wf = false ∧
      (Instr.cbLenExplicit 256).wf = false ∧ (Instr.cbLenRunLength 256).wf = false ∧ (Instr.cbSparse 256).wf = false ∧
      (Instr.cbLookupNone 256).wf = false ∧ (Instr.cbLookupLattice 256).wf = false ∧ (Instr.cbLookupExplicit 256).wf = false ∧
      (Instr.cbSeqOff 256).wf = false ∧ (Instr.cbSeqOn 256).wf = false := by decide
theorem test_wf_vector :
    (Instr.cbVector 0 { ref := .cur 0, size := 4096 } 0 1).wf = true ∧ (Instr.cbVector 256 { ref := .cur 0, size := 4096 } 0 1).wf = false ∧
      (Instr.cbVector 0 { ref := .cur 255, size := 1 } 0 1).wf = false ∧ (Instr.cbVector 0 { ref := .cur 0, size := 4097 } 0 1).wf = false ∧
      (Instr.cbVector 0 { ref := .interleave, size := 255 * 4096 + 1 } 0 1).wf = false ∧
      (Instr.cbVector 0 { ref := .cur 0, size := 4 } 5 1).wf = false ∧ (Instr.cbVector 0 { ref := .cur 0, size := 4 } 0 0).wf = false := by decide
theorem test_wf_tables :
    (Instr.flSetup 63).wf = true ∧ (Instr.flSetup 64).wf = false ∧ (Instr.floorType1 64).wf = false ∧ (Instr.rsSetup 64).wf = false ∧
      (Instr.residueType0 64).wf = false ∧ (Instr.residueType1 64).wf = false ∧ (Instr.residueType2 64).wf = false ∧
      (Instr.mapSetup 64).wf = false ∧ (Instr.mappingType0 64).wf = false ∧ (Instr.mapSubmapsAbsent 64).wf = false ∧
      (Instr.mapSubmapsPresent 64).wf = false ∧ (Instr.mapCouplingAbsent 64).wf = false ∧ (Instr.mapCouplingPresent 64).wf = false ∧
      (Instr.modeSetup 64).wf = false ∧ (Instr.modeShort 64).wf = false ∧ (Instr.modeLong 64).wf = false := by decide
theorem test_wf_channels :
    (Instr.flDecode 254 0).wf = true ∧ (Instr.flDecode 255 0).wf = false ∧ (Instr.flDecode 0 64).wf = false ∧ (Instr.imdct false 255).wf = false ∧
      (Instr.floorSilent 255 0).wf = false ∧ (Instr.floorSilent 0 64).wf = false ∧ (Instr.floorEnergy 255 0).wf = false ∧
      (Instr.floorEnergy 0 64).wf = false := by decide
theorem test_wf_bins :
    (Instr.flSynth 0 0 4096).wf = true ∧ (Instr.flSynth 0 0 4097).wf = false ∧ (Instr.flSynth 255 0 1).wf = false ∧
      (Instr.flSynth 0 64 1).wf = false ∧ (Instr.decouple 0 4097).wf = false ∧ (Instr.decouple 64 1).wf = false := by decide
theorem test_wf_residue :
    (Instr.rsDecode 0 [0, 1, 5] 32).wf = true ∧ (Instr.rsDecode 0 [1, 1] 32).wf = false ∧ (Instr.rsDecode 0 [1, 0] 32).wf = false ∧
      (Instr.rsDecode 0 [255] 32).wf = false ∧ (Instr.rsDecode 64 [0] 32).wf = false ∧ (Instr.rsDecode 0 [0] 4097).wf = false := by decide
theorem test_wf_headers :
    (Instr.hdrTag 3#8).wf = true ∧ (Instr.hdrTag 2#8).wf = false ∧ (Instr.hdrTypeIdent 1#8 syncBytes).wf = true ∧
      (Instr.hdrTypeIdent 2#8 syncBytes).wf = false ∧ (Instr.hdrTypeComment 3#8 []).wf = false ∧ (Instr.hdrTypeSetup 5#8 []).wf = false := by decide

-- words written out from the encoding tables (30_encoding R111, R132, R137; opcode_table.json)

/-- A request on a port with numbers beside the word. -/
def req (p : Port) (w : BitVec 16) (args : List Nat) : Fetch := { port := p, word := w, ops := { src := default, args := args } }

theorem test_decode_commands :
    decode { port := .cmd, word := 0b00000000#16, ops := { src := { bytes := [7#8], terminal := .ioError }, args := [] } } =
        .ok (.cmdOpen { bytes := [7#8], terminal := .ioError }) ∧
      decode (req .cmd 0b00000001#16 []) = .ok .cmdSetup ∧ decode (req .cmd 0b00000010#16 []) = .ok .cmdDecode ∧
      decode (req .cmd 0b00000011#16 [9]) = .ok (.cmdOutput 9) ∧ decode (req .cmd 0b00000100#16 []) = .ok .cmdClose ∧
      decode (req .cmd 0xFF#16 []) = .error .badCmd := ⟨rfl, rfl, rfl, rfl, rfl, rfl⟩
theorem test_decode_reads :
    decode (req .micro 0x10#16 [24]) = .ok (.rdbits 24) ∧ decode (req .micro 0x11#16 []) = .ok .rdbit ∧
      decode (req .micro 0x12#16 [1]) = .ok (.tryrd 1) ∧ decode (req .micro 0x13#16 []) = .ok .align ∧
      decode (req .micro 0x14#16 []) = .ok .rdu8 ∧ decode (req .micro 0x15#16 [7]) = .ok (.rdexact 7) := ⟨rfl, rfl, rfl, rfl, rfl, rfl⟩
theorem test_decode_units :
    decode (req .micro 0x16#16 [3]) = .ok (.cbSetup 3) ∧ decode (req .micro 0x17#16 [3]) = .ok (.cbScalar 3) ∧
      decode (req .micro 0x18#16 [3, 0, 1, 32, 8, 4]) = .ok (.cbVector 3 { ref := .cur 1, size := 32 } 8 4) ∧
      decode (req .micro 0x18#16 [3, 1, 0, 64, 8, 1]) = .ok (.cbVector 3 { ref := .interleave, size := 64 } 8 1) ∧
      decode (req .micro 0x19#16 [2]) = .ok (.flSetup 2) ∧ decode (req .micro 0x1A#16 [1, 2]) = .ok (.flDecode 1 2) ∧
      decode (req .micro 0x1B#16 [1, 2, 32]) = .ok (.flSynth 1 2 32) ∧ decode (req .micro 0x1C#16 [4]) = .ok (.rsSetup 4) ∧
      decode (req .micro 0x1D#16 [4, 32, 0, 1]) = .ok (.rsDecode 4 [0, 1] 32) ∧ decode (req .micro 0x1E#16 [5]) = .ok (.mapSetup 5) ∧
      decode (req .micro 0x1F#16 [6]) = .ok (.modeSetup 6) := ⟨rfl, rfl, rfl, rfl, rfl, rfl, rfl, rfl, rfl, rfl, rfl⟩
theorem test_decode_frames :
    decode (req .micro 0x20#16 [1]) = .ok (.imdctInit true) ∧ decode (req .micro 0x21#16 [0, 1]) = .ok (.imdct false 1) ∧
      decode (req .micro 0x22#16 [1]) = .ok (.hdrTag 1#8) ∧ decode (req .micro 0x23#16 []) = .ok .hdrIdent ∧
      decode (req .micro 0x24#16 []) = .ok .hdrComment ∧ decode (req .micro 0x25#16 []) = .ok .hdrSetup ∧
      decode (req .micro 0x26#16 [0]) = .ok (.winInit false) ∧ decode (req .micro 0x27#16 [1, 32]) = .ok (.decouple 1 32) ∧
      decode (req .micro 0x28#16 [0x3F000000]) = .ok (.pcmOut 0x3F000000#32) ∧ decode (req .micro 0x29#16 []) = .error .noSuchWord :=
  ⟨rfl, rfl, rfl, rfl, rfl, rfl, rfl, rfl, rfl, rfl⟩
theorem test_decode_headers :
    decode (req .hdrType 0x01#16 [1, 0x76]) = .ok (.hdrTypeIdent 1#8 [0x76#8]) ∧
      decode (req .hdrType 0x03#16 [1, 0x76]) = .ok (.hdrTypeComment 1#8 [0x76#8]) ∧
      decode (req .hdrType 0x05#16 [5]) = .ok (.hdrTypeSetup 5#8 []) ∧ decode (req .hdrType 0x02#16 [1]) = .error .headerType :=
  ⟨rfl, rfl, rfl, rfl⟩
theorem test_decode_codebook_fields :
    decode (req .ordered 0#16 [3]) = .ok (.cbLenExplicit 3) ∧ decode (req .ordered 1#16 [3]) = .ok (.cbLenRunLength 3) ∧
      decode (req .sparse 0#16 [3]) = .ok (.cbDense 3) ∧ decode (req .sparse 1#16 [3]) = .ok (.cbSparse 3) ∧
      decode (req .lookupType 0#16 [3]) = .ok (.cbLookupNone 3) ∧ decode (req .lookupType 1#16 [3]) = .ok (.cbLookupLattice 3) ∧
      decode (req .lookupType 2#16 [3]) = .ok (.cbLookupExplicit 3) ∧ decode (req .lookupType 3#16 [3]) = .error .lookupType ∧
      decode (req .seq 0#16 [3]) = .ok (.cbSeqOff 3) ∧ decode (req .seq 1#16 [3]) = .ok (.cbSeqOn 3) :=
  ⟨rfl, rfl, rfl, rfl, rfl, rfl, rfl, rfl, rfl, rfl⟩
theorem test_decode_types :
    decode (req .floorType 1#16 [2]) = .ok (.floorType1 2) ∧ decode (req .floorType 0#16 [2]) = .error .floorType ∧
      decode (req .residueType 0#16 [2]) = .ok (.residueType0 2) ∧ decode (req .residueType 1#16 [2]) = .ok (.residueType1 2) ∧
      decode (req .residueType 2#16 [2]) = .ok (.residueType2 2) ∧ decode (req .residueType 3#16 [2]) = .error .residueType ∧
      decode (req .mappingType 0#16 [2]) = .ok (.mappingType0 2) ∧ decode (req .mappingType 1#16 [2]) = .error .mappingType :=
  ⟨rfl, rfl, rfl, rfl, rfl, rfl, rfl, rfl⟩
theorem test_decode_flags :
    decode (req .submapsFlag 0#16 [2]) = .ok (.mapSubmapsAbsent 2) ∧ decode (req .submapsFlag 1#16 [2]) = .ok (.mapSubmapsPresent 2) ∧
      decode (req .couplingFlag 0#16 [2]) = .ok (.mapCouplingAbsent 2) ∧ decode (req .couplingFlag 1#16 [2]) = .ok (.mapCouplingPresent 2) ∧
      decode (req .blockFlag 0#16 [2]) = .ok (.modeShort 2) ∧ decode (req .blockFlag 1#16 [2]) = .ok (.modeLong 2) ∧
      decode (req .packetType 0#16 []) = .ok .packetAudio ∧ decode (req .packetType 1#16 []) = .ok .packetNonAudio ∧
      decode (req .hasEnergy 0#16 [1, 2]) = .ok (.floorSilent 1 2) ∧ decode (req .hasEnergy 1#16 [1, 2]) = .ok (.floorEnergy 1 2) ∧
      decode (req .hasEnergy 2#16 [1, 2]) = .error .noSuchWord := ⟨rfl, rfl, rfl, rfl, rfl, rfl, rfl, rfl, rfl, rfl, rfl⟩
theorem test_table_word :
    decodeTableWord 8 0x10 = some (.rdbits 0) ∧ decodeTableWord 16 1 = some (.floorType1 0) ∧ decodeTableWord 8 0xFF = none := by decide

-- the Bit Reader (95_test_vectors T10)

/-- V1, first read. -/
theorem test_rdbits_low_bits_first :
    nextIs (exec (.rdbits 4) (live (bytesOf [0xFC, 0x48, 0xCE, 0x06]))) (fun t => t.result = .value 12 && t.dec.bits.nbits = 4) = true := by decide
/-- V14. -/
theorem test_rdbits_across_bytes :
    nextIs (exec (.rdbits 6) ((live (bytesOf [0x9C])).mapBits fun _ => { acc := 0b101#32, nbits := 3 }))
      (fun t => t.result = .value 37 && t.dec.bits = { acc := 0b10011#32, nbits := 5 }) = true := by decide
/-- V2, first read. -/
theorem test_rdbit : nextIs (exec .rdbit (live (bytesOf [0x02]))) (fun t => t.result = .value 0 && t.dec.bits.nbits = 7) = true := by decide
/-- V11. -/
theorem test_rdbit_truncated :
    nextIs (exec .rdbit (live [])) (fun t => t.phase = .failed && t.err = { cls := .endOfStream, cause := 2#8 }) = true := by decide
/-- V10. -/
theorem test_tryrd_end : nextIs (exec (.tryrd 1) (live [])) (fun t => t.result = .eos && t.phase = .ready) = true := by decide
/-- V12. -/
theorem test_tryrd_io :
    nextIs (exec (.tryrd 1) { live [] with src := { bytes := [], terminal := .ioError } })
      (fun t => t.phase = .failed && t.err = { cls := .ioError, cause := 1#8 }) = true := by decide
/-- R177, worked example. -/
theorem test_align :
    nextIs (exec .align ((live (bytesOf [1])).mapBits fun _ => { acc := 0b10011#32, nbits := 5 }))
      (fun t => t.dec.bits = { acc := 0#32, nbits := 0 } && t.srcPos = 0) = true := by decide
/-- R178. -/
theorem test_rdu8 : nextIs (exec .rdu8 (live (bytesOf [0xA5, 1]))) (fun t => t.result = .value 0xA5 && t.srcPos = 1) = true := by decide
/-- R179. -/
theorem test_rdexact :
    nextIs (exec (.rdexact 2) (live (bytesOf [3, 4, 5]))) (fun t => t.result = .bytes [3#8, 4#8] && t.src.bytes = [5#8]) = true := by decide
/-- R179, too few bytes. -/
theorem test_rdexact_short :
    nextIs (exec (.rdexact 3) (live (bytesOf [3, 4]))) (fun t => t.phase = .failed && t.err = { cls := .endOfStream, cause := 2#8 }) = true := by decide

-- the Codebook unit (T11, T12)

/-- The state with another number of entries in codebook 0. -/
def entries (n : Nat) (s : State) : State := s.mapTabs fun t => { t with cb := aset t.cb 0 { book0 with entries := n } }

/-- Codebook 0 of program P3: dimension 1, two entries of length 1, no lookup. -/
theorem test_cbSetup :
    nextIs (exec (.cbSetup 1) (live (bytesOf [0x42, 0x43, 0x56, 0x01, 0x00, 0x02, 0x00, 0x00, 0x00, 0x00])))
      (fun t => (t.codebook 1).dim = 1 && (t.codebook 1).entries = 2 && (t.codebook 1).codes = codes [(1, 0, 0), (1, 1, 1)] &&
        (t.codebook 1).lookupType = 0 && t.srcPos = 10) = true := by decide
/-- V33. -/
theorem test_cbSetup_sync : badStream (exec (.cbSetup 1) (live (bytesOf [0x43, 0x43, 0x56]))) 1 = true := by decide
/-- V20 and V22: entry order, not length order. -/
theorem test_codewords :
    (assignFrom 0 [2, 4, 4, 4, 4, 2, 3, 3]).map (fun p => p.1.map fun k => k.cw.toNat) = some [0, 4, 5, 6, 7, 2, 6, 7] ∧
      (assignFrom 0 [2, 1, 2]).map (fun p => p.1.map fun k => k.cw.toNat) = some [0, 1, 1] := by decide
/-- V26 and V28. -/
theorem test_oversubscribed : assignFrom 0 [2, 2, 2, 2, 2] = none ∧ assignFrom 0 [1, 2, 2, 2] = none := by decide
/-- V35. -/
theorem test_cbScalar : nextIs (exec (.cbScalar 2) (liveOn [(1, 1), (1, 1), (1, 0)])) (fun t => t.result = .value 6 && t.dec.bits.nbits = 5) = true := by decide
/-- V38. -/
theorem test_cbScalar_none :
    badStream (exec (.cbScalar 0) ((live (bytesOf [4, 0, 0, 0])).mapTabs fun t => { t with cb := [{ book0 with codes := codes [(3, 0, 0)] }] })) 12 = true := by
  decide
/-- V39a: entry 2, the vector (-1.0, 1.0) at positions 1 and 5. -/
theorem test_cbVector :
    nextIs (exec (.cbVector 0 { ref := .cur 1, size := 8 } 1 4) (liveOn [(1, 1), (1, 0)]))
      (fun t => aget (t.cur 1) 1 = 0xBF800000#32 && aget (t.cur 1) 5 = 0x3F800000#32 && aget (t.cur 1) 2 = 0#32) = true := by decide +kernel
/-- V39f. -/
theorem test_cbVector_no_lookup : faultIs (exec (.cbVector 1 { ref := .cur 0, size := 8 } 0 1) (liveOn [(1, 1)])) .vectorWithoutLookup = true := by decide
/-- V39d: running sums 2.5 and 4.0. -/
theorem test_vector_running_sums :
    vqVector { book0 with lookupType := 2, mult := [3, 1], delta := 0x3F000000#32, minVal := 0x3F800000#32, seq := true } 0 =
      [0x40200000#32, 0x40800000#32] := by decide +kernel
/-- V30 after `ordered`. -/
theorem test_cbLenExplicit :
    nextIs (exec (.cbLenExplicit 0) (entries 3 (liveOn [(1, 1), (1, 1), (5, 0), (1, 0), (1, 1), (5, 1)]))) (fun t => t.dec.work.len = [1, 0, 2]) = true := by
  decide
/-- V29 after `ordered`. -/
theorem test_cbLenRunLength :
    nextIs (exec (.cbLenRunLength 0) (liveOn [(5, 0), (3, 1), (2, 1), (2, 2)])) (fun t => t.dec.work.len = [1, 2, 3, 3]) = true := by decide
/-- R193, `sparse = 0`: four lengths of 2, as in program P4. -/
theorem test_cbDense : nextIs (exec (.cbDense 0) (live (bytesOf [0x21, 0x84, 0x00]))) (fun t => t.dec.work.len = [2, 2, 2, 2]) = true := by decide
/-- V30 after `sparse`. -/
theorem test_cbSparse :
    nextIs (exec (.cbSparse 0) (entries 3 (liveOn [(1, 1), (5, 0), (1, 0), (1, 1), (5, 1)]))) (fun t => t.dec.work.len = [1, 0, 2]) = true := by decide
/-- R200, type 0: nothing is read. -/
theorem test_cbLookupNone :
    nextIs (exec (.cbLookupNone 0) (live [])) (fun t => (t.codebook 0).lookupType = 0 && (t.codebook 0).mult = [0, 1]) = true := by decide
/-- Codebook 1 of program P4 after its lookup type: minimum -1.0, delta 2.0, two multiplicands of one bit. -/
theorem test_cbLookupLattice :
    nextIs (exec (.cbLookupLattice 0) (liveOn [(16, 0x0001), (16, 0xE280), (16, 0x0001), (16, 0x62A0), (4, 0), (1, 0), (1, 0), (1, 1)]))
      (fun t => (t.codebook 0).minVal = 0xBF800000#32 && (t.codebook 0).delta = 0x40000000#32 && (t.codebook 0).lookupValues = 2 &&
        (t.codebook 0).mult = [0, 1]) = true := by decide +kernel
/-- Codebook 1 of program P5 after its lookup type: minimum -3.0, delta 1.0, eight multiplicands of three bits. -/
theorem test_cbLookupExplicit :
    nextIs
      (exec (.cbLookupExplicit 0)
        (liveOn
          [(16, 0x0003), (16, 0xE280), (16, 0x0001), (16, 0x6280), (4, 2), (1, 0), (3, 6), (3, 4), (3, 6), (3, 2), (3, 0), (3, 4), (3, 0), (3, 2)]))
      (fun t => (t.codebook 0).lookupType = 2 && (t.codebook 0).minVal = 0xC0400000#32 && (t.codebook 0).delta = 0x3F800000#32 &&
        (t.codebook 0).mult = [6, 4, 6, 2, 0, 4, 0, 2]) = true := by decide +kernel
/-- R200, R211. -/
theorem test_cbSeq :
    nextIs (exec (.cbSeqOn 0) (live [])) (fun t => (t.codebook 0).seq) = true ∧
      nextIs (exec (.cbSeqOff 0) (live [])) (fun t => !(t.codebook 0).seq) = true := by decide
/-- V32. -/
theorem test_float32_unpack :
    float32Unpack 0x62A00001 = 0x40000000#32 ∧ float32Unpack 0xE2800003 = 0xC0400000#32 ∧ float32Unpack 0x60100000 = 0x3F800000#32 ∧
      float32Unpack 0x80000000 = 0#32 := by decide +kernel
/-- V31. -/
theorem test_lookup1_values :
    lookup1Values 8 2 = 2 ∧ lookup1Values 9 2 = 3 ∧ lookup1Values 80 4 = 2 ∧ lookup1Values 100 3 = 4 ∧ lookup1Values 0 3 = 0 ∧
      lookup1Values 256 8 = 2 := by decide

-- the Floor unit (T13)

/-- V40. -/
theorem test_flSetup :
    nextIs (exec (.flSetup 0) (liveOn [(16, 1), (5, 1), (4, 0), (3, 1), (2, 0), (8, 0), (2, 0), (4, 5), (5, 16), (5, 8)]))
      (fun t => (t.floor 0).xs = [0, 32, 16, 8] && (t.floor 0).sort = [0, 3, 2, 1] && (t.floor 0).range = 256 &&
        (t.floor 0).classes = [{ dim := 2, subexp := 0, master := 0, subbook := [none] }]) = true := by decide
/-- V41. -/
theorem test_flSetup_type : badStream (exec (.flSetup 0) (liveOn [(16, 0)])) 5 = true := by decide
/-- V42 after its type. -/
theorem test_floorType1_equal : faultIs (exec (.floorType1 0) (liveOn [(5, 1), (4, 0), (3, 0), (2, 0), (8, 0), (2, 0), (4, 5), (5, 0)])) .floorEqualX = true := by
  decide
/-- No partitions, as in program P3. -/
theorem test_floorType1 :
    nextIs (exec (.floorType1 1) (liveOn [(5, 0), (2, 0), (4, 5)])) (fun t => (t.floor 1).xs = [0, 32] && (t.floor 1).mult = 1) = true := by decide
/-- V54. -/
theorem test_flDecode_silent :
    nextIs (exec (.flDecode 1 0) (flags [true, true] [] (liveOn [(1, 0)]))) (fun t => t.dec.work.hasEnergy = [true, false] && t.dec.bits.nbits = 7) = true := by
  decide
/-- As V55 with the code of V20 as the sub-book: codewords 110 and 00. -/
theorem test_flDecode :
    nextIs (exec (.flDecode 1 0) (liveOn [(1, 1), (8, 200), (8, 100), (1, 1), (1, 1), (1, 0), (2, 0)]))
      (fun t => aget t.dec.work.floorY 1 = [200, 100, 6, 0] && aget t.dec.work.hasEnergy 1) = true := by decide
/-- R241. -/
theorem test_floorSilent : nextIs (exec (.floorSilent 0 0) (flags [true] [] (live []))) (fun t => t.dec.work.hasEnergy = [false]) = true := by decide
/-- R243: the master book's entry 1 picks the second sub-book; base values have 7 bits. -/
theorem test_floorEnergy :
    nextIs (exec (.floorEnergy 0 1) (liveOn [(7, 85), (7, 3), (1, 1), (1, 1)])) (fun t => aget t.dec.work.floorY 0 = [85, 3, 1]) = true := by decide
/-- V44 and V45. -/
theorem test_amplitudes :
    amplitudes floor0 [200, 100, 3, 0] = { finalY := [200, 100, 148, 174], step2 := [true, true, true, false] } ∧
      amplitudes floor0 [200, 100, 0, 4] = { finalY := [200, 100, 150, 177], step2 := [true, true, true, true] } := by decide
/-- V46 and V47. -/
theorem test_amplitude_room :
    (amplitudes floor0 [10, 10, 30, 0]).finalY.getD 2 0 = 30 ∧ (amplitudes floor0 [250, 250, 20, 0]).finalY.getD 2 0 = 235 := by decide
/-- V44 in place. -/
theorem test_flSynth :
    nextIs (exec (.flSynth 0 0 32) ((flags [true] [] (live [])).mapWork fun w => { w with floorY := [[200, 100, 3, 0]] }))
      (fun t => t.dec.work.finalY = [200, 100, 148, 174] && (t.cur 0).length = 32) = true := by decide
/-- V48. -/
theorem test_flSynth_range :
    faultIs (exec (.flSynth 0 0 32) ((flags [true] [] (live [])).mapWork fun w => { w with floorY := [[250, 250, 600, 0]] })) .floorAmplitude = true := by
  decide
/-- V49 and V50. -/
theorem test_curve :
    renderLine 0 10 4 20 = [10, 12, 15, 17] ∧ renderLine 0 20 4 10 = [20, 18, 15, 13] ∧
      floorCurve floor0 (amplitudes floor0 [200, 100, 3, 0]) 32 =
        [200, 197, 194, 191, 187, 184, 181, 178, 174, 171, 168, 165, 161, 158, 155, 152, 148, 145, 142, 139, 136, 133, 130, 127, 124, 121, 118, 115,
          112, 109, 106, 103] := by decide

-- the Residue unit (T14)

/-- V60, with the numbers of its two codebooks exchanged, as they stand in `live`. -/
theorem test_rsSetup :
    nextIs (exec (.rsSetup 0) (liveOn [(16, 1), (24, 0), (24, 32), (24, 7), (6, 1), (8, 1), (3, 0), (1, 0), (3, 1), (1, 0), (8, 0)]))
      (fun t => (t.residue 0).rtype = 1 && (t.residue 0).endPos = 32 && (t.residue 0).partSize = 8 && (t.residue 0).nclass = 2 &&
        (t.residue 0).cascade = [0, 1] && aget (aget (t.residue 0).books 1) 0 = some 0 && aget (aget (t.residue 0).books 0) 0 = none) = true := by decide +kernel
/-- V61. -/
theorem test_rsSetup_type : badStream (exec (.rsSetup 0) (liveOn [(16, 3)])) 6 = true := by decide
/-- V62: books in passes 0, 2 and 4. -/
theorem test_residueType0 :
    nextIs
      (exec (.residueType0 2)
        (liveOn [(24, 0), (24, 32), (24, 7), (6, 0), (8, 1), (3, 5), (1, 1), (5, 2), (8, 0), (8, 0), (8, 0)]))
      (fun t => (t.residue 2).rtype = 0 && (t.residue 2).cascade = [21] &&
        (t.residue 2).books = [[some 0, none, some 0, none, some 0, none, none, none]]) = true := by decide +kernel
/-- U16: codebook 1 has no lookup. -/
theorem test_residueType0_lookup :
    faultIs (exec (.residueType0 0) (liveOn [(24, 0), (24, 32), (24, 7), (6, 0), (8, 1), (3, 1), (1, 0), (8, 1)])) .vectorWithoutLookup = true := by
  decide +kernel
/-- R272, fault U18. -/
theorem test_residueType1_range : faultIs (exec (.residueType1 0) (liveOn [(24, 9), (24, 8), (24, 7), (6, 0), (8, 1), (3, 0), (1, 0)])) .residueRange = true := by
  decide
/-- The type is the selector's. -/
theorem test_residueType12 :
    nextIs (exec (.residueType1 0) (liveOn [(24, 8), (24, 8), (24, 7), (6, 0), (8, 1), (3, 0), (1, 0)])) (fun t => (t.residue 0).rtype = 1) = true ∧
      nextIs (exec (.residueType2 0) (liveOn [(24, 8), (24, 8), (24, 7), (6, 0), (8, 1), (3, 0), (1, 0)])) (fun t => (t.residue 0).rtype = 2) = true := by
  decide

/-- The bits of vector V65: codewords of two bits have their first bit lowest here. -/
def residueBits : List (Nat × Nat) :=
  [(1, 1), (2, 1), (2, 1), (2, 1), (2, 1), (1, 0), (1, 0), (1, 1), (2, 0), (2, 2), (2, 1), (2, 3)]

/-- V65. -/
theorem test_rsDecode_contiguous :
    nextIs (exec (.rsDecode 1 [0] 32) (flags [] [true] (liveOn residueBits)))
      (fun t => (t.cur 0).take 9 =
          [0xBF800000#32, 0x3F800000#32, 0xBF800000#32, 0x3F800000#32, 0xBF800000#32, 0x3F800000#32, 0xBF800000#32, 0x3F800000#32, 0#32] &&
        (t.cur 0).drop 24 =
          [0xBF800000#32, 0xBF800000#32, 0x3F800000#32, 0xBF800000#32, 0xBF800000#32, 0x3F800000#32, 0x3F800000#32, 0x3F800000#32] &&
        t.dec.bits.nbits = 4) = true := by decide +kernel
/-- V66. -/
theorem test_rsDecode_strided :
    nextIs (exec (.rsDecode 0 [0] 32) (flags [] [true] (liveOn residueBits)))
      (fun t => (t.cur 0).drop 24 =
        [0xBF800000#32, 0x3F800000#32, 0xBF800000#32, 0x3F800000#32, 0xBF800000#32, 0xBF800000#32, 0x3F800000#32, 0x3F800000#32]) = true := by decide +kernel
/-- V63 and V64. -/
theorem test_class_digits : classDigits 3 2 7 = [2, 1] ∧ classDigits 2 3 5 = [1, 0, 1] := by decide

-- Mapping and Mode (T15)

/-- V70. -/
theorem test_mapSetup :
    nextIs (exec (.mapSetup 0) (liveOn [(16, 0), (1, 0), (1, 1), (8, 0), (1, 0), (1, 1), (2, 0), (8, 0), (8, 0), (8, 0)]))
      (fun t => t.mapping 0 = mapping0) = true := by decide
/-- V71. -/
theorem test_mapSetup_coupling : badStream (exec (.mapSetup 0) (liveOn [(16, 0), (1, 0), (1, 1), (8, 0), (1, 1), (1, 1)])) 9 = true := by decide
/-- V73 after its type. -/
theorem test_mappingType0_reserved : badStream (exec (.mappingType0 0) (liveOn [(1, 0), (1, 0), (2, 1)])) 4 = true := by decide
/-- Two submaps: each channel's routing is read, the time field of each submap discarded. -/
theorem test_mappingType0 :
    nextIs
      (exec (.mappingType0 0)
        (liveOn [(1, 1), (4, 1), (1, 0), (2, 0), (4, 1), (4, 0), (8, 77), (8, 0), (8, 2), (8, 0), (8, 1), (8, 0)]))
      (fun t => (t.mapping 0).mux = [1, 0] && (t.mapping 0).subFloor = [0, 1] && (t.mapping 0).subResidue = [2, 0] && (t.mapping 0).steps = []) = true := by
  decide
/-- R302. -/
theorem test_mapSubmaps :
    nextIs (exec (.mapSubmapsAbsent 0) (live [])) (fun t => (t.mapping 0).submaps = 1) = true ∧
      nextIs (exec (.mapSubmapsPresent 0) (liveOn [(4, 15)])) (fun t => (t.mapping 0).submaps = 16) = true := by decide
/-- R303. -/
theorem test_mapCoupling :
    nextIs (exec (.mapCouplingAbsent 0) (live [])) (fun t => (t.mapping 0).steps = []) = true ∧
      nextIs (exec (.mapCouplingPresent 0) (liveOn [(8, 0), (1, 1), (1, 0)])) (fun t => (t.mapping 0).steps = [{ mag := 1, ang := 0 }]) = true := by decide
/-- V75. -/
theorem test_modeSetup :
    nextIs (exec (.modeSetup 0) (liveOn [(1, 1), (16, 0), (16, 0), (8, 0)])) (fun t => t.mode 0 = { blockFlag := true, mapping := 0 }) = true := by decide
/-- V76. -/
theorem test_modeSetup_reserved : badStream (exec (.modeSetup 0) (liveOn [(1, 0), (16, 1)])) 4 = true := by decide
/-- R310. -/
theorem test_modeFlags :
    nextIs (exec (.modeShort 1) (live [])) (fun t => !(t.mode 1).blockFlag) = true ∧
      nextIs (exec (.modeLong 0) (live [])) (fun t => (t.mode 0).blockFlag) = true := by decide

-- the transform and the windows

/-- R323: `n/8` entries. -/
theorem test_imdctInit :
    nextIs (exec (.imdctInit true) (live [])) (fun t => t.dec.pre.long.bitrev.length = 16 && t.dec.pre.short.bitrev = []) = true := by decide
/-- R325: 64 values from the first 32; the other channel is as it was. -/
theorem test_imdct :
    nextIs (exec (.imdct false 0) (bins [f32One] [f32One, f32One] (flags [true] [] (live []))))
      (fun t => (t.cur 0).length = 64 && t.cur 1 = [f32One, f32One]) = true := by decide +kernel
/-- R350. -/
theorem test_winInit :
    nextIs (exec (.winInit false) (live [])) (fun t => t.dec.pre.short.winCur.length = 32 && t.dec.pre.short.winPrev.length = 32) = true := by decide

-- the headers (T17)

/-- The bytes of "vorbis". -/
def vorbis : List Nat := [0x76, 0x6F, 0x72, 0x62, 0x69, 0x73]

/-- V85. -/
theorem test_hdrTag_type : badStream (exec (.hdrTag 1#8) (live (bytesOf (3 :: vorbis)))) 2 = true := by decide
/-- V86. -/
theorem test_hdrTag_sync : badStream (exec (.hdrTag 1#8) (live (bytesOf [1, 0x76, 0x6F, 0x72, 0x62, 0x69, 0x74]))) 1 = true := by decide
/-- Program P1 after its tag: no channels. -/
theorem test_hdrIdent_channels :
    badStream (exec .hdrIdent (live (bytesOf [0, 0, 0, 0, 0, 0x44, 0xAC, 0, 0, 0, 0, 0, 0, 0, 0, 0, 0, 0, 0, 0, 0, 0xB8, 1]))) 11 = true := by decide
/-- R344: a version other than 0. -/
theorem test_hdrIdent_version :
    faultIs (exec .hdrIdent (live (bytesOf [1, 0, 0, 0, 1, 0x44, 0xAC, 0, 0, 0, 0, 0, 0, 0, 0, 0, 0, 0, 0, 0, 0, 0xB8, 1]))) .version = true := by decide
/-- V93. -/
theorem test_hdrComment :
    nextIs (exec .hdrComment (live (bytesOf [3, 0, 0, 0, 0x41, 0x42, 0x43, 1, 0, 0, 0, 2, 0, 0, 0, 0x58, 0x59, 1]))) (fun t => t.srcPos = 18) = true := by
  decide
/-- V94. -/
theorem test_hdrComment_framing : badStream (exec .hdrComment (live (bytesOf [0, 0, 0, 0, 0, 0, 0, 0, 0]))) 13 = true := by decide

/-- The setup header of program P3 after its tag. -/
def setupBytes : List Byte :=
  bytesOf
    [0x00, 0x42, 0x43, 0x56, 0x01, 0x00, 0x02, 0x00, 0x00, 0x00, 0x00, 0x00, 0x00, 0x00, 0x10, 0x00, 0x00, 0x28, 0x00, 0x00, 0x00, 0x00, 0x00, 0x00,
      0x00, 0x00, 0x00, 0x00, 0x00, 0x00, 0x00, 0x00, 0x00, 0x00, 0x00, 0x00, 0x00, 0x00, 0x00, 0x00, 0x00, 0x00, 0x00, 0x00, 0x01]

/-- The same, read in a mono stream. -/
def mono (bs : List Byte) : State := (live bs).mapHdr fun h => { h with channels := 1 }

/-- Program P3. -/
theorem test_hdrSetup :
    nextIs (exec .hdrSetup (mono setupBytes))
      (fun t => t.dec.counts = { nCodebooks := 1, nFloors := 1, nResidues := 1, nMappings := 1, nModes := 1, modeBits := 0 } && t.srcPos = 45 &&
        (t.floor 0).xs = [0, 32] && (t.residue 0).partSize = 1 && (t.mapping 0).mux = [0]) = true := by decide +kernel
/-- V95, after one codebook. -/
theorem test_hdrSetup_time :
    badStream
      (exec .hdrSetup
        (liveOn [(8, 0), (24, 0x564342), (16, 1), (24, 2), (1, 0), (1, 0), (5, 0), (5, 0), (4, 0), (6, 0), (16, 1)])) 4 = true := by decide +kernel
/-- A tag that names another header, and a tag that passes before a comment body (V92). -/
theorem test_hdrTypes :
    badStream (exec (.hdrTypeIdent 3#8 syncBytes) (live [])) 2 = true ∧ badStream (exec (.hdrTypeSetup 5#8 []) (live [])) 1 = true ∧
      nextIs (exec (.hdrTypeComment 3#8 syncBytes) (live (bytesOf [0, 0, 0, 0, 0, 0, 0, 0, 1]))) (fun t => t.srcPos = 9) = true := by decide

-- packets, coupling and output (T16, T18, T19, T22)

/-- T16: (3, -1) gives (2, 3). -/
theorem test_decouple :
    nextIs (exec (.decouple 0 1) (bins [0x40400000#32] [0xBF800000#32] (live [])))
      (fun t => t.cur 0 = [0x40000000#32] && t.cur 1 = [0x40400000#32]) = true := by decide
/-- T16: (3, 1), (-3, 1), (-3, -1), (0, -1). -/
theorem test_decouple_bins :
    decoupleBin 0x40400000#32 0x3F800000#32 = (0x40400000#32, 0x40000000#32) ∧ decoupleBin 0xC0400000#32 0x3F800000#32 = (0xC0400000#32, 0xC0000000#32) ∧
      decoupleBin 0xC0400000#32 0xBF800000#32 = (0xC0000000#32, 0xC0400000#32) ∧ decoupleBin 0#32 0xBF800000#32 = (0x3F800000#32, 0#32) := by decide
/-- V100. -/
theorem test_pcmOut :
    pcmOf 0x3F000000#32 = some (BitVec.ofInt 16 16383) ∧ pcmOf 0xC0000000#32 = some (BitVec.ofInt 16 (-32767)) ∧
      pcmOf 0x7F800000#32 = some (BitVec.ofInt 16 32767) ∧ pcmOf 0x80000000#32 = some 0#16 ∧ pcmOf 0x3E800000#32 = some (BitVec.ofInt 16 8191) := by decide +kernel
/-- V100: a NaN. -/
theorem test_pcmOut_nan : faultIs (exec (.pcmOut 0x7FC00000#32) (live [])) .nanSample = true := by decide
/-- V78: a long block, its window flags discarded, both channels silent. -/
theorem test_packetAudio :
    nextIs (exec .packetAudio (liveOn [(1, 1), (2, 3), (1, 0), (1, 0)]))
      (fun t => t.dec.frame.curBlock = 128 && t.dec.frame.framePending && t.dec.frame.curSel && (t.cur 1).length = 128 && t.dec.bits.nbits = 0) = true := by decide +kernel
/-- V79: a mode number that no mode has. -/
theorem test_packetAudio_mode :
    faultIs (exec .packetAudio ((liveOn [(1, 1)]).mapCounts fun c => { c with nModes := 1 })) .packetMode = true := by decide
/-- V80. -/
theorem test_packetNonAudio : badStream (exec .packetNonAudio (live [])) 3 = true := by decide
/-- Program P3: the clean end of data, `RET = 0x201`. -/
theorem test_cmdDecode_end : nextIs (exec .cmdDecode (live [])) (fun t => t.phase = .ended && t.ret = 0x201#12) = true := by decide
/-- A silent packet, and the second `DECODE` that is refused (T19). -/
theorem test_cmdDecode :
    nextIs (exec .cmdDecode (live (bytesOf [0x00]))) (fun t => t.dec.frame.framePending && t.srcPos = 1 &&
      nextIs (exec .cmdDecode t) fun u => u.ret = 0x800#12 && u.srcPos = 1) = true := by decide

/-- The state with a pending frame and a previous block. -/
def pending (p c : Nat) (s : State) : State := s.mapFrame fun f => { f with framePending := true, prevBlock := p, curBlock := c }

/-- V101. -/
theorem test_cmdOutput_first :
    nextIs (exec (.cmdOutput 0) (pending 0 64 (live []))) (fun t => t.dec.frame.outCount = 0#32 && t.dec.frame.prevBlock = 64 && t.out = []) = true := by decide

/-- V105 with V106: stereo, equal blocks of 64, a window of ones against zeros: each sample is the current block's, interleaved. -/
def outputState : State :=
  (pending 64 64 (bins (List.replicate 64 f32One) (List.replicate 64 f32MinusOne) (live []))).mapPre fun p =>
    { p with short := { p.short with winCur := List.replicate 32 f32One, winPrev := List.replicate 32 f32Zero } }

theorem test_cmdOutput :
    nextIs (exec (.cmdOutput 64) outputState)
      (fun t => t.dec.frame.outCount = 64#32 && t.out.take 3 = [BitVec.ofInt 16 32767, BitVec.ofInt 16 (-32767), BitVec.ofInt 16 32767] &&
        t.out.length = 64) = true := by decide +kernel
/-- Program P1: `RET = 0x10B`, 30 bytes taken before the abort. -/
theorem test_cmdSetup :
    nextIs
      (exec .cmdSetup
        { live (bytesOf (1 :: vorbis ++ [0, 0, 0, 0, 0, 0x44, 0xAC, 0, 0, 0, 0, 0, 0, 0, 0, 0, 0, 0, 0, 0, 0, 0xB8, 1])) with phase := .uninit })
      (fun t => t.phase = .failed && t.ret = 0x10B#12) = true := by decide
/-- T19: `OPEN` gives `UNINIT`; `SETUP` before it is refused. -/
theorem test_cmdOpen :
    nextIs (exec (.cmdOpen { bytes := setupBytes, terminal := .endOfStream }) State.reset) (fun t => t.phase = .uninit && t.srcPos = 0) = true ∧
      nextIs (exec .cmdSetup State.reset) (fun t => t.phase = .closed && t.ret.getLsbD 11 && !t.ret.getLsbD 10) = true := by decide
/-- T19: `CLOSE` gives `CLOSED`; again it is refused. -/
theorem test_cmdClose :
    nextIs (exec .cmdClose (live [])) (fun t => t.phase = .closed) = true ∧
      nextIs (exec .cmdClose State.reset) (fun t => t.ret.getLsbD 11) = true := by decide
/-- T19: `CMD = 0x7F` is refused with `BAD_CMD`. -/
theorem test_reserved_command :
    nextIs (step ((live []).place (req .cmd 0x7F#16 []))) (fun t => t.ret = 0xC00#12 && t.cmd = 0x7F#8 && t.phase = .ready) = true := by decide
/-- Words 3 to 15 of the lookup port are fault U8 (V34). -/
theorem test_lookup_word : faultIs (step ((live []).place (req .lookupType 3#16 []))) .lookupType = true := by decide

-- states and operands that meet the hypotheses of the statements, each named for its statement

/-- A next state, whatever it is. -/
def runs (i : Instr) (s : State) : Bool := nextIs (exec i s) fun _ => true

theorem meets_next {i : Instr} {s : State} (h : runs i s = true) : ∃ t, exec i s = .next t :=
  let ⟨t, e, _⟩ := exists_next h
  ⟨t, e⟩

/-- A step that answers a next state. -/
def steps (s : State) : Bool := nextIs (step s) fun _ => true

theorem meets_step {s : State} (h : steps s = true) : ∃ t, step s = .next t :=
  let ⟨t, e, _⟩ := exists_next h
  ⟨t, e⟩

theorem one_le_maxChannels : 1 ≤ Config.maxChannels := Nat.le_add_left 1 _

/-- The state with some bits in the accumulator. -/
def held (n v : Nat) (s : State) : State := s.mapBits fun _ => { acc := BitVec.ofNat 32 v, nbits := n }

/-- The state whose source ends in an error. -/
def broken (s : State) : State := { s with src := { s.src with terminal := .ioError } }

/-- The state in another top-level state. -/
def inPhase (p : Phase) (s : State) : State := { s with phase := p }

theorem meets_DecodeEncodeAgree : decode (req .cmd 0x01#16 []) = .ok .cmdSetup := rfl

theorem meets_StepRunsDecoded :
    (live []).script = [] ∧ ((live []).place (req .cmd 0x02#16 [])).script = [req .cmd 0x02#16 []] ∧
      decode (req .cmd 0x02#16 []) = .ok .cmdDecode ∧ ((live []).place (req .cmd 0x05#16 [])).script = [req .cmd 0x05#16 []] ∧
      decode (req .cmd 0x05#16 []) = .error .badCmd := ⟨rfl, rfl, rfl, rfl, rfl⟩

theorem meets_CommandsRefused :
    (live []).phase ≠ .closed ∧ (live []).phase ≠ .uninit ∧ (pending 0 64 (live [])).dec.frame.framePending = true ∧
      (live []).dec.frame.framePending = false ∧ State.reset.phase ≠ .ready ∧ State.reset.phase = .closed ∧
      ((live []).place (req .cmd 0x05#16 [])).script = [req .cmd 0x05#16 []] ∧ (req .cmd 0x05#16 []).port = .cmd ∧
      5 ≤ (req .cmd 0x05#16 []).word.toNat ∧ (req .cmd 0xFF#16 []).word.toNat < 256 := by decide

theorem meets_OpenCreates : State.reset.phase = .closed := rfl

theorem meets_CloseReleases : (live []).phase ≠ .closed ∧ (inPhase .failed (live [])).phase ≠ .closed := by decide

/-- The identification header that the programs of 95_test_vectors share. -/
def ident0 : IdentForm :=
  { version := 0#32, channels := 1#8, rate := 0xAC44#32, bitrates := List.replicate 12 0#8, exps := 0x66#8, framing := 1#8 }

/-- The comment header of vector V93. -/
def comment0 : CommentForm := { vendor := bytesOf [0x41, 0x42, 0x43], comments := [bytesOf [0x58, 0x59]], framing := 1#8 }

/-- The floor of program P3. -/
def floor2 : Floor :=
  { partitions := 0, partClass := [], classes := [], mult := 1, range := 256, rangebits := 5, xs := [0, 32], sort := [0, 1] }

/-- The residue of program P3. -/
def residue3 : Residue :=
  { rtype := 0, beginPos := 0, endPos := 0, partSize := 1, nclass := 1, classbook := 0, cascade := [0]
    books := [[none, none, none, none, none, none, none, none]] }

/-- The mapping of program P3. -/
def mapping3 : Mapping := { submaps := 1, mux := [0], steps := [], subFloor := [0], subResidue := [0] }

/-- The form of a mapping without optional parts. -/
def plainMapping : MappingForm := { submapsFlag := false, couplingFlag := false, times := [0] }

/-- The codebook header of codebook 0 of program P3. -/
def bookForm : CodebookForm := { dim := 1, lens := [1, 1], lenForm := .dense, lookup := none }

/-- The setup header of program P3. -/
def setup0 : SetupForm :=
  { codebooks := [bookForm], timeCount := 1, floors := [floor2], residues := [([false], residue3)], mappings := [(plainMapping, mapping3)]
    modes := [{ blockFlag := false, mapping := 0 }] }

theorem ident0_legal : ident0.Legal := ⟨rfl, rfl, by decide, one_le_maxChannels, by decide, by decide, by decide, by decide, by decide⟩

theorem comment0_legal : comment0.Legal := by decide +kernel

/-- A state before `SETUP` on the three headers and one more byte. -/
def fresh0 : State :=
  inPhase .uninit (live (tagBytes 0x01#8 ++ ident0.bytes ++ (tagBytes 0x03#8 ++ comment0.bytes ++ (tagBytes 0x05#8 ++ (setupBytes ++ [0#8])))))

theorem meets_SetupReachesReady :
    fresh0.phase = .uninit ∧ fresh0.dec.bits = BitReader.empty ∧ ident0.Legal ∧ comment0.Legal ∧ setup0.legal ident0.channels.toNat = true ∧
      fresh0.src.bytes =
        tagBytes 0x01#8 ++ ident0.bytes ++ (tagBytes 0x03#8 ++ comment0.bytes ++ (tagBytes 0x05#8 ++ (setupBytes ++ [0#8]))) ∧
      fieldBits (setup0.fields ident0.channels.toNat) <+: byteBits (setupBytes ++ [0#8]) :=
  ⟨rfl, rfl, ident0_legal, comment0_legal, by decide +kernel, rfl, by decide +kernel⟩

/-- A packet of a long block in which both channels have energy. -/
def loudPacket : List (Nat × Nat) := [(1, 0), (1, 1), (2, 3), (1, 1), (8, 255), (8, 0), (2, 0), (2, 0), (1, 1), (8, 0), (8, 9), (2, 0), (2, 0)]

theorem meets_SilentPacketDecodes_energy :
    let s := liveOn loudPacket
    let u := liveOn loudPacket.tail
    s.dec.counts.modeBits ≤ 6 ∧ 1 < 2 ^ s.dec.counts.modeBits ∧ 3 < 4 ∧ 1 < s.dec.counts.nModes ∧ (s.mode 1).mapping < s.dec.counts.nMappings ∧
      s.phase = .ready ∧ s.dec.frame.framePending = false ∧ s.dec.bits = BitReader.empty ∧ s.Reads ((1, 0) :: modeFields s 1 3) ∧
      u.phase ≠ .failed ∧ u.dec.bits.Valid ∧ u.Reads (modeFields u 1 3) := by decide +kernel

/-- A long and a short packet. -/
theorem meets_SilentPacketDecodes :
    let s := liveOn [(1, 0), (1, 1), (2, 3), (1, 0), (1, 0)]
    let u := held 7 0 (live [])
    (SilentPacket s 1 3 ∧ s.phase = .ready ∧ s.dec.frame.framePending = false ∧ s.dec.bits = BitReader.empty ∧
      s.Reads ((1, 0) :: silentFields s 1 3)) ∧
      SilentPacket u 0 0 ∧ u.dec.bits.Valid ∧ u.Reads (silentFields u 0 0) := by decide +kernel

theorem meets_DecodeEnds :
    (live []).phase = .ready ∧ (live []).dec.frame.framePending = false ∧ (live []).dec.bits = BitReader.empty ∧ (live []).src.bytes = [] ∧
      (live []).src.terminal = .endOfStream ∧ (broken (live [])).src.terminal = .ioError ∧ (live [255#8]).src.bytes = 255#8 :: [] ∧
      (255#8).toNat % 2 = 1 := by decide

/-- The state before a second `OUTPUT` in mono: two silent short blocks. -/
def silentPair : State := pending 64 64 (mono [])

theorem silentPair_numbers : (outputSamples silentPair).all (fun x => !f32IsNaN x) = true := by decide +kernel

theorem meets_OutputEmits :
    ((pending 0 64 (live [])).phase = .ready ∧ (pending 0 64 (live [])).dec.frame.framePending = true ∧ (pending 0 64 (live [])).dec.frame.prevBlock = 0) ∧
      silentPair.phase = .ready ∧ silentPair.dec.frame.framePending = true ∧ silentPair.dec.frame.prevBlock ≠ 0 ∧
      (64 / 4 + 64 / 4) * silentPair.dec.hdr.channels ≤ 32 ∧ ∀ x ∈ outputSamples silentPair, f32IsNaN x = false :=
  ⟨by decide, rfl, rfl, by decide, by decide, fun x h => by simpa using List.all_eq_true.mp silentPair_numbers x h⟩

theorem meets_PcmOutClamps :
    f32IsNaN 0x7F800001#32 = true ∧ f32IsNaN 0x7F800000#32 = false ∧ f32Lt f32One 0x7F800000#32 = true ∧
      f32IsNaN 0xBF800001#32 = false ∧ f32Lt 0xBF800001#32 f32MinusOne = true ∧ f32IsNaN f32One = false ∧ f32Lt f32One f32One = false ∧
      f32Lt f32One f32MinusOne = false ∧ f32IsZero 0x80000000#32 = true := by decide

/-- A long block and a short one, with a NaN in the second channel of the previous bank. -/
def nanState : State := (pending 128 64 (live [])).mapWork fun w => { w with buf1 := [[], List.replicate 128 0x7FC00000#32] }

/-- Codebook 1 of program P4. -/
def latticeForm : CodebookForm :=
  { dim := 2, lens := [2, 2, 2, 2], lenForm := .dense
    lookup := some (false, { minWord := 0xE2800001#32, deltaWord := 0x62A00001#32, valueBits := 1, seq := false, mult := [0, 1] }) }

theorem nanState_nan : (outputSamples nanState).any f32IsNaN = true := by decide +kernel

theorem meets_StopsAsRuled :
    (24 < 25 ∧ (held 1 0 (live [])).dec.bits.nbits ≠ 0) ∧
      (1 < (live []).dec.counts.nCodebooks ∧ 1 < (live []).dec.hdr.channels ∧ ((live []).codebook 1).lookupType = 0) ∧
      (∃ b : Codebook, b.lookupType ≠ 0 ∧ b.dim = 0 ∧ ((live []).mapTabs fun t => { t with cb := [b] }).codebook 0 = b) ∧
      (outputState.phase = .ready ∧ outputState.dec.frame.framePending = true ∧ outputState.dec.frame.prevBlock ≠ 0 ∧
        63 < (outputState.dec.frame.prevBlock / 4 + outputState.dec.frame.curBlock / 4) * outputState.dec.hdr.channels) ∧
      nanState.phase = .ready ∧ nanState.dec.frame.framePending = true ∧ nanState.dec.frame.prevBlock ≠ 0 ∧
      (nanState.dec.frame.prevBlock / 4 + nanState.dec.frame.curBlock / 4) * nanState.dec.hdr.channels ≤ 96 ∧
      ∃ x ∈ outputSamples nanState, f32IsNaN x = true :=
  ⟨by decide, by decide, ⟨{ book0 with dim := 0 }, by decide, rfl, rfl⟩, by decide, by decide, by decide, by decide, by decide,
    List.any_eq_true.mp nanState_nan⟩

/-- One entry too many in the first run and in the third; the first entry of length 33 after a full run of length 32. -/
theorem meets_StopsAsRuled_runs :
    (∀ p : Nat × Nat × List Nat, p ∈ [(1, 5, []), (31, 3, [2]), (32, 3, [1])] →
      let s := liveOn ((5, p.1 - 1) :: runFields 4 0 (p.2.2 ++ [p.2.1]))
      s.dec.bits.Valid ∧ 0 < s.dec.counts.nCodebooks ∧ (s.codebook 0).entries = 4 ∧ 1 ≤ p.1 ∧ p.1 ≤ 32 ∧ p.2.2.sum < 4 ∧
        (∀ i, i < p.2.2.length → aget p.2.2 i = 0 ∨ p.1 + i ≤ 32) ∧ p.2.1 < 2 ^ ilog (4 - p.2.2.sum) ∧
        s.Reads ((5, p.1 - 1) :: runFields 4 0 (p.2.2 ++ [p.2.1]))) ∧
      4 < [].sum + 5 ∧ 4 < [2].sum + 3 ∧ [1].sum + 3 ≤ 4 ∧ 32 < 32 + [1].length := by decide +kernel

/-- A codebook header up to its lookup type. -/
def lookupTypeFields (v : Nat) : List (Nat × Nat) :=
  [(24, 0x564342), (16, latticeForm.dim), (24, latticeForm.lens.length)] ++ latticeForm.lenForm.fields latticeForm.lens ++ [(4, v)]

theorem meets_StopsAsRuled_lookup :
    (∀ v ∈ [3, 15], 3 ≤ v ∧ v < 16 ∧ (liveOn (lookupTypeFields v)).Reads (lookupTypeFields v) ∧ (liveOn (lookupTypeFields v)).dec.bits.Valid) ∧
      0 < (live []).dec.counts.nCodebooks ∧ latticeForm.dim < 2 ^ 16 ∧ latticeForm.lens.length < 2 ^ 24 ∧
      latticeForm.lenForm.legal latticeForm.lens = true ∧ assignFrom 0 latticeForm.lens ≠ none := by decide +kernel

/-- The last element one past the buffer, in a channel and in the interleave buffer. -/
theorem meets_StopsAsRuled_vector :
    let s := liveOn [(1, 1), (1, 0)]
    let k : Code := { len := 2, cw := 2#32, entry := 2 }
    (s.dec.bits.Valid ∧ CodeOf s 0 k ∧ k.bits <+: s.ahead ∧ (s.codebook 0).lookupType ≠ 0 ∧ (s.codebook 0).dim ≠ 0 ∧ 1 ≤ 4 ∧
      1 < s.dec.hdr.channels ∧ 8 ≤ Config.maxBlock ∧ 8 ≤ 4 + ((s.codebook 0).dim - 1) * 4) ∧
      4096 ≤ Config.maxChannels * (Config.maxBlock / 2) ∧ 4096 ≤ 4095 + ((s.codebook 0).dim - 1) * 1 :=
  ⟨by decide +kernel, Nat.mul_le_mul_right 4096 one_le_maxChannels, by decide⟩

/-- A class of eight dimensions without a master book. -/
def wideClass : FloorClass := { dim := 8, subexp := 0, master := 0, subbook := [none] }

/-- A master book, and a sub-book after a legal one, that do not exist; in the second class and in the first. -/
theorem meets_StopsAsRuled_floorBooks :
    let m := floorHead [1, 0] [wideClass] ++ [(3, 8 - 1), (2, 3), (8, 3)]
    let b := floorHead [0] [] ++ ([(3, 1 - 1), (2, 1)] ++ [(8, 2)] ++ [some 2].map bookField ++ [(8, 254 + 1)])
    ((liveOn m).dec.bits.Valid ∧ 0 < (live []).dec.counts.nFloors ∧ [wideClass].all (FloorClass.legal (live []).dec.counts.nCodebooks) = true ∧
      (∃ k ∈ [1, 0], [wideClass].length ≤ k) ∧ (live []).dec.counts.nCodebooks ≤ 3) ∧
      ((liveOn m).Reads m ∧ (liveOn ((16, 1) :: m)).Reads ((16, 1) :: m)) ∧
      (2 < (live []).dec.counts.nCodebooks ∧ (live []).dec.counts.nCodebooks ≤ 254 ∧ (∃ k ∈ [0], ([] : List FloorClass).length ≤ k)) ∧
      (liveOn b).Reads b ∧ (liveOn ((16, 1) :: b)).Reads ((16, 1) :: b) := by decide +kernel

/-- Nine partitions of eight dimensions after 63 values; two partitions whose last value is the first again. -/
theorem meets_StopsAsRuled_floorXs :
    let xs := List.range' 1 63
    let many := floorHead (List.replicate 9 0) [wideClass] ++ (2, 3) :: (4, 15) :: xs.map fun x => (15, x)
    let equal := floorHead [0] [wideClass] ++ (2, 0) :: (4, 3) :: [1, 2, 3, 4, 5, 6, 7, 1].map fun x => (3, x)
    ((liveOn many).dec.bits.Valid ∧ (List.replicate 9 0).length < 32 ∧ [wideClass].length = classCount (List.replicate 9 0) ∧
      (∀ x ∈ xs, x < 2 ^ 15) ∧ xs.length = 63 ∧ 63 < ((List.replicate 9 0).map fun k => (aget [wideClass] k).dim).sum) ∧
      ((liveOn many).Reads many ∧ (liveOn ((16, 1) :: many)).Reads ((16, 1) :: many)) ∧
      ([1, 2, 3, 4, 5, 6, 7, 1].length = ([0].map fun k => (aget [wideClass] k).dim).sum ∧ ¬(0 :: 2 ^ 3 :: [1, 2, 3, 4, 5, 6, 7, 1]).Nodup) ∧
      (liveOn equal).Reads equal ∧ (liveOn ((16, 1) :: equal)).Reads ((16, 1) :: equal) := by decide +kernel

/-- A residue of type 2 with a book and a classification book of numbers up to 255, and a range that is the wrong way round unless it ends at 33. -/
def strayResidue (b c : Nat) (e : Nat := 32) : Residue :=
  { rtype := 2, beginPos := 33, endPos := e, partSize := 2 ^ 24, nclass := 1, classbook := c, cascade := [128]
    books := [[none, none, none, none, none, none, none, some b]] }

theorem meets_StopsAsRuled_residue :
    (∀ p ∈ [(3, 0), (0, 255), (2, 1)], (strayResidue p.1 p.2).readable [true] = true ∧
      (liveOn ((strayResidue p.1 p.2).fields [true])).Reads ((strayResidue p.1 p.2).fields [true]) ∧
      (liveOn ((16, 2) :: (strayResidue p.1 p.2).fields [true])).Reads ((16, 2) :: (strayResidue p.1 p.2).fields [true])) ∧
      ((live []).dec.bits.Valid ∧ 2 < (live []).dec.counts.nResidues ∧ (live []).dec.counts.nCodebooks = 3 ∧ ((live []).codebook 1).dim ≠ 0) ∧
      (∃ b : Codebook, b.dim = 0 ∧ ((live []).mapTabs fun t => { t with cb := [book0, b] }).codebook 1 = b) ∧
      (strayResidue 2 1).endPos < (strayResidue 2 1).beginPos ∧
      (strayResidue 2 1 33).readable [true] = true ∧ (strayResidue 2 1 33).beginPos ≤ (strayResidue 2 1 33).endPos ∧
      (live []).booksLookUp (strayResidue 2 1 33).books = false ∧
      (liveOn ((strayResidue 2 1 33).fields [true])).Reads ((strayResidue 2 1 33).fields [true]) ∧
      (liveOn ((16, 2) :: (strayResidue 2 1 33).fields [true])).Reads ((16, 2) :: (strayResidue 2 1 33).fields [true]) :=
  ⟨by decide +kernel, by decide, ⟨{ book1 with dim := 0 }, rfl, rfl⟩, by decide, by decide +kernel⟩

/-- Three channels: a coupling channel, a routing, a floor and a residue that do not exist, each after legal ones. -/
def three (fs : List (Nat × Nat)) : State := (liveOn fs).mapHdr fun h => { h with channels := 3 }

def threeForm : MappingForm := { submapsFlag := true, couplingFlag := true, times := [] }

def threeSteps : List CouplingStep := [{ mag := 2, ang := 0 }, { mag := 1, ang := 2 }]

def threeMapping : Mapping := { submaps := 2, mux := [], steps := threeSteps, subFloor := [], subResidue := [] }

def threeHead : List (Nat × Nat) := threeForm.head 3 threeMapping

theorem meets_StopsAsRuled_mapping :
    let coupling := flagField true :: threeForm.countFields threeMapping ++ (1, 1) :: (8, 255) :: threeSteps.flatMap (pairFields 3) ++ [(2, 3), (2, 1)]
    let routing := threeHead ++ (2, 0) :: muxFields 2 [1, 0] ++ [(4, 2)]
    let floor := threeHead ++ (2, 0) :: muxFields 2 [1, 0, 1] ++ [(255, 1, 2)].flatMap submapTriple ++ [(8, 7), (8, 2)]
    let residue := threeHead ++ (2, 0) :: muxFields 2 [1, 0, 1] ++ [].flatMap submapTriple ++ [(8, 7), (8, 1), (8, 255)]
    (∀ fs ∈ [coupling, routing, floor, residue], (three fs).Reads fs ∧ (three ((16, 0) :: fs)).Reads ((16, 0) :: fs) ∧ (three fs).dec.bits.Valid) ∧
      (0 < (three []).dec.counts.nMappings ∧ (three []).dec.hdr.channels = 3 ∧ threeForm.headLegal 3 threeMapping = true ∧
        threeSteps.all (CouplingStep.legal 3) = true ∧ threeSteps.length ≤ 255 ∧ 3 ≤ max 3 1 ∧ 3 < 2 ^ ilog (3 - 1)) ∧
      (∀ u ∈ [1, 0, 1], u < threeMapping.submaps) ∧ (three []).dec.counts.nFloors ≤ 2 ∧ 1 < (three []).dec.counts.nFloors ∧
      2 < (three []).dec.counts.nResidues ∧ (three []).dec.counts.nResidues ≤ 255 := by decide +kernel

theorem meets_StopsAsRuled_modes :
    let md : Mode := { blockFlag := true, mapping := 1 }
    let s := fun fs => (liveOn fs).mapCounts fun c => { c with nModes := 3, modeBits := 2 }
    ((liveOn md.fields).dec.bits.Valid ∧ 1 < (live []).dec.counts.nModes ∧ (live []).dec.counts.nMappings ≤ md.mapping ∧ (liveOn md.fields).Reads md.fields) ∧
      (s []).dec.counts.modeBits ≤ 6 ∧ (s []).dec.counts.nModes ≤ 3 ∧ 3 < 2 ^ (s []).dec.counts.modeBits ∧ (s [(1, 0), (2, 3)]).phase = .ready ∧
      (s [(1, 0), (2, 3)]).dec.frame.framePending = false ∧ (s [(1, 0), (2, 3)]).dec.bits = BitReader.empty ∧
      (s [(1, 0), (2, 3)]).Reads [(1, 0), (2, 3)] ∧ (s [(2, 3)]).dec.bits.Valid ∧ (s [(2, 3)]).Reads [(2, 3)] := by decide +kernel

theorem meets_RdbitsReads :
    ((held 31 (2 ^ 31 - 1) (live [])).dec.bits.Valid ∧ 24 ≤ (held 31 (2 ^ 31 - 1) (live [])).ahead.length) ∧
      ((live [1#8]).dec.bits.Valid ∧ 1 ≤ (live [1#8]).ahead.length) ∧ ((live []).dec.bits.Valid ∧ 0 ≤ (live []).ahead.length) ∧
      ((live [1#8, 2#8]).dec.bits.AtRest ∧ 16 ≤ (live [1#8, 2#8]).ahead.length ∧ (live [1#8, 2#8]).ahead.length < 17) ∧
      (broken (live [])).ahead.length < 1 := by decide

theorem meets_TryrdReads :
    ((live [1#8, 2#8, 3#8]).dec.bits.Valid ∧ 24 ≤ (live [1#8, 2#8, 3#8]).ahead.length) ∧
      ((live [1#8, 2#8]).ahead.length < 17 ∧ (live [1#8, 2#8]).src.terminal = .endOfStream) ∧
      (broken (live [])).ahead.length < 1 ∧ (broken (live [])).src.terminal = .ioError := by decide

theorem meets_ByteReads :
    (live [5#8, 6#8]).dec.bits.nbits = 0 ∧ (live [5#8, 6#8]).src.bytes = 5#8 :: [6#8] ∧ 2 ≤ (live [5#8, 6#8]).src.bytes.length ∧
      (live []).src.bytes = [] ∧ (live [5#8, 6#8]).src.bytes.length < 3 := by decide

/-- Codebook 1 of program P5, with its lengths as one run. -/
def explicitForm : CodebookForm :=
  { dim := 2, lens := [2, 2, 2, 2], lenForm := .runs 2 [4]
    lookup := some (true, { minWord := 0xE2800003#32, deltaWord := 0x62800001#32, valueBits := 3, seq := true, mult := [6, 4, 6, 2, 0, 4, 0, 2] }) }

/-- Vector V30: three entries, the second unused. -/
def sparseForm : CodebookForm := { dim := 1, lens := [1, 0, 2], lenForm := .sparse, lookup := none }

/-- No entry at all. -/
def emptyForm : CodebookForm := { dim := 0, lens := [], lenForm := .runs 1 [0], lookup := none }

theorem meets_CodebookSetupStores :
    ∀ f ∈ [bookForm, latticeForm, explicitForm, sparseForm, emptyForm],
      (liveOn f.fields).dec.bits.Valid ∧ 2 < (liveOn f.fields).dec.counts.nCodebooks ∧ f.legal = true ∧ (liveOn f.fields).Reads f.fields := by
  decide +kernel

theorem meets_LengthListsRead :
    (∀ l : List Nat, l ∈ [[2, 2, 2, 2], [32, 1, 32, 1]] →
      (((live []).codebook 0).entries = l.length ∧ LenForm.dense.legal l = true ∧ (liveOn (denseFields l)).Reads (denseFields l) ∧
        (liveOn (LenForm.dense.body l)).Reads (LenForm.dense.body l))) ∧
      (((live []).codebook 0).entries = 4 ∧ LenForm.sparse.legal [1, 0, 32, 0] = true ∧
        (liveOn (sparseFields [1, 0, 32, 0])).Reads (sparseFields [1, 0, 32, 0]) ∧
        (liveOn (LenForm.sparse.body [1, 0, 32, 0])).Reads (LenForm.sparse.body [1, 0, 32, 0])) ∧
      (LenForm.runs 1 [1, 1, 2]).legal [1, 2, 3, 3] = true ∧
      (liveOn ((LenForm.runs 1 [1, 1, 2]).body [1, 2, 3, 3])).Reads ((LenForm.runs 1 [1, 1, 2]).body [1, 2, 3, 3]) ∧
      (live []).dec.bits.Valid ∧ 0 < (live []).dec.counts.nCodebooks := by decide +kernel

theorem meets_LookupsRead :
    let l : LookupForm := { minWord := 0xE2800001#32, deltaWord := 0x62A00001#32, valueBits := 1, seq := false, mult := [0, 1] }
    let e : LookupForm := { minWord := 0xE2800003#32, deltaWord := 0x62800001#32, valueBits := 16, seq := true, mult := [65535, 4, 6, 2, 0, 4, 0, 2] }
    0 < (live []).dec.counts.nCodebooks ∧ (liveOn l.fields).dec.bits.Valid ∧ (liveOn l.fields).Reads l.fields ∧ ((live []).codebook 0).dim ≠ 0 ∧
      l.legal (lookup1Values ((live []).codebook 0).entries ((live []).codebook 0).dim) = true ∧ (liveOn e.fields).Reads e.fields ∧
      e.legal (((live []).codebook 0).entries * ((live []).codebook 0).dim) = true := by decide +kernel

theorem meets_LatticeRoot :
    let fs := halfFields 0xE2800001#32 ++ halfFields 0x62A00001#32 ++ [(4, 15), flagField true]
    let s := (liveOn fs).mapTabs fun t => { t with cb := [{ book0 with dim := 0 }] }
    1 ≤ 1 ∧ s.dec.bits.Valid ∧ 0 < s.dec.counts.nCodebooks ∧ (s.codebook 0).dim = 0 ∧ 15 < 16 ∧ s.Reads fs := by decide +kernel

/-- The mantissa and the magnitude, in units of 2^-788, of a packed float. -/
def packedParts (x : BitVec 32) : Nat × Nat := (x.toNat % 2 ^ 21, x.toNat % 2 ^ 21 * 2 ^ (x.toNat / 2 ^ 21 % 2 ^ 10))

/-- A negative zero mantissa; the smallest subnormal; a value with trailing zero bits below it; the least that overflows and the most that does not. -/
theorem meets_PackedFloatExact :
    (packedParts 0x80000000#32).1 = 0 ∧ (packedParts 0x4FE00001#32).1 ≠ 0 ∧ (packedParts 0x4FE00001#32).2 = 1 * 2 ^ 639 ∧
      (packedParts 0x4D900000#32).2 = 2 * 2 ^ 639 ∧ (2 ^ 25 - 1) * 2 ^ 891 ≤ (packedParts 0x72800001#32).2 ∧
      (packedParts 0x6FFFFFFF#32).2 < (2 ^ 25 - 1) * 2 ^ 891 ∧ f32Mag 0x7F7FFFFF#32 < 0x7F800000 := by decide +kernel

theorem meets_CodewordsCanonical :
    (∀ l ∈ [1, 0, 2, 32, 32], l ≤ 32) ∧ (assignFrom 0 [1, 0, 2, 32, 32]).isSome = true := by decide +kernel

theorem meets_OversubscribedExactly : (∀ l ∈ [1, 1, 32], l ≤ 32) ∧ assignFrom 0 [1, 1, 32] = none ∧ (assignFrom 0 [1, 2, 2]).isSome = true := by
  decide +kernel

/-- Entry 6 of vector V20, codeword 110. -/
theorem meets_CodewordsRoundTrip :
    let lens := [2, 4, 4, 4, 4, 2, 3, 3]
    let s := liveOn [(1, 1), (1, 1), (1, 0)]
    (∀ l ∈ lens, l ≤ 32) ∧
      (∃ p ∈ assignFrom 0 lens, (s.codebook 2).codes = storeOrder p.1 ∧ ({ len := 3, cw := 6#32, entry := 6 } : Code) ∈ p.1) ∧
      2 < s.dec.counts.nCodebooks ∧ s.dec.bits.Valid ∧ ({ len := 3, cw := 6#32, entry := 6 } : Code).bits <+: s.ahead := by decide +kernel

theorem meets_ScalarDecodes :
    let s := liveOn [(1, 1), (1, 1), (1, 0)]
    let u := (live (bytesOf [4, 0, 0, 0])).mapTabs fun t => { t with cb := [{ book0 with codes := codes [(3, 0, 0)] }] }
    (2 < s.dec.counts.nCodebooks ∧ s.dec.bits.Valid ∧ CodeOf s 2 { len := 3, cw := 6#32, entry := 6 } ∧
      ({ len := 3, cw := 6#32, entry := 6 } : Code).bits <+: s.ahead) ∧
      (∀ k ∈ (u.codebook 0).codes, k.Fits ∧ ¬k.bits <+: u.ahead) ∧ 32 ≤ u.ahead.length := by decide +kernel

theorem meets_VectorElements : 0 < book0.dim ∧ 1 < book0.dim := by decide

/-- A channel's vector up to its last element, and the interleave buffer. -/
theorem meets_VectorAdds :
    let s := liveOn [(1, 1), (1, 0)]
    let k : Code := { len := 2, cw := 2#32, entry := 2 }
    (s.dec.bits.Valid ∧ CodeOf s 0 k ∧ k.bits <+: s.ahead ∧ (s.codebook 0).lookupType ≠ 0 ∧ (s.codebook 0).dim ≠ 0 ∧ 1 ≤ 4 ∧
      1 < s.dec.hdr.channels ∧ 8 ≤ Config.maxBlock ∧ 3 + ((s.codebook 0).dim - 1) * 4 < 8) ∧
      4096 ≤ Config.maxChannels * (Config.maxBlock / 2) ∧ 4094 + ((s.codebook 0).dim - 1) * 1 < 4096 :=
  ⟨by decide +kernel, Nat.mul_le_mul_right 4096 one_le_maxChannels, by decide⟩

/-- Four channels' worth of partitions: two dimensions on codebook 2, one on a master book. -/
theorem meets_FloorSetupStores :
    ∀ fl ∈ [floor0, floor1, floor2],
      (liveOn ((16, 1) :: fl.fields)).dec.bits.Valid ∧ 1 < (live []).dec.counts.nFloors ∧ fl.legal (live []).dec.counts.nCodebooks = true ∧
        (liveOn fl.fields).Reads fl.fields ∧ (liveOn ((16, 1) :: fl.fields)).Reads ((16, 1) :: fl.fields) := by decide +kernel

theorem ready_not_aborted {s t : State} (h : t.phase = .ready) : ¬Aborted s t := fun a => by
  have e := a.1
  rw [h] at e
  cases e

theorem meets_SortIsStable :
    ∃ t, exec (.flSetup 0) (liveOn ((16, 1) :: floor0.fields)) = .next t ∧ ¬Aborted (liveOn ((16, 1) :: floor0.fields)) t :=
  (exists_next (p := fun t => t.phase = .ready) (by decide +kernel)).imp fun _ h => ⟨h.1, ready_not_aborted (of_decide_eq_true h.2)⟩

/-- Codewords of codebook 2 for entries 6 and 0, and of codebook 1. -/
def code6 : Code := { len := 3, cw := 6#32, entry := 6 }

def code0 : Code := { len := 2, cw := 0#32, entry := 0 }

def short0 : Code := { len := 1, cw := 0#32, entry := 0 }

def short1 : Code := { len := 1, cw := 1#32, entry := 1 }

/-- A packet's floor part with the has-energy bit: the two dimensions of floor 0. -/
def part0 : State := liveOn [(1, 1), (8, 255), (8, 100), (1, 1), (1, 1), (1, 0), (2, 0)]

/-- A master entry that picks "no book", and one that picks a book, for floor 1. -/
def part1 : State := liveOn [(7, 85), (7, 3), (1, 0)]

def part2 : State := liveOn [(7, 0), (7, 127), (1, 1), (1, 1)]

theorem one_part {s : State} {fl : Floor} {p : PartitionCodes} {cls : FloorClass} (h : partsOf fl [p] = [(cls, p)]) (l : p.Legal s cls) :
    ∀ q ∈ partsOf fl [p], q.2.Legal s q.1 := by
  rw [h]
  intro q hq
  rw [List.mem_singleton] at hq
  subst hq
  exact l

theorem meets_FloorDecodes :
    ((live []).dec.bits.Valid ∧ 1 < (live []).dec.hdr.channels ∧ 1 < (live []).dec.counts.nFloors ∧ (liveOn [(1, 0)]).Reads [(1, 0)]) ∧
      (ilog ((part0.floor 0).range - 1) ≤ 24 ∧ 255 < 2 ^ ilog ((part0.floor 0).range - 1) ∧
        [PartitionCodes.mk default [code6, code0]].length = (part0.floor 0).partClass.length) ∧
      (∀ q ∈ partsOf (part0.floor 0) [PartitionCodes.mk default [code6, code0]], q.2.Legal part0 q.1) ∧
      (fieldBits [(1, 1)] ++ floorPartBits (part0.floor 0) 255 100 [PartitionCodes.mk default [code6, code0]]) <+: part0.ahead ∧
      85 < 2 ^ ilog ((part1.floor 1).range - 1) ∧
      (∀ q ∈ partsOf (part1.floor 1) [PartitionCodes.mk short0 [default]], q.2.Legal part1 q.1) ∧
      floorPartBits (part1.floor 1) 85 3 [PartitionCodes.mk short0 [default]] <+: part1.ahead ∧
      127 < 2 ^ ilog ((part2.floor 1).range - 1) ∧
      (∀ q ∈ partsOf (part2.floor 1) [PartitionCodes.mk short1 [short1]], q.2.Legal part2 q.1) ∧
      floorPartBits (part2.floor 1) 0 127 [PartitionCodes.mk short1 [short1]] <+: part2.ahead :=
  ⟨by decide +kernel, by decide +kernel, one_part rfl (by decide +kernel), by decide +kernel, by decide, one_part rfl (by decide +kernel),
    by decide +kernel, by decide, one_part rfl (by decide +kernel), by decide +kernel⟩

/-- The state with a channel's raw floor values. -/
def raw (ys : List Nat) (s : State) : State := (flags [true] [] s).mapWork fun w => { w with floorY := [ys] }

theorem meets_FloorSynthesises :
    let s := raw [200, 100, 3, 0] (live [])
    let u := raw [250, 250, 600, 0] (live [])
    let v := raw [85, 0, 0] (live [])
    (∀ w ∈ [s, u], 0 < w.dec.hdr.channels ∧ 0 < w.dec.counts.nFloors ∧ aget w.dec.work.hasEnergy 0 = true ∧ xsOk (w.floor 0).xs = true ∧
      (w.floor 0).sort = sortPositions (w.floor 0).xs ∧ 1 ≤ (w.floor 0).mult ∧ (w.floor 0).mult ≤ 4 ∧
      (w.floor 0).range = rangeOf ((w.floor 0).mult - 1)) ∧
      2 * 4096 ≤ Config.maxBlock ∧
      (∀ y ∈ (amplitudes (s.floor 0) (aget s.dec.work.floorY 0)).finalY, 0 ≤ y ∧ y < ((s.floor 0).range : Int)) ∧
      (¬∀ y ∈ (amplitudes (u.floor 0) (aget u.dec.work.floorY 0)).finalY, 0 ≤ y ∧ y < ((u.floor 0).range : Int)) ∧
      xsOk (v.floor 1).xs = true ∧ (v.floor 1).sort = sortPositions (v.floor 1).xs ∧ (v.floor 1).range = rangeOf ((v.floor 1).mult - 1) ∧
      ∀ y ∈ (amplitudes (v.floor 1) (aget v.dec.work.floorY 0)).finalY, 0 ≤ y ∧ y < ((v.floor 1).range : Int) := by decide +kernel

theorem meets_CurveInterpolates :
    let a := amplitudes floor0 [200, 100, 3, 0]
    let xs := floor0.xs
    xsOk xs = true ∧ floor0.sort = sortPositions xs ∧ aget xs 0 = 0 ∧ (2 ≤ 3 ∧ 3 < xs.length) ∧ 0 < 1 ∧ aget a.step2 2 = true ∧ aget a.step2 1 = true ∧
      (aget xs 0 ≤ 15 ∧ 15 < aget xs 2 ∧ ∀ j, j < xs.length → (j = 0 ∨ aget a.step2 j = true) → aget xs j ≤ aget xs 0 ∨ aget xs 2 ≤ aget xs j) ∧
      aget xs 1 ≤ 63 ∧ ∀ j, j < xs.length → (j = 0 ∨ aget a.step2 j = true) → aget xs j ≤ aget xs 1 := by decide +kernel

/-- The residue of vector V62, with a high cascade part. -/
def residue62 : Residue :=
  { rtype := 0, beginPos := 0, endPos := 32, partSize := 8, nclass := 1, classbook := 1, cascade := [21]
    books := [[some 0, none, some 0, none, some 0, none, none, none]] }

theorem meets_ResidueSetupStores :
    ∀ p ∈ [(residueOf 0, [false, false]), (residueOf 1, [true, false]), (residueOf 2, [false, true]), (residue62, [true])],
      (live []).dec.bits.Valid ∧ 2 < (live []).dec.counts.nResidues ∧ p.1.legal (live []).dec.counts.nCodebooks p.2 = true ∧
        ((live []).codebook p.1.classbook).dim ≠ 0 ∧ (live []).booksLookUp p.1.books = true ∧ (liveOn (p.1.fields p.2)).Reads (p.1.fields p.2) ∧
        (liveOn ((16, p.1.rtype) :: p.1.fields p.2)).Reads ((16, p.1.rtype) :: p.1.fields p.2) := by decide +kernel

/-- Every channel skipped (V67), for each type; and no partition to read: 7 bins, where a partition has 8. -/
theorem meets_ResidueZeroes :
    (∀ r ∈ [0, 1, 2], r < (live []).dec.counts.nResidues ∧ 0 < ((live []).residue r).partSize ∧ 0 < ((live []).residue r).nclass ∧
      ((live []).codebook ((live []).residue r).classbook).dim ≠ 0) ∧
      2 * 4096 ≤ Config.maxBlock ∧ (∀ c ∈ [0, 1], c < (live []).dec.hdr.channels) ∧ ascending [0, 1] = true ∧
      (∀ c ∈ [0, 1], aget (live []).dec.work.needResidue c = false) ∧
      (min ((live []).residue 1).endPos 7 - min ((live []).residue 1).beginPos 7) / ((live []).residue 1).partSize = 0 := by decide +kernel

theorem book1_complete : Complete book1.codes := by
  intro bs h
  match bs, h with
  | false :: r, _ => exact ⟨_, List.mem_cons_self, r, rfl⟩
  | true :: r, _ => exact ⟨_, List.mem_cons_of_mem _ List.mem_cons_self, r, rfl⟩

theorem book0_complete : Complete book0.codes := by
  intro bs h
  match bs, h with
  | [], h => cases h
  | [_], h => cases h
  | false :: false :: r, _ => exact ⟨{ len := 2, cw := 0#32, entry := 0 }, by decide, r, rfl⟩
  | false :: true :: r, _ => exact ⟨{ len := 2, cw := 1#32, entry := 1 }, by decide, r, rfl⟩
  | true :: false :: r, _ => exact ⟨{ len := 2, cw := 2#32, entry := 2 }, by decide, r, rfl⟩
  | true :: true :: r, _ => exact ⟨{ len := 2, cw := 3#32, entry := 3 }, by decide, r, rfl⟩

/-- Zeros enough for one partition in each type. -/
def longZeros : State := live (List.replicate 1560 0#8)

/-- The worked example of 43_residue R291, for each type. -/
def dataEntry (_ g : Nat) : Nat := aget [1, 0, 0, 1] g

def dataCodes : List Code :=
  codes [(1, 1, 1), (2, 2, 2), (2, 2, 2), (2, 2, 2), (2, 2, 2), (1, 0, 0), (1, 0, 0), (1, 1, 1), (2, 0, 0), (2, 1, 1), (2, 2, 2), (2, 3, 3)]

def dataState : State := flags [] [true] (liveOn residueBits)

theorem meets_ResidueCompletes_data :
    (∀ r ∈ [0, 1, 2],
      let reads := dataState.residueReads (dataState.residue r) [0] 32 dataEntry
      r < dataState.dec.counts.nResidues ∧ 0 < (dataState.residue r).partSize ∧ 0 < (dataState.residue r).nclass ∧
        (dataState.codebook (dataState.residue r).classbook).dim ≠ 0 ∧ dataCodes.length = reads.length ∧
        ∀ p ∈ reads.zip dataCodes, CodeOf dataState (p.1.book (dataState.residue r)) p.2 ∧ p.1.ok dataState 32 dataEntry p.2 = true) ∧
      ((List.range 1).filter fun j => aget dataState.dec.work.needResidue (aget [0] j)) = [0] ∧ 32 * 1 = 32 ∧ 2 * 32 ≤ Config.maxBlock ∧
      (∀ c ∈ [0], c < dataState.dec.hdr.channels) ∧ ascending [0] = true ∧ dataState.dec.bits.Valid ∧
      dataCodes.flatMap Code.bits <+: dataState.ahead := by decide +kernel

theorem meets_ResidueCompletes :
    (∀ r ∈ [0, 1, 2], r < longZeros.dec.counts.nResidues ∧ 0 < (longZeros.residue r).partSize ∧ 0 < (longZeros.residue r).nclass ∧
      (longZeros.residue r).classbook < longZeros.dec.counts.nCodebooks ∧ (longZeros.codebook (longZeros.residue r).classbook).dim ≠ 0 ∧
      (∀ k ∈ (longZeros.codebook (longZeros.residue r).classbook).codes, k.Fits) ∧
      32 * (([0, 1].length + 1) * ((min (longZeros.residue r).endPos (if (longZeros.residue r).rtype = 2 then 4 * 2 else 8) -
        min (longZeros.residue r).beginPos (if (longZeros.residue r).rtype = 2 then 4 * 2 else 8)) / (longZeros.residue r).partSize *
          (1 + 8 * (longZeros.residue r).partSize))) ≤ longZeros.ahead.length) ∧
      (2 * 8 ≤ Config.maxBlock ∧ (∀ c ∈ [0, 1], c < longZeros.dec.hdr.channels) ∧ ascending [0, 1] = true ∧ longZeros.dec.bits.Valid) ∧
      Complete (longZeros.codebook 1).codes ∧ VectorBook longZeros 8 0 ∧
      ∀ r ∈ [0, 1, 2], ∀ row ∈ (longZeros.residue r).books, ∀ b ∈ row, ∀ k ∈ b, k = 0 :=
  ⟨by decide +kernel, by decide +kernel, book1_complete, ⟨by decide, by decide, book0_complete, by decide, by decide, by decide⟩, by decide +kernel⟩

/-- Vector V70, and two submaps without coupling. -/
def coupled : MappingForm := { submapsFlag := false, couplingFlag := true, times := [255] }

def twoSubmaps : Mapping := { submaps := 2, mux := [1, 0], steps := [], subFloor := [0, 1], subResidue := [2, 0] }

theorem meets_MappingSetupStores :
    ∀ p ∈ [(coupled, mapping0), ({ submapsFlag := true, couplingFlag := false, times := [77, 0] }, twoSubmaps)],
      (live []).dec.bits.Valid ∧ 0 < (live []).dec.counts.nMappings ∧ (live []).dec.hdr.channels < 2 ^ 8 ∧
        p.1.legal (live []).dec.hdr.channels (live []).dec.counts.nFloors (live []).dec.counts.nResidues p.2 = true ∧
        (liveOn (p.1.fields 2 p.2)).Reads (p.1.fields (live []).dec.hdr.channels p.2) ∧
        (liveOn ((16, 0) :: p.1.fields 2 p.2)).Reads ((16, 0) :: p.1.fields (live []).dec.hdr.channels p.2) := by decide +kernel

/-- One coupling step, and as many as the count can say. -/
def oneStep : List CouplingStep := [{ mag := 1, ang := 0 }]

def manySteps : List CouplingStep := List.replicate 256 { mag := 0, ang := 1 }

theorem meets_MappingSelectors :
    ((live []).dec.bits.Valid ∧ 0 < (live []).dec.counts.nMappings ∧ (live []).dec.hdr.channels < 2 ^ 8 ∧ (liveOn [(4, 0)]).Reads [(4, 0)] ∧
      (liveOn [(4, 15)]).Reads [(4, 15)]) ∧
      ∀ st ∈ [oneStep, manySteps], 1 ≤ st.length ∧ st.length ≤ 256 ∧ st.all (CouplingStep.legal (live []).dec.hdr.channels) = true ∧
        (liveOn (stepFields 2 st)).Reads (stepFields (live []).dec.hdr.channels st) := by decide +kernel

theorem meets_ModeSetupStores :
    let md : Mode := { blockFlag := true, mapping := 0 }
    (live []).dec.bits.Valid ∧ 1 < (live []).dec.counts.nModes ∧ md.mapping < (live []).dec.counts.nMappings ∧ md.mapping < 256 ∧
      (liveOn md.fields).Reads md.fields := by decide +kernel

/-- Five entries of length 2 (V26). -/
def overForm : CodebookForm := { dim := 1, lens := [2, 2, 2, 2, 2], lenForm := .dense, lookup := none }

/-- Its fields up to the lengths. -/
def overFields : List (Nat × Nat) :=
  [(24, 0x564342), (16, overForm.dim), (24, overForm.lens.length)] ++ overForm.lenForm.fields overForm.lens

theorem meets_SetupErrors :
    (∀ v ∈ [0, 2, 3, 65535], (liveOn [(16, v)]).Reads [(16, v)]) ∧
      ((live []).dec.bits.Valid ∧ 0 < (live []).dec.counts.nFloors ∧ 0 < (live []).dec.counts.nResidues ∧ 0 < (live []).dec.counts.nMappings ∧
        0 < (live []).dec.counts.nCodebooks ∧ 0 < (live []).dec.counts.nModes ∧ (live []).dec.hdr.channels < 2 ^ 8) ∧
      ((liveOn [(24, 0x564343)]).Reads [(24, 0x564343)] ∧ (liveOn [flagField true, (16, 1)]).Reads [flagField true, (16, 1)] ∧
        (liveOn [flagField false, (16, 0), (16, 1)]).Reads [flagField false, (16, 0), (16, 1)]) ∧
      overForm.dim < 2 ^ 16 ∧ overForm.lens.length < 2 ^ 24 ∧ overForm.lenForm.legal overForm.lens = true ∧ assignFrom 0 overForm.lens = none ∧
      (liveOn overFields).Reads overFields :=
  ⟨by decide +kernel, by decide, by decide +kernel, by decide, by decide, by decide, by decide, by decide +kernel⟩

/-- Reserved bits after no optional part and after both; a step of a channel with itself first and after two legal steps. -/
theorem meets_SetupErrors_mapping :
    let reserved := threeHead ++ [(2, 3)]
    let plain := plainMapping.head 3 mapping3 ++ [(2, 1)]
    let pair := (8, 255) :: threeSteps.flatMap (pairFields 3) ++ [(2, 2), (2, 2)]
    let first := (8, 0) :: [].flatMap (pairFields 3) ++ [(2, 3), (2, 3)]
    (∀ fs ∈ [reserved, plain, flagField true :: threeForm.countFields threeMapping ++ (1, 1) :: pair,
        flagField false :: plainMapping.countFields mapping3 ++ (1, 1) :: first],
      (three fs).Reads fs ∧ (three ((16, 0) :: fs)).Reads ((16, 0) :: fs) ∧ (three fs).dec.bits.Valid) ∧
      ((three pair).Reads pair ∧ (three first).Reads first) ∧ 0 < (three []).dec.counts.nMappings ∧ (three []).dec.hdr.channels = 3 ∧
      threeForm.headLegal 3 threeMapping = true ∧ plainMapping.headLegal 3 mapping3 = true ∧ threeSteps.all (CouplingStep.legal 3) = true ∧
      threeSteps.length ≤ 255 ∧ 3 < 2 ^ ilog (3 - 1) := by decide +kernel

/-- Three time-domain placeholders, the last not 0. -/
def timed : SetupForm := { setup0 with timeCount := 3 }

theorem meets_SetupErrors_header :
    let time := (8, timed.codebooks.length - 1) :: timed.codebooks.flatMap CodebookForm.fields ++
      (6, timed.timeCount - 1) :: List.replicate 2 (16, 0) ++ [(16, 65535)]
    let framing := timed.body 1 ++ [(1, 0)]
    (mono (pack time)).Reads time ∧ (mono (pack framing)).Reads framing ∧ (mono []).dec.hdr.channels = 1 ∧ timed.legal 1 = true ∧ 2 < timed.timeCount ∧
      (mono (pack time)).dec.bits.Valid := by decide +kernel

theorem meets_BlockTablesWritten :
    ((mono []).block false = (live []).block false ∧ runs (.imdctInit false) (mono []) = true) ∧ runs (.winInit false) (mono []) = true := by decide +kernel

theorem meets_TransformWrites :
    let s := bins [] [f32One] (flags [false, true] [] (live []))
    let u := bins [f32One] [] (flags [true] [] (live []))
    (1 < s.dec.hdr.channels ∧ aget s.dec.work.hasEnergy 1 = true) ∧
      (∀ k, k < 32 → f32IsZero (aget ((flags [true] [] (live [])).cur 0) k) = true) ∧ u.block false = s.block false ∧
      runs (.imdct false 0) u = true ∧ ∀ k, k < 32 → aget (u.cur 0) k = aget (s.cur 1) k := by decide +kernel

theorem meets_HeaderTagChecks :
    let s := live (1#8 :: syncBytes ++ [9#8])
    let u := live (1#8 :: bytesOf [0, 0, 0, 0, 0, 0] ++ [])
    (s.dec.bits.nbits = 0 ∧ s.src.bytes = 1#8 :: syncBytes ++ [9#8] ∧ syncBytes.length = 6) ∧ (1#8 : Byte) ≠ 3#8 ∧
      u.src.bytes = 1#8 :: bytesOf [0, 0, 0, 0, 0, 0] ++ [] ∧ (bytesOf [0, 0, 0, 0, 0, 0]).length = 6 ∧
      bytesOf [0, 0, 0, 0, 0, 0] ≠ [0x76#8, 0x6F#8, 0x72#8, 0x62#8, 0x69#8, 0x73#8] := by decide

theorem meets_IdentHeaderChecks :
    ident0.Legal ∧ (live (ident0.bytes ++ [1#8])).dec.bits.nbits = 0 ∧ ident0.bitrates.length = 12 ∧
      (live (ident0.bytes ++ [1#8])).src.bytes = ident0.bytes ++ [1#8] := ⟨ident0_legal, rfl, rfl, rfl⟩

/-- A comment header without its framing flag (V94). -/
def unframed : CommentForm := { vendor := [], comments := [], framing := 0xFE#8 }

theorem meets_CommentHeaderSkips :
    ((live (comment0.bytes ++ [1#8])).dec.bits.nbits = 0 ∧ comment0.Legal ∧ (live (comment0.bytes ++ [1#8])).src.bytes = comment0.bytes ++ [1#8]) ∧
      unframed.framing.toNat % 2 = 0 ∧ (live (unframed.bytes ++ [])).src.bytes = unframed.bytes ++ [] := ⟨⟨rfl, comment0_legal, rfl⟩, rfl, rfl⟩

theorem meets_SetupHeaderStores :
    (mono setupBytes).dec.bits.Valid ∧ (mono setupBytes).dec.hdr.channels < 2 ^ 8 ∧ setup0.legal (mono setupBytes).dec.hdr.channels = true ∧
      (mono setupBytes).Reads (setup0.fields (mono setupBytes).dec.hdr.channels) := by decide +kernel

theorem meets_HeaderTypesRun :
    ((3#8 : Byte) ≠ 1#8 ∧ (1#8 : Byte) ≠ 3#8 ∧ (1#8 : Byte) ≠ 5#8 ∧ ([] : List Byte) ≠ syncBytes) ∧
      ((live (ident0.bytes ++ [])).dec.bits.nbits = 0 ∧ ident0.Legal ∧ (live (ident0.bytes ++ [])).src.bytes = ident0.bytes ++ []) ∧
      (comment0.Legal ∧ (live (comment0.bytes ++ [])).src.bytes = comment0.bytes ++ []) ∧ (mono setupBytes).dec.bits.Valid ∧
      setup0.legal (mono setupBytes).dec.hdr.channels = true ∧ (mono setupBytes).Reads (setup0.fields (mono setupBytes).dec.hdr.channels) :=
  ⟨by decide, ⟨rfl, ident0_legal, rfl⟩, ⟨comment0_legal, rfl⟩, by decide, by decide +kernel, by decide +kernel⟩

theorem meets_DecoupleUndoes :
    0 < (live []).dec.counts.nMappings ∧ 2 * 4096 ≤ Config.maxBlock ∧ ((live []).mapping 0).steps = [{ mag := 0, ang := 1 }] ∧ (0 : Nat) ≠ 1 := by decide

/-- Each group of the statement: a read, the identification header (aborted, for want of a framing flag) and the setup header. -/
theorem meets_ReadsAndHeadersFrame :
    (∃ t, exec (.rdbits 24) (live [1#8, 2#8, 3#8]) = .next t) ∧ (∃ t, exec .hdrIdent (live []) = .next t) ∧
      (∃ t, exec (.hdrTypeIdent 1#8 syncBytes) (live (ident0.bytes ++ [])) = .next t) ∧ (∃ t, exec .hdrSetup (mono setupBytes) = .next t) ∧
      ∃ t, exec (.hdrTypeSetup 5#8 syncBytes) (mono setupBytes) = .next t := by
  refine ⟨meets_next (by decide +kernel), meets_next (by decide +kernel), ?_, meets_next (by decide +kernel), meets_next (by decide +kernel)⟩
  have h : Config.maxChannels = Config.maxChannelsLessOne.val + 1 := rfl
  exact ⟨_, by
    show Machine.execHdrTypeIdent _ _ _ = _
    simp [execHdrTypeIdent, microUnit, micro, tagCheck, headerIdent, readExact, byteBoundary, readExactRaw, M.ensure, M.update, live, ident0,
      IdentForm.bytes, le32Bytes, State.dropBytes, State.mapHdr, Decoder.fresh, BitReader.empty, le32, bind, EStateM.bind, pure, EStateM.pure, h]
    rfl⟩

theorem meets_TableEntryFrame :
    (∃ t, exec (.cbSetup 2) (liveOn bookForm.fields) = .next t) ∧ (∃ t, exec (.cbSeqOn 0) (live []) = .next t) ∧
      (∃ t, exec (.flSetup 1) (liveOn ((16, 1) :: floor0.fields)) = .next t) ∧
      (∃ t, exec (.residueType2 0) (liveOn (residue62.fields [true])) = .next t) ∧
      (∃ t, exec (.mappingType0 0) (liveOn (coupled.fields 2 mapping0)) = .next t) ∧ ∃ t, exec (.modeLong 1) (live []) = .next t :=
  ⟨meets_next (by decide +kernel), meets_next (by decide +kernel), meets_next (by decide +kernel), meets_next (by decide +kernel),
    meets_next (by decide +kernel), meets_next (by decide +kernel)⟩

theorem meets_BufferFrame :
    (∃ t, exec (.cbVector 0 { ref := .cur 1, size := 8 } 1 4) (liveOn [(1, 1), (1, 0)]) = .next t) ∧
      (∃ t, exec (.flDecode 1 0) (liveOn [(1, 0)]) = .next t) ∧ (∃ t, exec (.flSynth 0 0 32) (raw [200, 100, 3, 0] (live [])) = .next t) ∧
      (∃ t, exec (.rsDecode 1 [0] 32) (flags [] [true] (liveOn residueBits)) = .next t) ∧
      (∃ t, exec (.imdct true 0) (flags [true] [] (live [])) = .next t) ∧ ∃ t, exec (.decouple 0 1) (live []) = .next t :=
  ⟨meets_next (by decide +kernel), meets_next (by decide +kernel), meets_next (by decide +kernel), meets_next (by decide +kernel), meets_next (by decide +kernel),
    meets_next (by decide +kernel)⟩

theorem meets_CommandFrame :
    (∃ t, exec .cmdDecode (live [0#8]) = .next t ∧ t.phase ≠ .failed) ∧
      (∃ t, exec .packetAudio (liveOn [(1, 1), (2, 3), (1, 0), (1, 0)]) = .next t ∧ t.phase ≠ .failed) ∧
      ∃ t, exec (.cmdOutput 64) outputState = .next t := by
  refine ⟨?_, ?_, meets_next (by decide +kernel)⟩
  · exact (exists_next (p := fun t => t.phase ≠ .failed) (by decide +kernel)).imp fun _ h => ⟨h.1, of_decide_eq_true h.2⟩
  · exact (exists_next (p := fun t => t.phase ≠ .failed) (by decide +kernel)).imp fun _ h => ⟨h.1, of_decide_eq_true h.2⟩

/-- The widest accumulator that the invariant allows. -/
theorem meets_BitsInvariantKept :
    let s := (held 23 (2 ^ 23 - 1) (live [255#8])).place (req .micro 0x12#16 [24])
    s.Live ∧ s.BitsInv ∧ ∃ t, step s = .next t := ⟨by decide, by decide, meets_step (by decide +kernel)⟩

theorem meets_BoundaryInvariantKept :
    let s := (live [0#8]).place (req .cmd 0x02#16 [])
    s.CommandNext ∧ s.Live ∧ s.BoundaryInv ∧ ∃ t, step s = .next t := ⟨by decide, by decide, by decide, meets_step (by decide +kernel)⟩

theorem meets_HeaderInvariantKept :
    let s := (mono [0#8]).place (req .cmd 0x02#16 [])
    s.phase = .ready ∧ s.HeaderInv ∧ ∃ t, step s = .next t :=
  ⟨rfl, fun _ => ⟨by decide, one_le_maxChannels, by decide, by decide, by decide, by decide⟩, meets_step (by decide +kernel)⟩

theorem meets_RangeInvariantKept :
    let s := (live [0#8]).place (req .cmd 0x02#16 [])
    s.Live ∧ s.RangeInv ∧ ∃ t, step s = .next t := ⟨by decide, by decide, meets_step (by decide +kernel)⟩

/-- A `DECODE` that leaves a frame, an `OUTPUT` that takes it, and another word between them. -/
theorem meets_StateTransitions :
    (∃ t, step ((live [0#8]).place (req .cmd 0x02#16 [])) = .next t ∧ t.phase = .ready) ∧
      (∃ t, step ((pending 0 64 (live [])).place (req .cmd 0x03#16 [])) = .next t ∧ t.phase = .ready) ∧
      ∃ t, step ((pending 0 64 (live [])).place (req .cmd 0x05#16 [])) = .next t ∧ t.phase = .ready :=
  ⟨(exists_next (p := fun t => t.phase = .ready) (by decide +kernel)).imp fun _ h => ⟨h.1, of_decide_eq_true h.2⟩,
    (exists_next (p := fun t => t.phase = .ready) (by decide +kernel)).imp fun _ h => ⟨h.1, of_decide_eq_true h.2⟩,
    (exists_next (p := fun t => t.phase = .ready) (by decide +kernel)).imp fun _ h => ⟨h.1, of_decide_eq_true h.2⟩⟩

theorem meets_TablesReadOnly :
    let s := (live [0#8]).place (req .cmd 0x02#16 [])
    s.CommandNext ∧ s.phase = .ready ∧ ∃ t, step s = .next t ∧ t.Live :=
  ⟨by decide, rfl, (exists_next (p := fun t => t.Live) (by decide +kernel)).imp fun _ h => ⟨h.1, of_decide_eq_true h.2⟩⟩

theorem meets_SourceIsSequential :
    let f := req .micro 0x15#16 [2]
    let s := (live [1#8, 2#8, 3#8]).place f
    s.script = [f] ∧ (∃ t, step s = .next t ∧ t.phase ≠ .failed) ∧ ¬(f.port = .cmd ∧ (f.word = 0x00#16 ∨ f.word = 0x04#16)) :=
  ⟨rfl, (exists_next (p := fun t => t.phase ≠ .failed) (by decide +kernel)).imp fun _ h => ⟨h.1, of_decide_eq_true h.2⟩, by decide⟩

end Sys2Proof.Tests
end

section
/-! PROOF. The Bit Reader (40_bit_reader): what its operations do when issued alone. A read that succeeds is an advance of the cursor, `State.advance`; one that
falls short ends in an abort, but for `TRYRD` at the end of the stream, which leaves the bits pulled in the accumulator, `State.pulled`. -/

namespace Sys2Proof.Machine

section

variable {α : Type} {m : M α} {f : α → M Result} {s u : State} {a : α} {r : Result} {c : Cause}

/-- A micro-operation whose work completes, and which then returns a result without touching the state. -/
theorem micro_bind_ok (h : m s = .ok a u) (hf : f a u = .ok r u) : micro (m >>= f) s = .next (u.setResult r) :=
  micro_of_ok ((M.bind_ok h).trans hf)

/-- After a quiet piece of work, raising any error but the clean end is an abort (60_exceptions R400, R401). -/
theorem Quiet.aborted (hq : Quiet s u) (hc : c ≠ .cleanEnd) : Aborted s (u.raise c) := by
  refine ⟨?_, ⟨c, hc, State.raise_err c u⟩, ?_, ?_, ?_, ?_⟩
  · rw [State.raise_phase, if_neg hc]
  · rw [State.raise_ret, State.raise_err]
  · rw [State.raise_out, hq.out]
  · rw [State.raise_script, hq.script]
  · rw [State.raise_result, hq.result]

/-- A micro-operation whose work raises an error other than the clean end aborts with it. -/
theorem micro_bind_aborts (h : m s = .error (.raise c) u) (hq : Quiet s u) (hc : c ≠ .cleanEnd) :
    ∃ t, micro (m >>= f) s = .next t ∧ Aborted s t ∧ t.err = c.err :=
  ⟨u.raise c, micro_of_error (M.bind_error h), hq.aborted hc, State.raise_err c u⟩

end

theorem terminalCause_ne_cleanEnd (e : Terminal) : terminalCause e ≠ .cleanEnd := by
  cases e <;> decide

/-- `RDBIT` is `RDBITS(1)` (40_bit_reader R174). -/
theorem exec_rdbit (s : State) : exec .rdbit s = exec (.rdbits 1) s := rfl

section

variable {s : State}

@[simp] theorem State.ahead_setResult (r : Result) (s : State) : (s.setResult r).ahead = s.ahead := rfl

/-- Pulling bytes into the accumulator consumes nothing, as long as they fit (20_memory R82). -/
theorem State.ahead_pulled {j : Nat} (hj : j ≤ s.src.bytes.length) (hn : s.dec.bits.nbits + 8 * j ≤ 32) : (s.pulled j).ahead = s.ahead := by
  have hlen : (s.ahead.take (s.dec.bits.nbits + 8 * j)).length = s.dec.bits.nbits + 8 * j := by
    rw [List.length_take, State.length_ahead]
    omega
  have hlt : bitsNat (s.ahead.take (s.dec.bits.nbits + 8 * j)) < 2 ^ 32 :=
    (bitsNat_lt _).trans_le (Nat.pow_le_pow_right (by decide) (hlen.trans_le hn))
  have hheld : bitsOf (s.pulled j).dec.bits.nbits (s.pulled j).dec.bits.acc.toNat = s.ahead.take (s.dec.bits.nbits + 8 * j) := by
    have h := bitsOf_bitsNat (s.ahead.take (s.dec.bits.nbits + 8 * j))
    rw [hlen] at h
    simpa only [State.pulled, BitVec.toNat_ofNat, Nat.mod_eq_of_lt hlt] using h
  calc (s.pulled j).ahead
    _ = s.ahead.take (s.dec.bits.nbits + 8 * j) ++ byteBits (s.src.bytes.drop j) := by rw [State.ahead, hheld]; rfl
    _ = s.ahead := by rw [← s.drop_ahead, List.take_append_drop]

/-- `RDU8()` at a byte boundary with a byte to come (40_bit_reader R178). -/
theorem readU8_ok {b : Byte} {rest : List Byte} (hb : s.dec.bits.nbits = 0) (h : s.src.bytes = b :: rest) : readU8 s = .ok b (s.dropBytes 1) := by
  have hraw : readU8Raw s = .ok (.data b) (s.dropBytes 1) := by simp [readU8Raw, h]
  unfold readU8
  rw [M.bind_ok (show byteBoundary s = .ok () s by simp [byteBoundary, hb]), M.bind_ok hraw]
  rfl

/-- `RDU8()` at a byte boundary with no byte to come (40_bit_reader R178). -/
theorem readU8_short (hb : s.dec.bits.nbits = 0) (h : s.src.bytes = []) : readU8 s = .error (.raise (terminalCause s.src.terminal)) s := by
  unfold readU8
  rw [M.bind_ok (show byteBoundary s = .ok () s by simp [byteBoundary, hb])]
  cases ht : s.src.terminal
  · rw [M.bind_ok (show readU8Raw s = .ok .endOfStream s by simp [readU8Raw, h, ht])]
    rfl
  · rw [M.bind_ok (show readU8Raw s = .ok .ioError s by simp [readU8Raw, h, ht])]
    rfl

-- the operations issued alone

theorem exec_rdbits_ok {n : Nat} (hv : s.dec.bits.Valid) (hn : n ≤ 24) (hl : n ≤ s.ahead.length) :
    exec (.rdbits n) s = .next ((s.advance n).setResult (.value (bitsNat (s.ahead.take n)))) :=
  micro_bind_ok (readBits_ok hv hn hl) rfl

theorem exec_rdbits_short {n : Nat} (hv : s.dec.bits.Valid) (hn : n ≤ 24) (hl : s.ahead.length < n) :
    ∃ t, exec (.rdbits n) s = .next t ∧ Aborted s t ∧ t.err = (terminalCause s.src.terminal).err :=
  have h := readBits_short hv hn hl
  micro_bind_aborts h ((readBits_quiet n).error h) (terminalCause_ne_cleanEnd _)

theorem exec_tryrd_ok {n : Nat} (hv : s.dec.bits.Valid) (hn : n ≤ 24) (hl : n ≤ s.ahead.length) :
    exec (.tryrd n) s = .next ((s.advance n).setResult (.value (bitsNat (s.ahead.take n)))) :=
  micro_bind_ok (tryReadBits_ok hv hn hl) rfl

/-- At the end of the stream every byte that was left has been pulled (40_bit_reader R176). -/
theorem exec_tryrd_eos {n : Nat} (hv : s.dec.bits.Valid) (hn : n ≤ 24) (hl : s.ahead.length < n) (ht : s.src.terminal = .endOfStream) :
    exec (.tryrd n) s = .next ((s.pulled s.src.bytes.length).setResult .eos) := by
  have h := tryReadBits_short hv hn hl
  simp only [ht] at h
  exact micro_bind_ok h rfl

theorem exec_tryrd_ioError {n : Nat} (hv : s.dec.bits.Valid) (hn : n ≤ 24) (hl : s.ahead.length < n) (ht : s.src.terminal = .ioError) :
    ∃ t, exec (.tryrd n) s = .next t ∧ Aborted s t ∧ t.err = Cause.source.err := by
  have h := tryReadBits_short hv hn hl
  simp only [ht] at h
  exact micro_bind_aborts h ((tryReadBits_quiet n).error h) Cause.noConfusion

theorem exec_rdu8_ok {b : Byte} {rest : List Byte} (hb : s.dec.bits.nbits = 0) (h : s.src.bytes = b :: rest) :
    exec .rdu8 s = .next ((s.dropBytes 1).setResult (.value b.toNat)) :=
  micro_bind_ok (readU8_ok hb h) rfl

theorem exec_rdu8_short (hb : s.dec.bits.nbits = 0) (h : s.src.bytes = []) :
    ∃ t, exec .rdu8 s = .next t ∧ Aborted s t ∧ t.err = (terminalCause s.src.terminal).err :=
  micro_bind_aborts (readU8_short hb h) (Quiet.chain.refl s) (terminalCause_ne_cleanEnd _)

theorem exec_rdexact_ok {n : Nat} (hb : s.dec.bits.nbits = 0) (hl : n ≤ s.src.bytes.length) :
    exec (.rdexact n) s = .next ((s.dropBytes n).setResult (.bytes (s.src.bytes.take n))) :=
  micro_bind_ok (readExact_ok hb hl) rfl

theorem exec_rdexact_short {n : Nat} (hb : s.dec.bits.nbits = 0) (hl : s.src.bytes.length < n) :
    ∃ t, exec (.rdexact n) s = .next t ∧ Aborted s t ∧ t.err = (terminalCause s.src.terminal).err :=
  micro_bind_aborts (readExact_short hb hl) (Quiet.dropBytes le_rfl) (terminalCause_ne_cleanEnd _)

theorem exec_align (s : State) : exec .align s = .next (s.aligned.setResult .none) := microUnit_of_ok (m := alignBits) rfl

end

/-- Settles O14: with enough bits the read is an advance of the cursor, with too few it aborts with what the source's terminal answer says. -/
theorem rdbitsReads : Obligations.RdbitsReads := by
  intro s n hv hn
  have hbit : ∀ t, exec (.rdbits n) s = .next t → n = 1 → exec .rdbit s = .next t := by
    rintro t h rfl
    rw [exec_rdbit, h]
  refine ⟨fun hl => ?_, fun hl => ?_⟩
  · have h := exec_rdbits_ok hv hn hl
    exact ⟨_, h, rfl, State.ahead_advance hv hl, rfl, rfl, rfl, State.advance_atRest, hbit _ h⟩
  · obtain ⟨t, h, hab, herr⟩ := exec_rdbits_short hv hn hl
    refine ⟨t, h, hab, ?_, hbit t h⟩
    rw [herr]
    cases s.src.terminal <;> rfl

/-- Settles O15: at the end of the stream what was ahead stays ahead, the bytes of it having moved into the accumulator. -/
theorem tryrdReads : Obligations.TryrdReads := by
  intro s n hv hn
  refine ⟨exec_tryrd_ok hv hn, fun hl ht => ?_, exec_tryrd_ioError hv hn⟩
  have hfit : s.dec.bits.nbits + 8 * s.src.bytes.length ≤ 32 := by
    have := s.length_ahead
    omega
  exact ⟨_, exec_tryrd_eos hv hn hl ht, rfl, State.ahead_pulled le_rfl hfit, List.drop_length, rfl, rfl, rfl, rfl, rfl⟩

/-- Settles O16: `ALIGN` is one update of the accumulator. -/
theorem alignDiscards : Obligations.AlignDiscards := exec_align

/-- Settles O17: at a byte boundary a byte-wise read is a move of the source's position, or aborts with what its terminal answer says. -/
theorem byteReads : Obligations.ByteReads := by
  intro s n hb
  refine ⟨fun b rest h => ?_, exec_rdexact_ok hb, fun e he => ?_⟩
  · have hrest : rest = s.src.bytes.drop 1 := by rw [h, List.drop_one, List.tail_cons]
    rw [exec_rdu8_ok hb h, hrest]
    rfl
  · have herr : (terminalCause s.src.terminal).err = e := by
      rw [he]
      cases s.src.terminal <;> rfl
    rw [← herr]
    exact ⟨exec_rdu8_short hb, exec_rdexact_short hb⟩

end Sys2Proof.Machine
end

section
/-! PROOF. The Codebook unit (41_codebook): vectors, the integer root, and the fields of a lookup. -/

namespace Sys2Proof.Machine

-- vectors (R208 to R211)

theorem vqElements_succ (b : Codebook) (e k i : Nat) (last : F32) :
    vqElements b e (k + 1) i last =
      vqValue b (aget b.mult (multOffset b e i)) last ::
        vqElements b e k (i + 1) (if b.seq then vqValue b (aget b.mult (multOffset b e i)) last else last) := rfl

theorem aget_vqElements_zero (b : Codebook) (e k i : Nat) (last : F32) :
    aget (vqElements b e (k + 1) i last) 0 = vqValue b (aget b.mult (multOffset b e i)) last := by
  rw [vqElements_succ, aget_cons_zero]

theorem aget_vqElements_succ (b : Codebook) (e k i j : Nat) (last : F32) :
    aget (vqElements b e (k + 1) i last) (j + 1) =
      aget (vqElements b e k (i + 1) (if b.seq then vqValue b (aget b.mult (multOffset b e i)) last else last)) j := by
  rw [vqElements_succ, aget_cons_succ]

@[simp] theorem length_vqElements (b : Codebook) (e k i : Nat) (last : F32) : (vqElements b e k i last).length = k := by
  induction k generalizing i last with
  | zero => rfl
  | succ k ih => rw [vqElements_succ, List.length_cons, ih]

/-- An element of the vector from element `i` on: the value formula on its own multiplicand, and on the element before it in a sequenced codebook. -/
theorem aget_vqElements (b : Codebook) (e : Nat) {k j : Nat} (i : Nat) (last : F32) (hj : j < k) :
    aget (vqElements b e k i last) j =
      vqValue b (aget b.mult (multOffset b e (i + j))) (if b.seq = true ∧ j ≠ 0 then aget (vqElements b e k i last) (j - 1) else last) := by
  induction k generalizing i last j with
  | zero => exact absurd hj (Nat.not_lt_zero j)
  | succ k ih =>
    cases j with
    | zero => rw [aget_vqElements_zero, if_neg (fun h => h.2 rfl), Nat.add_zero]
    | succ j =>
      rw [aget_vqElements_succ, ih (i + 1) _ (Nat.lt_of_succ_lt_succ hj), Nat.add_right_comm i 1 j, Nat.add_assoc i j 1]
      congr 1
      cases hs : b.seq with
      | false => simp
      | true =>
        cases j with
        | zero => simp [aget_vqElements_zero]
        | succ j => simp [aget_vqElements_succ, hs]

/-- The statement takes the multiplicands as integers before it looks one up; Lean writes that coercion of a list as a bind. -/
theorem aget_natCast (l : List Nat) (i : Nat) : aget (l : List Int) i = (aget l i : Nat) := by
  have hmap : (l : List Int) = l.map Nat.cast := by simp [List.map_eq_flatMap]
  rw [hmap]
  simp only [aget, List.getD_eq_getElem?_getD, List.getElem?_map]
  cases l[i]? <;> rfl

/-- Settles O27: the vector is the list of all elements from the first on, after a running value of +0.0. -/
theorem vectorElements : Obligations.VectorElements := fun b e =>
  ⟨length_vqElements b e b.dim 0 f32Zero, fun j hj => by
    rw [vqVector, aget_vqElements b e 0 f32Zero hj, Nat.zero_add, vqValue, multOffset, latticeOffset, f32Zero, aget_natCast]⟩

-- the integer root (R201)

/-- Each further bit keeps the root found so far below the real one, and the real one within the bits still to try. -/
theorem rootBits_spec {entries dim k r : Nat} (hlo : r ^ dim ≤ entries) (hhi : entries < (r + 2 ^ k) ^ dim) :
    rootBits entries dim k r ^ dim ≤ entries ∧ entries < (rootBits entries dim k r + 1) ^ dim := by
  induction k generalizing r with
  | zero => exact ⟨hlo, hhi⟩
  | succ k ih =>
    rw [rootBits]
    split
    next h => exact ih h (by rwa [Nat.add_assoc, ← Nat.two_mul, ← Nat.pow_succ'])
    next h => exact ih hlo (Nat.lt_of_not_le h)

theorem lt_two_pow_ilog (x : Nat) : x < 2 ^ ilog x := by
  unfold ilog bitLength
  split
  next h => rw [h]; exact Nat.one_pos
  next => exact Nat.lt_log2_self

theorem lookup1Values_spec {entries dim : Nat} (hd : 1 ≤ dim) :
    lookup1Values entries dim ^ dim ≤ entries ∧ entries < (lookup1Values entries dim + 1) ^ dim := by
  have hd0 : dim ≠ 0 := Nat.one_le_iff_ne_zero.mp hd
  refine rootBits_spec (by rw [Nat.zero_pow hd]; exact Nat.zero_le _) ?_
  calc entries
    _ < 2 ^ ilog entries := lt_two_pow_ilog entries
    _ ≤ (0 + 2 ^ ilog entries) ^ dim := by rw [Nat.zero_add]; exact Nat.le_self_pow hd0 _

-- a codebook entry: the check of its number, and writing it

theorem bookOperand_ok {s : State} {c : Nat} (hc : c < s.dec.counts.nCodebooks) : bookOperand c s = .ok () s := M.run_ensure_pos hc _ _

/-- The state in which one codebook entry has been written. -/
def State.putBook (c : Nat) (g : Codebook → Codebook) (s : State) : State :=
  s.mapTabs fun t => { t with cb := aset t.cb c (g (aget t.cb c)) }

section

variable (c : Nat) (f g : Codebook → Codebook) (s : State)

theorem setCodebook_run : setCodebook c g s = .ok () (s.putBook c g) := rfl

@[simp] theorem State.putBook_counts : (s.putBook c g).dec.counts = s.dec.counts := rfl

@[simp] theorem State.past_counts (fs : List (Nat × Nat)) : (s.past fs).dec.counts = s.dec.counts := rfl

@[simp] theorem State.codebook_putBook : (s.putBook c g).codebook c = g (s.codebook c) := aget_aset_self _ _ _

@[simp] theorem State.codebook_past (fs : List (Nat × Nat)) : (s.past fs).codebook c = s.codebook c := rfl

/-- Two writes of one entry are one. -/
@[simp] theorem State.putBook_putBook : (s.putBook c f).putBook c g = s.putBook c (g ∘ f) := by
  simp [State.putBook, State.mapTabs]

end

-- reading the fields of a lookup (R200)

section

variable {s : State} {fs : List (Nat × Nat)}

/-- One field ahead, read as a piece of work: its value, and the state past it, where the other fields are ahead. -/
theorem readBits_past {w v : Nat} (hv : s.dec.bits.Valid) (hw : w ≤ 24) (hlt : v < 2 ^ w) (hr : s.Reads ((w, v) :: fs)) :
    readBits w s = .ok v (s.past [(w, v)]) := by
  rw [(readBits_field hv hw hlt hr).1, State.past, fieldBits_cons, fieldBits_nil, List.append_nil, length_bitsOf]

/-- `RD32()` on the two halves of a word (40_bit_reader R181). -/
theorem read32_ok {w : BitVec 32} (hv : s.dec.bits.Valid) (hr : s.Reads (halfFields w)) : read32 s = .ok w.toNat (s.past (halfFields w)) := by
  have hw := w.isLt
  have hlo := hr.left (fs := [(16, w.toNat % 2 ^ 16)])
  unfold read32
  rw [M.bind_ok (readBits_past hv (by decide) (Nat.mod_lt _ (by decide)) hr),
    M.bind_ok (readBits_past (State.past_valid hv) (by decide) (by omega) (hr.right hv (fs := [(16, w.toNat % 2 ^ 16)]))),
    ← State.past_append hv hlo, M.run_pure, Nat.div_add_mod']
  rfl

/-- A read does not see what has been written to a codebook entry. -/
theorem read32_putBook {w : BitVec 32} {c : Nat} {f : Codebook → Codebook} (hv : s.dec.bits.Valid) (hr : s.Reads (halfFields w)) :
    read32 (s.putBook c f) = .ok w.toNat ((s.past (halfFields w)).putBook c f) :=
  read32_ok (s := s.putBook c f) hv hr

/-- A read does not see what has been written to a codebook entry. -/
theorem readBits_putBook {w v c : Nat} {f : Codebook → Codebook} (hv : s.dec.bits.Valid) (hw : w ≤ 24) (hlt : v < 2 ^ w)
    (hr : s.Reads ((w, v) :: fs)) : readBits w (s.putBook c f) = .ok v ((s.past [(w, v)]).putBook c f) :=
  readBits_past (s := s.putBook c f) hv hw hlt hr

/-- The sequence flag stores its own value. -/
theorem seqFlag_putBook {c : Nat} {f : Codebook → Codebook} (hc : c < s.dec.counts.nCodebooks) (sq : Bool) :
    (if sq.toNat = 1 then seqOn c else seqOff c) (s.putBook c f) = .ok () (s.putBook c ((fun b => { b with seq := sq }) ∘ f)) := by
  have hop := bookOperand_ok (s := s.putBook c f) (c := c) (by simpa using hc)
  rw [← State.putBook_putBook]
  cases sq
  · exact M.bind_ok hop
  · exact M.bind_ok hop

/-- What the fields of a lookup up to `SEQ` store in a codebook entry: the minimum and the difference that its words stand for, the width, and the flag. -/
def storeLookupFields (mn de : F32) (vb : Nat) (sq : Bool) (b : Codebook) : Codebook :=
  { b with minVal := mn, delta := de, valueBits := vb + 1, seq := sq }

/-- The four writes of R200 in a row. -/
theorem storeLookupFields_comp (mn de : F32) (vb : Nat) (sq : Bool) (f : Codebook → Codebook) :
    ((fun b => { b with seq := sq }) ∘ (fun b => { b with valueBits := vb + 1 }) ∘ (fun b => { b with delta := de }) ∘
      (fun b => { b with minVal := mn }) ∘ f) = storeLookupFields mn de vb sq ∘ f := rfl

/-- The fields of a lookup up to `SEQ`, after some write of the entry: all four are stored, and the cursor is past them. -/
theorem lookupFields_ok {c vb : Nat} {f : Codebook → Codebook} {mn de : BitVec 32} {sq : Bool} (hv : s.dec.bits.Valid)
    (hc : c < s.dec.counts.nCodebooks) (hvb : vb < 16) (hr : s.Reads (halfFields mn ++ halfFields de ++ [(4, vb), flagField sq])) :
    lookupFields c (s.putBook c f) =
      .ok () ((s.past (halfFields mn ++ halfFields de ++ [(4, vb), flagField sq])).putBook c
        (storeLookupFields (float32Unpack mn.toNat) (float32Unpack de.toNat) vb sq ∘ f)) := by
  have hmn := hr.left.left
  have hde := hr.left.right hv
  have hvb' := hr.right hv
  rw [State.past_append hv hmn] at hvb'
  have hv₁ := State.past_valid (fs := halfFields mn) hv
  have hv₂ := State.past_valid (fs := halfFields de) hv₁
  have hv₃ := State.past_valid (fs := [(4, vb)]) hv₂
  have hsq := State.Reads.right (fs := [(4, vb)]) hv₂ hvb'
  have hend : s.past (halfFields mn ++ halfFields de ++ [(4, vb), flagField sq]) =
      (((s.past (halfFields mn)).past (halfFields de)).past [(4, vb)]).past [flagField sq] := by
    rw [State.past_append hv hr.left, State.past_append hv hmn, ← State.past_append hv₂ (State.Reads.left (gs := [flagField sq]) hvb')]
    rfl
  unfold lookupFields
  rw [M.bind_ok (read32_putBook hv hmn), M.bind_ok (setCodebook_run ..), State.putBook_putBook,
    M.bind_ok (read32_putBook hv₁ hde), M.bind_ok (setCodebook_run ..), State.putBook_putBook,
    M.bind_ok (readBits_putBook hv₂ (by decide) hvb hvb'), M.bind_ok (setCodebook_run ..), State.putBook_putBook,
    readBit, M.bind_ok (readBits_putBook hv₃ (by decide) sq.toNat_lt hsq), hend, ← storeLookupFields_comp]
  exact seqFlag_putBook (by simpa using hc) sq

end

/-- A lattice lookup on a codebook of dimension 0 stops after its four fields (R200, R201). -/
theorem exec_cbLookupLattice_zeroDim {s : State} {c vb : Nat} {mn de : BitVec 32} {sq : Bool} (hv : s.dec.bits.Valid)
    (hc : c < s.dec.counts.nCodebooks) (hdim : (s.codebook c).dim = 0) (hvb : vb < 16)
    (hr : s.Reads (halfFields mn ++ halfFields de ++ [(4, vb), flagField sq])) : exec (.cbLookupLattice c) s = .fault .zeroDim := by
  have hrun : lookupLattice c s = .error (.fault .zeroDim) ((s.past (halfFields mn ++ halfFields de ++ [(4, vb), flagField sq])).putBook c
      (storeLookupFields (float32Unpack mn.toNat) (float32Unpack de.toNat) vb sq ∘ fun b => { b with lookupType := 1 })) := by
    unfold lookupLattice
    rw [M.bind_ok (bookOperand_ok hc), M.bind_ok (setCodebook_run ..),
      M.bind_ok (lookupFields_ok hv hc hvb hr), M.bind_ok (M.run_read ..)]
    exact M.bind_error (M.run_ensure_neg (by simp [storeLookupFields, hdim]) _ _)
  exact microUnit_of_error hrun

/-- Settles O21: the root by its bits, and the fault by the fields that a lookup reads before it takes the root. -/
theorem latticeRoot : Obligations.LatticeRoot :=
  ⟨fun _ _ => lookup1Values_spec, fun _ _ _ _ _ _ => exec_cbLookupLattice_zeroDim⟩

end Sys2Proof.Machine
end

section
/-! PROOF. Codewords (41_codebook): the scalar walk on a codebook whose codewords can be told apart, the order in which they are stored, and their canonical
assignment. -/

namespace Sys2Proof.Machine

-- codewords as bits (R197)

@[simp] theorem Code.length_bits (k : Code) : k.bits.length = k.len := by rw [Code.bits, List.length_reverse, length_bitsOf]

/-- A codeword has some bits exactly when it has their number as its length and their value, the first bit the highest. -/
theorem Code.bits_eq_iff {k : Code} (hk : k.Fits) (bs : List Bool) : k.bits = bs ↔ k.len = bs.length ∧ k.cw.toNat = bitsNat bs.reverse := by
  constructor
  · rintro rfl
    exact ⟨k.length_bits.symm, by rw [Code.bits, List.reverse_reverse, bitsNat_bitsOf, Nat.mod_eq_of_lt hk.2.2]⟩
  · rintro ⟨hlen, hcw⟩
    rw [Code.bits, hcw, hlen, ← List.length_reverse, bitsOf_bitsNat, List.reverse_reverse]

/-- The search of R205 at the length and the value of some bits finds the first codeword that has those bits. -/
theorem findCode_eq_find? {codes : List Code} (hfit : ∀ k ∈ codes, k.Fits) (bs : List Bool) :
    findCode codes bs.length (bitsNat bs.reverse) = (codes.find? fun k => k.bits = bs).map Code.entry := by
  induction codes with
  | nil => rfl
  | cons k ks ih =>
    rw [List.forall_mem_cons] at hfit
    rw [findCode, List.find?_cons, ih hfit.2]
    by_cases h : k.bits = bs
    · rw [if_pos ((k.bits_eq_iff hfit.1 bs).mp h), decide_eq_true h]
      rfl
    · rw [if_neg (mt (k.bits_eq_iff hfit.1 bs).mpr h), decide_eq_false h]

/-- Where codewords can be told apart, one whose bits begin with another's is that other. -/
theorem PrefixFree.eq_of_prefix {codes : List Code} (hp : PrefixFree codes) {j k : Code} (hj : j ∈ codes) (hk : k ∈ codes)
    (h : j.bits <+: k.bits) : j = k := by
  by_contra hne
  have : Std.Symm fun a b : Code => ¬a.bits <+: b.bits ∧ ¬b.bits <+: a.bits := ⟨fun _ _ h => h.symm⟩
  exact (List.Pairwise.forall hp hj hk hne).1 h

-- the scalar walk (R205)

section

variable {codes : List Code} {k : Code}

theorem findCode_codeword (hd : Decodable codes) (hk : k ∈ codes) : findCode codes k.len (bitsNat k.bits.reverse) = some k.entry := by
  rw [← k.length_bits, findCode_eq_find? hd.2]
  cases hj : codes.find? fun j => j.bits = k.bits with
  | none => exact absurd (decide_eq_true rfl) (List.find?_eq_none.mp hj k hk)
  | some j =>
    have hjk : j.bits = k.bits := by simpa using List.find?_some hj
    rw [PrefixFree.eq_of_prefix hd.1 (List.mem_of_find?_eq_some hj) hk (hjk ▸ List.prefix_rfl), Option.map_some]

/-- Bits that a codeword begins with, but for the whole of it, are no codeword. -/
theorem findCode_proper_prefix (hd : Decodable codes) (hk : k ∈ codes) {bs : List Bool} (hbs : bs <+: k.bits) (hlen : bs.length < k.len) :
    findCode codes bs.length (bitsNat bs.reverse) = none := by
  rw [findCode_eq_find? hd.2, List.find?_eq_none.mpr]
  · rfl
  · intro j hj h
    have hjb : j.bits = bs := of_decide_eq_true h
    have hjk := PrefixFree.eq_of_prefix hd.1 hj hk (hjb ▸ hbs)
    rw [← hjb, hjk, k.length_bits] at hlen
    exact lt_irrefl _ hlen

variable {s t : State}

theorem scalarWalk_hit {n l cw b e : Nat} (hread : readBit s = .ok b t) (h : findCode codes (l + 1) (2 * cw + b) = some e) :
    scalarWalk codes (n + 1) l cw s = .ok e t := by
  rw [scalarWalk, M.bind_ok hread, h]
  rfl

theorem scalarWalk_miss {n l cw b : Nat} (hread : readBit s = .ok b t) (h : findCode codes (l + 1) (2 * cw + b) = none) :
    scalarWalk codes (n + 1) l cw s = scalarWalk codes n (l + 1) (2 * cw + b) t := by
  rw [scalarWalk, M.bind_ok hread, h]

/-- The next bit of some bits that are ahead. -/
theorem readBit_prefix {bs : List Bool} (hv : s.dec.bits.Valid) (hp : bs <+: s.ahead) {l : Nat} (hl : l < bs.length) :
    readBit (s.advance l) = .ok bs[l].toNat (s.advance (l + 1)) := by
  have hlt : l < s.ahead.length := hl.trans_le hp.length_le
  have hahead : (s.advance l).ahead = s.ahead.drop l := State.ahead_advance hv hlt.le
  rw [readBit, readBits_ok (State.advance_valid hv) (by decide) (by rw [hahead, List.length_drop]; omega), hahead,
    List.take_one_drop_eq_of_lt_length hlt, State.advance_advance hv hlt.le, hp.getElem hl]
  rfl

/-- The walk after `l` bits of a codeword, its running value being the value of those bits, ends with the codeword's entry. -/
theorem scalarWalk_ok (hd : Decodable codes) (hk : k ∈ codes) (hv : s.dec.bits.Valid) (hp : k.bits <+: s.ahead) (fuel l : Nat)
    (hl : l < k.len) (hfuel : k.len ≤ l + fuel) :
    scalarWalk codes fuel l (bitsNat (k.bits.take l).reverse) (s.advance l) = .ok k.entry (s.advance k.len) := by
  have hlen := k.length_bits
  induction fuel generalizing l with
  | zero => omega
  | succ fuel ih =>
    have hlb : l < k.bits.length := by omega
    have hread := readBit_prefix hv hp hlb
    have hvalue : 2 * bitsNat (k.bits.take l).reverse + k.bits[l].toNat = bitsNat (k.bits.take (l + 1)).reverse := by
      rw [List.take_succ_eq_append_getElem hlb, List.reverse_concat, bitsNat, Nat.add_comm]
    rcases Nat.eq_or_lt_of_le hl with hend | hmore
    · have hfind := findCode_codeword hd hk
      rw [← List.take_of_length_le (hlen.trans hend.symm).le, ← hvalue, ← hend] at hfind
      rw [← hend]
      exact scalarWalk_hit hread hfind
    · have hnone := findCode_proper_prefix hd hk (List.take_prefix (l + 1) k.bits) (by rw [List.length_take]; omega)
      rw [List.length_take, Nat.min_eq_left hlb, ← hvalue] at hnone
      rw [scalarWalk_miss hread hnone, hvalue]
      exact ih (l + 1) hmore (by omega)

theorem exec_cbScalar_ok {c : Nat} (hc : c < s.dec.counts.nCodebooks) (hv : s.dec.bits.Valid) (hd : Decodable (s.codebook c).codes)
    (hk : k ∈ (s.codebook c).codes) (hp : k.bits <+: s.ahead) :
    exec (.cbScalar c) s = .next ((s.advance k.len).setResult (.value k.entry)) := by
  obtain ⟨hlo, hhi, -⟩ := hd.2 k hk
  have hwalk := scalarWalk_ok hd hk hv hp Config.maxCwLen 0 hlo (by omega)
  rw [State.advance_zero hv] at hwalk
  refine micro_bind_ok (m := codebookScalar c) (a := k.entry) ?_ rfl
  unfold codebookScalar
  rw [M.bind_ok (bookOperand_ok hc), M.bind_ok (M.run_read ..)]
  exact hwalk

end

-- the order in which codewords are stored (R195)

/-- Taking a list apart by a number that is below a bound loses and repeats nothing. -/
theorem flatMap_filter_perm {α : Type} (f : α → Nat) (l : List α) (n : Nat) :
    ((List.range n).flatMap fun i => l.filter fun a => f a = i).Perm (l.filter fun a => f a < n) := by
  induction n with
  | zero => simp
  | succ n ih =>
    rw [List.range_succ, List.flatMap_append, List.flatMap_singleton]
    have hlow : (l.filter fun a => f a < n + 1).filter (fun a => f a < n) = l.filter fun a => f a < n := by
      rw [List.filter_filter]
      exact List.filter_congr fun a _ => by rw [← Bool.decide_and, decide_eq_decide]; omega
    have hhigh : (l.filter fun a => f a < n + 1).filter (fun a => !decide (f a < n)) = l.filter fun a => f a = n := by
      rw [List.filter_filter]
      exact List.filter_congr fun a _ => by rw [← decide_not, ← Bool.decide_and, decide_eq_decide]; omega
    have hsplit := List.filter_append_perm (fun a => decide (f a < n)) (l.filter fun a => f a < n + 1)
    rw [hlow, hhigh] at hsplit
    exact (ih.append_right _).trans hsplit

theorem storeOrder_perm {cs : List Code} (h : ∀ k ∈ cs, k.len ≤ Config.maxCwLen) : (storeOrder cs).Perm cs := by
  have hall : (cs.filter fun k => k.len < Config.maxCwLen + 1) = cs :=
    List.filter_eq_self.mpr fun k hk => decide_eq_true (Nat.lt_succ_of_le (h k hk))
  have hperm := flatMap_filter_perm Code.len cs (Config.maxCwLen + 1)
  rwa [hall] at hperm

theorem storeOrder_pairwise (cs : List Code) : (storeOrder cs).Pairwise fun a b => a.len ≤ b.len := by
  have hlen : ∀ l, ∀ k ∈ cs.filter fun k => k.len = l, k.len = l := fun l k hk => of_decide_eq_true (List.mem_filter.mp hk).2
  refine List.pairwise_flatMap.mpr ⟨fun l _ => List.pairwise_of_forall_mem_list fun a ha b hb => ?_, ?_⟩
  · rw [hlen l a ha, hlen l b hb]
  · exact List.pairwise_lt_range.imp fun hlt a ha b hb => by rw [hlen _ a ha, hlen _ b hb]; exact hlt.le

theorem decodable_storeOrder {cs : List Code} (h : Decodable cs) : Decodable (storeOrder cs) := by
  have hperm := storeOrder_perm fun k hk => (h.2 k hk).2.1
  refine ⟨(hperm.pairwise_iff And.symm).mpr h.1, fun k hk => h.2 k (hperm.mem_iff.mp hk)⟩

-- words and the leaves under them

/-- The word of `l` bits and value `v`, the first transmitted bit first (R197). -/
abbrev word (l v : Nat) : List Bool := (bitsOf l v).reverse

/-- The leaf `x`, a word of 32 bits, begins with the word of `l` bits and value `v`. -/
def Under (l v x : Nat) : Prop := x / 2 ^ (32 - l) = v

section

variable {l m u v x : Nat}

theorem word_eq_append (h : l ≤ m) (u : Nat) : word m u = word l (u / 2 ^ (m - l)) ++ word (m - l) u := by
  obtain ⟨n, rfl⟩ := Nat.exists_eq_add_of_le' h
  rw [word, bitsOf_append, List.reverse_append, Nat.add_sub_cancel]

/-- A word begins with a shorter one exactly when that is the value of its first bits. -/
theorem word_prefix_iff (hv : v < 2 ^ l) (hu : u < 2 ^ m) (h : l ≤ m) : word l v <+: word m u ↔ u / 2 ^ (m - l) = v := by
  have hfirst : word l (u / 2 ^ (m - l)) <+: word m u := by
    rw [word_eq_append h u]
    exact List.prefix_append ..
  constructor
  · intro hp
    have heq : word l (u / 2 ^ (m - l)) = word l v :=
      (List.prefix_of_prefix_length_le hfirst hp (by simp)).eq_of_length (by simp)
    have hlt : u / 2 ^ (m - l) < 2 ^ l := Nat.div_lt_of_lt_mul (by rwa [← Nat.pow_add, Nat.sub_add_cancel h])
    have hnat := congrArg bitsNat (List.reverse_injective heq)
    rwa [bitsNat_bitsOf, bitsNat_bitsOf, Nat.mod_eq_of_lt hlt, Nat.mod_eq_of_lt hv] at hnat
  · rintro rfl
    exact hfirst

theorem Under.lt (h : Under l v x) (hv : v < 2 ^ l) (hl : l ≤ 32) : x < 2 ^ 32 := by
  rw [← h, Nat.div_lt_iff_lt_mul (Nat.two_pow_pos _), ← Nat.pow_add, Nat.add_sub_cancel' hl] at hv
  exact hv

/-- A word and a longer one that share a leaf: the second begins with the first. -/
theorem Under.word_isPrefix (hl : Under l v x) (hm : Under m u x) (hv : v < 2 ^ l) (hu : u < 2 ^ m) (h : l ≤ m) (h32 : m ≤ 32) : word l v <+: word m u := by
  rw [word_prefix_iff hv hu h, ← hm, Nat.div_div_eq_div_mul, ← Nat.pow_add, show 32 - m + (m - l) = 32 - l by omega]
  exact hl

/-- The first leaf under a word is a leaf under each of its prefixes. -/
theorem exists_leaf_of_prefix (hv : v < 2 ^ l) (hu : u < 2 ^ m) (h32 : m ≤ 32) (hp : word l v <+: word m u) :
    ∃ x, Under l v x ∧ Under m u x := by
  have h : l ≤ m := by simpa using hp.length_le
  refine ⟨u * 2 ^ (32 - m), ?_, Nat.mul_div_cancel u (Nat.two_pow_pos _)⟩
  rw [Under, show 32 - l = (m - l) + (32 - m) by omega, Nat.pow_add, Nat.mul_div_mul_right _ _ (Nat.two_pow_pos _)]
  exact (word_prefix_iff hv hu h).mp hp

/-- One of two words begins with the other exactly when the two share a leaf. -/
theorem prefix_or_prefix_iff (hv : v < 2 ^ l) (hu : u < 2 ^ m) (hl : l ≤ 32) (hm : m ≤ 32) :
    (word l v <+: word m u ∨ word m u <+: word l v) ↔ ∃ x, Under l v x ∧ Under m u x := by
  constructor
  · rintro (h | h)
    · exact exists_leaf_of_prefix hv hu hm h
    · exact (exists_leaf_of_prefix hu hv hl h).imp fun _ => And.symm
  · rintro ⟨x, h, h'⟩
    rcases Nat.le_total l m with hlm | hlm
    · exact .inl (h.word_isPrefix h' hv hu hlm hm)
    · exact .inr (h'.word_isPrefix h hu hv hlm hl)

end

-- the tracker as a set of free nodes (R196)

/-- The leaves under a node: the node at depth `d` that starts at leaf `w` has `2^(32 - d)` of them. -/
def InNode (d w x : Nat) : Prop := w ≤ x ∧ x < w + 2 ^ (32 - d)

/-- A leaf under one of the free nodes, a node being given by its depth and its first leaf. -/
def FreeLeaf (F : Nat → Nat → Prop) (x : Nat) : Prop := ∃ d w, F d w ∧ InNode d w x

/-- Before any codeword is assigned only the root is free, and all of it. -/
def rootNode (d w : Nat) : Prop := d = 0 ∧ w = 0

/-- The free nodes after the node at depth `r` that starts at `w` has been taken and walked down to depth `l`: the siblings passed are free. -/
def splitNode (F : Nat → Nat → Prop) (r w l d v : Nat) : Prop := (F d v ∧ d ≠ r) ∨ (r < d ∧ d ≤ l ∧ v = w + 2 ^ (32 - d))

/-- The free nodes that the tracker stands for. -/
def trackerNodes (next : List (BitVec 32)) (d w : Nat) : Prop := 1 ≤ d ∧ d ≤ 32 ∧ w ≠ 0 ∧ w = (aget next d).toNat

/-- The free nodes that some codewords leave: at most one at a depth, a right child unless it is the root, the deeper the further left; and a leaf is free exactly
when no codeword begins it. -/
structure Tracks (cs : List Code) (F : Nat → Nat → Prop) : Prop where
  room : ∀ {d w}, F d w → w + 2 ^ (32 - d) ≤ 2 ^ 32
  aligned : ∀ {d w}, F d w → 2 ^ (32 - d) ∣ w
  right : ∀ {d w}, F d w → d ≠ 0 → ¬2 ^ (33 - d) ∣ w
  unique : ∀ {d w w'}, F d w → F d w' → w = w'
  desc : ∀ {d d' w w'}, F d w → F d' w' → d < d' → w' + 2 ^ (32 - d') ≤ w
  tile : ∀ x, x < 2 ^ 32 → ((∃ k ∈ cs, Under k.len k.cw.toNat x) ↔ ¬FreeLeaf F x)

/-- The codeword `k` takes the free node at depth `r` that starts at `w`: no free node down to the codeword's length is deeper, and the codeword is the first one of
its length under the node. -/
structure Takes (F : Nat → Nat → Prop) (r w : Nat) (k : Code) : Prop where
  free : F r w
  le : r ≤ k.len
  deepest : ∀ {d v}, F d v → d ≤ k.len → d ≤ r
  pos : 1 ≤ k.len
  len_le : k.len ≤ 32
  cw : k.cw.toNat = w / 2 ^ (32 - k.len)

/-- A node of the next depth is at most half a node. -/
theorem two_mul_two_pow_le {d d' : Nat} (h : d < d') (h' : d' ≤ 32) : 2 * 2 ^ (32 - d') ≤ 2 ^ (32 - d) := by
  rw [← Nat.pow_succ']
  exact Nat.pow_le_pow_right (by decide) (by omega)

theorem inNode_mono {r l w x : Nat} (h : r ≤ l) (hx : InNode l w x) : InNode r w x :=
  ⟨hx.1, hx.2.trans_le (Nat.add_le_add_left (Nat.pow_le_pow_right (by decide) (by omega)) w)⟩

theorem under_div_iff {l w x : Nat} (h : 2 ^ (32 - l) ∣ w) : Under l (w / 2 ^ (32 - l)) x ↔ InNode l w x := by
  obtain ⟨q, rfl⟩ := h
  have hpos := Nat.two_pow_pos (32 - l)
  rw [Under, Nat.mul_div_cancel_left q hpos, Nat.div_eq_iff hpos, InNode, Nat.mul_comm q]
  omega

/-- Walking down from depth `r` to depth `l` by first children passes every leaf that is not under the last node in a sibling. -/
theorem exists_sibling {r l w x : Nat} (hrl : r ≤ l) (hl : l ≤ 32) (hr : InNode r w x) (hx : ¬InNode l w x) :
    ∃ d, r < d ∧ d ≤ l ∧ InNode d (w + 2 ^ (32 - d)) x := by
  induction l, hrl using Nat.le_induction with
  | base => exact absurd hr hx
  | succ l hrl ih =>
    by_cases hin : InNode l w x
    · have hsize : 2 ^ (32 - l) = 2 * 2 ^ (32 - (l + 1)) := by rw [← Nat.pow_succ']; congr 1; omega
      refine ⟨l + 1, by omega, le_rfl, ?_⟩
      unfold InNode at hin hx ⊢
      omega
    · obtain ⟨d, hrd, hdl, hd⟩ := ih (by omega) hin
      exact ⟨d, hrd, by omega, hd⟩

theorem tracks_root : Tracks [] rootNode where
  room h := by rw [h.1, h.2, Nat.zero_add]
  aligned h := by rw [h.2]; exact Nat.dvd_zero _
  right h h0 := absurd h.1 h0
  unique h h' := h.2.trans h'.2.symm
  desc h h' hlt := by rw [h.1, h'.1] at hlt; exact absurd hlt (lt_irrefl 0)
  tile x hx := by
    have hfree : FreeLeaf rootNode x := ⟨0, 0, ⟨rfl, rfl⟩, Nat.zero_le x, by rwa [Nat.zero_add]⟩
    simp [hfree]

section

variable {cs : List Code} {F : Nat → Nat → Prop} {r w : Nat} {k : Code} (ht : Tracks cs F) (hk : Takes F r w k)

include ht hk

theorem Takes.aligned : 2 ^ (32 - k.len) ∣ w := (Nat.pow_dvd_pow 2 (Nat.sub_le_sub_left hk.le 32)).trans (ht.aligned hk.free)

theorem Takes.under_iff (x : Nat) : Under k.len k.cw.toNat x ↔ InNode k.len w x := by rw [hk.cw, under_div_iff (hk.aligned ht)]

theorem Takes.fits : k.Fits := by
  have hroom := ht.room hk.free
  have hpos := Nat.two_pow_pos (32 - r)
  refine ⟨hk.pos, hk.len_le, ?_⟩
  rw [hk.cw]
  exact Nat.div_lt_of_lt_mul (by rw [← Nat.pow_add, Nat.sub_add_cancel hk.len_le]; omega)

/-- Taking the deepest free node removes exactly the leaves under the codeword from the free ones. -/
theorem Takes.freeLeaf_splitNode (x : Nat) : FreeLeaf (splitNode F r w k.len) x ↔ FreeLeaf F x ∧ ¬InNode k.len w x := by
  constructor
  · rintro ⟨d, v, ⟨hF, hdr⟩ | ⟨hrd, hdl, rfl⟩, hx⟩
    · refine ⟨⟨d, v, hF, hx⟩, fun hw => ?_⟩
      have hwr := inNode_mono hk.le hw
      unfold InNode at hx hwr
      rcases Nat.lt_or_gt_of_ne hdr with h | h
      · have := ht.desc hF hk.free h
        omega
      · have := ht.desc hk.free hF h
        omega
    · have hhalf := two_mul_two_pow_le hrd (hdl.trans hk.len_le)
      have hsize : 2 ^ (32 - k.len) ≤ 2 ^ (32 - d) := Nat.pow_le_pow_right (by decide) (by omega)
      unfold InNode at hx
      refine ⟨⟨r, w, hk.free, ?_⟩, ?_⟩ <;> unfold InNode <;> omega
  · rintro ⟨⟨d, v, hF, hx⟩, hnot⟩
    by_cases hdr : d = r
    · subst hdr
      obtain rfl := ht.unique hF hk.free
      obtain ⟨d', hrd, hdl, hx'⟩ := exists_sibling hk.le hk.len_le hx hnot
      exact ⟨d', _, .inr ⟨hrd, hdl, rfl⟩, hx'⟩
    · exact ⟨d, v, .inl ⟨hF, hdr⟩, hx⟩

/-- The codewords with the new one leave the split nodes free. -/
theorem Takes.tracks : Tracks (cs ++ [k]) (splitNode F r w k.len) where
  room := by
    rintro d v (⟨hF, -⟩ | ⟨hrd, hdl, rfl⟩)
    · exact ht.room hF
    · have := ht.room hk.free
      have := two_mul_two_pow_le hrd (hdl.trans hk.len_le)
      omega
  aligned := by
    rintro d v (⟨hF, -⟩ | ⟨hrd, hdl, rfl⟩)
    · exact ht.aligned hF
    · exact Nat.dvd_add ((Nat.pow_dvd_pow 2 (by omega)).trans (ht.aligned hk.free)) (Nat.dvd_refl _)
  right := by
    rintro d v (⟨hF, -⟩ | ⟨hrd, hdl, rfl⟩) h0
    · exact ht.right hF h0
    · have hw : 2 ^ (33 - d) ∣ w := (Nat.pow_dvd_pow 2 (by omega)).trans (ht.aligned hk.free)
      have := hk.len_le
      rw [Nat.dvd_add_right hw, Nat.pow_dvd_pow_iff_le_right (by decide)]
      omega
  unique := by
    rintro d v v' (⟨hF, -⟩ | ⟨hrd, hdl, rfl⟩) (⟨hF', -⟩ | ⟨hrd', hdl', rfl⟩)
    · exact ht.unique hF hF'
    · exact absurd (hk.deepest hF hdl') (by omega)
    · exact absurd (hk.deepest hF' hdl) (by omega)
    · rfl
  desc := by
    rintro d d' v v' (⟨hF, hdr⟩ | ⟨hrd, hdl, rfl⟩) (⟨hF', hdr'⟩ | ⟨hrd', hdl', rfl⟩) hlt
    · exact ht.desc hF hF' hlt
    · have := hk.deepest hF (by omega)
      have := ht.desc hF hk.free (by omega)
      have := two_mul_two_pow_le hrd' (hdl'.trans hk.len_le)
      omega
    · exact (ht.desc hk.free hF' (by omega)).trans (Nat.le_add_right ..)
    · have := two_mul_two_pow_le hlt (hdl'.trans hk.len_le)
      omega
  tile := by
    intro x hx
    have hold := ht.tile x hx
    rw [hk.freeLeaf_splitNode ht]
    simp only [List.mem_append, List.mem_singleton, or_and_right, exists_or, exists_eq_left, hold, hk.under_iff ht]
    tauto

/-- An earlier codeword has no leaf with the new one in common. -/
theorem Takes.no_conflict {j : Code} (hj : j ∈ cs) (hjfit : j.Fits) : ¬(j.bits <+: k.bits ∨ k.bits <+: j.bits) := by
  obtain ⟨-, hlen, hcw⟩ := hk.fits ht
  intro hconf
  obtain ⟨x, hjx, hkx⟩ := (prefix_or_prefix_iff hjfit.2.2 hcw hjfit.2.1 hlen).mp hconf
  exact (ht.tile x (hkx.lt hcw hlen)).mp ⟨j, hj, hjx⟩ ⟨r, w, hk.free, inNode_mono hk.le ((hk.under_iff ht x).mp hkx)⟩

/-- The first leaf of a lower word of the codeword's length is not free: a node below that length would be a first child there. -/
theorem Takes.not_freeLeaf {v : Nat} (hv : v < k.cw.toNat) : ¬FreeLeaf F (v * 2 ^ (32 - k.len)) := by
  rintro ⟨d, u, hF, hlo, hhi⟩
  rw [hk.cw] at hv
  have hw : (v + 1) * 2 ^ (32 - k.len) ≤ w := (Nat.le_div_iff_mul_le (Nat.two_pow_pos _)).mp hv
  have hpos := Nat.two_pow_pos (32 - k.len)
  rw [Nat.succ_mul] at hw
  rcases Nat.lt_or_ge k.len d with hdl | hdl
  · have hdiv : 2 ^ (33 - d) ∣ v * 2 ^ (32 - k.len) := (Nat.pow_dvd_pow 2 (by omega)).trans (Nat.dvd_mul_left ..)
    have hsub := Nat.dvd_sub ((Nat.pow_dvd_pow 2 (by omega)).trans hdiv) (ht.aligned hF)
    have heq : u = v * 2 ^ (32 - k.len) := by
      have := Nat.eq_zero_of_dvd_of_lt hsub (by omega)
      omega
    exact ht.right hF (by omega) (heq ▸ hdiv)
  · rcases Nat.lt_or_eq_of_le (hk.deepest hF hdl) with h | rfl
    · have := Nat.le_of_add_right_le (ht.desc hF hk.free h)
      omega
    · have := ht.unique hF hk.free
      omega

/-- A lower word of the codeword's length conflicts with an earlier codeword. -/
theorem Takes.exists_conflict (hfit : ∀ j ∈ cs, j.Fits) {v : Nat} (hv : v < k.cw.toNat) :
    ∃ j ∈ cs, j.bits <+: word k.len v ∨ word k.len v <+: j.bits := by
  obtain ⟨-, hlen, hcw⟩ := hk.fits ht
  have hleaf : Under k.len v (v * 2 ^ (32 - k.len)) := Nat.mul_div_cancel v (Nat.two_pow_pos _)
  obtain ⟨j, hj, hjx⟩ := (ht.tile _ (hleaf.lt (hv.trans hcw) hlen)).mpr (hk.not_freeLeaf ht hv)
  obtain ⟨-, hjlen, hjcw⟩ := hfit j hj
  exact ⟨j, hj, (prefix_or_prefix_iff hjcw (hv.trans hcw) hjlen hlen).mpr ⟨_, hjx, hleaf⟩⟩

end

/-- Every codeword is the lowest of its length that the ones before it leave free. -/
def LowestFree (cs : List Code) : Prop :=
  ∀ i (h : i < cs.length) (v : Nat), v < cs[i].cw.toNat →
    ∃ j, ∃ hj : j < cs.length, j < i ∧ (cs[j].bits <+: word cs[i].len v ∨ word cs[i].len v <+: cs[j].bits)

theorem LowestFree.snoc {cs : List Code} {k : Code} (h : LowestFree cs)
    (hk : ∀ v, v < k.cw.toNat → ∃ j ∈ cs, j.bits <+: word k.len v ∨ word k.len v <+: j.bits) : LowestFree (cs ++ [k]) := by
  have hlen : (cs ++ [k]).length = cs.length + 1 := by simp
  intro i hi v hv
  rcases Nat.lt_or_eq_of_le (Nat.le_of_lt_succ (hlen ▸ hi)) with hlt | rfl
  · rw [List.getElem_append_left hlt] at hv ⊢
    obtain ⟨j, hj, hji, hconf⟩ := h i hlt v hv
    exact ⟨j, by omega, hji, by rwa [List.getElem_append_left hj]⟩
  · rw [List.getElem_concat_length rfl] at hv ⊢
    obtain ⟨j, hj, hconf⟩ := hk v hv
    obtain ⟨n, hn, rfl⟩ := List.getElem_of_mem hj
    exact ⟨n, by omega, hn, by rwa [List.getElem_append_left hn]⟩

/-- What R214 and the lowest-free rule of R196 ask of codewords in the order of assignment. -/
structure Canonical (cs : List Code) : Prop where
  fits : ∀ k ∈ cs, k.Fits
  prefixFree : PrefixFree cs
  lowest : LowestFree cs

theorem canonical_nil : Canonical [] := ⟨fun _ h => absurd h List.not_mem_nil, .nil, fun _ h => absurd h (Nat.not_lt_zero _)⟩

theorem Canonical.snoc {cs : List Code} {F : Nat → Nat → Prop} {r w : Nat} {k : Code} (hc : Canonical cs) (ht : Tracks cs F) (hk : Takes F r w k) :
    Canonical (cs ++ [k]) where
  fits := List.forall_mem_append.mpr ⟨hc.fits, List.forall_mem_singleton.mpr (hk.fits ht)⟩
  prefixFree := List.pairwise_append.mpr ⟨hc.prefixFree, List.pairwise_singleton .., fun j hj => List.forall_mem_singleton.mpr
    (not_or.mp (hk.no_conflict ht hj (hc.fits j hj)))⟩
  lowest := hc.lowest.snoc fun _ => hk.exists_conflict ht hc.fits

-- the tracker of the model

theorem freeDepth_spec (next : List (BitVec 32)) (l : Nat) :
    freeDepth next l ≤ l ∧ (freeDepth next l ≠ 0 → aget next (freeDepth next l) ≠ 0#32) ∧ ∀ d, freeDepth next l < d → d ≤ l → aget next d = 0#32 := by
  induction l with
  | zero => exact ⟨le_rfl, fun h => absurd rfl h, fun d h h' => absurd h (by omega)⟩
  | succ l ih =>
    rw [freeDepth]
    split
    next hzero =>
      obtain ⟨hle, hfree, hnone⟩ := ih
      refine ⟨hle.trans (Nat.le_succ l), hfree, fun d h h' => ?_⟩
      rcases Nat.lt_or_eq_of_le h' with h' | rfl
      · exact hnone d h (Nat.le_of_lt_succ h')
      · exact hzero
    next hfree => exact ⟨le_rfl, fun _ => hfree, fun d h h' => absurd h (by omega)⟩

theorem aget_hangSiblings (w : BitVec 32) (r k : Nat) (next : List (BitVec 32)) (d : Nat) :
    aget (hangSiblings w r k next) d = if r < d ∧ d ≤ r + k then w + (1#32 <<< (32 - d)) else aget next d := by
  induction k generalizing next with
  | zero => rw [hangSiblings, if_neg (by omega)]
  | succ k ih =>
    rw [hangSiblings, ih]
    by_cases hin : r < d ∧ d ≤ r + k
    · rw [if_pos hin, if_pos (by omega)]
    · rw [if_neg hin, aget_aset]
      by_cases heq : d = r + k + 1
      · rw [if_pos heq, if_pos (by omega), heq]
      · rw [if_neg heq, if_neg (by omega)]

/-- The tracker after an assignment, depth by depth. -/
theorem aget_tracker_after (next : List (BitVec 32)) {r l : Nat} (h : r ≤ l) (d : Nat) :
    aget (hangSiblings (aget next r) r (l - r) (aset next r 0#32)) d =
      if d = r then 0#32 else if r < d ∧ d ≤ l then aget next r + (1#32 <<< (32 - d)) else aget next d := by
  rw [aget_hangSiblings, aget_aset, Nat.add_sub_cancel' h]
  by_cases hd : d = r
  · rw [if_neg (by omega), if_pos hd, if_pos hd]
  · rw [if_neg hd, if_neg hd]

/-- The sibling at depth `d` of a first child under a node further up: its first leaf is no carry away from the node's. -/
theorem toNat_sibling {w : BitVec 32} {r d : Nat} (hroom : w.toNat + 2 ^ (32 - r) ≤ 2 ^ 32) (hrd : r < d) (hd : d ≤ 32) :
    (w + (1#32 <<< (32 - d))).toNat = w.toNat + 2 ^ (32 - d) := by
  have hhalf := two_mul_two_pow_le hrd hd
  have hpos := Nat.two_pow_pos (32 - d)
  have hone : (1#32 <<< (32 - d)).toNat = 2 ^ (32 - d) := by
    rw [BitVec.toNat_shiftLeft, BitVec.toNat_ofNat, Nat.shiftLeft_eq]
    have : 2 ^ (32 - d) < 2 ^ 32 := Nat.pow_lt_pow_right (by decide) (by omega)
    omega
  rw [BitVec.toNat_add, hone]
  omega

/-- What an assignment can do: it takes the deepest depth with a free node, and hangs the siblings it passes. -/
theorem assignOne_eq_some {next next' : List (BitVec 32)} {l e : Nat} {k : Code} (h : assignOne next l e = some (k, next')) :
    ∃ r, 1 ≤ r ∧ r ≤ l ∧ aget next r ≠ 0#32 ∧ (∀ d, r < d → d ≤ l → aget next d = 0#32) ∧
      k = { len := l, cw := aget next r >>> (32 - l), entry := e } ∧
      ∀ d, aget next' d = if d = r then 0#32 else if r < d ∧ d ≤ l then aget next r + (1#32 <<< (32 - d)) else aget next d := by
  obtain ⟨hle, hfree, hnone⟩ := freeDepth_spec next l
  simp only [assignOne] at h
  split at h
  next => cases h
  next hr =>
    cases h
    exact ⟨_, Nat.one_le_iff_ne_zero.mpr hr, hle, hfree hr, hnone, rfl, aget_tracker_after next hle⟩

/-- An assignment takes the deepest free node that the tracker stands for, and leaves a tracker in which it is split. -/
theorem assignOne_takes {cs : List Code} {next next' : List (BitVec 32)} {l e : Nat} {k : Code} (ht : Tracks cs (trackerNodes next))
    (hpos : 1 ≤ l) (hl : l ≤ 32) (h : assignOne next l e = some (k, next')) :
    ∃ r w, Takes (trackerNodes next) r w k ∧ trackerNodes next' = splitNode (trackerNodes next) r w k.len := by
  obtain ⟨r, hr, hrl, hfree, hnone, rfl, hnext⟩ := assignOne_eq_some h
  have hw : (aget next r).toNat ≠ 0 := fun h0 => hfree (BitVec.eq_of_toNat_eq h0)
  have hnode : trackerNodes next r (aget next r).toNat := ⟨hr, hrl.trans hl, hw, rfl⟩
  have hbetween : ∀ {d v}, trackerNodes next d v → d ≤ l → d ≤ r := by
    rintro d v ⟨-, -, hv, rfl⟩ hd
    by_contra hrd
    exact hv (by rw [hnone d (by omega) hd]; rfl)
  refine ⟨r, (aget next r).toNat, ⟨hnode, hrl, hbetween, hpos, hl, by rw [BitVec.toNat_ushiftRight, Nat.shiftRight_eq_div_pow]⟩, ?_⟩
  funext d v
  rw [eq_iff_iff, trackerNodes, hnext, splitNode]
  by_cases hdr : d = r
  · rw [if_pos hdr]
    exact iff_of_false (fun ⟨_, _, hv, h0⟩ => hv h0) (by omega)
  · rw [if_neg hdr, and_iff_left hdr]
    by_cases hin : r < d ∧ d ≤ l
    · have hold : ¬trackerNodes next d v := fun hv => absurd (hbetween hv hin.2) (by omega)
      have hsize := Nat.two_pow_pos (32 - d)
      rw [if_pos hin, or_iff_right hold, toNat_sibling (ht.room hnode) hin.1 (hin.2.trans hl)]
      dsimp only
      omega
    · rw [if_neg hin, or_iff_left (fun h => hin ⟨h.1, h.2.1⟩), trackerNodes]

/-- The tracker that the first used entry leaves: the root has been taken. -/
theorem trackerNodes_firstFree {l : Nat} (hl : l ≤ 32) : trackerNodes (firstFree l) = splitNode rootNode 0 0 l := by
  funext d v
  have hroot : splitNode rootNode 0 0 l d v ↔ 1 ≤ d ∧ d ≤ l ∧ v = 2 ^ (32 - d) := by
    rw [splitNode, Nat.zero_add]
    exact or_iff_right fun h => h.2 h.1.1
  rw [hroot, eq_iff_iff]
  by_cases hin : 1 ≤ d ∧ d ≤ l
  · have hpos := Nat.two_pow_pos (32 - d)
    have hsib := toNat_sibling (w := 0#32) (r := 0) (by decide) hin.1 (hin.2.trans hl)
    rw [BitVec.zero_add, BitVec.toNat_ofNat, Nat.zero_mod, Nat.zero_add] at hsib
    rw [trackerNodes, firstFree, aget_map_range _ _ _ (by omega), if_pos hin, hsib]
    omega
  · refine iff_of_false ?_ (by omega)
    rintro ⟨-, hd, hv, rfl⟩
    rw [firstFree, aget_map_range _ _ _ (by omega), if_neg hin] at hv
    exact hv rfl

-- the assignment as a whole

theorem assignRest_cons_eq_some {next t : List (BitVec 32)} {e l : Nat} {ls : List Nat} {cs : List Code} (hl : l ≠ 0)
    (h : assignRest next e (l :: ls) = some (cs, t)) :
    ∃ k next' ks, assignOne next l e = some (k, next') ∧ assignRest next' (e + 1) ls = some (ks, t) ∧ cs = k :: ks := by
  cases l with
  | zero => exact absurd rfl hl
  | succ l =>
    simp only [assignRest] at h
    split at h
    next => cases h
    next k next' hone =>
      split at h
      next => cases h
      next ks t' hrest =>
        cases h
        exact ⟨k, next', ks, hone, hrest, rfl⟩

theorem assignFrom_cons_eq_some {t : List (BitVec 32)} {e l : Nat} {ls : List Nat} {cs : List Code} (hl : l ≠ 0)
    (h : assignFrom e (l :: ls) = some (cs, t)) :
    ∃ ks, assignRest (firstFree l) (e + 1) ls = some (ks, t) ∧ cs = { len := l, cw := 0#32, entry := e } :: ks := by
  cases l with
  | zero => exact absurd rfl hl
  | succ l =>
    simp only [assignFrom] at h
    split at h
    next => cases h
    next ks t' hrest =>
      cases h
      exact ⟨ks, hrest, rfl⟩

/-- Every further entry keeps the codewords canonical, the tracker standing for the nodes that they leave free. -/
theorem assignRest_canonical {ls : List Nat} (hls : ∀ l ∈ ls, l ≤ 32) {cs ks : List Code} {next t : List (BitVec 32)} {e : Nat}
    (hc : Canonical cs) (ht : Tracks cs (trackerNodes next)) (h : assignRest next e ls = some (ks, t)) : Canonical (cs ++ ks) := by
  induction ls generalizing cs ks next e with
  | nil =>
    cases h
    rwa [List.append_nil]
  | cons l ls ih =>
    rw [List.forall_mem_cons] at hls
    by_cases hl : l = 0
    · subst hl
      exact ih hls.2 hc ht h
    · obtain ⟨k, next', ks', hone, hrest, rfl⟩ := assignRest_cons_eq_some hl h
      obtain ⟨r, w, hk, hnext⟩ := assignOne_takes ht (Nat.one_le_iff_ne_zero.mpr hl) hls.1 hone
      rw [List.append_cons]
      exact ih hls.2 (hc.snoc ht hk) (hnext ▸ hk.tracks ht) hrest

theorem assignFrom_canonical {ls : List Nat} (hls : ∀ l ∈ ls, l ≤ 32) {ks : List Code} {t : List (BitVec 32)} {e : Nat}
    (h : assignFrom e ls = some (ks, t)) : Canonical ks := by
  induction ls generalizing e with
  | nil =>
    cases h
    exact canonical_nil
  | cons l ls ih =>
    rw [List.forall_mem_cons] at hls
    by_cases hl : l = 0
    · subst hl
      exact ih hls.2 h
    · obtain ⟨ks', hrest, rfl⟩ := assignFrom_cons_eq_some hl h
      have hk : Takes rootNode 0 0 { len := l, cw := 0#32, entry := e } :=
        ⟨⟨rfl, rfl⟩, Nat.zero_le l, fun hv _ => hv.1.le, Nat.one_le_iff_ne_zero.mpr hl, hls.1, (Nat.zero_div _).symm⟩
      exact assignRest_canonical hls.2 (canonical_nil.snoc tracks_root hk) (trackerNodes_firstFree hls.1 ▸ hk.tracks tracks_root) hrest

/-- The used entries of a length list, numbered from `e` on, with their lengths. -/
def usedEntries (e : Nat) (ls : List Nat) : List (Nat × Nat) :=
  ((List.range ls.length).map fun i => (e + i, aget ls i)).filter fun p => decide (p.2 ≠ 0)

theorem usedEntries_cons (e l : Nat) (ls : List Nat) :
    usedEntries e (l :: ls) = if l = 0 then usedEntries (e + 1) ls else (e, l) :: usedEntries (e + 1) ls := by
  have hshift : (fun i => (e + i, aget (l :: ls) i)) ∘ Nat.succ = fun i => (e + 1 + i, aget ls i) := by
    funext i
    simp [Nat.add_comm, Nat.add_left_comm]
  rw [usedEntries, List.length_cons, List.range_succ_eq_map, List.map_cons, List.map_map, hshift, List.filter_cons]
  by_cases hl : l = 0 <;> simp [hl, usedEntries]

theorem assignRest_entries {ls : List Nat} {ks : List Code} {next t : List (BitVec 32)} {e : Nat} (h : assignRest next e ls = some (ks, t)) :
    ks.map (fun k => (k.entry, k.len)) = usedEntries e ls := by
  induction ls generalizing ks next e with
  | nil =>
    cases h
    rfl
  | cons l ls ih =>
    rw [usedEntries_cons]
    by_cases hl : l = 0
    · subst hl
      exact ih h
    · obtain ⟨k, next', ks', hone, hrest, rfl⟩ := assignRest_cons_eq_some hl h
      obtain ⟨r, -, -, -, -, rfl, -⟩ := assignOne_eq_some hone
      rw [if_neg hl, List.map_cons, ih hrest]

theorem assignFrom_entries {ls : List Nat} {ks : List Code} {t : List (BitVec 32)} {e : Nat} (h : assignFrom e ls = some (ks, t)) :
    ks.map (fun k => (k.entry, k.len)) = usedEntries e ls := by
  induction ls generalizing e with
  | nil =>
    cases h
    rfl
  | cons l ls ih =>
    rw [usedEntries_cons]
    by_cases hl : l = 0
    · subst hl
      exact ih h
    · obtain ⟨ks', hrest, rfl⟩ := assignFrom_cons_eq_some hl h
      rw [if_neg hl, List.map_cons, assignRest_entries hrest]

/-- Settles O23: the entries by the recursion over the list, the rest by the free nodes that the tracker stands for. -/
theorem codewordsCanonical : Obligations.CodewordsCanonical := by
  intro lens cs next hlens h
  obtain ⟨hfit, hpre, hlow⟩ := assignFrom_canonical hlens h
  refine ⟨?_, hfit, hpre, hlow, storeOrder_perm fun k hk => (hfit k hk).2.1, storeOrder_pairwise cs⟩
  rw [assignFrom_entries h, usedEntries]
  simp only [Nat.zero_add]

/-- A codeword's length is the one that the list gives its entry. -/
theorem aget_entry_eq_len {lens : List Nat} {cs : List Code} {next : List (BitVec 32)} (h : assignFrom 0 lens = some (cs, next)) {k : Code} (hk : k ∈ cs) :
    aget lens k.entry = k.len := by
  have hmem : (k.entry, k.len) ∈ usedEntries 0 lens := by
    rw [← assignFrom_entries h]
    exact List.mem_map_of_mem hk
  obtain ⟨i, -, hi⟩ := List.mem_map.mp (List.mem_filter.mp hmem).1
  rw [Nat.zero_add, Prod.mk.injEq] at hi
  rw [← hi.1, hi.2]

/-- Settles O25: canonical codewords in storage order can be told apart, so that the walk ends with the one whose bits are ahead. -/
theorem codewordsRoundTrip : Obligations.CodewordsRoundTrip := by
  intro s c lens cs next k hlens h hcodes hc hv hk hp
  obtain ⟨hfit, hpre, -⟩ := assignFrom_canonical hlens h
  have hdec : Decodable (s.codebook c).codes := hcodes ▸ decodable_storeOrder ⟨hpre, hfit⟩
  have hmem : k ∈ (s.codebook c).codes := by
    rw [hcodes]
    exact (storeOrder_perm fun k hk => (hfit k hk).2.1).mem_iff.mpr hk
  rw [aget_entry_eq_len h hk, exec_cbScalar_ok hc hv hdec hmem hp]
  rfl

end Sys2Proof.Machine
end

section
/-! PROOF. The Floor unit (42_floor): the sort of the X list, and what `FL_SETUP` stores. Setup either aborts or completes, since none of its reads ends the
stream cleanly (`NoCleanEnd`). -/

namespace Sys2Proof.Machine

-- the sort of positions (R236)

/-- Position `i` stands before position `j` in `SORT`: its X value is smaller, or it is equal and the position is. -/
def SortsBefore (xs : List Nat) (i j : Nat) : Prop := aget xs i < aget xs j ∨ (aget xs i = aget xs j ∧ i < j)

/-- An insertion goes in front of the first position whose X is larger. -/
theorem insertPos_eq_orderedInsert (xs : List Nat) (i : Nat) (js : List Nat) :
    insertPos xs i js = js.orderedInsert (fun a b => aget xs a < aget xs b) i := by
  induction js with
  | nil => rfl
  | cons j js ih =>
    rw [insertPos, ih, List.orderedInsert_cons]
    by_cases h : aget xs i < aget xs j
    · rw [if_neg h.not_ge, if_pos h]
    · rw [if_pos (Nat.le_of_not_lt h), if_neg h]

theorem insertPos_perm (xs : List Nat) (i : Nat) (js : List Nat) : (insertPos xs i js).Perm (i :: js) := by
  rw [insertPos_eq_orderedInsert]
  exact List.perm_orderedInsert _ i js

/-- The position inserted is the largest so far, so that among equal X values it belongs last. -/
theorem insertPos_pairwise {xs : List Nat} {i : Nat} {js : List Nat} (hlt : ∀ j ∈ js, j < i) (hjs : js.Pairwise (SortsBefore xs)) :
    (insertPos xs i js).Pairwise (SortsBefore xs) := by
  induction js with
  | nil => exact List.pairwise_singleton _ i
  | cons j js ih =>
    rw [List.forall_mem_cons] at hlt
    obtain ⟨hj, hrest⟩ := List.pairwise_cons.mp hjs
    rw [insertPos]
    split
    next hle =>
      refine List.pairwise_cons.mpr ⟨fun k hk => ?_, ih hlt.2 hrest⟩
      rcases List.mem_cons.mp ((insertPos_perm xs i js).mem_iff.mp hk) with rfl | hk
      · exact hle.lt_or_eq.imp_right fun heq => ⟨heq, hlt.1⟩
      · exact hj k hk
    next hgt =>
      have hi : aget xs i < aget xs j := Nat.lt_of_not_le hgt
      refine List.pairwise_cons.mpr ⟨List.forall_mem_cons.mpr ⟨.inl hi, fun k hk => .inl ?_⟩, hjs⟩
      exact (hj k hk).elim hi.trans fun h => hi.trans_eq h.1

/-- The positions below `n`, in the order in which they stand in `SORT`. -/
def sortedBelow (xs : List Nat) (n : Nat) : List Nat := (List.range n).foldl (fun acc i => insertPos xs i acc) []

theorem sortedBelow_succ (xs : List Nat) (n : Nat) : sortedBelow xs (n + 1) = insertPos xs n (sortedBelow xs n) := by
  rw [sortedBelow, List.range_succ, List.foldl_append]
  rfl

theorem sortedBelow_perm (xs : List Nat) (n : Nat) : (sortedBelow xs n).Perm (List.range n) := by
  induction n with
  | zero => exact .refl _
  | succ n ih =>
    rw [sortedBelow_succ, List.range_succ]
    exact (insertPos_perm xs n _).trans ((ih.cons n).trans (List.perm_append_singleton n _).symm)

theorem sortedBelow_pairwise (xs : List Nat) (n : Nat) : (sortedBelow xs n).Pairwise (SortsBefore xs) := by
  induction n with
  | zero => exact .nil
  | succ n ih =>
    rw [sortedBelow_succ]
    exact insertPos_pairwise (fun j hj => List.mem_range.mp ((sortedBelow_perm xs n).mem_iff.mp hj)) ih

theorem sortPositions_perm (xs : List Nat) : (sortPositions xs).Perm (List.range xs.length) := sortedBelow_perm xs xs.length

theorem sortPositions_pairwise (xs : List Nat) : (sortPositions xs).Pairwise (SortsBefore xs) := sortedBelow_pairwise xs xs.length

-- pieces that do not raise the clean end, which `DECODE` alone does (46_frame_output R361)

/-- No run of the piece raises the clean end. -/
def NoCleanEnd {α : Type} (m : M α) : Prop := ∀ s t, m s ≠ .error (.raise .cleanEnd) t

section

variable {α β : Type}

theorem NoCleanEnd.pure (a : α) : NoCleanEnd (pure a : M α) := fun _ _ => nofun

theorem NoCleanEnd.read (f : State → α) : NoCleanEnd (M.read f) := fun _ _ => nofun

theorem NoCleanEnd.update (f : State → State) : NoCleanEnd (M.update f) := fun _ _ => nofun

theorem NoCleanEnd.stop {x : Stop} (hx : x ≠ .raise .cleanEnd) : NoCleanEnd (M.stop x : M α) := fun _ _ h => by
  cases h
  exact hx rfl

theorem NoCleanEnd.ite {p : Prop} [Decidable p] {m n : M α} (hm : NoCleanEnd m) (hn : NoCleanEnd n) : NoCleanEnd (if p then m else n) := by
  split <;> assumption

theorem NoCleanEnd.ensure (p : Prop) [Decidable p] {x : Stop} (hx : x ≠ .raise .cleanEnd) : NoCleanEnd (M.ensure p x) := fun s t => by
  by_cases hp : p
  · rw [M.run_ensure_pos hp]
    exact NoCleanEnd.pure () s t
  · rw [M.run_ensure_neg hp]
    exact NoCleanEnd.stop (α := Unit) hx s t

theorem NoCleanEnd.bind {m : M α} {f : α → M β} (hm : NoCleanEnd m) (hf : ∀ a, NoCleanEnd (f a)) : NoCleanEnd (m >>= f) := fun s t h =>
  (M.bind_eq_error h).elim (hm s t) fun ⟨a, u, _, h'⟩ => hf a u t h'

theorem NoCleanEnd.collect {f : Nat → M α} (h : ∀ i, NoCleanEnd (f i)) (k i : Nat) : NoCleanEnd (collect k i f) := by
  induction k generalizing i with
  | zero => exact .pure _
  | succ k ih => exact .bind (h i) fun _ => .bind (ih (i + 1)) fun _ => .pure _

/-- A quiet micro-operation that does not raise the clean end aborts or completes (60_exceptions R400). -/
theorem microUnit_aborts_or_completes {m : M Unit} {s t : State} (hq : Keeps Quiet m) (hc : NoCleanEnd m) (h : microUnit m s = .next t) :
    Aborted s t ∨ ∃ u, m s = .ok () u ∧ t = u.setResult .none := by
  rcases microUnit_eq_next h with hok | ⟨c, u, herr, rfl⟩
  · exact .inr hok
  · refine .inl ((hq.error herr).aborted ?_)
    rintro rfl
    exact hc s u herr

end

theorem readU8Raw_noCleanEnd : NoCleanEnd readU8Raw := fun s t => by
  unfold readU8Raw
  cases s.src.bytes with
  | cons b bs => exact nofun
  | nil => cases s.src.terminal <;> exact nofun

theorem pull_noCleanEnd : NoCleanEnd pull := by
  refine .bind readU8Raw_noCleanEnd fun a => ?_
  cases a
  · exact .bind (.update _) fun _ => .pure _
  · exact .pure _
  · exact .pure _

theorem fillBits_noCleanEnd (n k : Nat) : NoCleanEnd (fillBits n k) := by
  induction k with
  | zero => exact .pure _
  | succ k ih =>
    refine .bind (.read _) fun held => .ite (.bind pull_noCleanEnd fun a => ?_) (.pure _)
    cases a
    · exact ih
    · exact .pure _
    · exact .pure _

theorem readBits_noCleanEnd (n : Nat) : NoCleanEnd (readBits n) := by
  refine .bind (.ensure _ nofun) fun _ => .bind (fillBits_noCleanEnd n n) fun a => ?_
  cases a
  · exact .bind (.read _) fun _ => .bind (.update _) fun _ => .pure _
  · exact .stop nofun
  · exact .stop nofun

-- what FL_SETUP stores, and that it does not raise the clean end (R231 to R239)

theorem floorOperand_noCleanEnd (f : Nat) : NoCleanEnd (floorOperand f) := fun s => NoCleanEnd.ensure _ Stop.noConfusion s

theorem floorBookCheck_noCleanEnd (b : Nat) : NoCleanEnd (floorBookCheck b) := fun s => NoCleanEnd.ensure _ Stop.noConfusion s

theorem readSubbook_noCleanEnd : NoCleanEnd readSubbook := by
  refine .bind (readBits_noCleanEnd _) fun v => ?_
  cases bookOf v with
  | none => exact .pure _
  | some b => exact .bind (floorBookCheck_noCleanEnd b) fun _ => .pure _

theorem readFloorClass_noCleanEnd : NoCleanEnd readFloorClass :=
  have hsub := fun k => NoCleanEnd.collect (fun _ => readSubbook_noCleanEnd) k 0
  .bind (readBits_noCleanEnd _) fun _ => .bind (readBits_noCleanEnd _) fun _ =>
    .ite (.bind (readBits_noCleanEnd _) fun _ => .bind (floorBookCheck_noCleanEnd _) fun _ => .bind (hsub _) fun _ => .pure _)
      (.bind (hsub _) fun _ => .pure _)

theorem readXs_noCleanEnd (bits k : Nat) (xs : List Nat) : NoCleanEnd (readXs bits k xs) := by
  induction k generalizing xs with
  | zero => exact .pure _
  | succ k ih => exact .bind (.ensure _ nofun) fun _ => .bind (readBits_noCleanEnd _) fun _ => ih _

theorem readPartitionXs_noCleanEnd (bits : Nat) (classes : List FloorClass) (ks xs : List Nat) : NoCleanEnd (readPartitionXs bits classes ks xs) := by
  induction ks generalizing xs with
  | nil => exact .pure _
  | cons k ks ih => exact .bind (readXs_noCleanEnd _ _ _) fun _ => ih _

theorem floorBody_noCleanEnd (f : Nat) : NoCleanEnd (floorBody f) :=
  .bind (floorOperand_noCleanEnd f) fun _ => .bind (readBits_noCleanEnd _) fun _ => .bind (.collect (fun _ => readBits_noCleanEnd _) _ _) fun _ =>
    .bind (.collect (fun _ => readFloorClass_noCleanEnd) _ _) fun _ => .bind (readBits_noCleanEnd _) fun _ => .bind (readBits_noCleanEnd _) fun _ =>
      .bind (readPartitionXs_noCleanEnd _ _ _ _) fun _ => .bind (.ensure _ nofun) fun _ => .update _

theorem floorSetup_noCleanEnd (f : Nat) : NoCleanEnd (floorSetup f) :=
  .bind (floorOperand_noCleanEnd f) fun _ => .bind (readBits_noCleanEnd _) fun _ => .ite (floorBody_noCleanEnd f) (.stop nofun)

theorem floorSetup_quiet (f : Nat) : Keeps Quiet (floorSetup f) := floorSetup_keeps Quiet.chain readBits_quiet fun _ _ => Quiet.dec rfl

@[simp] theorem State.floor_stored (s : State) (f : Nat) (fl : Floor) :
    (s.mapTabs fun t => { t with fl := aset t.fl f fl }).floor f = fl := aget_aset_self _ f fl

@[simp] theorem State.floor_setResult (s : State) (r : Result) (f : Nat) : (s.setResult r).floor f = s.floor f := rfl

/-- A floor header that is read to its end stores the sort of the X list that it stores. -/
theorem floorBody_stores_sort {f : Nat} {s t : State} (h : floorBody f s = .ok () t) : (t.floor f).sort = sortPositions (t.floor f).xs := by
  obtain ⟨_, _, _, h⟩ := M.bind_eq_ok h
  obtain ⟨_parts, _, _, h⟩ := M.bind_eq_ok h
  obtain ⟨_partClass, _, _, h⟩ := M.bind_eq_ok h
  obtain ⟨_classes, _, _, h⟩ := M.bind_eq_ok h
  obtain ⟨_mult, _, _, h⟩ := M.bind_eq_ok h
  obtain ⟨_rangebits, _, _, h⟩ := M.bind_eq_ok h
  obtain ⟨_xs, _, _, h⟩ := M.bind_eq_ok h
  obtain ⟨_, _, _, h⟩ := M.bind_eq_ok h
  cases h
  rw [State.floor_stored]

theorem floorSetup_stores_sort {f : Nat} {s t : State} (h : floorSetup f s = .ok () t) : (t.floor f).sort = sortPositions (t.floor f).xs := by
  obtain ⟨_, _, _, h⟩ := M.bind_eq_ok h
  obtain ⟨_, _, _, h⟩ := M.bind_eq_ok h
  split at h
  · exact floorBody_stores_sort h
  · cases h

/-- Settles O30: each position in turn is inserted behind those of its X value, and an `FL_SETUP` that is not aborted has written the entry with its sort. -/
theorem sortIsStable : Obligations.SortIsStable := by
  refine ⟨fun xs => ⟨sortPositions_perm xs, sortPositions_pairwise xs⟩, fun s t f h hab => ?_⟩
  obtain ⟨u, hok, rfl⟩ := (microUnit_aborts_or_completes (floorSetup_quiet f) (floorSetup_noCleanEnd f) h).resolve_left hab
  rw [State.floor_setResult]
  exact floorSetup_stores_sort hok

end Sys2Proof.Machine
end

section
/-! PROOF. The Inverse Transform unit (45_imdct): `IMDCT` completes or is refused, and when it completes it has overlaid one channel's buffer with `IMDCT_FN` of
the first half of its block. -/

namespace Sys2Proof.Machine

-- the current bank after a write of one of its channels (10_state R60)

section

variable (s : State) (ch : Nat) (v : List F32)

theorem State.cur_setCur (j : Nat) : (s.setCur ch v).cur j = if j = ch then v else s.cur j := by
  unfold State.setCur State.cur
  cases h : s.dec.frame.curSel <;> simp [h, aget_aset]

@[simp] theorem State.cur_setCur_self : (s.setCur ch v).cur ch = v := by simp [State.cur_setCur]

@[simp] theorem State.cur_setResult (r : Result) (j : Nat) : (s.setResult r).cur j = s.cur j := rfl

@[simp] theorem State.prev_setCur (j : Nat) : (s.setCur ch v).prev j = s.prev j := by
  unfold State.setCur State.prev
  cases h : s.dec.frame.curSel <;> simp [h]

/-- A write of the current bank changes the two banks at most. -/
theorem State.setCur_frame :
    s.setCur ch v =
      { s with dec := { s.dec with work := { s.dec.work with buf0 := (s.setCur ch v).dec.work.buf0, buf1 := (s.setCur ch v).dec.work.buf1 } } } := by
  unfold State.setCur
  split <;> rfl

theorem State.setCur_banksBut : BanksBut s (s.setCur ch v) [ch] :=
  ⟨s.prev_setCur ch v, fun j hj => by rw [State.cur_setCur, if_neg (by simpa using hj)]⟩

end

-- IMDCT_FN (R325, R328, R329)

/-- Arrays that agree on their first elements have the same first part. -/
theorem atake_congr {α : Type} [Inhabited α] {n : Nat} {l m : List α} (h : ∀ k, k < n → aget l k = aget m k) : atake n l = atake n m := by
  refine List.ext_getElem (by simp) fun k hl hm => ?_
  have hk : k < n := by simpa using hl
  rw [← aget_of_lt hl, ← aget_of_lt hm, aget_atake, aget_atake, if_pos hk, if_pos hk, h k hk]

theorem forall_mem_atake {α : Type} [Inhabited α] {n : Nat} {l : List α} {p : α → Prop} (h : ∀ k, k < n → p (aget l k)) : ∀ x ∈ atake n l, p x := by
  intro x hx
  obtain ⟨k, hk, rfl⟩ := List.getElem_of_mem hx
  have hn : k < n := by simpa using hk
  rw [← aget_of_lt hk, aget_atake, if_pos hn]
  exact h k hn

theorem f32IsZero_f32Of_zero (neg : Bool) : f32IsZero (f32Of neg 0) = true := by cases neg <;> decide

@[simp] theorem length_imdctFn (n : Nat) (x : List F32) : (imdctFn n x).length = n := by
  unfold imdctFn
  split <;> simp

theorem imdctFn_zeros {n i : Nat} {x : List F32} (hx : ∀ a ∈ x, f32IsZero a = true) (hi : i < n) : f32IsZero (aget (imdctFn n x) i) = true := by
  rw [imdctFn, if_pos (List.all_eq_true.mpr hx), aget_map_range _ _ _ hi]
  exact f32IsZero_f32Of_zero _

-- one transform (R325)

/-- The spectrum of a channel: the first half of its block. -/
def State.spectrum (b : Bool) (ch : Nat) (s : State) : List F32 := atake (s.block b / 2) (s.cur ch)

/-- The state after the transform of a channel. -/
def State.transformed (b : Bool) (ch : Nat) (s : State) : State :=
  s.setCur ch (overlay (imdctFn (s.block b) (s.spectrum b ch)) (s.cur ch))

section

variable {b : Bool} {ch : Nat} {s t : State}

theorem aget_transformed (b : Bool) (ch : Nat) (s : State) (i : Nat) :
    aget ((s.transformed b ch).cur ch) i = if i < s.block b then aget (imdctFn (s.block b) (s.spectrum b ch)) i else aget (s.cur ch) i := by
  rw [State.transformed, State.cur_setCur_self, aget_overlay, length_imdctFn]

theorem chanOperand_ok (hc : ch < s.dec.hdr.channels) : chanOperand ch s = .ok () s := M.run_ensure_pos hc _ _

theorem energyOperand_ok (he : aget s.dec.work.hasEnergy ch = true) : energyOperand ch s = .ok () s := M.run_ensure_pos he _ _

theorem imdctChannel_ok (hc : ch < s.dec.hdr.channels) (he : aget s.dec.work.hasEnergy ch = true) :
    imdctChannel b ch s = .ok () (s.transformed b ch) := by
  rw [imdctChannel, M.bind_ok (chanOperand_ok hc), M.bind_ok (energyOperand_ok he)]
  rfl

/-- A transform of a channel that is missing or has no energy is refused; any other completes. -/
theorem imdctChannel_cases (b : Bool) (ch : Nat) (s : State) :
    imdctChannel b ch s = .ok () (s.transformed b ch) ∨ imdctChannel b ch s = .error (.refuse .operandRange) s := by
  by_cases hc : ch < s.dec.hdr.channels
  · by_cases he : aget s.dec.work.hasEnergy ch = true
    · exact .inl (imdctChannel_ok hc he)
    · have henergy : energyOperand ch s = .error (.refuse .operandRange) s := M.run_ensure_neg he _ _
      exact .inr (by rw [imdctChannel, M.bind_ok (chanOperand_ok hc), M.bind_error henergy])
  · have hchan : chanOperand ch s = .error (.refuse .operandRange) s := M.run_ensure_neg hc _ _
    exact .inr (by rw [imdctChannel, M.bind_error hchan])

theorem exec_imdct_ok (hc : ch < s.dec.hdr.channels) (he : aget s.dec.work.hasEnergy ch = true) :
    exec (.imdct b ch) s = .next ((s.transformed b ch).setResult .none) := microUnit_of_ok (imdctChannel_ok hc he)

theorem exec_imdct_eq_next (h : exec (.imdct b ch) s = .next t) : t = (s.transformed b ch).setResult .none := by
  rcases imdctChannel_cases b ch s with hm | hm
  · exact (Host.Outcome.next.inj ((microUnit_of_ok hm).symm.trans h)).symm
  · cases (microUnit_of_error hm).symm.trans h

/-- The block that a transform writes is `IMDCT_FN` of the spectrum, whatever else the state holds. -/
theorem aget_transformed_congr {u : State} {b' : Bool} {ch' : Nat} (hn : u.block b' = s.block b)
    (hx : ∀ k, k < s.block b / 2 → aget (u.cur ch') k = aget (s.cur ch) k) {i : Nat} (hi : i < s.block b) :
    aget ((u.transformed b' ch').cur ch') i = aget ((s.transformed b ch).cur ch) i := by
  have hspec : u.spectrum b' ch' = s.spectrum b ch := by
    rw [State.spectrum, State.spectrum, hn]
    exact atake_congr hx
  rw [aget_transformed, aget_transformed, hn, if_pos hi, if_pos hi, hspec]

end

/-- Settles O42: the next state is one write of the current bank, and the block written is a function of its size and the spectrum alone. -/
theorem transformWrites : Obligations.TransformWrites := by
  intro s b ch hc he
  refine ⟨_, exec_imdct_ok hc he, State.setCur_banksBut s ch _, congrArg (State.setResult .none) (State.setCur_frame s ch _), ?_, ?_, ?_⟩
  · intro i hi
    rw [State.cur_setResult, aget_transformed, if_neg (Nat.not_lt.mpr hi)]
  · intro hx i hi
    rw [State.cur_setResult, aget_transformed, if_pos hi]
    exact imdctFn_zeros (forall_mem_atake hx) hi
  · intro u v b' ch' hn hv hx i hi
    rw [exec_imdct_eq_next hv, State.cur_setResult, State.cur_setResult]
    exact aget_transformed_congr hn hx hi

end Sys2Proof.Machine
end

section
/-! PROOF. Refusals and `OPEN` (46_frame_output R341, R386; 30_encoding R111, R112). -/

namespace Sys2Proof.Machine

-- the return word (R112)

/-- The two high bits of the return word of a refused command: `REFUSED`, and `REASON` above `ERR`. -/
theorem retRefused_flags (r : Reason) (e : Err) :
    (retRefused r e).getLsbD 11 = true ∧ (retRefused r e).getLsbD 10 = (r == .badCmd) := by
  unfold retRefused
  constructor <;> rw [BitVec.getLsbD_append] <;> cases r <;> rfl

/-- The low ten bits of the return word are `ERR`. -/
theorem retRefused_err (r : Reason) (e : Err) : (retRefused r e).setWidth 10 = e.word := BitVec.setWidth_append_eq_right

-- reserved words on the command port (R111)

theorem decodeCmd_reserved {w : Nat} (o : Operands) (hlo : 5 ≤ w) (hhi : w < 256) : decodeCmd w o = .error .badCmd := by
  obtain ⟨k, rfl⟩ := Nat.exists_eq_add_of_le' hlo
  exact if_pos hhi

theorem decode_reserved {f : Fetch} (hp : f.port = .cmd) (hlo : 5 ≤ f.word.toNat) (hhi : f.word.toNat < 256) : decode f = .error .badCmd := by
  rw [← decodeCmd_reserved f.ops hlo hhi, decode, hp]

theorem State.latch_of_cmd {f : Fetch} (s : State) (hp : f.port = .cmd) : s.latch f = { s with cmd := f.word.setWidth 8 } := by
  rw [State.latch, hp]

theorem step_reserved {s : State} {f : Fetch} {rest : List Fetch} (hs : s.script = f :: rest) (hp : f.port = .cmd) (hlo : 5 ≤ f.word.toNat)
    (hhi : f.word.toNat < 256) : step s = .next { s with script := rest, cmd := f.word.setWidth 8, ret := retRefused .badCmd s.err } := by
  simp only [step, State.issue_cons hs, decode_reserved hp hlo hhi, State.latch_of_cmd _ hp]
  rfl

/-- Settles O5: a command whose acceptance fails, and a reserved word, each answer with the return word of a refusal. -/
theorem commandsRefused : Obligations.CommandsRefused := by
  refine ⟨fun s src cap => ⟨command_of_not (m := openStream src), command_of_not (m := setupStream), fun h => command_of_not (m := decodePacket) ?_,
      fun h => command_of_not (m := outputFrame cap) ?_, fun h => command_of_not (m := closeStream) (not_not_intro h)⟩,
    fun _ _ _ => step_reserved, fun r e => ?_⟩
  · rintro ⟨hready, hfree⟩
    simp [hready, hfree] at h
  · rintro ⟨hready, hpending⟩
    simp [hready, hpending] at h
  · obtain ⟨hrefused, hreason⟩ := retRefused_flags r e
    exact ⟨hrefused, hreason, retRefused_err r e⟩

/-- Settles O6: the command is accepted, and its one update writes every value of the list. -/
theorem openCreates : Obligations.OpenCreates := fun _ src h =>
  ⟨_, command_of_ok (m := openStream src) h rfl, rfl, rfl, (by decide : retDone Err.zero = 0#12), rfl, rfl, rfl, rfl, rfl, rfl, rfl, rfl⟩

end Sys2Proof.Machine
end

section
/-! PROOF. The header tag and the identification header (46_frame_output R343 to R345): the bytes are taken, and then one check after the other decides. -/

namespace Sys2Proof.Machine

-- checks and updates at the head of a piece of work

/-- How a micro-operation goes depends on its run alone. -/
theorem microUnit_congr {m m' : M Unit} {s u : State} (h : m s = m' u) : microUnit m s = microUnit m' u := by
  simp only [microUnit, micro, M.run_bind, h]

/-- A check that fails ends a micro-operation with its stop; past one that holds it goes on. -/
theorem microUnit_ensure (p : Prop) [Decidable p] (x : Stop) (f : Unit → M Unit) (s : State) :
    microUnit (M.ensure p x >>= f) s = if ¬p then x.outcome s else microUnit (f ()) s := by
  split
  next h => exact microUnit_of_error (M.bind_error (M.run_ensure_neg h x s))
  next h => exact microUnit_congr (M.bind_ok (M.run_ensure_pos (not_not.mp h) x s))

/-- The same for a check that is the last thing to do. -/
theorem microUnit_ensure_last (p : Prop) [Decidable p] (x : Stop) (s : State) :
    microUnit (M.ensure p x) s = if ¬p then x.outcome s else .next (s.setResult .none) := by
  split
  next h => exact microUnit_of_error (M.run_ensure_neg h x s)
  next h => exact microUnit_of_ok (M.run_ensure_pos (not_not.mp h) x s)

/-- A first part that completes is passed over. -/
theorem microUnit_bind_ok {α : Type} {m : M α} {f : α → M Unit} {a : α} {s u : State} (h : m s = .ok a u) : microUnit (m >>= f) s = microUnit (f a) u :=
  microUnit_congr (M.bind_ok h)

/-- The bytes that stand first in the source, taken at a byte boundary (40_bit_reader R179). -/
theorem readExact_append {s : State} {n : Nat} {b rest : List Byte} (hb : s.dec.bits.nbits = 0) (hs : s.src.bytes = b ++ rest) (hn : b.length = n) :
    readExact n s = .ok b (s.dropBytes n) := by
  rw [readExact_ok hb (by rw [hs, List.length_append]; omega), hs, List.take_left' hn]

-- HDR_TAG (R343)

/-- `HDR_TAG` on seven bytes: the type byte is checked, then the six bytes after it. -/
theorem exec_hdrTag {s : State} {t b : Byte} {sync rest : List Byte} (hb : s.dec.bits.nbits = 0) (hs : s.src.bytes = b :: sync ++ rest)
    (hl : sync.length = 6) :
    exec (.hdrTag t) s =
      if b ≠ t then .next ((s.dropBytes 7).raise .badHeaderTag)
      else if sync ≠ syncBytes then .next ((s.dropBytes 7).raise .badSync)
      else .next ((s.dropBytes 7).setResult .none) := by
  have hread : readExact 7 s = .ok (b :: sync) (s.dropBytes 7) := readExact_append hb hs (by rw [List.length_cons, hl])
  calc exec (.hdrTag t) s
    _ = microUnit (tagCheck t b sync) (s.dropBytes 7) := microUnit_bind_ok hread
    _ = _ := by
      rw [tagCheck, microUnit_ensure, microUnit_ensure_last]
      rfl

/-- Settles O43: the two checks of the tag in their order. -/
theorem headerTagChecks : Obligations.HeaderTagChecks := fun _ t _ _ _ hb hs hl =>
  have hexec := exec_hdrTag (t := t) hb hs hl
  ⟨fun ht => hexec.trans (if_pos ht), fun ht hsync => hexec.trans ((if_neg (not_not_intro ht)).trans (if_pos hsync)),
    fun ht hsync => hexec.trans ((if_neg (not_not_intro ht)).trans (if_neg (not_not_intro hsync)))⟩

-- HDR_IDENT (R344, R345)

theorem toNat_eq_zero_iff {w : Nat} (v : BitVec w) : v.toNat = 0 ↔ v = 0#w := by
  rw [← BitVec.toNat_inj, BitVec.toNat_zero]

/-- Reading four bytes back gives the number that they hold (20_memory R85). -/
theorem le32_le32Bytes (v : BitVec 32) (rest : List Byte) : le32 (le32Bytes v ++ rest) 0 = v.toNat := by
  have hv := v.isLt
  have hbytes : le32 (le32Bytes v ++ rest) 0 =
      (v.setWidth 8).toNat + 256 * ((v >>> 8).setWidth 8).toNat + 65536 * ((v >>> 16).setWidth 8).toNat +
        16777216 * ((v >>> 24).setWidth 8).toNat := rfl
  simp only [hbytes, BitVec.toNat_setWidth, BitVec.toNat_ushiftRight, Nat.shiftRight_eq_div_pow]
  omega

/-- Bytes before the four are passed over. -/
theorem le32_drop (b : List Byte) (i : Nat) : le32 (b.drop i) 0 = le32 b i := by
  simp only [le32, List.getD_eq_getElem?_getD, List.getElem?_drop, Nat.zero_add, Nat.add_zero]

section

variable (id : IdentForm)

theorem IdentForm.le32_version : le32 id.bytes 0 = id.version.toNat := by
  rw [IdentForm.bytes, List.append_assoc, List.append_assoc]
  exact le32_le32Bytes _ _

theorem IdentForm.le32_rate : le32 id.bytes 5 = id.rate.toNat := by
  have h : id.bytes.drop 5 = le32Bytes id.rate ++ (id.bitrates ++ [id.exps, id.framing]) := rfl
  rw [← le32_drop, h]
  exact le32_le32Bytes _ _

theorem IdentForm.getD_channels : id.bytes.getD 4 0#8 = id.channels := rfl

variable {id} (hl : id.bitrates.length = 12)
include hl

theorem IdentForm.length_bytes : id.bytes.length = 23 := by simp [IdentForm.bytes, le32Bytes, hl]

theorem IdentForm.getD_exps : id.bytes.getD 21 0#8 = id.exps := by
  simp [IdentForm.bytes, le32Bytes, hl]

theorem IdentForm.getD_framing : id.bytes.getD 22 0#8 = id.framing := by
  simp [IdentForm.bytes, le32Bytes, hl]

end

/-- What the checks of an identification header answer, in the rules' order, from the state in which its four fields have been written (R344, R345). -/
def IdentForm.answer (id : IdentForm) (u : State) : Out :=
  if id.version ≠ 0#32 then .fault .version
  else if id.channels = 0#8 then .next (u.raise .badChannels)
  else if Config.maxChannels < id.channels.toNat then .fault .tooManyChannels
  else if id.rate = 0#32 then .fault .zeroSampleRate
  else if ¬(6 ≤ id.regs.bsExp0 ∧ id.regs.bsExp0 ≤ id.regs.bsExp1 ∧ id.regs.bsExp1 ≤ 13) then .next (u.raise .badBlockSize)
  else if id.framing.toNat % 2 = 0 then .next (u.raise .badFraming)
  else .next (u.setResult .none)

theorem IdentForm.answer_of_legal {id : IdentForm} (h : id.Legal) (u : State) : id.answer u = .next (u.setResult .none) := by
  obtain ⟨-, hversion, hch, hmax, hrate, hmin, hle, hmaxExp, hframing⟩ := h
  rw [IdentForm.answer, if_neg (not_not_intro hversion), if_neg hch, if_neg (Nat.not_lt.mpr hmax), if_neg hrate,
    if_neg (not_not_intro ⟨hmin, hle, hmaxExp⟩), if_neg (Nat.mod_two_ne_zero.mpr hframing)]

/-- `HDR_IDENT` on the 23 bytes of a header: the four fields are written, and the checks answer. -/
theorem exec_hdrIdent {s : State} {id : IdentForm} {rest : List Byte} (hb : s.dec.bits.nbits = 0) (hl : id.bitrates.length = 12)
    (hs : s.src.bytes = id.bytes ++ rest) : exec .hdrIdent s = id.answer ((s.dropBytes 23).mapHdr fun _ => id.regs) := by
  refine (microUnit_bind_ok (readExact_append hb hs (id.length_bytes hl))).trans ?_
  dsimp only
  rw [microUnit_ensure, microUnit_bind_ok (M.run_update _ _), microUnit_ensure, microUnit_ensure, microUnit_ensure, microUnit_ensure,
    microUnit_ensure_last]
  simp only [id.le32_version, id.le32_rate, id.getD_channels, id.getD_exps hl, id.getD_framing hl, BitVec.ofNat_toNat, BitVec.setWidth_eq,
    toNat_eq_zero_iff, Nat.mod_two_ne_one, Nat.not_le, not_not, ne_eq]
  rfl

/-- Settles O44: a legal header is one on which no check fails. -/
theorem identHeaderChecks : Obligations.IdentHeaderChecks := fun _ _ _ hb hl hs =>
  have hexec := exec_hdrIdent hb hl hs
  ⟨fun h => hexec.trans (IdentForm.answer_of_legal h _), hexec⟩

end Sys2Proof.Machine
end

section
/-! PROOF. Inverse coupling (46_frame_output R367): `DECOUPLE` runs the steps of its mapping from the last to the first, and one step writes the undone pairs
over the first bins of its two channels. -/

namespace Sys2Proof.Machine

/-- The machine's four cases are the statement's. -/
theorem decoupleBin_eq (mv av : F32) : decoupleBin mv av = undoneBin mv av := by
  unfold decoupleBin undoneBin
  cases f32Lt f32Zero mv <;> cases f32Lt f32Zero av <;> rfl

/-- The pairs of the first `n` bins of two arrays, undone. -/
def undonePairs (n : Nat) (ms as : List F32) : List (F32 × F32) := (List.range n).map fun i => undoneBin (aget ms i) (aget as i)

@[simp] theorem length_undonePairs (n : Nat) (ms as : List F32) : (undonePairs n ms as).length = n := by simp [undonePairs]

/-- A component of the undone pairs, written over the first bins of an array. -/
theorem aget_overlay_undonePairs (f : F32 × F32 → F32) (n : Nat) (ms as old : List F32) (i : Nat) :
    aget (overlay ((undonePairs n ms as).map f) old) i = if i < n then f (undoneBin (aget ms i) (aget as i)) else aget old i := by
  rw [aget_overlay, List.length_map, length_undonePairs]
  split
  next hi => rw [undonePairs, List.map_map, aget_map_range _ _ _ hi, Function.comp_apply]
  next => rfl

theorem zipWith_decoupleBin (n : Nat) (ms as : List F32) : List.zipWith decoupleBin (atake n ms) (atake n as) = undonePairs n ms as := by
  refine List.ext_getElem (by simp) fun i hl hr => ?_
  have hi : i < n := by simpa using hr
  simp only [List.getElem_zipWith, undonePairs, List.getElem_map, List.getElem_range, decoupleBin_eq]
  rw [← aget_of_lt, ← aget_of_lt, aget_atake, aget_atake, if_pos hi, if_pos hi]

/-- An overlay covers one of its length. -/
theorem overlay_overlay {α : Type} {new mid old : List α} (h : new.length = mid.length) : overlay new (overlay mid old) = overlay new old := by
  simp [overlay, h]

/-- The machine writes the angles over the channel as it was before the magnitudes were written. Where both are one channel, the second write covers
the first, so that it makes no difference. -/
theorem decoupleStep_ok (n : Nat) (st : CouplingStep) (s : State) : decoupleStep n st s = .ok () (s.undone n st) := by
  have h : overlay ((undonePairs n (s.cur st.mag) (s.cur st.ang)).map Prod.snd)
        ((s.setCur st.mag (overlay ((undonePairs n (s.cur st.mag) (s.cur st.ang)).map Prod.fst) (s.cur st.mag))).cur st.ang) =
      overlay ((undonePairs n (s.cur st.mag) (s.cur st.ang)).map Prod.snd) (s.cur st.ang) := by
    rw [State.cur_setCur]
    split
    next heq => rw [overlay_overlay (by simp), heq]
    next => rfl
  simp only [decoupleStep, zipWith_decoupleBin]
  rw [← h]
  rfl

theorem forList_decoupleStep (n : Nat) (steps : List CouplingStep) (s : State) :
    forList steps (decoupleStep n) s = .ok () (steps.foldl (fun u st => u.undone n st) s) := by
  induction steps generalizing s with
  | nil => rfl
  | cons st steps ih => rw [forList_cons, M.bind_ok (decoupleStep_ok n st s), ih, List.foldl_cons]

theorem exec_decouple {s : State} {m n : Nat} (hm : m < s.dec.counts.nMappings) (hn : 2 * n ≤ Config.maxBlock) :
    exec (.decouple m n) s = .next (((s.mapping m).steps.reverse.foldl (fun u st => u.undone n st) s).setResult .none) := by
  have hmap : mappingOperand m s = .ok () s := M.run_ensure_pos hm _ _
  have hbins : binsOperand n s = .ok () s := M.run_ensure_pos hn _ _
  refine microUnit_of_ok (m := decoupleAll m n) ?_
  rw [decoupleAll, M.bind_ok hmap, M.bind_ok hbins, M.bind_ok (M.run_read _ s), forList_decoupleStep]

theorem BanksBut.trans {s t u : State} {a b : List Nat} (h : BanksBut s t a) (h' : BanksBut t u b) : BanksBut s u (a ++ b) := by
  obtain ⟨hprev, hcur⟩ := h
  obtain ⟨hprev', hcur'⟩ := h'
  refine ⟨fun ch => (hprev' ch).trans (hprev ch), fun ch hch => ?_⟩
  obtain ⟨ha, hb⟩ := not_or.mp (mt List.mem_append.mpr hch)
  exact (hcur' ch hb).trans (hcur ch ha)

section

variable {n : Nat} {st : CouplingStep} {s : State}

theorem State.undone_banksBut : BanksBut s (s.undone n st) [st.mag, st.ang] :=
  (State.setCur_banksBut s st.mag _).trans (State.setCur_banksBut _ st.ang _)

variable (hne : st.mag ≠ st.ang)
include hne

theorem State.aget_undone_mag (i : Nat) :
    aget ((s.undone n st).cur st.mag) i =
      if i < n then (undoneBin (aget (s.cur st.mag) i) (aget (s.cur st.ang) i)).1 else aget (s.cur st.mag) i := by
  rw [State.undone, State.cur_setCur, if_neg hne, State.cur_setCur_self]
  exact aget_overlay_undonePairs Prod.fst n _ _ _ i

theorem State.aget_undone_ang (i : Nat) :
    aget ((s.undone n st).cur st.ang) i =
      if i < n then (undoneBin (aget (s.cur st.mag) i) (aget (s.cur st.ang) i)).2 else aget (s.cur st.ang) i := by
  rw [State.undone, State.cur_setCur_self, State.cur_setCur, if_neg hne.symm]
  exact aget_overlay_undonePairs Prod.snd n _ _ _ i

end

/-- Settles O48: one step writes the undone pairs of its two channels over their first bins. -/
theorem decoupleUndoes : Obligations.DecoupleUndoes := by
  intro s m n hm hn
  refine ⟨exec_decouple hm hn, fun st hst hne => ?_⟩
  have hone : exec (.decouple m n) s = .next ((s.undone n st).setResult .none) := by
    rw [exec_decouple hm hn, hst]
    rfl
  refine ⟨_, hone, State.undone_banksBut, fun i hi => ?_, fun i hi => ⟨?_, ?_⟩⟩
  · rw [State.cur_setResult, State.cur_setResult, State.aget_undone_mag hne, State.aget_undone_ang hne, if_pos hi, if_pos hi]
  · rw [State.cur_setResult, State.aget_undone_mag hne, if_neg (Nat.not_lt.mpr hi)]
  · rw [State.cur_setResult, State.aget_undone_ang hne, if_neg (Nat.not_lt.mpr hi)]

end Sys2Proof.Machine
end

section
/-! PROOF. Decoding and encoding (30_encoding R111, R132, R137): each port's decoder inverts the encoder on the words that it knows. -/

namespace Sys2Proof

-- operands beside the word (log 19)

theorem Operands.flag_flagArg (b : Bool) (src : ByteSource) (rest : List Nat) : Operands.flag { src := src, args := flagArg b :: rest } 0 = b := by
  cases b <;> rfl

theorem Operands.byte_toNat (t : Byte) (src : ByteSource) (rest : List Nat) : Operands.byte { src := src, args := t.toNat :: rest } 0 = t :=
  BitVec.eq_of_toNat_eq (Nat.mod_eq_of_lt t.isLt)

/-- Six bytes written as numbers read back. -/
theorem map_ofNat_map_toNat (sync : List Byte) : (sync.map BitVec.toNat).map (BitVec.ofNat 8) = sync := by
  simp [List.map_map, Function.comp_def]

/-- A buffer operand after one operand before it. -/
theorem Operands.vec_args (c : Nat) (buf : Vec) (rest : List Nat) (src : ByteSource) :
    Operands.vec { src := src, args := c :: buf.args ++ rest } 1 = buf := by
  obtain ⟨ref, size⟩ := buf
  cases ref <;> rfl

theorem Operands.arg_after_vec (c base stride : Nat) (buf : Vec) (src : ByteSource) :
    Operands.arg { src := src, args := c :: buf.args ++ [base, stride] } 4 = base ∧
      Operands.arg { src := src, args := c :: buf.args ++ [base, stride] } 5 = stride := by
  obtain ⟨ref, size⟩ := buf
  cases ref <;> exact ⟨rfl, rfl⟩

theorem decode_encode_cbVector (c : Nat) (buf : Vec) (base stride : Nat) :
    decode (encode (.cbVector c buf base stride)) = .ok (.cbVector c buf base stride) := by
  obtain ⟨hbase, hstride⟩ := Operands.arg_after_vec c base stride buf default
  calc decode (encode (.cbVector c buf base stride))
    _ = .ok (.cbVector c (Operands.vec { src := default, args := c :: buf.args ++ [base, stride] } 1)
          (Operands.arg { src := default, args := c :: buf.args ++ [base, stride] } 4)
          (Operands.arg { src := default, args := c :: buf.args ++ [base, stride] } 5)) := rfl
    _ = _ := by rw [Operands.vec_args, hbase, hstride]

/-- Decoding inverts encoding, on every instruction and whatever its operands. -/
theorem decode_encode (i : Instr) : decode (encode i) = .ok i := by
  cases i
  case cbVector c buf base stride => exact decode_encode_cbVector c buf base stride
  case imdctInit b => exact congrArg (fun b => Except.ok (Instr.imdctInit b)) (Operands.flag_flagArg b _ [])
  case imdct b ch => exact congrArg (fun b => Except.ok (Instr.imdct b ch)) (Operands.flag_flagArg b _ [ch])
  case winInit b => exact congrArg (fun b => Except.ok (Instr.winInit b)) (Operands.flag_flagArg b _ [])
  case hdrTag t => exact congrArg (fun t => Except.ok (Instr.hdrTag t)) (Operands.byte_toNat t _ [])
  case pcmOut x => exact congrArg (fun x => Except.ok (Instr.pcmOut x)) (BitVec.eq_of_toNat_eq (Nat.mod_eq_of_lt x.isLt))
  case hdrTypeIdent t sync => exact congrArg₂ (fun t sync => Except.ok (Instr.hdrTypeIdent t sync)) (Operands.byte_toNat t _ _) (map_ofNat_map_toNat sync)
  case hdrTypeComment t sync =>
    exact congrArg₂ (fun t sync => Except.ok (Instr.hdrTypeComment t sync)) (Operands.byte_toNat t _ _) (map_ofNat_map_toNat sync)
  case hdrTypeSetup t sync => exact congrArg₂ (fun t sync => Except.ok (Instr.hdrTypeSetup t sync)) (Operands.byte_toNat t _ _) (map_ofNat_map_toNat sync)
  all_goals rfl

-- the words that decode

/-- The encoder puts the instruction on this port, in the word of this number. -/
def EncodesAs (p : Port) (w : Nat) (i : Instr) : Prop := (encode i).port = p ∧ (encode i).word.toNat = w

section

variable {w : Nat} {o : Operands} {i : Instr}

theorem decodeCmd_encodes (h : decodeCmd w o = .ok i) : EncodesAs .cmd w i := by
  unfold decodeCmd at h
  split at h
  case h_6 => split at h <;> cases h
  all_goals cases h; exact ⟨rfl, rfl⟩

theorem decodeMicro_encodes (h : decodeMicro w o = .ok i) : EncodesAs .micro w i := by
  unfold decodeMicro at h
  split at h
  all_goals cases h <;> exact ⟨rfl, rfl⟩

theorem decodeHdrType_encodes (h : decodeHdrType w o = .ok i) : EncodesAs .hdrType w i := by
  simp only [decodeHdrType] at h
  split at h
  case h_4 => split at h <;> cases h
  all_goals cases h; exact ⟨rfl, rfl⟩

theorem decodeLookupType_encodes (h : decodeLookupType w o = .ok i) : EncodesAs .lookupType w i := by
  unfold decodeLookupType at h
  split at h
  case h_4 => split at h <;> cases h
  all_goals cases h; exact ⟨rfl, rfl⟩

theorem decodeResidueType_encodes (h : decodeResidueType w o = .ok i) : EncodesAs .residueType w i := by
  unfold decodeResidueType at h
  split at h
  all_goals cases h <;> exact ⟨rfl, rfl⟩

/-- A one-bit selector field decodes to one of its two instructions. -/
theorem decodeFlag_encodes {p : Port} {zero one : Instr} (h : decodeFlag w zero one = .ok i) (h0 : EncodesAs p 0 zero) (h1 : EncodesAs p 1 one) :
    EncodesAs p w i := by
  unfold decodeFlag at h
  split at h
  · cases h; exact h0
  · cases h; exact h1
  · cases h

theorem floorType_encodes (h : (if w = 1 then .ok (.floorType1 (o.arg 0)) else .error .floorType : Except DecodeError Instr) = .ok i) :
    EncodesAs .floorType w i := by
  split at h
  next hw => cases h; exact ⟨rfl, hw.symm⟩
  next => cases h

theorem mappingType_encodes (h : (if w = 0 then .ok (.mappingType0 (o.arg 0)) else .error .mappingType : Except DecodeError Instr) = .ok i) :
    EncodesAs .mappingType w i := by
  split at h
  next hw => cases h; exact ⟨rfl, hw.symm⟩
  next => cases h

end

/-- A request that decodes is the encoder's: the same port and the same word. -/
theorem encodes_of_decode {f : Fetch} {i : Instr} (h : decode f = .ok i) : EncodesAs f.port f.word.toNat i := by
  obtain ⟨p, w, o⟩ := f
  cases p
  case cmd => exact decodeCmd_encodes h
  case micro => exact decodeMicro_encodes h
  case hdrType => exact decodeHdrType_encodes h
  case lookupType => exact decodeLookupType_encodes h
  case residueType => exact decodeResidueType_encodes h
  case floorType => exact floorType_encodes h
  case mappingType => exact mappingType_encodes h
  all_goals exact decodeFlag_encodes h ⟨rfl, rfl⟩ ⟨rfl, rfl⟩

/-- Settles O1: each decoder inverts the encoder's word for each constructor, and knows no other word. -/
theorem decodeEncodeAgree : Obligations.DecodeEncodeAgree :=
  ⟨decode_encode, fun _ _ h => (encodes_of_decode h).imp_right BitVec.eq_of_toNat_eq⟩

end Sys2Proof
end

section
/-! PROOF. No operation but `DECODE` raises the clean end (46_frame_output R361, 60_exceptions R403), and `FL_SYNTH`, `DECOUPLE` and `OUTPUT` raise nothing: said
once per operation. -/

namespace Sys2Proof.Machine

-- loops and chosen pieces

section

variable {α : Type}

theorem NoCleanEnd.look {g : State → M α} (h : ∀ s, NoCleanEnd (g s)) : NoCleanEnd (fun s => g s s) := fun s => h s s

theorem NoCleanEnd.operand (p : State → Prop) [∀ s, Decidable (p s)] : NoCleanEnd (fun s => M.operand (p s) s) :=
  .look fun _ => .ensure _ Stop.noConfusion

theorem NoCleanEnd.raise {c : Cause} (h : c ≠ .cleanEnd) : NoCleanEnd (M.raise c : M α) := .stop fun e => h (Stop.raise.inj e)

theorem NoCleanEnd.forN {body : Nat → M Unit} (h : ∀ i, NoCleanEnd (body i)) (k i : Nat) : NoCleanEnd (forN k i body) := by
  induction k generalizing i with
  | zero => exact .pure _
  | succ k ih => exact .bind (h i) fun _ => ih (i + 1)

theorem NoCleanEnd.forList {body : α → M Unit} (h : ∀ x, NoCleanEnd (body x)) (xs : List α) : NoCleanEnd (forList xs body) := by
  induction xs with
  | nil => exact .pure _
  | cons x xs ih => exact .bind (h x) fun _ => ih

end

-- the Bit Reader

theorem tryReadBits_noCleanEnd (n : Nat) : NoCleanEnd (tryReadBits n) := by
  refine .bind (.ensure _ nofun) fun _ => .bind (fillBits_noCleanEnd n n) fun a => ?_
  cases a
  · exact .bind (.bind (.read _) fun _ => .bind (.update _) fun _ => .pure _) fun _ => .pure _
  · exact .pure _
  · exact .stop nofun

theorem byteBoundary_noCleanEnd : NoCleanEnd byteBoundary := fun s => NoCleanEnd.ensure _ Stop.noConfusion s

theorem readU8_noCleanEnd : NoCleanEnd readU8 := by
  refine .bind byteBoundary_noCleanEnd fun _ => .bind readU8Raw_noCleanEnd fun a => ?_
  cases a
  · exact .pure _
  · exact .stop nofun
  · exact .stop nofun

theorem readExactRaw_noCleanEnd (n : Nat) : NoCleanEnd (readExactRaw n) := fun s t h => by
  unfold readExactRaw at h
  split at h
  · cases h
  · injection h with h
    exact terminalCause_ne_cleanEnd _ (Stop.raise.inj h)

theorem readExact_noCleanEnd (n : Nat) : NoCleanEnd (readExact n) := .bind byteBoundary_noCleanEnd fun _ => readExactRaw_noCleanEnd n

theorem read32_noCleanEnd : NoCleanEnd read32 := .bind (readBits_noCleanEnd _) fun _ => .bind (readBits_noCleanEnd _) fun _ => .pure _

-- the Codebook unit

section

variable (c : Nat)

theorem bookOperand_noCleanEnd : NoCleanEnd (bookOperand c) := .operand _

theorem lengthsDense_noCleanEnd : NoCleanEnd (lengthsDense c) :=
  .bind (bookOperand_noCleanEnd c) fun _ => .bind (.read _) fun _ =>
    .bind (.collect (fun _ => .bind (readBits_noCleanEnd _) fun _ => .pure _) _ _) fun _ => .update _

theorem lengthsSparse_noCleanEnd : NoCleanEnd (lengthsSparse c) :=
  .bind (bookOperand_noCleanEnd c) fun _ => .bind (.read _) fun _ =>
    .bind
      (.collect (fun _ => .bind (readBits_noCleanEnd _) fun _ => .ite (.bind (readBits_noCleanEnd _) fun _ => .pure _) (.pure _)) _ _)
      fun _ => .update _

theorem lengthsExplicit_noCleanEnd : NoCleanEnd (lengthsExplicit c) :=
  .bind (bookOperand_noCleanEnd c) fun _ => .bind (readBits_noCleanEnd _) fun _ => .ite (lengthsSparse_noCleanEnd c) (lengthsDense_noCleanEnd c)

theorem lengthRuns_noCleanEnd (entries k curEntry curLen : Nat) (acc : List Nat) : NoCleanEnd (lengthRuns entries k curEntry curLen acc) := by
  induction k generalizing curEntry curLen acc with
  | zero => exact .stop nofun
  | succ k ih =>
    exact .bind (readBits_noCleanEnd _) fun _ => .bind (.ensure _ nofun) fun _ => .bind (.ensure _ nofun) fun _ => .ite (.pure _) (ih _ _ _)

theorem lengthsRunLength_noCleanEnd : NoCleanEnd (lengthsRunLength c) :=
  .bind (bookOperand_noCleanEnd c) fun _ => .bind (.read _) fun _ => .bind (readBits_noCleanEnd _) fun _ => .bind (.read _) fun _ =>
    .bind (lengthRuns_noCleanEnd _ _ _ _ _) fun _ => .update _

theorem assignCodes_noCleanEnd : NoCleanEnd (assignCodes c) := by
  refine .bind (.read _) fun l => ?_
  cases assignFrom 0 l with
  | none => exact .stop nofun
  | some p => exact .bind (.update _) fun _ => .update _

theorem lookupNone_noCleanEnd : NoCleanEnd (lookupNone c) := .bind (bookOperand_noCleanEnd c) fun _ => .update _

theorem seqOff_noCleanEnd : NoCleanEnd (seqOff c) := .bind (bookOperand_noCleanEnd c) fun _ => .update _

theorem seqOn_noCleanEnd : NoCleanEnd (seqOn c) := .bind (bookOperand_noCleanEnd c) fun _ => .update _

theorem lookupFields_noCleanEnd : NoCleanEnd (lookupFields c) :=
  .bind read32_noCleanEnd fun _ => .bind (.update _) fun _ => .bind read32_noCleanEnd fun _ => .bind (.update _) fun _ =>
    .bind (readBits_noCleanEnd _) fun _ => .bind (.update _) fun _ => .bind (readBits_noCleanEnd _) fun _ =>
      .ite (seqOn_noCleanEnd c) (seqOff_noCleanEnd c)

theorem lookupMults_noCleanEnd (values : Nat) : NoCleanEnd (lookupMults c values) :=
  .bind (.update _) fun _ => .bind (.read _) fun _ => .bind (.collect (fun _ => readBits_noCleanEnd _) _ _) fun _ => .update _

theorem lookupLattice_noCleanEnd : NoCleanEnd (lookupLattice c) :=
  .bind (bookOperand_noCleanEnd c) fun _ => .bind (.update _) fun _ => .bind (lookupFields_noCleanEnd c) fun _ => .bind (.read _) fun _ =>
    .bind (.ensure _ nofun) fun _ => lookupMults_noCleanEnd c _

theorem lookupExplicit_noCleanEnd : NoCleanEnd (lookupExplicit c) :=
  .bind (bookOperand_noCleanEnd c) fun _ => .bind (.update _) fun _ => .bind (lookupFields_noCleanEnd c) fun _ => .bind (.read _) fun _ =>
    lookupMults_noCleanEnd c _

theorem lookupPart_noCleanEnd : NoCleanEnd (lookupPart c) := by
  refine .bind (readBits_noCleanEnd _) fun t => ?_
  split
  · exact lookupNone_noCleanEnd c
  · exact lookupLattice_noCleanEnd c
  · exact lookupExplicit_noCleanEnd c
  · exact .stop nofun

theorem codebookSetup_noCleanEnd : NoCleanEnd (codebookSetup c) :=
  .bind (bookOperand_noCleanEnd c) fun _ => .bind (readBits_noCleanEnd _) fun _ => .bind (.ensure _ nofun) fun _ =>
    .bind (readBits_noCleanEnd _) fun _ => .bind (.update _) fun _ => .bind (readBits_noCleanEnd _) fun _ => .bind (.update _) fun _ =>
      .bind (readBits_noCleanEnd _) fun _ => .bind (.ite (lengthsRunLength_noCleanEnd c) (lengthsExplicit_noCleanEnd c)) fun _ =>
        .bind (assignCodes_noCleanEnd c) fun _ => lookupPart_noCleanEnd c

theorem scalarWalk_noCleanEnd (codes : List Code) (k l cw : Nat) : NoCleanEnd (scalarWalk codes k l cw) := by
  induction k generalizing l cw with
  | zero => exact .stop nofun
  | succ k ih =>
    refine .bind (readBits_noCleanEnd _) fun b => ?_
    cases findCode codes (l + 1) (2 * cw + b) with
    | some e => exact .pure _
    | none => exact ih _ _

theorem codebookScalar_noCleanEnd : NoCleanEnd (codebookScalar c) :=
  .bind (bookOperand_noCleanEnd c) fun _ => .bind (.read _) fun _ => scalarWalk_noCleanEnd _ _ _ _

theorem addElements_noCleanEnd (buf : Vec) (stride i : Nat) (vs : List F32) : NoCleanEnd (addElements buf stride i vs) := by
  induction vs generalizing i with
  | nil => exact .pure _
  | cons v vs ih => exact .bind (.bind (.ensure _ nofun) fun _ => .update _) fun _ => ih _

theorem codebookVector_noCleanEnd (buf : Vec) (base stride : Nat) : NoCleanEnd (codebookVector c buf base stride) :=
  .bind (bookOperand_noCleanEnd c) fun _ => .bind (.ensure _ nofun) fun _ => .bind (.read _) fun _ => .bind (.ensure _ nofun) fun _ =>
    .bind (.ensure _ nofun) fun _ => .bind (codebookScalar_noCleanEnd c) fun _ => addElements_noCleanEnd _ _ _ _

end

theorem vecOperand_noCleanEnd (buf : Vec) : NoCleanEnd (vecOperand buf) := by
  obtain ⟨ref, size⟩ := buf
  cases ref
  · exact .operand _
  · exact .operand _

-- the Floor unit

theorem chanOperand_noCleanEnd (ch : Nat) : NoCleanEnd (chanOperand ch) := .operand _

theorem readDim_noCleanEnd (book : Option Nat) : NoCleanEnd (readDim book) := by
  cases book with
  | none => exact .pure _
  | some b => exact codebookScalar_noCleanEnd b

theorem readPartitionYs_noCleanEnd (cls : FloorClass) (k cval : Nat) : NoCleanEnd (readPartitionYs cls k cval) := by
  induction k generalizing cval with
  | zero => exact .pure _
  | succ k ih => exact .bind (readDim_noCleanEnd _) fun _ => .bind (ih _) fun _ => .pure _

theorem readAllYs_noCleanEnd (fl : Floor) (ks : List Nat) : NoCleanEnd (readAllYs fl ks) := by
  induction ks with
  | nil => exact .pure _
  | cons k ks ih =>
    exact .bind (.ite (codebookScalar_noCleanEnd _) (.pure _)) fun _ => .bind (readPartitionYs_noCleanEnd _ _ _) fun _ => .bind ih fun _ => .pure _

theorem floorSilentPart_noCleanEnd (ch f : Nat) : NoCleanEnd (floorSilentPart ch f) :=
  .bind (chanOperand_noCleanEnd ch) fun _ => .bind (floorOperand_noCleanEnd f) fun _ => .update _

theorem floorEnergyPart_noCleanEnd (ch f : Nat) : NoCleanEnd (floorEnergyPart ch f) :=
  .bind (chanOperand_noCleanEnd ch) fun _ => .bind (floorOperand_noCleanEnd f) fun _ => .bind (.update _) fun _ => .bind (.read _) fun _ =>
    .bind (readBits_noCleanEnd _) fun _ => .bind (readBits_noCleanEnd _) fun _ => .bind (readAllYs_noCleanEnd _ _) fun _ => .update _

theorem floorDecode_noCleanEnd (ch f : Nat) : NoCleanEnd (floorDecode ch f) :=
  .bind (chanOperand_noCleanEnd ch) fun _ => .bind (floorOperand_noCleanEnd f) fun _ => .bind (readBits_noCleanEnd _) fun _ =>
    .ite (floorEnergyPart_noCleanEnd ch f) (floorSilentPart_noCleanEnd ch f)

-- the Residue unit

theorem residueOperand_noCleanEnd (r : Nat) : NoCleanEnd (residueOperand r) := .operand _

theorem readCascade_noCleanEnd : NoCleanEnd readCascade :=
  .bind (readBits_noCleanEnd _) fun _ => .bind (readBits_noCleanEnd _) fun _ => .bind (.ite (readBits_noCleanEnd _) (.pure _)) fun _ => .pure _

theorem readBook_noCleanEnd (cascade pass : Nat) : NoCleanEnd (readBook cascade pass) := by
  unfold readBook
  exact .ite (.bind (readBits_noCleanEnd _) fun _ => .pure _) (.pure _)

theorem residueBody_noCleanEnd (r t : Nat) : NoCleanEnd (residueBody r t) :=
  .bind (residueOperand_noCleanEnd r) fun _ => .bind (readBits_noCleanEnd _) fun _ => .bind (readBits_noCleanEnd _) fun _ =>
    .bind (readBits_noCleanEnd _) fun _ => .bind (readBits_noCleanEnd _) fun _ => .bind (readBits_noCleanEnd _) fun _ =>
      .bind (.collect (fun _ => readCascade_noCleanEnd) _ _) fun _ =>
        .bind (.collect (fun _ => .collect (fun _ => readBook_noCleanEnd _ _) _ _) _ _) fun _ => .bind (.read _) fun _ =>
          .bind (.ensure _ nofun) fun _ => .bind (.read _) fun _ => .bind (.ensure _ nofun) fun _ => .bind (.ensure _ nofun) fun _ =>
            .bind (.read _) fun _ => .bind (.ensure _ nofun) fun _ => .update _

theorem residueSetup_noCleanEnd (r : Nat) : NoCleanEnd (residueSetup r) := by
  refine .bind (residueOperand_noCleanEnd r) fun _ => .bind (readBits_noCleanEnd _) fun t => ?_
  split
  · exact residueBody_noCleanEnd r 0
  · exact residueBody_noCleanEnd r 1
  · exact residueBody_noCleanEnd r 2
  · exact .stop nofun

theorem decodePartition_noCleanEnd (rs : Residue) (book : Nat) (v : Vec) (off : Nat) : NoCleanEnd (decodePartition rs book v off) := by
  unfold decodePartition
  refine .ite ?_ ?_
  · exact .bind (.read _) fun _ => .bind (.ensure _ nofun) fun _ => .forN (fun _ => codebookVector_noCleanEnd _ _ _ _) _ _
  · exact .bind (.read _) fun _ => .forN (fun _ => codebookVector_noCleanEnd _ _ _ _) _ _

theorem residueCell_noCleanEnd (rs : Residue) (vs : List Vec) (lim pass q j : Nat) : NoCleanEnd (residueCell rs vs lim pass q j) := by
  refine .bind (.read _) fun cls => ?_
  cases aget (aget rs.books cls) pass with
  | none => exact .pure _
  | some book => exact decodePartition_noCleanEnd rs book _ _

theorem forKept_noCleanEnd {body : Nat → M Unit} (h : ∀ j, NoCleanEnd (body j)) (dnd : List Bool) : NoCleanEnd (forKept dnd body) :=
  .forN (fun j => .ite (.pure _) (h j)) _ _

theorem residueInner_noCleanEnd (rs : Residue) (vs : List Vec) (dnd : List Bool) (size : Nat) : NoCleanEnd (residueInner rs vs dnd size) :=
  .bind (.read _) fun _ => .bind (.ensure _ nofun) fun _ =>
    .forN (fun _ => .forN (fun _ =>
      .bind (.ite (forKept_noCleanEnd (fun _ => .bind (codebookScalar_noCleanEnd _) fun _ => .update _) dnd) (.pure _)) fun _ =>
        .forN (fun _ => forKept_noCleanEnd (fun _ => residueCell_noCleanEnd rs vs _ _ _ _) dnd) _ _) _ _) _ _

theorem residueDecode_noCleanEnd (r : Nat) (chans : List Nat) (n : Nat) : NoCleanEnd (residueDecode r chans n) :=
  .bind (residueOperand_noCleanEnd r) fun _ => .bind (.ensure _ nofun) fun _ => .bind (.read _) fun _ => .bind (.ensure _ nofun) fun _ =>
    .bind (.read _) fun _ => .bind (.ensure _ nofun) fun _ => .bind (.read _) fun _ => .bind (.update _) fun _ =>
      .ite
        (.bind (.update _) fun _ => .bind (.ite (.pure _) (residueInner_noCleanEnd _ _ _ _)) fun _ => .forN (fun _ => .update _) _ _)
        (.bind (.forList (fun _ => .update _) _) fun _ => residueInner_noCleanEnd _ _ _ _)

-- Mapping and Mode

section

variable (m : Nat)

theorem mappingOperand_noCleanEnd : NoCleanEnd (mappingOperand m) := .operand _

theorem submapsAbsent_noCleanEnd : NoCleanEnd (submapsAbsent m) := .bind (mappingOperand_noCleanEnd m) fun _ => .update _

theorem submapsPresent_noCleanEnd : NoCleanEnd (submapsPresent m) :=
  .bind (mappingOperand_noCleanEnd m) fun _ => .bind (readBits_noCleanEnd _) fun _ => .update _

theorem couplingAbsent_noCleanEnd : NoCleanEnd (couplingAbsent m) := .bind (mappingOperand_noCleanEnd m) fun _ => .update _

theorem readStep_noCleanEnd (channels : Nat) : NoCleanEnd (readStep channels) :=
  .bind (readBits_noCleanEnd _) fun _ => .bind (readBits_noCleanEnd _) fun _ => .bind (.ensure _ nofun) fun _ => .bind (.ensure _ nofun) fun _ => .pure _

theorem couplingPresent_noCleanEnd : NoCleanEnd (couplingPresent m) :=
  .bind (mappingOperand_noCleanEnd m) fun _ => .bind (readBits_noCleanEnd _) fun _ => .bind (.read _) fun _ =>
    .bind (.collect (fun _ => readStep_noCleanEnd _) _ _) fun _ => .update _

theorem readMux_noCleanEnd (submaps : Nat) : NoCleanEnd (readMux submaps) := by
  unfold readMux
  exact .ite (.bind (readBits_noCleanEnd _) fun _ => .bind (.ensure _ nofun) fun _ => .pure _) (.pure _)

theorem readSubmap_noCleanEnd : NoCleanEnd readSubmap :=
  .bind (readBits_noCleanEnd _) fun _ => .bind (readBits_noCleanEnd _) fun _ => .bind (.read _) fun _ => .bind (.ensure _ nofun) fun _ =>
    .bind (readBits_noCleanEnd _) fun _ => .bind (.read _) fun _ => .bind (.ensure _ nofun) fun _ => .pure _

theorem mappingBody_noCleanEnd : NoCleanEnd (mappingBody m) :=
  .bind (mappingOperand_noCleanEnd m) fun _ => .bind (readBits_noCleanEnd _) fun _ =>
    .bind (.ite (submapsPresent_noCleanEnd m) (submapsAbsent_noCleanEnd m)) fun _ => .bind (readBits_noCleanEnd _) fun _ =>
      .bind (.ite (couplingPresent_noCleanEnd m) (couplingAbsent_noCleanEnd m)) fun _ => .bind (readBits_noCleanEnd _) fun _ =>
        .bind (.ensure _ nofun) fun _ => .bind (.read _) fun _ => .bind (.read _) fun _ => .bind (.collect (fun _ => readMux_noCleanEnd _) _ _) fun _ =>
          .bind (.update _) fun _ => .bind (.collect (fun _ => readSubmap_noCleanEnd) _ _) fun _ => .update _

theorem mappingSetup_noCleanEnd : NoCleanEnd (mappingSetup m) :=
  .bind (mappingOperand_noCleanEnd m) fun _ => .bind (readBits_noCleanEnd _) fun _ => .ite (mappingBody_noCleanEnd m) (.stop nofun)

variable (k : Nat)

theorem modeOperand_noCleanEnd : NoCleanEnd (modeOperand k) := .operand _

theorem blockShort_noCleanEnd : NoCleanEnd (blockShort k) := .bind (modeOperand_noCleanEnd k) fun _ => .update _

theorem blockLong_noCleanEnd : NoCleanEnd (blockLong k) := .bind (modeOperand_noCleanEnd k) fun _ => .update _

theorem modeSetup_noCleanEnd : NoCleanEnd (modeSetup k) :=
  .bind (modeOperand_noCleanEnd k) fun _ => .bind (readBits_noCleanEnd _) fun _ => .bind (.ite (blockLong_noCleanEnd k) (blockShort_noCleanEnd k)) fun _ =>
    .bind (readBits_noCleanEnd _) fun _ => .bind (.ensure _ nofun) fun _ => .bind (readBits_noCleanEnd _) fun _ => .bind (.ensure _ nofun) fun _ =>
      .bind (readBits_noCleanEnd _) fun _ => .bind (.update _) fun _ => .bind (.read _) fun _ => .ensure _ nofun

end

-- the headers

theorem tagCheck_noCleanEnd (e t : Byte) (sync : List Byte) : NoCleanEnd (tagCheck e t sync) := .bind (.ensure _ nofun) fun _ => .ensure _ nofun

theorem headerTag_noCleanEnd (t : Byte) : NoCleanEnd (headerTag t) := .bind (readExact_noCleanEnd _) fun _ => tagCheck_noCleanEnd _ _ _

theorem headerIdent_noCleanEnd : NoCleanEnd headerIdent :=
  .bind (readExact_noCleanEnd _) fun _ => .bind (.ensure _ nofun) fun _ => .bind (.update _) fun _ => .bind (.ensure _ nofun) fun _ =>
    .bind (.ensure _ nofun) fun _ => .bind (.ensure _ nofun) fun _ => .bind (.ensure _ nofun) fun _ => .ensure _ nofun

theorem skipString_noCleanEnd : NoCleanEnd skipString :=
  .bind (readExact_noCleanEnd _) fun _ => .bind (readExact_noCleanEnd _) fun _ => .pure _

theorem headerComment_noCleanEnd : NoCleanEnd headerComment :=
  .bind skipString_noCleanEnd fun _ => .bind (readExact_noCleanEnd _) fun _ => .bind (.forN (fun _ => skipString_noCleanEnd) _ _) fun _ =>
    .bind readU8_noCleanEnd fun _ => .ensure _ nofun

theorem timePlaceholder_noCleanEnd : NoCleanEnd timePlaceholder := .bind (readBits_noCleanEnd _) fun _ => .ensure _ nofun

theorem headerSetup_noCleanEnd : NoCleanEnd headerSetup :=
  .bind (.bind (readBits_noCleanEnd _) fun _ => .bind (.update _) fun _ => .forN codebookSetup_noCleanEnd _ _) fun _ =>
    .bind (.bind (readBits_noCleanEnd _) fun _ => .forN (fun _ => timePlaceholder_noCleanEnd) _ _) fun _ =>
      .bind (.bind (readBits_noCleanEnd _) fun _ => .bind (.update _) fun _ => .forN floorSetup_noCleanEnd _ _) fun _ =>
        .bind (.bind (readBits_noCleanEnd _) fun _ => .bind (.update _) fun _ => .forN residueSetup_noCleanEnd _ _) fun _ =>
          .bind (.bind (readBits_noCleanEnd _) fun _ => .bind (.update _) fun _ => .forN mappingSetup_noCleanEnd _ _) fun _ =>
            .bind (.bind (readBits_noCleanEnd _) fun _ => .bind (.update _) fun _ => .bind (.forN modeSetup_noCleanEnd _ _) fun _ => .update _) fun _ =>
              .bind (readBits_noCleanEnd _) fun _ => .bind (.ensure _ nofun) fun _ => .update _

theorem setupStream_noCleanEnd : NoCleanEnd setupStream :=
  .bind (headerTag_noCleanEnd _) fun _ => .bind headerIdent_noCleanEnd fun _ => .bind (headerTag_noCleanEnd _) fun _ =>
    .bind headerComment_noCleanEnd fun _ => .bind (headerTag_noCleanEnd _) fun _ => .bind headerSetup_noCleanEnd fun _ => .bind (.update _) fun _ =>
      .bind (.look fun _ => .update _) fun _ => .bind (.look fun _ => .update _) fun _ => .bind (.look fun _ => .update _) fun _ =>
        .bind (.look fun _ => .update _) fun _ => .update _

-- pieces that raise nothing

/-- No run of the piece raises an error. -/
def NoRaise {α : Type} (m : M α) : Prop := ∀ s t c, m s ≠ .error (.raise c) t

section

variable {α β : Type}

theorem NoRaise.noCleanEnd {m : M α} (h : NoRaise m) : NoCleanEnd m := fun s t => h s t .cleanEnd

theorem NoRaise.pure (a : α) : NoRaise (pure a : M α) := fun _ _ _ => nofun

theorem NoRaise.read (f : State → α) : NoRaise (M.read f) := fun _ _ _ => nofun

theorem NoRaise.update (f : State → State) : NoRaise (M.update f) := fun _ _ _ => nofun

theorem NoRaise.stop {x : Stop} (hx : ∀ c, x ≠ .raise c) : NoRaise (M.stop x : M α) := fun _ _ c h => by
  cases h
  exact hx c rfl

theorem NoRaise.ite {p : Prop} [Decidable p] {m n : M α} (hm : NoRaise m) (hn : NoRaise n) : NoRaise (if p then m else n) := by
  split <;> assumption

theorem NoRaise.ensure (p : Prop) [Decidable p] {x : Stop} (hx : ∀ c, x ≠ .raise c) : NoRaise (M.ensure p x) := fun s t c => by
  by_cases hp : p
  · rw [M.run_ensure_pos hp]
    exact NoRaise.pure () s t c
  · rw [M.run_ensure_neg hp]
    exact NoRaise.stop (α := Unit) hx s t c

theorem NoRaise.bind {m : M α} {f : α → M β} (hm : NoRaise m) (hf : ∀ a, NoRaise (f a)) : NoRaise (m >>= f) := fun s t c h =>
  (M.bind_eq_error h).elim (hm s t c) fun ⟨a, u, _, h'⟩ => hf a u t c h'

theorem NoRaise.operand (p : State → Prop) [∀ s, Decidable (p s)] : NoRaise (fun s => M.operand (p s) s) :=
  fun s => NoRaise.ensure _ (fun _ => Stop.noConfusion) s

theorem NoRaise.forN {body : Nat → M Unit} (h : ∀ i, NoRaise (body i)) (k i : Nat) : NoRaise (forN k i body) := by
  induction k generalizing i with
  | zero => exact .pure _
  | succ k ih => exact .bind (h i) fun _ => ih (i + 1)

theorem NoRaise.forList {body : α → M Unit} (h : ∀ x, NoRaise (body x)) (xs : List α) : NoRaise (forList xs body) := by
  induction xs with
  | nil => exact .pure _
  | cons x xs ih => exact .bind (h x) fun _ => ih

end

theorem floorSynth_noRaise (ch f n : Nat) : NoRaise (floorSynth ch f n) :=
  .bind (.operand _) fun _ => .bind (.operand _) fun _ => .bind (.ensure _ fun _ => nofun) fun _ => .bind (.operand _) fun _ => .bind (.read _) fun _ =>
    .bind (.ensure _ fun _ => nofun) fun _ => .bind (.read _) fun _ => .bind (.update _) fun _ => .bind (.ensure _ fun _ => nofun) fun _ =>
      .bind (.ensure _ fun _ => nofun) fun _ => .update _

theorem imdctChannel_noRaise (b : Bool) (ch : Nat) : NoRaise (imdctChannel b ch) :=
  .bind (.operand _) fun _ => .bind (.operand _) fun _ => .bind (.read _) fun _ => .update _

theorem decoupleStep_noRaise (n : Nat) (st : CouplingStep) : NoRaise (decoupleStep n st) := fun _ _ _ => nofun

theorem decoupleAll_noRaise (m n : Nat) : NoRaise (decoupleAll m n) :=
  .bind (.operand _) fun _ => .bind (.ensure _ fun _ => nofun) fun _ => .bind (.read _) fun _ => .forList (decoupleStep_noRaise n) _

theorem pcmOut_noRaise (x : F32) : NoRaise (pcmOut x) := by
  unfold pcmOut
  cases pcmOf x with
  | none => exact .stop fun _ => nofun
  | some v => exact .pure _

theorem writeSamples_noRaise (xs : List F32) : NoRaise (writeSamples xs) := by
  induction xs with
  | nil => exact .pure _
  | cons x xs ih => exact .bind (pcmOut_noRaise x) fun _ => .bind (.update _) fun _ => ih

theorem outputFrame_noRaise (cap : Nat) : NoRaise (outputFrame cap) :=
  .bind (.read _) fun _ => .bind (.ensure _ fun _ => nofun) fun _ => .bind (.update _) fun _ => .bind (.read _) fun _ => .bind (.read _) fun _ =>
    .bind (.ite (.pure _) (writeSamples_noRaise _)) fun _ => .update _

-- audio packets

theorem packetHeader_noCleanEnd : NoCleanEnd packetHeader :=
  .bind (.read _) fun _ => .bind (readBits_noCleanEnd _) fun _ => .bind (.read _) fun _ => .bind (.ensure _ nofun) fun _ => .bind (.read _) fun _ =>
    .bind (.update _) fun _ => .ite (.bind (readBits_noCleanEnd _) fun _ => .pure _) (.pure _)

theorem frameBody_noCleanEnd (m : Nat) : NoCleanEnd (frameBody m) :=
  .bind (mappingOperand_noCleanEnd m) fun _ => .bind (.update _) fun _ => .bind (.read _) fun _ => .bind (.read _) fun _ => .bind (.read _) fun _ =>
    .bind (.forN (fun _ => floorDecode_noCleanEnd _ _) _ _) fun _ => .bind (.update _) fun _ =>
      .bind (.forN (fun _ => residueDecode_noCleanEnd _ _ _) _ _) fun _ => .bind (decoupleAll_noRaise _ _).noCleanEnd fun _ =>
        .bind (.forN (fun _ => .bind (.read _) fun _ => .ite (floorSynth_noRaise _ _ _).noCleanEnd (.pure _)) _ _) fun _ =>
          .bind (.forN (fun _ => .bind (.read _) fun _ => .bind (.read _) fun _ => .ite (imdctChannel_noRaise _ _).noCleanEnd (.update _)) _ _) fun _ =>
            .bind (.update _) fun _ => .bind (.update _) fun _ => .update _

theorem audioPacket_noCleanEnd : NoCleanEnd audioPacket := .bind packetHeader_noCleanEnd fun _ => frameBody_noCleanEnd _

theorem nonAudioPacket_noCleanEnd : NoCleanEnd nonAudioPacket := .stop nofun

end Sys2Proof.Machine
end

section
/-! PROOF. What a step can do: one inversion for the host commands, one for everything issued alone, and one for the step that takes a request. The invariants
and the transitions follow by choosing the relation between states that every piece of work keeps. -/

namespace Sys2Proof.Machine

-- micro-operations and selectors issued alone

/-- A piece that returns nothing, as the work of a micro-operation. -/
abbrev silentWork (m : M Unit) : M Result := do
  m
  pure .none

/-- The work of a micro-operation or a selector issued alone; a host command has none. -/
def workOf : Instr → Option (M Result)
  | .cmdOpen _ | .cmdSetup | .cmdDecode | .cmdOutput _ | .cmdClose => none
  | .rdbits n => some do let v ← readBits n; pure (.value v)
  | .rdbit => some do let v ← readBit; pure (.value v)
  | .tryrd n => some do
      match ← tryReadBits n with
      | some v => pure (.value v)
      | none => pure .eos
  | .align => some (silentWork alignBits)
  | .rdu8 => some do let b ← readU8; pure (.value b.toNat)
  | .rdexact n => some do let b ← readExact n; pure (.bytes b)
  | .cbSetup c => some (silentWork (codebookSetup c))
  | .cbScalar c => some do let e ← codebookScalar c; pure (.value e)
  | .cbVector c buf base stride => some (silentWork do vecOperand buf; codebookVector c buf base stride)
  | .flSetup f => some (silentWork (floorSetup f))
  | .flDecode ch f => some (silentWork (floorDecode ch f))
  | .flSynth ch f n => some (silentWork (floorSynth ch f n))
  | .rsSetup r => some (silentWork (residueSetup r))
  | .rsDecode r chans n => some (silentWork (residueDecode r chans n))
  | .mapSetup m => some (silentWork (mappingSetup m))
  | .modeSetup k => some (silentWork (modeSetup k))
  | .imdctInit b => some (silentWork (imdctTables b))
  | .imdct b ch => some (silentWork (imdctChannel b ch))
  | .hdrTag t => some (silentWork (headerTag t))
  | .hdrIdent => some (silentWork headerIdent)
  | .hdrComment => some (silentWork headerComment)
  | .hdrSetup => some (silentWork headerSetup)
  | .winInit b => some (silentWork (windowTables b))
  | .decouple m n => some (silentWork (decoupleAll m n))
  | .pcmOut x => some do let v ← pcmOut x; pure (.sample v)
  | .hdrTypeIdent t sync => some (silentWork do tagCheck t 0x01#8 sync; headerIdent)
  | .hdrTypeComment t sync => some (silentWork do tagCheck t 0x03#8 sync; headerComment)
  | .hdrTypeSetup t sync => some (silentWork do tagCheck t 0x05#8 sync; headerSetup)
  | .cbLenExplicit c => some (silentWork (lengthsExplicit c))
  | .cbLenRunLength c => some (silentWork (lengthsRunLength c))
  | .cbDense c => some (silentWork (lengthsDense c))
  | .cbSparse c => some (silentWork (lengthsSparse c))
  | .cbLookupNone c => some (silentWork (lookupNone c))
  | .cbLookupLattice c => some (silentWork (lookupLattice c))
  | .cbLookupExplicit c => some (silentWork (lookupExplicit c))
  | .cbSeqOff c => some (silentWork (seqOff c))
  | .cbSeqOn c => some (silentWork (seqOn c))
  | .floorType1 f => some (silentWork (floorBody f))
  | .residueType0 r => some (silentWork (residueBody r 0))
  | .residueType1 r => some (silentWork (residueBody r 1))
  | .residueType2 r => some (silentWork (residueBody r 2))
  | .mappingType0 m => some (silentWork (mappingBody m))
  | .mapSubmapsAbsent m => some (silentWork (submapsAbsent m))
  | .mapSubmapsPresent m => some (silentWork (submapsPresent m))
  | .mapCouplingAbsent m => some (silentWork (couplingAbsent m))
  | .mapCouplingPresent m => some (silentWork (couplingPresent m))
  | .modeShort k => some (silentWork (blockShort k))
  | .modeLong k => some (silentWork (blockLong k))
  | .packetAudio => some (silentWork audioPacket)
  | .packetNonAudio => some (silentWork nonAudioPacket)
  | .floorSilent ch f => some (silentWork (floorSilentPart ch f))
  | .floorEnergy ch f => some (silentWork (floorEnergyPart ch f))

section

variable {i : Instr} {m : M Result} {R : State → State → Prop}

/-- An instruction that has work runs it as a micro-operation. -/
theorem exec_of_workOf (h : workOf i = some m) (s : State) : exec i s = micro m s := by
  cases i
  case cmdOpen | cmdSetup | cmdDecode | cmdOutput | cmdClose => cases h
  all_goals cases h; rfl

/-- Work that returns nothing keeps what its piece keeps. -/
theorem Keeps.silent (hR : Chain R) {p : M Unit} (h : Keeps R p) : Keeps R (silentWork p) := .bind hR h fun _ => .pure hR _

theorem NoCleanEnd.silent {p : M Unit} (h : NoCleanEnd p) : NoCleanEnd (silentWork p) := .bind h fun _ => .pure _

theorem workOf_noCleanEnd (h : workOf i = some m) : NoCleanEnd m := by
  cases i <;> cases h
  case rdbits n => exact .bind (readBits_noCleanEnd n) fun _ => .pure _
  case rdbit => exact .bind (readBits_noCleanEnd 1) fun _ => .pure _
  case tryrd n =>
    refine .bind (tryReadBits_noCleanEnd n) fun v => ?_
    cases v <;> exact .pure _
  case align => exact .silent (.update _)
  case rdu8 => exact .bind readU8_noCleanEnd fun _ => .pure _
  case rdexact n => exact .bind (readExact_noCleanEnd n) fun _ => .pure _
  case cbSetup c => exact .silent (codebookSetup_noCleanEnd c)
  case cbScalar c => exact .bind (codebookScalar_noCleanEnd c) fun _ => .pure _
  case cbVector c buf base stride => exact .silent (.bind (vecOperand_noCleanEnd buf) fun _ => codebookVector_noCleanEnd c buf base stride)
  case flSetup f => exact .silent (floorSetup_noCleanEnd f)
  case flDecode ch f => exact .silent (floorDecode_noCleanEnd ch f)
  case flSynth ch f n => exact .silent (floorSynth_noRaise ch f n).noCleanEnd
  case rsSetup r => exact .silent (residueSetup_noCleanEnd r)
  case rsDecode r chans n => exact .silent (residueDecode_noCleanEnd r chans n)
  case mapSetup m => exact .silent (mappingSetup_noCleanEnd m)
  case modeSetup k => exact .silent (modeSetup_noCleanEnd k)
  case imdctInit b => exact .silent (.look fun _ => .update _)
  case imdct b ch => exact .silent (imdctChannel_noRaise b ch).noCleanEnd
  case hdrTag t => exact .silent (headerTag_noCleanEnd t)
  case hdrIdent => exact .silent headerIdent_noCleanEnd
  case hdrComment => exact .silent headerComment_noCleanEnd
  case hdrSetup => exact .silent headerSetup_noCleanEnd
  case winInit b => exact .silent (.look fun _ => .update _)
  case decouple m n => exact .silent (decoupleAll_noRaise m n).noCleanEnd
  case pcmOut x => exact .bind (pcmOut_noRaise x).noCleanEnd fun _ => .pure _
  case hdrTypeIdent t sync => exact .silent (.bind (tagCheck_noCleanEnd _ _ _) fun _ => headerIdent_noCleanEnd)
  case hdrTypeComment t sync => exact .silent (.bind (tagCheck_noCleanEnd _ _ _) fun _ => headerComment_noCleanEnd)
  case hdrTypeSetup t sync => exact .silent (.bind (tagCheck_noCleanEnd _ _ _) fun _ => headerSetup_noCleanEnd)
  case cbLenExplicit c => exact .silent (lengthsExplicit_noCleanEnd c)
  case cbLenRunLength c => exact .silent (lengthsRunLength_noCleanEnd c)
  case cbDense c => exact .silent (lengthsDense_noCleanEnd c)
  case cbSparse c => exact .silent (lengthsSparse_noCleanEnd c)
  case cbLookupNone c => exact .silent (lookupNone_noCleanEnd c)
  case cbLookupLattice c => exact .silent (lookupLattice_noCleanEnd c)
  case cbLookupExplicit c => exact .silent (lookupExplicit_noCleanEnd c)
  case cbSeqOff c => exact .silent (seqOff_noCleanEnd c)
  case cbSeqOn c => exact .silent (seqOn_noCleanEnd c)
  case floorType1 f => exact .silent (floorBody_noCleanEnd f)
  case residueType0 r => exact .silent (residueBody_noCleanEnd r 0)
  case residueType1 r => exact .silent (residueBody_noCleanEnd r 1)
  case residueType2 r => exact .silent (residueBody_noCleanEnd r 2)
  case mappingType0 m => exact .silent (mappingBody_noCleanEnd m)
  case mapSubmapsAbsent m => exact .silent (submapsAbsent_noCleanEnd m)
  case mapSubmapsPresent m => exact .silent (submapsPresent_noCleanEnd m)
  case mapCouplingAbsent m => exact .silent (couplingAbsent_noCleanEnd m)
  case mapCouplingPresent m => exact .silent (couplingPresent_noCleanEnd m)
  case modeShort k => exact .silent (blockShort_noCleanEnd k)
  case modeLong k => exact .silent (blockLong_noCleanEnd k)
  case packetAudio => exact .silent audioPacket_noCleanEnd
  case packetNonAudio => exact .silent nonAudioPacket_noCleanEnd
  case floorSilent ch f => exact .silent (floorSilentPart_noCleanEnd ch f)
  case floorEnergy ch f => exact .silent (floorEnergyPart_noCleanEnd ch f)

end

-- what completed work keeps

/-- Every run of the piece that completes leaves a state that stands in the relation to the first; of one that stops nothing is said. -/
def KeepsOk {α : Type} (R : State → State → Prop) (m : M α) : Prop := ∀ ⦃s t a⦄, m s = .ok a t → R s t

section

variable {α β : Type} {R Q : State → State → Prop}

theorem Keeps.keepsOk {m : M α} (h : Keeps R m) : KeepsOk R m := fun _ _ _ hm => h.ok hm

theorem KeepsOk.bind (hR : Chain R) {m : M α} {f : α → M β} (hm : KeepsOk R m) (hf : ∀ a, KeepsOk R (f a)) : KeepsOk R (m >>= f) := fun _ _ _ h =>
  let ⟨a, _, h1, h2⟩ := M.bind_eq_ok h
  hR.trans (hm h1) (hf a h2)

theorem KeepsOk.silent (hR : Chain R) {p : M Unit} (h : KeepsOk R p) : KeepsOk R (silentWork p) := .bind hR h fun _ => (Keeps.pure hR _).keepsOk

theorem KeepsOk.and {m : M α} (h : KeepsOk R m) (h' : KeepsOk Q m) : KeepsOk (fun s t => R s t ∧ Q s t) m := fun _ _ _ hm => ⟨h hm, h' hm⟩

/-- A check that completes holds, and has changed nothing. -/
theorem M.ensure_eq_ok {p : Prop} [Decidable p] {x : Stop} {s t : State} {a : Unit} (h : M.ensure p x s = .ok a t) : p ∧ t = s := by
  rw [M.run_ensure] at h
  split at h
  next hp =>
    cases h
    exact ⟨hp, rfl⟩
  next => cases h

end

/-- The updates that the micro-operations make, but for those of the header bodies that write the stream registers and the counts. -/
structure WorkUpdates (R : State → State → Prop) : Prop where
  chain : Chain R
  read : ∀ n, Keeps R (readBits n)
  tryRead : ∀ n, Keeps R (tryReadBits n)
  bytes : ∀ s n, n ≤ s.src.bytes.length → R s (s.dropBytes n)
  tabs : ∀ s f, R s (s.mapTabs f)
  pre : ∀ s f, R s (s.mapPre f)
  packet : ∀ s b, R s (s.mapFrame fun f => { f with curFlag := b, curBlock := s.block b })
  frame : FrameUpdates R

section

variable {R : State → State → Prop} (hu : WorkUpdates R)

include hu

theorem WorkUpdates.book (c : Nat) : BookUpdates R c := ⟨fun s _ => hu.tabs s _, fun s _ => hu.frame.work s _, fun s _ => hu.frame.work s _⟩

theorem WorkUpdates.residueValues : ResidueValueUpdates R :=
  ⟨fun s _ => hu.frame.work s _, fun s _ => hu.frame.work s _, fun s _ => hu.frame.work s _, hu.frame.cur⟩

theorem WorkUpdates.floorValues (ch : Nat) : FloorValueUpdates R ch := ⟨fun s _ => hu.frame.work s _, fun s _ => hu.frame.work s _⟩

theorem WorkUpdates.floorSynth (ch : Nat) : FloorSynthUpdates R ch := ⟨fun s _ _ => hu.frame.work s _, fun s v => hu.frame.cur s ch v⟩

theorem WorkUpdates.audioPacket : Keeps R audioPacket := audioPacket_keeps hu.chain hu.read hu.packet hu.frame

theorem WorkUpdates.decodePacket : Keeps R decodePacket := decodePacket_keeps hu.chain hu.tryRead hu.read hu.packet hu.frame

/-- Completed work keeps a relation that holds of its updates, given that the two header bodies that write stream registers and counts keep it. -/
theorem workOf_keepsOk (hident : KeepsOk R headerIdent) (hsetup : KeepsOk R headerSetup) {i : Instr} {m : M Result} (h : workOf i = some m) :
    KeepsOk R m := by
  have hR := hu.chain
  have hb := hu.read
  have tagged : ∀ {t e : Byte} {sync : List Byte} {p : M Unit}, KeepsOk R p → KeepsOk R (silentWork do tagCheck t e sync; p) :=
    fun hp => .silent hR (.bind hR (tagCheck_keeps hR _ _ _).keepsOk fun _ => hp)
  cases i <;> cases h
  case rdbits n => exact (Keeps.bind hR (hb n) fun _ => .pure hR _).keepsOk
  case rdbit => exact (Keeps.bind hR (hb 1) fun _ => .pure hR _).keepsOk
  case tryrd n =>
    refine (Keeps.bind hR (hu.tryRead n) fun v => ?_).keepsOk
    cases v <;> exact .pure hR _
  case align => exact .silent hR (alignBits_keeps hu.frame.align).keepsOk
  case rdu8 => exact (Keeps.bind hR (readU8_keeps hR hu.bytes) fun _ => .pure hR _).keepsOk
  case rdexact n => exact (Keeps.bind hR (readExact_keeps hR hu.bytes n) fun _ => .pure hR _).keepsOk
  case cbSetup c => exact .silent hR (codebookSetup_keeps hR hb (hu.book c)).keepsOk
  case cbScalar c => exact (Keeps.bind hR (codebookScalar_keeps hR hb c) fun _ => .pure hR _).keepsOk
  case cbVector c buf base stride =>
    exact .silent hR (Keeps.bind hR (vecOperand_keeps hR buf) fun _ => codebookVector_keeps hR hb (hu.residueValues.buf _) c base stride).keepsOk
  case flSetup f => exact .silent hR (floorSetup_keeps hR hb fun s _ => hu.tabs s _).keepsOk
  case flDecode ch f => exact .silent hR (floorDecode_keeps hR hb (hu.floorValues ch) f).keepsOk
  case flSynth ch f n => exact .silent hR (floorSynth_keeps hR (hu.floorSynth ch) f n).keepsOk
  case rsSetup r => exact .silent hR (residueSetup_keeps hR hb fun s _ => hu.tabs s _).keepsOk
  case rsDecode r chans n => exact .silent hR (residueDecode_keeps hR hb hu.residueValues r chans n).keepsOk
  case mapSetup m => exact .silent hR (mappingSetup_keeps hR hb fun s _ => hu.tabs s _).keepsOk
  case modeSetup k => exact .silent hR (modeSetup_keeps hR hb fun s _ => hu.tabs s _).keepsOk
  case imdctInit b => exact .silent hR (imdctTables_keeps hu.pre b).keepsOk
  case imdct b ch => exact .silent hR (imdctChannel_keeps hR (fun s v => hu.frame.cur s ch v) b).keepsOk
  case hdrTag t => exact .silent hR (headerTag_keeps hR hu.bytes t).keepsOk
  case hdrIdent => exact .silent hR hident
  case hdrComment => exact .silent hR (headerComment_keeps hR hu.bytes).keepsOk
  case hdrSetup => exact .silent hR hsetup
  case winInit b => exact .silent hR (windowTables_keeps hu.pre b).keepsOk
  case decouple m n => exact .silent hR (decoupleAll_keeps hR hu.frame.cur m n).keepsOk
  case pcmOut x => exact (Keeps.bind hR (pcmOut_keeps hR x) fun _ => .pure hR _).keepsOk
  case hdrTypeIdent t sync => exact tagged hident
  case hdrTypeComment t sync => exact tagged (headerComment_keeps hR hu.bytes).keepsOk
  case hdrTypeSetup t sync => exact tagged hsetup
  case cbLenExplicit c => exact .silent hR (lengthsExplicit_keeps hR hb (hu.book c)).keepsOk
  case cbLenRunLength c => exact .silent hR (lengthsRunLength_keeps hR hb (hu.book c)).keepsOk
  case cbDense c => exact .silent hR (lengthsDense_keeps hR hb (hu.book c)).keepsOk
  case cbSparse c => exact .silent hR (lengthsSparse_keeps hR hb (hu.book c)).keepsOk
  case cbLookupNone c => exact .silent hR (lookupNone_keeps hR (hu.book c)).keepsOk
  case cbLookupLattice c => exact .silent hR (lookupLattice_keeps hR hb (hu.book c)).keepsOk
  case cbLookupExplicit c => exact .silent hR (lookupExplicit_keeps hR hb (hu.book c)).keepsOk
  case cbSeqOff c => exact .silent hR (seqOff_keeps hR (hu.book c)).keepsOk
  case cbSeqOn c => exact .silent hR (seqOn_keeps hR (hu.book c)).keepsOk
  case floorType1 f => exact .silent hR (floorBody_keeps hR hb fun s _ => hu.tabs s _).keepsOk
  case residueType0 r => exact .silent hR (residueBody_keeps hR hb (fun s _ => hu.tabs s _) 0).keepsOk
  case residueType1 r => exact .silent hR (residueBody_keeps hR hb (fun s _ => hu.tabs s _) 1).keepsOk
  case residueType2 r => exact .silent hR (residueBody_keeps hR hb (fun s _ => hu.tabs s _) 2).keepsOk
  case mappingType0 m => exact .silent hR (mappingBody_keeps hR hb fun s _ => hu.tabs s _).keepsOk
  case mapSubmapsAbsent m => exact .silent hR (submapsAbsent_keeps hR fun s _ => hu.tabs s _).keepsOk
  case mapSubmapsPresent m => exact .silent hR (submapsPresent_keeps hR hb fun s _ => hu.tabs s _).keepsOk
  case mapCouplingAbsent m => exact .silent hR (couplingAbsent_keeps hR fun s _ => hu.tabs s _).keepsOk
  case mapCouplingPresent m => exact .silent hR (couplingPresent_keeps hR hb fun s _ => hu.tabs s _).keepsOk
  case modeShort k => exact .silent hR (blockShort_keeps hR fun s _ => hu.tabs s _).keepsOk
  case modeLong k => exact .silent hR (blockLong_keeps hR fun s _ => hu.tabs s _).keepsOk
  case packetAudio => exact .silent hR hu.audioPacket.keepsOk
  case packetNonAudio => exact .silent hR (Keeps.stop hR _).keepsOk
  case floorSilent ch f => exact .silent hR (floorSilentPart_keeps hR (hu.floorValues ch) f).keepsOk
  case floorEnergy ch f => exact .silent hR (floorEnergyPart_keeps hR hb (hu.floorValues ch) f).keepsOk

end

-- what an instruction can do

/-- The states in which an instruction is accepted (30_encoding R111); a micro-operation or a selector is accepted in every one. -/
def Instr.Accepted (s : State) : Instr → Prop
  | .cmdOpen _ => s.phase = .closed
  | .cmdSetup => s.phase = .uninit
  | .cmdDecode => s.phase = .ready ∧ s.dec.frame.framePending = false
  | .cmdOutput _ => s.phase = .ready ∧ s.dec.frame.framePending = true
  | .cmdClose => s.phase ≠ .closed
  | _ => True

/-- How an instruction, executed in the first state, can come to answer the second one. -/
inductive Answers : Instr → State → State → Prop where
  /-- work that completed -/
  | worked {i : Instr} {m : M Result} {r : Result} {s u : State} (hi : workOf i = some m) (h : m s = .ok r u) : Answers i s (u.setResult r)
  /-- work that raised an error -/
  | aborted {i : Instr} {m : M Result} {s t : State} (hi : workOf i = some m) (h : t.phase = .failed) : Answers i s t
  /-- a host command that the state does not accept -/
  | refused {i : Instr} {s : State} (h : ¬Instr.Accepted s i) : Answers i s (s.refuse .badState)
  | opened {s : State} (src : ByteSource) (hs : s.phase = .closed) :
    Answers (.cmdOpen src) s { s with phase := .uninit, err := Err.zero, ret := retDone Err.zero, dec := Decoder.fresh, src := src, srcPos := 0 }
  | setUp {s u : State} (hs : s.phase = .uninit) (h : setupStream s = .ok () u) : Answers .cmdSetup s u.complete
  | setupFailed {s t : State} (hs : s.phase = .uninit) (h : t.phase = .failed) : Answers .cmdSetup s t
  | decoded {s u : State} (hs : s.phase = .ready) (h : decodePacket s = .ok () u) : Answers .cmdDecode s u.complete
  | ended {s u : State} (hs : s.phase = .ready) (h : decodePacket s = .error (.raise .cleanEnd) u) : Answers .cmdDecode s (u.raise .cleanEnd)
  | decodeFailed {s t : State} (hs : s.phase = .ready) (h : t.phase = .failed) : Answers .cmdDecode s t
  | output {s u : State} {cap : Nat} (hs : s.phase = .ready) (h : outputFrame cap s = .ok () u) : Answers (.cmdOutput cap) s u.complete
  | closed {s t : State} (h : t.phase = .closed) (hpos : t.srcPos = s.srcPos) : Answers .cmdClose s t

/-- Any error but the clean end makes `STATE` `FAILED` (60_exceptions R400). -/
theorem State.raise_failed {c : Cause} (hc : c ≠ .cleanEnd) (s : State) : (s.raise c).phase = .failed := by rw [State.raise_phase, if_neg hc]

section

variable {s t : State}

theorem answers_of_work {i : Instr} {m : M Result} (hi : workOf i = some m) (h : exec i s = .next t) : Answers i s t := by
  rw [exec_of_workOf hi] at h
  rcases micro_eq_next h with ⟨r, u, hok, rfl⟩ | ⟨c, u, herr, rfl⟩
  · exact .worked hi hok
  · refine .aborted hi (State.raise_failed ?_ u)
    rintro rfl
    exact workOf_noCleanEnd hi s u herr

theorem answers_cmdOpen {src : ByteSource} (h : exec (.cmdOpen src) s = .next t) : Answers (.cmdOpen src) s t := by
  rcases command_eq_next (m := openStream src) h with ⟨hrefused, rfl⟩ | ⟨hp, u, hok, rfl⟩ | ⟨-, c, u, herr, -⟩
  · exact .refused hrefused
  · cases hok
    exact .opened src hp
  · exact absurd herr (NoRaise.update _ s u c)

theorem answers_cmdSetup (h : exec .cmdSetup s = .next t) : Answers .cmdSetup s t := by
  rcases command_eq_next (m := setupStream) h with ⟨hrefused, rfl⟩ | ⟨hp, u, hok, rfl⟩ | ⟨hp, c, u, herr, rfl⟩
  · exact .refused hrefused
  · exact .setUp hp hok
  · refine .setupFailed hp (State.raise_failed ?_ u)
    rintro rfl
    exact setupStream_noCleanEnd s u herr

theorem answers_cmdDecode (h : exec .cmdDecode s = .next t) : Answers .cmdDecode s t := by
  rcases command_eq_next (m := decodePacket) h with ⟨hrefused, rfl⟩ | ⟨hp, u, hok, rfl⟩ | ⟨hp, c, u, herr, rfl⟩
  · exact .refused hrefused
  · exact .decoded hp.1 hok
  · by_cases hc : c = .cleanEnd
    · subst hc
      exact .ended hp.1 herr
    · exact .decodeFailed hp.1 (State.raise_failed hc u)

theorem answers_cmdOutput {cap : Nat} (h : exec (.cmdOutput cap) s = .next t) : Answers (.cmdOutput cap) s t := by
  rcases command_eq_next (m := outputFrame cap) h with ⟨hrefused, rfl⟩ | ⟨hp, u, hok, rfl⟩ | ⟨-, c, u, herr, -⟩
  · exact .refused hrefused
  · exact .output hp.1 hok
  · exact absurd herr (outputFrame_noRaise cap s u c)

theorem answers_cmdClose (h : exec .cmdClose s = .next t) : Answers .cmdClose s t := by
  rcases command_eq_next (m := closeStream) h with ⟨hrefused, rfl⟩ | ⟨-, u, hok, rfl⟩ | ⟨-, c, u, herr, -⟩
  · exact .refused hrefused
  · cases hok
    exact .closed rfl rfl
  · exact absurd herr (NoRaise.update _ s u c)

/-- The inversion of `exec`: every next state is one of those. -/
theorem exec_answers {i : Instr} (h : exec i s = .next t) : Answers i s t := by
  cases i
  case cmdOpen src => exact answers_cmdOpen h
  case cmdSetup => exact answers_cmdSetup h
  case cmdDecode => exact answers_cmdDecode h
  case cmdOutput cap => exact answers_cmdOutput h
  case cmdClose => exact answers_cmdClose h
  all_goals exact answers_of_work rfl h

end

-- the step that takes a request

/-- The state in which the request `f` is run, `rest` being the ones after it. -/
def State.taken (f : Fetch) (rest : List Fetch) (s : State) : State := { s with script := rest }.latch f

section

variable {f : Fetch} {rest : List Fetch} {s t : State}

@[simp] theorem State.taken_phase : (s.taken f rest).phase = s.phase := State.latch_phase _ _
@[simp] theorem State.taken_err : (s.taken f rest).err = s.err := State.latch_err _ _
@[simp] theorem State.taken_dec : (s.taken f rest).dec = s.dec := State.latch_dec _ _
@[simp] theorem State.taken_src : (s.taken f rest).src = s.src := State.latch_src _ _
@[simp] theorem State.taken_srcPos : (s.taken f rest).srcPos = s.srcPos := State.latch_srcPos _ _

theorem step_nil (h : s.script = []) : step s = .next s := by rw [step, State.issue_nil h]

theorem step_cons (h : s.script = f :: rest) :
    step s =
      match decode f with
      | .ok i => exec i (s.taken f rest)
      | .error e => reject e (s.taken f rest) := by
  rw [step, State.issue_cons h]
  rfl

/-- A request that is no instruction and is answered by a next state is a reserved command word, or aborts. -/
theorem reject_eq_next {e : DecodeError} {u : State} (h : reject e u = .next t) : t = u.refuse .badCmd ∨ (t.phase = .failed ∧ e ≠ .badCmd ∧ e ≠ .noSuchWord) := by
  cases e <;> cases h
  case badCmd => exact .inl rfl
  all_goals exact .inr ⟨rfl, DecodeError.noConfusion, DecodeError.noConfusion⟩

/-- On the command port every word that is no instruction is reserved, or no word of the port. -/
theorem decodeCmd_error {w : Nat} {o : Operands} {e : DecodeError} (h : decodeCmd w o = .error e) : e = .badCmd ∨ e = .noSuchWord := by
  unfold decodeCmd at h
  split at h
  case h_6 =>
    split at h <;> cases h
    · exact .inl rfl
    · exact .inr rfl
  all_goals cases h

theorem decode_cmd_error {e : DecodeError} (hp : f.port = .cmd) (h : decode f = .error e) : e = .badCmd ∨ e = .noSuchWord := by
  rw [decode, hp] at h
  exact decodeCmd_error h

/-- A step that takes a request and answers a next state has executed an instruction that the request is the encoder's of, has refused a reserved command word, or,
on another port, has aborted. -/
theorem step_cons_eq_next (hs : s.script = f :: rest) (h : step s = .next t) :
    (∃ i, EncodesAs f.port f.word.toNat i ∧ Answers i (s.taken f rest) t) ∨ (t = (s.taken f rest).refuse .badCmd ∧ ∀ i, decode f ≠ .ok i) ∨
      (f.port ≠ .cmd ∧ t.phase = .failed) := by
  rw [step_cons hs] at h
  split at h
  next i hi => exact .inl ⟨i, encodes_of_decode hi, exec_answers h⟩
  next e he =>
    refine .inr ((reject_eq_next h).imp (fun ht => ⟨ht, fun i hi => ?_⟩) fun ⟨ht, h1, h2⟩ => ⟨fun hp => ?_, ht⟩)
    · cases hi.symm.trans he
    · exact (decode_cmd_error hp he).elim h1 h2

end

/-- A micro-operation or a selector does not stand on the command port. -/
theorem encode_port_of_workOf {i : Instr} {m : M Result} (h : workOf i = some m) : (encode i).port ≠ .cmd := by
  cases i <;> cases h <;> exact Port.noConfusion

end Sys2Proof.Machine
end

section
/-! PROOF. The invariants of the machine and its transitions: what completed work keeps, and then each step by `Answers`. -/

namespace Sys2Proof.Machine

-- a property of the decoder that every update of the work keeps, while the decoder is live

section

variable {R : State → State → Prop} (hu : WorkUpdates R)

include hu

/-- A completed `SETUP` keeps what its header bodies keep, for a relation that does not see `STATE`. -/
theorem setupStream_keepsOk (hident : KeepsOk R headerIdent) (hsetup : KeepsOk R headerSetup) (hphase : ∀ s p, R s (State.setPhase p s)) :
    KeepsOk R setupStream :=
  have tag := fun t => (headerTag_keeps hu.chain hu.bytes t).keepsOk
  have phase := fun p => (Keeps.update fun s => hphase s p).keepsOk
  .bind hu.chain (tag _) fun _ => .bind hu.chain hident fun _ => .bind hu.chain (tag _) fun _ =>
    .bind hu.chain (headerComment_keeps hu.chain hu.bytes).keepsOk fun _ => .bind hu.chain (tag _) fun _ => .bind hu.chain hsetup fun _ =>
      .bind hu.chain (phase _) fun _ => .bind hu.chain (windowTables_keeps hu.pre _).keepsOk fun _ =>
        .bind hu.chain (windowTables_keeps hu.pre _).keepsOk fun _ => .bind hu.chain (imdctTables_keeps hu.pre _).keepsOk fun _ =>
          .bind hu.chain (imdctTables_keeps hu.pre _).keepsOk fun _ => phase _

end

theorem headerIdent_quiet : Keeps Quiet headerIdent := headerIdent_keeps Quiet.chain (fun _ _ => Quiet.dropBytes) fun _ _ => Quiet.dec rfl

theorem quiet_updates : WorkUpdates Quiet where
  chain := Quiet.chain
  read := readBits_quiet
  tryRead := tryReadBits_quiet
  bytes _ _ := Quiet.dropBytes
  tabs _ _ := Quiet.dec rfl
  pre _ _ := Quiet.dec rfl
  packet _ _ := Quiet.dec rfl
  frame := ⟨fun _ _ => Quiet.dec rfl, fun _ => Quiet.dec rfl, fun _ => Quiet.dec rfl, Quiet.dropFloorY, fun _ => Quiet.dec rfl⟩

/-- Completed work is quiet. -/
theorem workOf_quiet {i : Instr} {m : M Result} (hi : workOf i = some m) : KeepsOk Quiet m :=
  workOf_keepsOk quiet_updates headerIdent_quiet.keepsOk headerSetup_quiet.keepsOk hi

/-- The property of the decoder holds after if it held before. -/
abbrev DecKeeps (P : Decoder → Prop) (s t : State) : Prop := P s.dec → P t.dec

theorem State.live_congr {s t : State} (h : t.phase = s.phase) : t.Live ↔ s.Live := by rw [State.Live, State.Live, h]

theorem State.live_of_phase {s : State} {p : Phase} (h : s.phase = p) (h1 : p ≠ .closed) (h2 : p ≠ .failed) : s.Live := by
  rw [State.Live, h]
  exact ⟨h1, h2⟩

section

variable {P : Decoder → Prop} (hu : WorkUpdates (DecKeeps P)) (hident : KeepsOk (DecKeeps P) headerIdent)
  (hsetup : KeepsOk (DecKeeps P) headerSetup)
  (hout : ∀ s v, DecKeeps P s (s.mapFrame fun f => { f with outCount := v, prevBlock := f.curBlock, framePending := false }))
  (hfresh : P Decoder.fresh) {s t : State}

include hu hident hsetup hout hfresh

/-- A property of the decoder that completed work keeps, that `OUTPUT` keeps and that a new decoder has is kept by every instruction while the decoder is live. -/
theorem live_answers {i : Instr} (ha : Answers i s t) (hs : s.Live → P s.dec) (ht : t.Live) : P t.dec := by
  have ready : s.phase = .ready → P s.dec := fun h => hs (State.live_of_phase h nofun nofun)
  cases ha with
  | worked hi hm =>
    have hphase := (workOf_quiet hi hm).phase
    have hkeep := workOf_keepsOk hu hident hsetup hi hm
    exact hkeep (hs ((State.live_congr hphase).mp ht))
  | aborted _ hfail => exact absurd hfail ht.2
  | refused => exact hs ht
  | opened src hp => exact hfresh
  | setUp hp hm =>
    have hkeep := setupStream_keepsOk hu hident hsetup (fun _ _ => id) hm
    exact hkeep (hs (State.live_of_phase hp nofun nofun))
  | setupFailed _ hfail => exact absurd hfail ht.2
  | decoded hp hm =>
    have hkeep := hu.decodePacket.ok hm
    exact hkeep (ready hp)
  | ended hp hm =>
    have hkeep := hu.decodePacket.error hm
    exact hkeep (ready hp)
  | decodeFailed _ hfail => exact absurd hfail ht.2
  | output hp hm =>
    have hkeep := (outputFrame_keeps hu.chain (fun _ _ => id) hout _).ok hm
    exact hkeep (ready hp)
  | closed hclosed _ => exact absurd hclosed ht.1

/-- The same of every step. -/
theorem live_step (hs : s.Live → P s.dec) (h : step s = .next t) (ht : t.Live) : P t.dec := by
  cases hscript : s.script with
  | nil =>
    rw [step_nil hscript] at h
    cases h
    exact hs ht
  | cons f rest =>
    have hs' : (s.taken f rest).Live → P (s.taken f rest).dec := by
      rw [State.live_congr State.taken_phase, State.taken_dec]
      exact hs
    rcases step_cons_eq_next hscript h with ⟨i, -, ha⟩ | ⟨rfl, -⟩ | ⟨-, hfail⟩
    · exact live_answers hu hident hsetup hout hfresh ha hs' ht
    · exact hs' ht
    · exact absurd hfail ht.2

end

-- the accumulator (10_state R41)

/-- The accumulator holds its bits and has room. -/
abbrev HasRoom (d : Decoder) : Prop := d.bits.Room

theorem room_updates : WorkUpdates (DecKeeps HasRoom) where
  chain := Chain.inv _
  read := readBits_room
  tryRead := tryReadBits_room
  bytes _ _ _ := id
  tabs _ _ := id
  pre _ _ := id
  packet _ _ := id
  frame := ⟨fun _ _ => id, fun _ => id, fun _ => id, fun _ => id, fun _ _ => ⟨Nat.zero_le _, Nat.one_pos⟩⟩

/-- Settles O54: every read leaves room for the widest read, and nothing else writes the accumulator but to empty it. -/
theorem bitsInvariantKept : Obligations.BitsInvariantKept := fun _ _ =>
  live_step room_updates (headerIdent_keeps room_updates.chain room_updates.bytes fun _ _ => id).keepsOk
    (headerSetup_keeps room_updates.chain room_updates.read room_updates.frame.align
      ⟨fun _ _ => id, fun _ _ => id, fun _ _ => id, fun _ _ => id⟩).keepsOk
    (fun _ _ => id) (by decide)

-- the registers of 10_state R33 to R37

/-- The registers of 10_state R33 to R37 are within their ranges. -/
abbrev InRange (d : Decoder) : Prop :=
  d.hdr.channels < 2 ^ 8 ∧ d.hdr.bsExp0 ≤ Config.maxBlockExp ∧ d.hdr.bsExp1 ≤ Config.maxBlockExp ∧ d.frame.curBlock ≤ Config.maxBlock ∧
    d.frame.prevBlock ≤ Config.maxBlock ∧ d.counts.nCodebooks ≤ Config.maxCodebooks ∧ d.counts.nFloors ≤ Config.maxTables ∧
    d.counts.nResidues ≤ Config.maxTables ∧ d.counts.nMappings ≤ Config.maxTables ∧ d.counts.nModes ≤ Config.maxTables ∧ d.counts.modeBits ≤ 6

/-- The registers that are in range are as they were. -/
abbrev RegsSame (s t : State) : Prop := t.dec.hdr = s.dec.hdr ∧ t.dec.frame = s.dec.frame ∧ t.dec.counts = s.dec.counts

theorem RegsSame.chain : Chain RegsSame := (Chain.eq _).and ((Chain.eq _).and (Chain.eq _))

theorem RegsSame.inRange {s t : State} (h : RegsSame s t) : DecKeeps InRange s t := by
  obtain ⟨hh, hf, hc⟩ := h
  simp only [DecKeeps, InRange, hh, hf, hc]
  exact id

theorem KeepsOk.mono {α : Type} {R Q : State → State → Prop} (hRQ : ∀ {s t}, R s t → Q s t) {m : M α} (h : KeepsOk R m) : KeepsOk Q m :=
  fun _ _ _ hm => hRQ (h hm)

theorem Keeps.mono {α : Type} {R Q : State → State → Prop} (hRQ : ∀ {s t}, R s t → Q s t) {m : M α} (h : Keeps R m) : Keeps Q m := fun s => by
  have hs := h s
  cases hm : m s <;> rw [hm] at hs <;> exact hRQ hs

theorem readBits_regsSame (n : Nat) : Keeps RegsSame (readBits n) := readBits_keeps RegsSame.chain (fun _ _ => ⟨rfl, rfl, rfl⟩) (fun _ _ => ⟨rfl, rfl, rfl⟩) n

theorem tryReadBits_regsSame (n : Nat) : Keeps RegsSame (tryReadBits n) :=
  tryReadBits_keeps RegsSame.chain (fun _ _ => ⟨rfl, rfl, rfl⟩) (fun _ _ => ⟨rfl, rfl, rfl⟩) n

theorem block_le {d : Decoder} (h : InRange d) (b : Bool) : 2 ^ (if b then d.hdr.bsExp1 else d.hdr.bsExp0) ≤ Config.maxBlock := by
  obtain ⟨-, h0, h1, -⟩ := h
  cases b
  · exact Nat.pow_le_pow_right (by decide) h0
  · exact Nat.pow_le_pow_right (by decide) h1

theorem range_updates : WorkUpdates (DecKeeps InRange) where
  chain := Chain.inv _
  read n := (readBits_regsSame n).mono RegsSame.inRange
  tryRead n := (tryReadBits_regsSame n).mono RegsSame.inRange
  bytes _ _ _ := id
  tabs _ _ := id
  pre _ _ := id
  packet s b h := by
    have hb := block_le h b
    obtain ⟨hch, h0, h1, -, hrest⟩ := h
    exact ⟨hch, h0, h1, hb, hrest⟩
  frame := ⟨fun _ _ => id, fun _ => id, fun _ => id, fun _ => id, fun _ => id⟩

/-- A read that completes returns a number of its width. -/
theorem readBits_lt {n v : Nat} {s t : State} (h : readBits n s = .ok v t) : v < 2 ^ n := by
  obtain ⟨_, _, _, h⟩ := M.bind_eq_ok h
  obtain ⟨p, u, _, h⟩ := M.bind_eq_ok h
  cases p
  · obtain ⟨acc, _, hacc, h⟩ := M.bind_eq_ok h
    cases hacc
    cases h
    exact Nat.mod_lt _ (Nat.two_pow_pos n)
  · cases h
  · cases h

/-- A check before the rest of a piece that completes holds, and the rest completes. -/
theorem M.ensure_bind_eq_ok {α : Type} {p : Prop} [Decidable p] {x : Stop} {f : Unit → M α} {s t : State} {a : α}
    (h : (M.ensure p x >>= f) s = .ok a t) : p ∧ f () s = .ok a t := by
  obtain ⟨_, u, hu, hrest⟩ := M.bind_eq_ok h
  obtain ⟨hp, rfl⟩ := M.ensure_eq_ok hu
  exact ⟨hp, hrest⟩

theorem le32_lt (b : List Byte) (i : Nat) : le32 b i < 2 ^ 32 := by
  have h0 := (b.getD i 0#8).isLt
  have h1 := (b.getD (i + 1) 0#8).isLt
  have h2 := (b.getD (i + 2) 0#8).isLt
  have h3 := (b.getD (i + 3) 0#8).isLt
  unfold le32
  omega

/-- A completed identification header has written the stream registers alone, of the decoder, and they are legal. -/
theorem headerIdent_legal {s t : State} (h : headerIdent s = .ok () t) : t.dec.hdr.Legal ∧ t.dec = { s.dec with hdr := t.dec.hdr } := by
  obtain ⟨b, u, hread, h⟩ := M.bind_eq_ok h
  have hdec : u.dec = s.dec := (readExact_keeps (Chain.eq State.dec) (fun _ _ _ => rfl) 23).ok hread
  obtain ⟨-, h⟩ := M.ensure_bind_eq_ok h
  obtain ⟨_, v, hv, h⟩ := M.bind_eq_ok (m := M.update _) h
  obtain ⟨hch, h⟩ := M.ensure_bind_eq_ok h
  obtain ⟨hmax, h⟩ := M.ensure_bind_eq_ok h
  obtain ⟨hrate, h⟩ := M.ensure_bind_eq_ok h
  obtain ⟨⟨hmin, hle, hmaxExp⟩, h⟩ := M.ensure_bind_eq_ok h
  obtain ⟨-, rfl⟩ := M.ensure_eq_ok h
  cases hv
  refine ⟨⟨Nat.pos_of_ne_zero hch, hmax, fun hz => hrate ?_, hmin, hle, hmaxExp⟩, ?_⟩
  · have hword := (toNat_eq_zero_iff _).mpr hz
    rwa [State.mapHdr_hdr, BitVec.toNat_ofNat, Nat.mod_eq_of_lt (le32_lt b 5)] at hword
  · rw [← hdec]
    rfl

theorem maxChannels_lt : Config.maxChannels < 2 ^ 8 := by
  have := Config.maxChannelsLessOne.isLt
  rw [Config.maxChannels]
  omega

theorem headerIdent_inRange : KeepsOk (DecKeeps InRange) headerIdent := by
  intro s t _ h hs
  obtain ⟨⟨-, hmax, -, -, hle, hexp⟩, hdec⟩ := headerIdent_legal h
  obtain ⟨-, -, -, hrest⟩ := hs
  rw [hdec]
  exact ⟨hmax.trans_lt maxChannels_lt, hle.trans hexp, hexp, hrest⟩

-- a setup header writes the counts

/-- One part of a setup header: the count that is read is written, and the entries are set up. -/
theorem setupPart_keepsOk {R : State → State → Prop} (hR : Chain R) {w : Nat} (hb : Keeps R (readBits w)) {g : Nat → Counts → Counts}
    (hg : ∀ n, n < 2 ^ w → ∀ s, R s (s.mapCounts (g n))) {body : Nat → M Unit} (hbody : ∀ n, n < 2 ^ w → KeepsOk R (body n)) :
    KeepsOk R (do let n ← readBits w; M.update (State.mapCounts (g n)); body n) := by
  intro s t _ h
  obtain ⟨n, u, hread, h⟩ := M.bind_eq_ok h
  obtain ⟨_, v, hv, h⟩ := M.bind_eq_ok h
  cases hv
  have hn := readBits_lt hread
  exact hR.trans (hb.ok hread) (hR.trans (hg n hn u) (hbody n hn h))

theorem RegsSame.of_tabs (s : State) (f : Tables → Tables) : RegsSame s (s.mapTabs f) := ⟨rfl, rfl, rfl⟩

theorem RegsSame.of_work (s : State) (f : Work → Work) : RegsSame s (s.mapWork f) := ⟨rfl, rfl, rfl⟩

theorem ilog_le {n w : Nat} (h : n < 2 ^ w) : ilog n ≤ w := by
  unfold ilog bitLength
  split
  · exact Nat.zero_le w
  next hn => exact (Nat.log2_lt hn).mpr h

theorem headerSetup_inRange : KeepsOk (DecKeeps InRange) headerSetup := by
  have hR := range_updates.chain
  have hb := range_updates.read
  have hu := range_updates
  have entries : ∀ {body : Nat → M Unit} {n : Nat}, (∀ i, Keeps (DecKeeps InRange) (body i)) → KeepsOk (DecKeeps InRange) (forN n 0 body) :=
    fun h => (Keeps.forN hR h _ _).keepsOk
  refine .bind hR ?_ fun _ => .bind hR (timePlaceholders_keeps hR hb).keepsOk fun _ => .bind hR ?_ fun _ => .bind hR ?_ fun _ => .bind hR ?_ fun _ =>
    .bind hR ?_ fun _ => (setupEnd_keeps hR hb hu.frame.align).keepsOk
  · refine setupPart_keepsOk hR (hb 8) (fun n hn s hs => ?_) fun n _ => entries fun c => codebookSetup_keeps hR hb (hu.book c)
    obtain ⟨h1, h2, h3, h4, h5, -, hrest⟩ := hs
    exact ⟨h1, h2, h3, h4, h5, hn, hrest⟩
  · refine setupPart_keepsOk hR (hb 6) (fun n hn s hs => ?_) fun n _ => entries fun f => floorSetup_keeps hR hb fun s _ => hu.tabs s _
    obtain ⟨h1, h2, h3, h4, h5, h6, -, hrest⟩ := hs
    exact ⟨h1, h2, h3, h4, h5, h6, hn, hrest⟩
  · refine setupPart_keepsOk hR (hb 6) (fun n hn s hs => ?_) fun n _ => entries fun r => residueSetup_keeps hR hb fun s _ => hu.tabs s _
    obtain ⟨h1, h2, h3, h4, h5, h6, h7, -, hrest⟩ := hs
    exact ⟨h1, h2, h3, h4, h5, h6, h7, hn, hrest⟩
  · refine setupPart_keepsOk hR (hb 6) (fun n hn s hs => ?_) fun n _ => entries fun m => mappingSetup_keeps hR hb fun s _ => hu.tabs s _
    obtain ⟨h1, h2, h3, h4, h5, h6, h7, h8, -, hrest⟩ := hs
    exact ⟨h1, h2, h3, h4, h5, h6, h7, h8, hn, hrest⟩
  · refine setupPart_keepsOk hR (hb 6) (fun n hn s hs => ?_) fun n hn => ?_
    · obtain ⟨h1, h2, h3, h4, h5, h6, h7, h8, h9, -, hbits⟩ := hs
      exact ⟨h1, h2, h3, h4, h5, h6, h7, h8, h9, hn, hbits⟩
    · refine .bind hR (entries fun k => modeSetup_keeps hR hb fun s _ => hu.tabs s _) fun _ => (Keeps.update fun s hs => ?_).keepsOk
      obtain ⟨h1, h2, h3, h4, h5, h6, h7, h8, h9, h10, -⟩ := hs
      exact ⟨h1, h2, h3, h4, h5, h6, h7, h8, h9, h10, ilog_le hn⟩

/-- Settles O57: the identification header checks what it writes, the counts are one more than what their fields hold, and a block size is two to an exponent. -/
theorem rangeInvariantKept : Obligations.RangeInvariantKept := fun _ _ =>
  live_step range_updates headerIdent_inRange headerSetup_inRange
    (fun _ _ ⟨h1, h2, h3, hcur, _, hrest⟩ => ⟨h1, h2, h3, hcur, hcur, hrest⟩) (by decide)

-- the stream registers in READY and ENDED (10_state R33, R34)

/-- `STATE` is as it was, and the stream registers are legal if they were. -/
abbrev HdrKeeps (s t : State) : Prop := t.phase = s.phase ∧ (s.dec.hdr.Legal → t.dec.hdr.Legal)

/-- `STATE` and the stream registers are as they were. -/
abbrev HdrSame (s t : State) : Prop := t.phase = s.phase ∧ t.dec.hdr = s.dec.hdr

theorem HdrSame.chain : Chain HdrSame := (Chain.eq _).and (Chain.eq _)

theorem HdrSame.keeps {s t : State} (h : HdrSame s t) : HdrKeeps s t := by
  obtain ⟨hp, hh⟩ := h
  exact ⟨hp, by rw [hh]; exact id⟩

theorem hdrSame_updates : WorkUpdates HdrSame where
  chain := HdrSame.chain
  read n := readBits_keeps HdrSame.chain (fun _ _ => ⟨rfl, rfl⟩) (fun _ _ => ⟨rfl, rfl⟩) n
  tryRead n := tryReadBits_keeps HdrSame.chain (fun _ _ => ⟨rfl, rfl⟩) (fun _ _ => ⟨rfl, rfl⟩) n
  bytes _ _ _ := ⟨rfl, rfl⟩
  tabs _ _ := ⟨rfl, rfl⟩
  pre _ _ := ⟨rfl, rfl⟩
  packet _ _ := ⟨rfl, rfl⟩
  frame := ⟨fun _ _ => ⟨rfl, rfl⟩, fun _ => ⟨rfl, rfl⟩, fun _ => ⟨rfl, rfl⟩, fun _ => ⟨rfl, rfl⟩, fun _ => ⟨rfl, rfl⟩⟩

theorem hdrKeeps_updates : WorkUpdates HdrKeeps where
  chain := (Chain.eq _).and (Chain.inv _)
  read n := (hdrSame_updates.read n).mono HdrSame.keeps
  tryRead n := (hdrSame_updates.tryRead n).mono HdrSame.keeps
  bytes _ _ _ := ⟨rfl, id⟩
  tabs _ _ := ⟨rfl, id⟩
  pre _ _ := ⟨rfl, id⟩
  packet _ _ := ⟨rfl, id⟩
  frame := ⟨fun _ _ => ⟨rfl, id⟩, fun _ => ⟨rfl, id⟩, fun _ => ⟨rfl, id⟩, fun _ => ⟨rfl, id⟩, fun _ => ⟨rfl, id⟩⟩

theorem headerSetup_hdrSame : Keeps HdrSame headerSetup :=
  headerSetup_keeps HdrSame.chain hdrSame_updates.read hdrSame_updates.frame.align
    ⟨fun _ _ => ⟨rfl, rfl⟩, fun _ _ => ⟨rfl, rfl⟩, fun _ _ => ⟨rfl, rfl⟩, fun _ _ => ⟨rfl, rfl⟩⟩

theorem headerIdent_hdrKeeps : KeepsOk HdrKeeps headerIdent := fun _ _ _ h => ⟨(headerIdent_quiet.ok h).phase, fun _ => (headerIdent_legal h).1⟩

/-- A completed `SETUP` has read a legal identification header, and has written the stream registers nowhere else. -/
theorem setupStream_legal {s t : State} (h : setupStream s = .ok () t) : t.dec.hdr.Legal := by
  have hR : Chain fun s t : State => t.dec.hdr = s.dec.hdr := Chain.eq _
  have hhdr : ∀ {m : M Unit}, Keeps HdrSame m → Keeps (fun s t => t.dec.hdr = s.dec.hdr) m := fun h => h.mono And.right
  have tag := fun t => hhdr (headerTag_keeps HdrSame.chain hdrSame_updates.bytes t)
  obtain ⟨_, _, _, h⟩ := M.bind_eq_ok h
  obtain ⟨_, u, hident, h⟩ := M.bind_eq_ok h
  have hrest : t.dec.hdr = u.dec.hdr := by
    refine Keeps.ok (R := fun s t => t.dec.hdr = s.dec.hdr) ?_ h
    exact .bind hR (tag _) fun _ => .bind hR (hhdr (headerComment_keeps HdrSame.chain hdrSame_updates.bytes)) fun _ =>
      .bind hR (tag _) fun _ => .bind hR (hhdr headerSetup_hdrSame) fun _ => .bind hR (.update fun s => rfl) fun _ =>
        .bind hR (windowTables_keeps (fun _ _ => rfl) _) fun _ => .bind hR (windowTables_keeps (fun _ _ => rfl) _) fun _ =>
          .bind hR (imdctTables_keeps (fun _ _ => rfl) _) fun _ => .bind hR (imdctTables_keeps (fun _ _ => rfl) _) fun _ =>
            .update fun s => rfl
  rw [hrest]
  exact (headerIdent_legal hident).1

theorem header_answers {i : Instr} {s t : State} (ha : Answers i s t) (hs : s.HeaderInv) : t.HeaderInv := by
  cases ha with
  | worked hi hm =>
    obtain ⟨hp, hlegal⟩ := workOf_keepsOk hdrKeeps_updates headerIdent_hdrKeeps (headerSetup_hdrSame.mono HdrSame.keeps).keepsOk hi hm
    exact fun ht => hlegal (hs (hp ▸ ht))
  | aborted _ hfail | setupFailed _ hfail | decodeFailed _ hfail => simp [State.HeaderInv, hfail]
  | refused => exact hs
  | opened src hp => exact fun ht => ht.elim nofun nofun
  | setUp hp hm =>
    have hl := setupStream_legal hm
    exact fun _ => hl
  | decoded hp hm => exact fun _ => (hdrKeeps_updates.decodePacket.ok hm).2 (hs (.inl hp))
  | ended hp hm => exact fun _ => (hdrKeeps_updates.decodePacket.error hm).2 (hs (.inl hp))
  | output hp hm =>
    have hkeep : HdrSame _ _ := (outputFrame_keeps HdrSame.chain (fun _ _ => ⟨rfl, rfl⟩) (fun _ _ => ⟨rfl, rfl⟩) _).ok hm
    exact fun _ => hkeep.keeps.2 (hs (.inl hp))
  | closed hclosed _ => simp [State.HeaderInv, hclosed]

/-- Settles O56: `READY` is reached through a legal identification header, and one issued alone checks what it has written. -/
theorem headerInvariantKept : Obligations.HeaderInvariantKept := by
  intro s t hs h
  cases hscript : s.script with
  | nil =>
    rw [step_nil hscript] at h
    cases h
    exact hs
  | cons f rest =>
    have hs' : (s.taken f rest).HeaderInv := by simpa [State.HeaderInv] using hs
    rcases step_cons_eq_next hscript h with ⟨i, -, ha⟩ | ⟨rfl, -⟩ | ⟨-, hfail⟩
    · exact header_answers ha hs'
    · exact hs'
    · simp [State.HeaderInv, hfail]

end Sys2Proof.Machine
end

section
/-! PROOF. The commands of the host port: how each ends, which transitions of `STATE` it makes, and what a step leaves of tables and source. -/

namespace Sys2Proof.Machine

-- how a piece ends

/-- Every run of the piece that completes ends in a state with the property. -/
def EndsIn {α : Type} (P : State → Prop) (m : M α) : Prop := ∀ ⦃s t a⦄, m s = .ok a t → P t

section

variable {α β : Type} {P : State → Prop}

theorem EndsIn.update {f : State → State} (h : ∀ s, P (f s)) : EndsIn P (M.update f) := fun s _ _ hm => by
  cases hm
  exact h s

/-- A piece ends as its last part ends. -/
theorem EndsIn.last {m : M α} {f : α → M β} (hf : ∀ a, EndsIn P (f a)) : EndsIn P (m >>= f) := fun _ _ _ h =>
  let ⟨a, _, _, h2⟩ := M.bind_eq_ok h
  hf a h2

/-- What a part of the piece ends in, the rest of it keeps. -/
theorem EndsIn.kept {m : M α} {f : α → M β} (hm : EndsIn P m) (hf : ∀ a, Keeps (fun s t => P s → P t) (f a)) : EndsIn P (m >>= f) := fun _ _ _ h =>
  let ⟨a, _, h1, h2⟩ := M.bind_eq_ok h
  (hf a).ok h2 (hm h1)

end

/-- The accumulator is empty. -/
abbrev AtBoundary (s : State) : Prop := s.dec.bits = BitReader.empty

theorem alignBits_atBoundary : EndsIn AtBoundary alignBits := .update fun _ => rfl

theorem headerSetup_atBoundary : EndsIn AtBoundary headerSetup :=
  .last fun _ => .last fun _ => .last fun _ => .last fun _ => .last fun _ => .last fun _ => .last fun _ => .last fun _ => alignBits_atBoundary

theorem setupStream_atBoundary : EndsIn AtBoundary setupStream :=
  have hR := Chain.inv AtBoundary
  .last fun _ => .last fun _ => .last fun _ => .last fun _ => .last fun _ => .kept headerSetup_atBoundary fun _ =>
    .bind hR (.update fun _ => id) fun _ => .bind hR (windowTables_keeps (fun _ _ => id) _) fun _ => .bind hR (windowTables_keeps (fun _ _ => id) _) fun _ =>
      .bind hR (imdctTables_keeps (fun _ _ => id) _) fun _ => .bind hR (imdctTables_keeps (fun _ _ => id) _) fun _ => .update fun _ => id

/-- What an audio packet leaves at its end: an empty accumulator and a pending frame (46_frame_output R370). -/
abbrev FrameEnd (s : State) : Prop := AtBoundary s ∧ s.dec.frame.framePending = true

theorem frameBody_end (m : Nat) : EndsIn FrameEnd (frameBody m) :=
  .last fun _ => .last fun _ => .last fun _ => .last fun _ => .last fun _ => .last fun _ => .last fun _ => .last fun _ => .last fun _ => .last fun _ =>
    .last fun _ => .last fun _ => fun _ _ _ h => by
      obtain ⟨_, _, halign, h⟩ := M.bind_eq_ok h
      cases halign
      cases h
      exact ⟨rfl, rfl⟩

theorem audioPacket_end : EndsIn FrameEnd audioPacket := .last frameBody_end

/-- How `DECODE` goes on after the packet type. -/
theorem decodePacket_ok {s u : State} (h : decodePacket s = .ok () u) :
    ∃ t v, tryReadBits 1 s = .ok (some t) v ∧ t ≠ 1 ∧ audioPacket v = .ok () u := by
  obtain ⟨a, v, hread, h⟩ := M.bind_eq_ok h
  cases a with
  | none => cases h
  | some t =>
    change (if t = 1 then nonAudioPacket else audioPacket) v = _ at h
    split at h
    next => cases h
    next ht => exact ⟨t, v, hread, ht, h⟩

theorem decodePacket_end : EndsIn FrameEnd decodePacket := fun _ _ _ h =>
  let ⟨_, _, _, _, h⟩ := decodePacket_ok h
  audioPacket_end h

/-- The clean end is raised where no packet begins, and nowhere else (46_frame_output R371). -/
theorem decodePacket_cleanEnd {s u : State} (h : decodePacket s = .error (.raise .cleanEnd) u) : tryReadBits 1 s = .ok none u := by
  rcases M.bind_eq_error h with hread | ⟨a, v, hread, h⟩
  · exact absurd hread (tryReadBits_noCleanEnd 1 s u)
  · cases a with
    | none =>
      cases h
      exact hread
    | some t =>
      change (if t = 1 then nonAudioPacket else audioPacket) v = _ at h
      split at h
      next => exact absurd h (nonAudioPacket_noCleanEnd v u)
      next => exact absurd h (audioPacket_noCleanEnd v u)

theorem BitReader.empty_valid : BitReader.empty.Valid := ⟨Nat.zero_le _, Nat.one_pos⟩

theorem AtBoundary.valid {s : State} (h : AtBoundary s) : s.dec.bits.Valid := by
  rw [h]
  exact BitReader.empty_valid

theorem AtBoundary.ahead {s : State} (h : AtBoundary s) : s.ahead = byteBits s.src.bytes := by
  rw [State.ahead, h]
  rfl

/-- At a byte boundary the clean end is met where the source is at its end, and nothing has been taken. -/
theorem tryReadBits_none {s u : State} (hs : AtBoundary s) (h : tryReadBits 1 s = .ok none u) : u = s := by
  have hlen : s.ahead.length = 8 * s.src.bytes.length := by rw [hs.ahead, length_byteBits]
  cases hb : s.src.bytes with
  | nil =>
    rw [hb] at hlen
    rw [tryReadBits_short hs.valid (by decide) (hlen ▸ Nat.one_pos), hb, List.length_nil, State.pulled_zero hs.valid] at h
    split at h <;> cases h
    rfl
  | cons b bs =>
    rw [hb] at hlen
    rw [tryReadBits_ok hs.valid (by decide) (by rw [hlen, List.length_cons]; omega)] at h
    cases h

/-- A command is not work issued alone. -/
theorem EncodesAs.not_work {w : Nat} {i : Instr} {m : M Result} (h : EncodesAs .cmd w i) : workOf i ≠ some m := fun hi => encode_port_of_workOf hi h.1

theorem boundary_answers {i : Instr} {w : Nat} {s t : State} (hi : EncodesAs .cmd w i) (ha : Answers i s t) (hs : s.BoundaryInv) : t.BoundaryInv := by
  cases ha with
  | worked hw _ | aborted hw _ => exact absurd hw (EncodesAs.not_work hi)
  | refused => exact hs
  | opened src hp => exact fun _ => rfl
  | setUp hp hm =>
    have hend := setupStream_atBoundary hm
    exact fun _ => hend
  | setupFailed _ hfail | decodeFailed _ hfail => exact fun ht => absurd hfail ht.2
  | decoded hp hm =>
    have hend := (decodePacket_end hm).1
    exact fun _ => hend
  | ended hp hm =>
    have hb := hs (State.live_of_phase hp nofun nofun)
    cases tryReadBits_none hb (decodePacket_cleanEnd hm)
    exact fun _ => hb
  | output hp hm =>
    have hkeep := (outputFrame_keeps (Chain.inv AtBoundary) (fun _ _ => id) (fun _ _ => id) _).ok hm
    exact fun _ => hkeep (hs (State.live_of_phase hp nofun nofun))
  | closed hclosed _ => exact fun ht => absurd hclosed ht.1

/-- Settles O55: a header or a packet that a command reads to its end is followed by `ALIGN`, and at the clean end nothing has been read. -/
theorem boundaryInvariantKept : Obligations.BoundaryInvariantKept := by
  intro s t hcmd hs h
  cases hscript : s.script with
  | nil =>
    rw [step_nil hscript] at h
    cases h
    exact hs
  | cons f rest =>
    have hport : f.port = .cmd := hcmd f (by simp [hscript])
    have hs' : (s.taken f rest).BoundaryInv := by simpa [State.BoundaryInv, State.Live] using hs
    rcases step_cons_eq_next hscript h with ⟨i, hi, ha⟩ | ⟨rfl, -⟩ | ⟨hne, -⟩
    · exact boundary_answers (hport ▸ hi) ha hs'
    · exact hs'
    · exact absurd hport hne

-- the transitions of STATE (10_state R31, R36)

/-- The instruction's word is the request's. -/
theorem EncodesAs.word_eq {p : Port} {w : BitVec 16} {i : Instr} (h : EncodesAs p w.toNat i) : w = (encode i).word := BitVec.eq_of_toNat_eq h.2.symm

theorem setupStream_ready : EndsIn (fun s => s.phase = .ready) setupStream :=
  .last fun _ => .last fun _ => .last fun _ => .last fun _ => .last fun _ => .last fun _ => .last fun _ => .last fun _ => .last fun _ => .last fun _ =>
    .last fun _ => .update fun _ => rfl

theorem outputFrame_notPending (cap : Nat) : EndsIn (fun s => s.dec.frame.framePending = false) (outputFrame cap) :=
  .last fun _ => .last fun _ => .last fun _ => .last fun _ => .last fun _ => .last fun _ => .update fun _ => rfl

theorem outputFrame_phase (cap : Nat) : Keeps (fun s t => t.phase = s.phase) (outputFrame cap) :=
  outputFrame_keeps (Chain.eq _) (fun _ _ => rfl) (fun _ _ => rfl) cap

/-- What a word of the command port may do to `STATE`. -/
abbrev PhaseMove (w : BitVec 16) (p q : Phase) : Prop :=
  q = p ∨ (w = 0x00#16 ∧ p = .closed ∧ q = .uninit) ∨ (w = 0x01#16 ∧ p = .uninit ∧ (q = .ready ∨ q = .failed)) ∨
    (w = 0x02#16 ∧ p = .ready ∧ (q = .ended ∨ q = .failed)) ∨ (w = 0x04#16 ∧ q = .closed)

theorem phase_answers {i : Instr} {s t : State} (hcmd : (encode i).port = .cmd) (ha : Answers i s t) : PhaseMove (encode i).word s.phase t.phase := by
  cases ha with
  | worked hw _ | aborted hw _ => exact absurd hcmd (encode_port_of_workOf hw)
  | refused => exact .inl rfl
  | opened src hp => exact .inr (.inl ⟨rfl, hp, rfl⟩)
  | setUp hp hm =>
    have hend := setupStream_ready hm
    exact .inr (.inr (.inl ⟨rfl, hp, .inl hend⟩))
  | setupFailed hp hfail => exact .inr (.inr (.inl ⟨rfl, hp, .inr hfail⟩))
  | decoded hp hm =>
    have hkeep := (decodePacket_quiet.ok hm).phase
    exact .inl hkeep
  | ended hp hm => exact .inr (.inr (.inr (.inl ⟨rfl, hp, .inl rfl⟩)))
  | decodeFailed hp hfail => exact .inr (.inr (.inr (.inl ⟨rfl, hp, .inr hfail⟩)))
  | output hp hm =>
    have hkeep := (outputFrame_phase _).ok hm
    exact .inl hkeep
  | closed hclosed _ => exact .inr (.inr (.inr (.inr ⟨rfl, hclosed⟩)))

/-- What a word of the command port does to `FRAME_PENDING`, in `READY`. -/
abbrev PendingMove (w : BitVec 16) (p q : Bool) : Prop :=
  (w = 0x02#16 → q = true) ∧ (w = 0x03#16 → q = false) ∧ (w ≠ 0x02#16 → w ≠ 0x03#16 → q = p)

/-- A command that is refused in `READY` leaves `FRAME_PENDING` as that command would have left it. -/
theorem pending_of_refused {i : Instr} {s : State} (hcmd : (encode i).port = .cmd) (h : ¬Instr.Accepted s i) (hs : s.phase = .ready) :
    PendingMove (encode i).word s.dec.frame.framePending s.dec.frame.framePending := by
  cases i
  case cmdOpen | cmdSetup | cmdClose => exact ⟨nofun, nofun, fun _ _ => rfl⟩
  case cmdDecode => exact ⟨fun _ => Bool.eq_true_of_not_eq_false fun hp => h ⟨hs, hp⟩, nofun, fun _ _ => rfl⟩
  case cmdOutput => exact ⟨nofun, fun _ => Bool.eq_false_of_not_eq_true fun hp => h ⟨hs, hp⟩, fun _ _ => rfl⟩
  all_goals cases hcmd

theorem pending_answers {i : Instr} {s t : State} (hcmd : (encode i).port = .cmd) (ha : Answers i s t) (hs : s.phase = .ready) (ht : t.phase = .ready) :
    PendingMove (encode i).word s.dec.frame.framePending t.dec.frame.framePending := by
  cases ha with
  | worked hw _ | aborted hw _ => exact absurd hcmd (encode_port_of_workOf hw)
  | refused h => exact pending_of_refused hcmd h hs
  | opened src hp | setUp hp _ | setupFailed hp _ => cases hs.symm.trans hp
  | decoded hp hm =>
    have hend := (decodePacket_end hm).2
    exact ⟨fun _ => hend, nofun, fun h => absurd rfl h⟩
  | ended hp hm => cases ht
  | decodeFailed _ hfail => cases hfail.symm.trans ht
  | output hp hm =>
    have hend := outputFrame_notPending _ hm
    exact ⟨nofun, fun _ => hend, fun _ h => absurd rfl h⟩
  | closed hclosed _ => cases hclosed.symm.trans ht

/-- A reserved command word is none of the words of the commands. -/
theorem reserved_word {f : Fetch} (hp : f.port = .cmd) (h : ∀ i, decode f ≠ .ok i) : f.word ≠ 0x02#16 ∧ f.word ≠ 0x03#16 := by
  obtain ⟨port, word, ops⟩ := f
  cases hp
  constructor <;> rintro rfl <;> exact h _ rfl

/-- Settles O58: each command makes its own transition, and a refused one none. -/
theorem stateTransitions : Obligations.StateTransitions := by
  intro s t f rest hscript hport h
  rcases step_cons_eq_next hscript h with ⟨i, hi, ha⟩ | ⟨rfl, hno⟩ | ⟨hne, -⟩
  · have hcmd : (encode i).port = .cmd := hi.1.trans hport
    have hphase := phase_answers hcmd ha
    have hpending := pending_answers hcmd ha
    rw [← EncodesAs.word_eq hi, State.taken_phase] at hphase hpending
    rw [State.taken_dec] at hpending
    exact ⟨hphase, hpending⟩
  · obtain ⟨hdecode, houtput⟩ := reserved_word hport hno
    exact ⟨.inl State.taken_phase, fun _ _ => ⟨fun hw => absurd hw hdecode, fun hw => absurd hw houtput, fun _ _ => by simp⟩⟩
  · exact absurd hport hne

-- the tables in READY (70_reset_and_hazards R438)

/-- Tables, counts, stream registers and precomputed tables are as they were. -/
abbrev TablesSame (s t : State) : Prop := t.dec.tabs = s.dec.tabs ∧ t.dec.counts = s.dec.counts ∧ t.dec.hdr = s.dec.hdr ∧ t.dec.pre = s.dec.pre

theorem TablesSame.chain : Chain TablesSame := (Chain.eq _).and ((Chain.eq _).and ((Chain.eq _).and (Chain.eq _)))

theorem TablesSame.refl (s : State) : TablesSame s s := TablesSame.chain.refl s

theorem decodePacket_tablesSame : Keeps TablesSame decodePacket :=
  decodePacket_keeps TablesSame.chain (tryReadBits_keeps TablesSame.chain (fun s _ => .refl s) fun s _ => .refl s)
    (readBits_keeps TablesSame.chain (fun s _ => .refl s) fun s _ => .refl s) (fun s _ => .refl s)
    ⟨fun s _ => .refl s, fun s => .refl s, fun s => .refl s, fun s => .refl s, fun s => .refl s⟩

theorem tables_answers {i : Instr} {s t : State} (hcmd : (encode i).port = .cmd) (ha : Answers i s t) (hs : s.phase = .ready) (ht : t.Live) :
    TablesSame s t := by
  cases ha with
  | worked hw _ | aborted hw _ => exact absurd hcmd (encode_port_of_workOf hw)
  | refused => exact .refl s
  | opened src hp | setUp hp _ | setupFailed hp _ => cases hs.symm.trans hp
  | decoded hp hm =>
    have hkeep := decodePacket_tablesSame.ok hm
    exact hkeep
  | ended hp hm =>
    have hkeep := decodePacket_tablesSame.error hm
    exact hkeep
  | decodeFailed _ hfail => exact absurd hfail ht.2
  | output hp hm =>
    have hkeep := (outputFrame_keeps TablesSame.chain (fun s _ => .refl s) (fun s _ => .refl s) _).ok hm
    exact hkeep
  | closed hclosed _ => exact absurd hclosed ht.1

/-- Settles O59: neither `DECODE` nor `OUTPUT` has an update of a table or a stream register, and no other command runs in `READY` but `CLOSE`. -/
theorem tablesReadOnly : Obligations.TablesReadOnly := by
  intro s t hcmd hs h ht
  cases hscript : s.script with
  | nil =>
    rw [step_nil hscript] at h
    cases h
    exact TablesSame.refl s
  | cons f rest =>
    have hport : f.port = .cmd := hcmd f (by simp [hscript])
    have hsame : TablesSame (s.taken f rest) t := by
      rcases step_cons_eq_next hscript h with ⟨i, hi, ha⟩ | ⟨rfl, -⟩ | ⟨hne, -⟩
      · exact tables_answers (hi.1.trans hport) ha (State.taken_phase.trans hs) ht
      · exact .refl _
      · exact absurd hport hne
    rwa [TablesSame, State.taken_dec] at hsame

-- the byte source (20_memory R81)

theorem SourceMoved.chain : Chain SourceMoved := by
  refine ⟨fun s => ⟨rfl, 0, Nat.zero_le _, rfl, rfl⟩, fun {s t u} h h' => ?_⟩
  obtain ⟨hterm, k, hk, hb, hp⟩ := h
  obtain ⟨hterm', k', hk', hb', hp'⟩ := h'
  refine ⟨hterm'.trans hterm, k + k', ?_, ?_, ?_⟩
  · rw [hb, List.length_drop] at hk'
    omega
  · rw [hb', hb, List.drop_drop]
  · omega

theorem SourceMoved.refl (s : State) : SourceMoved s s := SourceMoved.chain.refl s

theorem SourceMoved.of_quiet {s t : State} (h : Quiet s t) : SourceMoved s t := ⟨h.terminal, h.source⟩

theorem source_updates : WorkUpdates SourceMoved where
  chain := SourceMoved.chain
  read n := (readBits_quiet n).mono SourceMoved.of_quiet
  tryRead n := (tryReadBits_quiet n).mono SourceMoved.of_quiet
  bytes _ n h := ⟨rfl, n, h, rfl, rfl⟩
  tabs s _ := .refl s
  pre s _ := .refl s
  packet s _ := .refl s
  frame := ⟨fun s _ => .refl s, fun s => .refl s, fun s => .refl s, fun s => .refl s, fun s => .refl s⟩

theorem source_answers {i : Instr} {s t : State} (ha : Answers i s t) (ht : t.phase ≠ .failed) (hopen : ∀ src, i ≠ .cmdOpen src) (hclose : i ≠ .cmdClose) :
    SourceMoved s t := by
  cases ha with
  | worked hw hm =>
    have hmoved := SourceMoved.of_quiet (workOf_quiet hw hm)
    exact hmoved
  | aborted _ hfail | setupFailed _ hfail | decodeFailed _ hfail => exact absurd hfail ht
  | refused => exact .refl s
  | opened src => exact absurd rfl (hopen src)
  | setUp hp hm =>
    have hmoved := setupStream_keepsOk source_updates (headerIdent_quiet.mono SourceMoved.of_quiet).keepsOk (headerSetup_quiet.mono SourceMoved.of_quiet).keepsOk
      (fun s _ => .refl s) hm
    exact hmoved
  | decoded hp hm =>
    have hmoved := SourceMoved.of_quiet (decodePacket_quiet.ok hm)
    exact hmoved
  | ended hp hm =>
    have hmoved := SourceMoved.of_quiet (decodePacket_quiet.error hm)
    exact hmoved
  | output hp hm =>
    have hmoved := (outputFrame_keeps SourceMoved.chain (fun s _ => .refl s) (fun s _ => .refl s) _).ok hm
    exact hmoved
  | closed => exact absurd rfl hclose

/-- Settles O60: a byte read takes the first byte to come, and nothing else writes the source but `OPEN`, `CLOSE` and an abort. -/
theorem sourceIsSequential : Obligations.SourceIsSequential := by
  intro s t f rest hscript h ht hneither
  have hmoved : SourceMoved (s.taken f rest) t := by
    rcases step_cons_eq_next hscript h with ⟨i, hi, ha⟩ | ⟨rfl, -⟩ | ⟨-, hfail⟩
    · refine source_answers ha ht ?_ ?_
      · rintro src rfl
        exact hneither ⟨hi.1.symm, .inl (EncodesAs.word_eq hi)⟩
      · rintro rfl
        exact hneither ⟨hi.1.symm, .inr (EncodesAs.word_eq hi)⟩
    · exact .refl _
    · exact absurd hfail ht
  rwa [SourceMoved, State.taken_src, State.taken_srcPos] at hmoved

end Sys2Proof.Machine
end

section
/-! PROOF. The statements of tier 1: the step, the words, reset, raising an error, `CLOSE`, the ends of `DECODE`, and the precomputed tables. -/

namespace Sys2Proof.Machine

/-- Settles O2: `issue` takes the request off the list and latches a command word, and `step` runs what it decodes to. -/
theorem stepRunsDecoded : Obligations.StepRunsDecoded := by
  refine fun s => ⟨step_nil, fun f rest hs => ?_⟩
  have htaken : { s with script := rest, cmd := if f.port = .cmd then f.word.setWidth 8 else s.cmd } = s.taken f rest := by
    obtain ⟨port, word, ops⟩ := f
    cases port <;> rfl
  rw [htaken]
  exact ⟨fun i hi => by rw [step_cons hs, hi], fun e he => by rw [step_cons hs, he]⟩

/-- Settles O3: each word is evaluated. -/
theorem wordsDecode : Obligations.WordsDecode := ⟨rfl, rfl, rfl, rfl, rfl, rfl, rfl, rfl, rfl, rfl, rfl, rfl, rfl, rfl⟩

/-- Settles O53: at reset no decoder is live, and `STATE` is neither `READY` nor `ENDED`. -/
theorem resetMeetsInvariants : Obligations.ResetMeetsInvariants :=
  have hdead : ¬State.reset.Live := fun h => h.1 rfl
  ⟨rfl, rfl, fun h => absurd h hdead, fun h => absurd h hdead, fun h => h.elim nofun nofun, fun h => absurd h hdead⟩

-- raising an error (60_exceptions R400 to R403)

theorem retDone_flags (e : Err) : (retDone e).getLsbD 11 = false ∧ (retDone e).setWidth 10 = e.word := by
  refine ⟨?_, BitVec.setWidth_append_eq_right⟩
  rw [retDone, BitVec.getLsbD_append]
  rfl

/-- Settles O4: `raise` in its two cases, the clean end and an abort. -/
theorem raiseWrites : Obligations.RaiseWrites := by
  refine ⟨fun c s => ⟨?_, State.raise_phase c s, State.raise_ret c s, State.raise_out c s, State.raise_script c s, rfl⟩, fun s => rfl, fun c => ?_, retDone_flags⟩
  · cases c <;> rfl
  · cases c <;> rfl

/-- Settles O7: the state after `CLOSE` is written out. -/
theorem closeReleases : Obligations.CloseReleases := fun _ hs =>
  ⟨_, command_of_ok (m := closeStream) hs rfl, rfl, rfl, rfl, rfl, rfl, (retDone_flags _).1⟩

-- how DECODE ends without a frame (46_frame_output R361, R371)

section

variable {s : State}

theorem exec_cmdDecode_of_error {c : Cause} {u : State} (hp : s.phase = .ready) (hf : s.dec.frame.framePending = false)
    (h : decodePacket s = .error (.raise c) u) : exec .cmdDecode s = .next (u.raise c) :=
  command_of_error (m := decodePacket) ⟨hp, hf⟩ h

theorem exec_cmdDecode_of_ok {u : State} (hp : s.phase = .ready) (hf : s.dec.frame.framePending = false) (h : decodePacket s = .ok () u) :
    exec .cmdDecode s = .next u.complete :=
  command_of_ok (m := decodePacket) ⟨hp, hf⟩ h

/-- At a byte boundary where no byte is to come, the packet type is answered by the source's terminal answer. -/
theorem tryReadBits_atEnd (hs : AtBoundary s) (hb : s.src.bytes = []) :
    tryReadBits 1 s =
      match s.src.terminal with
      | .endOfStream => .ok none s
      | .ioError => .error (.raise .source) s := by
  have hlen : s.ahead.length < 1 := by rw [hs.ahead, hb]; exact Nat.one_pos
  rw [tryReadBits_short hs.valid (by decide) hlen, hb, List.length_nil, State.pulled_zero hs.valid] <;> rfl

/-- At a byte boundary the packet type is the lowest bit of the next byte. -/
theorem tryReadBits_type {b : Byte} {rest : List Byte} (hs : AtBoundary s) (hb : s.src.bytes = b :: rest) :
    tryReadBits 1 s = .ok (some (b.toNat % 2)) (s.advance 1) := by
  have hahead : s.ahead = bitsOf 8 b.toNat ++ byteBits rest := by rw [hs.ahead, hb, byteBits_cons]
  rw [tryReadBits_ok hs.valid (by decide) (by rw [hahead]; simp; omega), hahead, List.take_append_of_le_length (by simp)]
  rcases Nat.mod_two_eq_zero_or_one b.toNat with h | h <;> simp [bitsOf, bitsNat, h]

theorem decodePacket_of_none {u : State} (h : tryReadBits 1 s = .ok none u) : decodePacket s = .error (.raise .cleanEnd) u := by
  unfold decodePacket
  rw [M.bind_ok h]
  rfl

theorem decodePacket_of_some {t : Nat} {u : State} (h : tryReadBits 1 s = .ok (some t) u) :
    decodePacket s = (if t = 1 then nonAudioPacket else audioPacket) u := by
  unfold decodePacket
  rw [M.bind_ok h]

theorem exec_packetNonAudio (s : State) : exec .packetNonAudio s = .next (s.raise .nonAudioPacket) := rfl

end

/-- Settles O10: the packet type decides. -/
theorem decodeEnds : Obligations.DecodeEnds := by
  refine fun s => ⟨fun hp hf hs => ⟨fun hb ht => ?_, fun hb ht => ?_, fun b rest hb hbit => ?_⟩, _, exec_packetNonAudio s, ?_, rfl⟩
  · have hread := tryReadBits_atEnd hs hb
    rw [ht] at hread
    exact exec_cmdDecode_of_error hp hf (decodePacket_of_none hread)
  · have hread := tryReadBits_atEnd hs hb
    rw [ht] at hread
    exact ⟨_, exec_cmdDecode_of_error hp hf (M.bind_error hread), (Quiet.chain.refl s).aborted nofun, rfl⟩
  · have hread := tryReadBits_type hs hb
    have hquiet : Quiet s (s.advance 1) := (tryReadBits_quiet 1).ok hread
    refine ⟨_, exec_cmdDecode_of_error hp hf (u := s.advance 1) (c := .nonAudioPacket) ?_, hquiet.aborted nofun, rfl⟩
    rw [decodePacket_of_some hread, hbit]
    rfl
  · exact (Quiet.chain.refl s).aborted nofun

-- the precomputed tables (45_imdct R321, 46_frame_output R350)

@[simp] theorem Precomputed.get_set_self (p : Precomputed) (b : Bool) (t : BlockTables) : (p.set b t).get b = t := by cases b <;> rfl

@[simp] theorem Precomputed.get_set_not (p : Precomputed) (b : Bool) (t : BlockTables) : (p.set b t).get (!b) = p.get (!b) := by cases b <;> rfl

/-- The tables of block size `n` with the twiddles and the bit reversal written. -/
def BlockTables.imdct (n : Nat) (t : BlockTables) : BlockTables :=
  { t with twA := Config.twA n, twB := Config.twB n, twC := Config.twC n, bitrev := (List.range (n / 8)).map (Config.bitrev n) }

/-- The tables of block size `n` with the window halves written. -/
def BlockTables.window (n : Nat) (t : BlockTables) : BlockTables :=
  { t with winCur := (List.range (n / 2)).map (Config.winCur n), winPrev := (List.range (n / 2)).map (Config.winPrev n) }

/-- The state with the tables of one block size written by a function of that size. -/
def State.putTables (b : Bool) (g : Nat → BlockTables → BlockTables) (s : State) : State :=
  s.mapPre fun p => p.set b (g (s.block b) (p.get b))

theorem imdctTables_run (b : Bool) (s : State) : imdctTables b s = .ok () (s.putTables b BlockTables.imdct) := rfl

theorem windowTables_run (b : Bool) (s : State) : windowTables b s = .ok () (s.putTables b BlockTables.window) := rfl

theorem exec_imdctInit (b : Bool) (s : State) : exec (.imdctInit b) s = .next ((s.putTables b BlockTables.imdct).setResult .none) :=
  microUnit_of_ok (imdctTables_run b s)

theorem exec_winInit (b : Bool) (s : State) : exec (.winInit b) s = .next ((s.putTables b BlockTables.window).setResult .none) :=
  microUnit_of_ok (windowTables_run b s)

theorem State.putTables_get (b : Bool) (g : Nat → BlockTables → BlockTables) (s : State) :
    ((s.putTables b g).setResult .none).dec.pre.get b = g (s.block b) (s.dec.pre.get b) := Precomputed.get_set_self _ _ _

theorem State.putTables_get_not (b : Bool) (g : Nat → BlockTables → BlockTables) (s : State) :
    ((s.putTables b g).setResult .none).dec.pre.get (!b) = s.dec.pre.get (!b) := Precomputed.get_set_not _ _ _

/-- Settles O41: what `IMDCT_INIT` and `WIN_INIT` write is given by the block size. -/
theorem blockTablesWritten : Obligations.BlockTablesWritten := by
  refine fun s b => ⟨⟨_, exec_imdctInit b s, ?_⟩, _, exec_winInit b s, ?_⟩
  · rw [State.putTables_get, State.putTables_get_not]
    refine ⟨by simp [BlockTables.imdct], rfl, rfl, rfl, fun u v b' hn hv => ?_⟩
    rw [exec_imdctInit] at hv
    cases hv
    rw [State.putTables_get, hn]
    exact ⟨rfl, rfl, rfl, rfl⟩
  · rw [State.putTables_get, State.putTables_get_not]
    refine ⟨by simp [BlockTables.window], by simp [BlockTables.window], rfl, rfl, rfl, fun u v b' hn hv => ?_⟩
    rw [exec_winInit] at hv
    cases hv
    rw [State.putTables_get, hn]
    exact ⟨rfl, rfl⟩

end Sys2Proof.Machine
end

section
/-! PROOF. Frames of what runs alone: each operation keeps a view of the state that leaves out what it may write, and is outwardly quiet. -/

namespace Sys2Proof.Machine

-- frames

/-- The view of the state is as it was, and outside the decoder only the source has changed. -/
structure Framed {β : Type} (view : State → β) (s t : State) : Prop where
  quiet : Quiet s t
  undrawn : Undrawn s t
  seen : view t = view s

section

variable {β : Type} {view : State → β}

theorem Framed.chain : Chain (Framed view) where
  refl s := ⟨Quiet.chain.refl s, rfl, rfl⟩
  trans h h' := ⟨Quiet.chain.trans h.quiet h'.quiet, h'.undrawn.trans h.undrawn, h'.seen.trans h.seen⟩

/-- An update inside the decoder that the view does not show. -/
theorem Framed.dec {s t : State} (h : t = { s with dec := t.dec }) (hv : view t = view s) : Framed view s t :=
  ⟨Quiet.dec h, by rw [h], hv⟩

theorem Framed.outside {s t : State} (h : Framed view s t) (r : Result) : Outside s (t.setResult r) := by
  obtain ⟨hq, hfree, -⟩ := h
  exact ⟨hq.phase, hq.err, hq.cmd, hq.ret, hq.out, hq.script, hfree, hq.terminal, hq.source⟩

/-- Work issued alone that keeps a frame aborts or completes inside it. -/
theorem exec_framed {i : Instr} {m : M Result} {s t : State} (hi : workOf i = some m) (hm : Keeps (Framed view) m) (h : exec i s = .next t)
    (hr : ∀ u r, view (State.setResult r u) = view u) : Aborted s t ∨ (Outside s t ∧ view t = view s) := by
  rw [exec_of_workOf hi] at h
  rcases micro_eq_next h with ⟨r, u, hok, rfl⟩ | ⟨c, u, herr, rfl⟩
  · have hf := hm.ok hok
    exact .inr ⟨hf.outside r, (hr u r).trans hf.seen⟩
  · refine .inl ((hm.error herr).quiet.aborted ?_)
    rintro rfl
    exact workOf_noCleanEnd hi s u herr

/-- The same of work that raises no error. -/
theorem exec_framed_of_noRaise {i : Instr} {m : M Result} {s t : State} (hi : workOf i = some m) (hm : Keeps (Framed view) m) (hn : NoRaise m)
    (h : exec i s = .next t) (hr : ∀ u r, view (State.setResult r u) = view u) : Outside s t ∧ view t = view s := by
  rw [exec_of_workOf hi] at h
  rcases micro_eq_next h with ⟨r, u, hok, rfl⟩ | ⟨c, u, herr, -⟩
  · have hf := hm.ok hok
    exact ⟨hf.outside r, (hr u r).trans hf.seen⟩
  · exact absurd herr (hn s u c)

theorem NoRaise.silent {p : M Unit} (h : NoRaise p) : NoRaise (silentWork p) := .bind h fun _ => .pure _

theorem Framed.dropBytes (hd : ∀ s n, view (State.dropBytes n s) = view s) (s : State) (n : Nat) (h : n ≤ s.src.bytes.length) :
    Framed view s (s.dropBytes n) := ⟨Quiet.dropBytes h, rfl, hd s n⟩

theorem readBits_framed (hd : ∀ s n, view (State.dropBytes n s) = view s) (hb : ∀ s f, view (State.mapBits f s) = view s) (n : Nat) :
    Keeps (Framed view) (readBits n) :=
  readBits_keeps Framed.chain (fun s h => .dropBytes hd s 1 (List.length_pos_iff.mpr h)) (fun s f => .dec rfl (hb s f)) n

theorem tryReadBits_framed (hd : ∀ s n, view (State.dropBytes n s) = view s) (hb : ∀ s f, view (State.mapBits f s) = view s) (n : Nat) :
    Keeps (Framed view) (tryReadBits n) :=
  tryReadBits_keeps Framed.chain (fun s h => .dropBytes hd s 1 (List.length_pos_iff.mpr h)) (fun s f => .dec rfl (hb s f)) n

end

-- the stream reads and the header bodies

/-- The decoder but for the bits held. -/
def readsView (s : State) : Decoder := { s.dec with bits := BitReader.empty }

/-- The decoder but for the stream registers. -/
def identView (s : State) : Decoder := { s.dec with hdr := Decoder.fresh.hdr }

/-- The decoder but for what a setup header writes. -/
def setupView (s : State) : Decoder :=
  { s.dec with
    bits := BitReader.empty, counts := Decoder.fresh.counts, tabs := Tables.empty
    work := { s.dec.work with len := [], nextFree := [] } }

theorem dec_eq_of_readsView {s t : State} (h : readsView t = readsView s) : t.dec = { s.dec with bits := t.dec.bits } :=
  congrArg (fun d : Decoder => { d with bits := t.dec.bits }) h

theorem dec_eq_of_identView {s t : State} (h : identView t = identView s) : t.dec = { s.dec with hdr := t.dec.hdr } :=
  congrArg (fun d : Decoder => { d with hdr := t.dec.hdr }) h

theorem dec_eq_of_setupView {s t : State} (h : setupView t = setupView s) :
    t.dec =
      { s.dec with
        bits := t.dec.bits, counts := t.dec.counts, tabs := t.dec.tabs
        work := { s.dec.work with len := t.dec.work.len, nextFree := t.dec.work.nextFree } } :=
  congrArg (fun d : Decoder =>
    { d with
      bits := t.dec.bits, counts := t.dec.counts, tabs := t.dec.tabs
      work := { d.work with len := t.dec.work.len, nextFree := t.dec.work.nextFree } }) h

theorem readBits_readsView (n : Nat) : Keeps (Framed readsView) (readBits n) := readBits_framed (fun _ _ => rfl) (fun _ _ => rfl) n

theorem bytes_readsView (s : State) (n : Nat) (h : n ≤ s.src.bytes.length) : Framed readsView s (s.dropBytes n) := .dropBytes (fun _ _ => rfl) s n h

/-- The operations that only read the stream, and `PCM_OUT`. -/
def ReadsOnly : Instr → Prop
  | .rdbits _ | .rdbit | .tryrd _ | .align | .rdu8 | .rdexact _ | .cbScalar _ | .hdrTag _ | .hdrComment | .hdrTypeComment _ _ | .pcmOut _ => True
  | _ => False

theorem readsOnly_framed {i : Instr} (hi : ReadsOnly i) : ∃ m, workOf i = some m ∧ Keeps (Framed readsView) m := by
  have hR := Framed.chain (view := readsView)
  have hb := readBits_readsView
  have hd := bytes_readsView
  have hcomment := headerComment_keeps hR hd
  cases i
  case rdbits n => exact ⟨_, rfl, .bind hR (hb n) fun _ => .pure hR _⟩
  case rdbit => exact ⟨_, rfl, .bind hR (hb 1) fun _ => .pure hR _⟩
  case tryrd n =>
    refine ⟨_, rfl, .bind hR (tryReadBits_framed (fun _ _ => rfl) (fun _ _ => rfl) n) fun v => ?_⟩
    cases v <;> exact .pure hR _
  case align => exact ⟨_, rfl, .silent hR (alignBits_keeps fun _ => .dec rfl rfl)⟩
  case rdu8 => exact ⟨_, rfl, .bind hR (readU8_keeps hR hd) fun _ => .pure hR _⟩
  case rdexact n => exact ⟨_, rfl, .bind hR (readExact_keeps hR hd n) fun _ => .pure hR _⟩
  case cbScalar c => exact ⟨_, rfl, .bind hR (codebookScalar_keeps hR hb c) fun _ => .pure hR _⟩
  case hdrTag b => exact ⟨_, rfl, .silent hR (headerTag_keeps hR hd b)⟩
  case hdrComment => exact ⟨_, rfl, .silent hR hcomment⟩
  case hdrTypeComment b sync => exact ⟨_, rfl, .silent hR (.bind hR (tagCheck_keeps hR _ _ _) fun _ => hcomment)⟩
  case pcmOut x => exact ⟨_, rfl, .bind hR (pcmOut_keeps hR x) fun _ => .pure hR _⟩
  all_goals exact hi.elim

theorem headerIdent_framed : Keeps (Framed identView) headerIdent :=
  headerIdent_keeps Framed.chain (fun s n h => .dropBytes (fun _ _ => rfl) s n h) fun _ _ => .dec rfl rfl

theorem headerSetup_framed : Keeps (Framed setupView) headerSetup :=
  headerSetup_keeps Framed.chain (readBits_framed (fun _ _ => rfl) fun _ _ => rfl) (fun _ => .dec rfl rfl)
    ⟨fun _ _ => .dec rfl rfl, fun _ _ => .dec rfl rfl, fun _ _ => .dec rfl rfl, fun _ _ => .dec rfl rfl⟩

/-- A header body that the type selector runs keeps what it keeps alone. -/
theorem tagged_keeps {R : State → State → Prop} (hR : Chain R) {p : M Unit} (hp : Keeps R p) (e t : Byte) (sync : List Byte) :
    Keeps R (silentWork do tagCheck e t sync; p) := .silent hR (.bind hR (tagCheck_keeps hR _ _ _) fun _ => hp)

/-- Settles O49: no read of the stream has an update of the decoder but the bits held, and the two header bodies have their own. -/
theorem readsAndHeadersFrame : Obligations.ReadsAndHeadersFrame := by
  refine fun s t i h => ⟨fun hi => ?_, fun hi => ?_, fun hi => ?_⟩
  · have hreads : ReadsOnly i := by cases i <;> exact hi
    obtain ⟨m, hm, hkeep⟩ := readsOnly_framed hreads
    exact (exec_framed hm hkeep h fun _ _ => rfl).imp_right (And.imp_right dec_eq_of_readsView)
  · have hframe : ∃ m, workOf i = some m ∧ Keeps (Framed identView) m := by
      rcases hi with rfl | ⟨b, sync, rfl⟩
      · exact ⟨_, rfl, .silent Framed.chain headerIdent_framed⟩
      · exact ⟨_, rfl, tagged_keeps Framed.chain headerIdent_framed _ _ _⟩
    obtain ⟨m, hm, hkeep⟩ := hframe
    exact (exec_framed hm hkeep h fun _ _ => rfl).imp_right (And.imp_right dec_eq_of_identView)
  · have hframe : ∃ m, workOf i = some m ∧ Keeps (Framed setupView) m := by
      rcases hi with rfl | ⟨b, sync, rfl⟩
      · exact ⟨_, rfl, .silent Framed.chain headerSetup_framed⟩
      · exact ⟨_, rfl, tagged_keeps Framed.chain headerSetup_framed _ _ _⟩
    obtain ⟨m, hm, hkeep⟩ := hframe
    exact (exec_framed hm hkeep h fun _ _ => rfl).imp_right (And.imp_right dec_eq_of_setupView)

-- the entries of the setup tables

/-- The elements of an array but element `c`. -/
def others {α : Type} [Inhabited α] (c : Nat) (l : List α) (k : Nat) : Option α := if k = c then none else some (aget l k)

@[simp] theorem others_aset {α : Type} [Inhabited α] (c : Nat) (l : List α) (v : α) : others c (aset l c v) = others c l := by
  funext k
  unfold others
  split
  · rfl
  next h => rw [aget_aset_of_ne l v h]

theorem aget_eq_of_others {α : Type} [Inhabited α] {c : Nat} {l m : List α} (h : others c l = others c m) {k : Nat} (hk : k ≠ c) : aget l k = aget m k := by
  have hk' := congrFun h k
  rwa [others, others, if_neg hk, if_neg hk, Option.some.injEq] at hk'

/-- The state but for the bits held, codebook `c` and the codebook scratch. -/
def bookView (c : Nat) (s : State) : Decoder × (Nat → Option Codebook) :=
  ({ s.dec with bits := BitReader.empty, tabs := { s.dec.tabs with cb := [] }, work := { s.dec.work with len := [], nextFree := [] } }, others c s.dec.tabs.cb)

/-- The state but for the bits held and floor `f`. -/
def floorView (f : Nat) (s : State) : Decoder × (Nat → Option Floor) :=
  ({ s.dec with bits := BitReader.empty, tabs := { s.dec.tabs with fl := [] } }, others f s.dec.tabs.fl)

/-- The state but for the bits held and residue `r`. -/
def residueView (r : Nat) (s : State) : Decoder × (Nat → Option Residue) :=
  ({ s.dec with bits := BitReader.empty, tabs := { s.dec.tabs with rs := [] } }, others r s.dec.tabs.rs)

/-- The state but for the bits held and mapping `m`. -/
def mappingView (m : Nat) (s : State) : Decoder × (Nat → Option Mapping) :=
  ({ s.dec with bits := BitReader.empty, tabs := { s.dec.tabs with mp := [] } }, others m s.dec.tabs.mp)

/-- The state but for the bits held and mode `k`. -/
def modeView (k : Nat) (s : State) : Decoder × (Nat → Option Mode) :=
  ({ s.dec with bits := BitReader.empty, tabs := { s.dec.tabs with md := [] } }, others k s.dec.tabs.md)

theorem bookView_updates (c : Nat) : BookUpdates (Framed (bookView c)) c :=
  ⟨fun s _ => .dec rfl (Prod.ext rfl (others_aset c s.dec.tabs.cb _)), fun _ _ => .dec rfl rfl, fun _ _ => .dec rfl rfl⟩

theorem floorView_updates (f : Nat) : FloorUpdates (Framed (floorView f)) f := fun s _ => .dec rfl (Prod.ext rfl (others_aset f s.dec.tabs.fl _))

theorem residueView_updates (r : Nat) : ResidueUpdates (Framed (residueView r)) r := fun s _ => .dec rfl (Prod.ext rfl (others_aset r s.dec.tabs.rs _))

theorem mappingView_updates (m : Nat) : MappingUpdates (Framed (mappingView m)) m := fun s _ => .dec rfl (Prod.ext rfl (others_aset m s.dec.tabs.mp _))

theorem modeView_updates (k : Nat) : ModeUpdates (Framed (modeView k)) k := fun s _ => .dec rfl (Prod.ext rfl (others_aset k s.dec.tabs.md _))

theorem book_framed {c : Nat} {i : Instr} (hi : i ∈ [Instr.cbSetup c, .cbLenExplicit c, .cbLenRunLength c, .cbDense c, .cbSparse c, .cbLookupNone c,
    .cbLookupLattice c, .cbLookupExplicit c, .cbSeqOff c, .cbSeqOn c]) : ∃ m, workOf i = some m ∧ Keeps (Framed (bookView c)) m := by
  have hR := Framed.chain (view := bookView c)
  have hb := readBits_framed (view := bookView c) (fun _ _ => rfl) fun _ _ => rfl
  have hu := bookView_updates c
  simp only [List.mem_cons, List.not_mem_nil, or_false] at hi
  rcases hi with rfl | rfl | rfl | rfl | rfl | rfl | rfl | rfl | rfl | rfl
  · exact ⟨_, rfl, .silent hR (codebookSetup_keeps hR hb hu)⟩
  · exact ⟨_, rfl, .silent hR (lengthsExplicit_keeps hR hb hu)⟩
  · exact ⟨_, rfl, .silent hR (lengthsRunLength_keeps hR hb hu)⟩
  · exact ⟨_, rfl, .silent hR (lengthsDense_keeps hR hb hu)⟩
  · exact ⟨_, rfl, .silent hR (lengthsSparse_keeps hR hb hu)⟩
  · exact ⟨_, rfl, .silent hR (lookupNone_keeps hR hu)⟩
  · exact ⟨_, rfl, .silent hR (lookupLattice_keeps hR hb hu)⟩
  · exact ⟨_, rfl, .silent hR (lookupExplicit_keeps hR hb hu)⟩
  · exact ⟨_, rfl, .silent hR (seqOff_keeps hR hu)⟩
  · exact ⟨_, rfl, .silent hR (seqOn_keeps hR hu)⟩

theorem floor_framed {f : Nat} {i : Instr} (hi : i ∈ [Instr.flSetup f, .floorType1 f]) : ∃ m, workOf i = some m ∧ Keeps (Framed (floorView f)) m := by
  have hR := Framed.chain (view := floorView f)
  have hb := readBits_framed (view := floorView f) (fun _ _ => rfl) fun _ _ => rfl
  have hu := floorView_updates f
  simp only [List.mem_cons, List.not_mem_nil, or_false] at hi
  rcases hi with rfl | rfl
  · exact ⟨_, rfl, .silent hR (floorSetup_keeps hR hb hu)⟩
  · exact ⟨_, rfl, .silent hR (floorBody_keeps hR hb hu)⟩

theorem residue_framed {r : Nat} {i : Instr} (hi : i ∈ [Instr.rsSetup r, .residueType0 r, .residueType1 r, .residueType2 r]) :
    ∃ m, workOf i = some m ∧ Keeps (Framed (residueView r)) m := by
  have hR := Framed.chain (view := residueView r)
  have hb := readBits_framed (view := residueView r) (fun _ _ => rfl) fun _ _ => rfl
  have hu := residueView_updates r
  simp only [List.mem_cons, List.not_mem_nil, or_false] at hi
  rcases hi with rfl | rfl | rfl | rfl
  · exact ⟨_, rfl, .silent hR (residueSetup_keeps hR hb hu)⟩
  · exact ⟨_, rfl, .silent hR (residueBody_keeps hR hb hu 0)⟩
  · exact ⟨_, rfl, .silent hR (residueBody_keeps hR hb hu 1)⟩
  · exact ⟨_, rfl, .silent hR (residueBody_keeps hR hb hu 2)⟩

theorem mapping_framed {m : Nat} {i : Instr} (hi : i ∈ [Instr.mapSetup m, .mappingType0 m, .mapSubmapsAbsent m, .mapSubmapsPresent m,
    .mapCouplingAbsent m, .mapCouplingPresent m]) : ∃ w, workOf i = some w ∧ Keeps (Framed (mappingView m)) w := by
  have hR := Framed.chain (view := mappingView m)
  have hb := readBits_framed (view := mappingView m) (fun _ _ => rfl) fun _ _ => rfl
  have hu := mappingView_updates m
  simp only [List.mem_cons, List.not_mem_nil, or_false] at hi
  rcases hi with rfl | rfl | rfl | rfl | rfl | rfl
  · exact ⟨_, rfl, .silent hR (mappingSetup_keeps hR hb hu)⟩
  · exact ⟨_, rfl, .silent hR (mappingBody_keeps hR hb hu)⟩
  · exact ⟨_, rfl, .silent hR (submapsAbsent_keeps hR hu)⟩
  · exact ⟨_, rfl, .silent hR (submapsPresent_keeps hR hb hu)⟩
  · exact ⟨_, rfl, .silent hR (couplingAbsent_keeps hR hu)⟩
  · exact ⟨_, rfl, .silent hR (couplingPresent_keeps hR hb hu)⟩

theorem mode_framed {k : Nat} {i : Instr} (hi : i ∈ [Instr.modeSetup k, .modeShort k, .modeLong k]) :
    ∃ m, workOf i = some m ∧ Keeps (Framed (modeView k)) m := by
  have hR := Framed.chain (view := modeView k)
  have hb := readBits_framed (view := modeView k) (fun _ _ => rfl) fun _ _ => rfl
  have hu := modeView_updates k
  simp only [List.mem_cons, List.not_mem_nil, or_false] at hi
  rcases hi with rfl | rfl | rfl
  · exact ⟨_, rfl, .silent hR (modeSetup_keeps hR hb hu)⟩
  · exact ⟨_, rfl, .silent hR (blockShort_keeps hR hu)⟩
  · exact ⟨_, rfl, .silent hR (blockLong_keeps hR hu)⟩

/-- Settles O50: the operations of each unit have the updates of their entry alone. -/
theorem tableEntryFrame : Obligations.TableEntryFrame := by
  refine fun s t i h => ⟨fun c hi => ?_, fun f hi => ?_, fun r hi => ?_, fun m hi => ?_, fun k hi => ?_⟩
  · obtain ⟨w, hw, hkeep⟩ := book_framed hi
    refine (exec_framed hw hkeep h fun _ _ => rfl).imp_right (And.imp_right fun hv => ⟨fun k => aget_eq_of_others (congrArg Prod.snd hv), ?_⟩)
    exact congrArg (fun p : Decoder × (Nat → Option Codebook) =>
      { p.1 with
        bits := t.dec.bits, tabs := { p.1.tabs with cb := t.dec.tabs.cb }
        work := { p.1.work with len := t.dec.work.len, nextFree := t.dec.work.nextFree } }) hv
  · obtain ⟨w, hw, hkeep⟩ := floor_framed hi
    refine (exec_framed hw hkeep h fun _ _ => rfl).imp_right (And.imp_right fun hv => ⟨fun k => aget_eq_of_others (congrArg Prod.snd hv), ?_⟩)
    exact congrArg (fun p : Decoder × (Nat → Option Floor) => { p.1 with bits := t.dec.bits, tabs := { p.1.tabs with fl := t.dec.tabs.fl } }) hv
  · obtain ⟨w, hw, hkeep⟩ := residue_framed hi
    refine (exec_framed hw hkeep h fun _ _ => rfl).imp_right (And.imp_right fun hv => ⟨fun k => aget_eq_of_others (congrArg Prod.snd hv), ?_⟩)
    exact congrArg (fun p : Decoder × (Nat → Option Residue) => { p.1 with bits := t.dec.bits, tabs := { p.1.tabs with rs := t.dec.tabs.rs } }) hv
  · obtain ⟨w, hw, hkeep⟩ := mapping_framed hi
    refine (exec_framed hw hkeep h fun _ _ => rfl).imp_right (And.imp_right fun hv => ⟨fun k => aget_eq_of_others (congrArg Prod.snd hv), ?_⟩)
    exact congrArg (fun p : Decoder × (Nat → Option Mapping) => { p.1 with bits := t.dec.bits, tabs := { p.1.tabs with mp := t.dec.tabs.mp } }) hv
  · obtain ⟨w, hw, hkeep⟩ := mode_framed hi
    refine (exec_framed hw hkeep h fun _ _ => rfl).imp_right (And.imp_right fun hv => ⟨fun j => aget_eq_of_others (congrArg Prod.snd hv), ?_⟩)
    exact congrArg (fun p : Decoder × (Nat → Option Mode) => { p.1 with bits := t.dec.bits, tabs := { p.1.tabs with md := t.dec.tabs.md } }) hv

end Sys2Proof.Machine
end

section
/-! PROOF. Frames of the operations on the work buffers, and of `DECODE` and `OUTPUT`. -/

namespace Sys2Proof.Machine

-- the banks but for some channels

/-- The previous bank, and the current one but for some channels. -/
def banksView (chans : List Nat) (s : State) : (Nat → List F32) × (Nat → Option (List F32)) :=
  (s.prev, fun ch => if ch ∈ chans then none else some (s.cur ch))

theorem banksView_of_banksBut {s t : State} {a chans : List Nat} (h : BanksBut s t a) (ha : ∀ ch ∈ a, ch ∈ chans) : banksView chans t = banksView chans s := by
  obtain ⟨hprev, hcur⟩ := h
  refine Prod.ext (funext hprev) (funext fun ch => ?_)
  by_cases hch : ch ∈ chans
  · simp only [banksView, if_pos hch]
  · simp only [banksView, if_neg hch, hcur ch fun hin => hch (ha ch hin)]

theorem banksBut_of_banksView {s t : State} {chans : List Nat} (h : banksView chans t = banksView chans s) : BanksBut s t chans := by
  refine ⟨congrFun (congrArg Prod.fst h), fun ch hch => ?_⟩
  have hcur := congrFun (congrArg Prod.snd h) ch
  simpa only [banksView, if_neg hch, Option.some.injEq] using hcur

theorem State.setCur_dec (s : State) (ch : Nat) (v : List F32) : s.setCur ch v = { s with dec := (s.setCur ch v).dec } := by
  unfold State.setCur
  split <;> rfl

/-- A write of a current channel keeps a view that shows neither the contents of the banks nor that channel. -/
theorem Framed.setCur {β : Type} {rest : State → β} {chans : List Nat} {ch : Nat} (hch : ch ∈ chans)
    (hrest : ∀ s (f g : Work → List (List F32)), rest (State.mapWork (fun w => { w with buf0 := f w, buf1 := g w }) s) = rest s) (s : State) (v : List F32) :
    Framed (fun s => (rest s, banksView chans s)) s (s.setCur ch v) := by
  refine .dec (s.setCur_dec ch v) (Prod.ext ?_ (banksView_of_banksBut (State.setCur_banksBut s ch v) fun c hc => ?_))
  · unfold State.setCur
    split
    · exact hrest s (fun w => w.buf0) fun w => aset w.buf1 ch v
    · exact hrest s (fun w => aset w.buf0 ch v) fun w => w.buf1
  · rw [List.mem_singleton.mp hc]
    exact hch

-- CB_VECTOR

/-- The decoder but for the bits held and the two banks. -/
def banksBlank (s : State) : Decoder := { s.dec with bits := BitReader.empty, work := { s.dec.work with buf0 := [], buf1 := [] } }

/-- The decoder but for the bits held and the interleave buffer. -/
def interleaveBlank (s : State) : Decoder := { s.dec with bits := BitReader.empty, work := { s.dec.work with interleave := [] } }

theorem codebookVector_framed {β : Type} {view : State → β} (hd : ∀ s n, view (State.dropBytes n s) = view s) (hb : ∀ s f, view (State.mapBits f s) = view s)
    {buf : Vec} (hu : BufUpdates (Framed view) buf.ref) (c base stride : Nat) :
    Keeps (Framed view) (silentWork do vecOperand buf; codebookVector c buf base stride) :=
  .silent Framed.chain (.bind Framed.chain (vecOperand_keeps Framed.chain buf) fun _ =>
    codebookVector_keeps Framed.chain (readBits_framed hd hb) hu c base stride)

/-- The frame of a vector decode into a channel. -/
theorem cbVector_cur {s t : State} {c ch size base stride : Nat} (h : exec (.cbVector c { ref := .cur ch, size := size } base stride) s = .next t) :
    Aborted s t ∨ (Outside s t ∧ (banksBlank t, banksView [ch] t) = (banksBlank s, banksView [ch] s)) :=
  exec_framed (view := fun s => (banksBlank s, banksView [ch] s)) rfl
    (codebookVector_framed (fun _ _ => rfl) (fun _ _ => rfl) (fun s v => Framed.setCur (List.mem_singleton_self ch) (fun _ _ _ => rfl) s v) _ _ _) h fun _ _ => rfl

/-- The frame of a vector decode into the interleave buffer. -/
theorem cbVector_interleave {s t : State} {c size base stride : Nat} (h : exec (.cbVector c { ref := .interleave, size := size } base stride) s = .next t) :
    Aborted s t ∨ (Outside s t ∧ interleaveBlank t = interleaveBlank s) :=
  exec_framed rfl (codebookVector_framed (fun _ _ => rfl) (fun _ _ => rfl) (fun _ _ => .dec rfl rfl) _ _ _) h fun _ _ => rfl

-- FL_DECODE

/-- The state but for the bits held and what channel `ch` has in the floor scratch. -/
def floorPartView (ch : Nat) (s : State) : Decoder × (Nat → Option Bool) × (Nat → Option (List Nat)) :=
  ({ s.dec with bits := BitReader.empty, work := { s.dec.work with hasEnergy := [], floorY := [] } }, others ch s.dec.work.hasEnergy, others ch s.dec.work.floorY)

theorem floorPartView_updates (ch : Nat) : FloorValueUpdates (Framed (floorPartView ch)) ch :=
  ⟨fun s _ => .dec rfl (Prod.ext rfl (Prod.ext (others_aset ch s.dec.work.hasEnergy _) rfl)),
    fun s _ => .dec rfl (Prod.ext rfl (Prod.ext rfl (others_aset ch s.dec.work.floorY _)))⟩

theorem floorPart_framed {ch f : Nat} {i : Instr} (hi : i ∈ [Instr.flDecode ch f, .floorSilent ch f, .floorEnergy ch f]) :
    ∃ m, workOf i = some m ∧ Keeps (Framed (floorPartView ch)) m := by
  have hR := Framed.chain (view := floorPartView ch)
  have hb := readBits_framed (view := floorPartView ch) (fun _ _ => rfl) fun _ _ => rfl
  have hu := floorPartView_updates ch
  simp only [List.mem_cons, List.not_mem_nil, or_false] at hi
  rcases hi with rfl | rfl | rfl
  · exact ⟨_, rfl, .silent hR (floorDecode_keeps hR hb hu f)⟩
  · exact ⟨_, rfl, .silent hR (floorSilentPart_keeps hR hu f)⟩
  · exact ⟨_, rfl, .silent hR (floorEnergyPart_keeps hR hb hu f)⟩

-- FL_SYNTH, IMDCT and DECOUPLE

/-- The decoder but for the two banks and the amplitudes. -/
def synthBlank (s : State) : Decoder := { s.dec with work := { s.dec.work with buf0 := [], buf1 := [], finalY := [], step2 := [] } }

/-- The decoder but for the two banks. -/
def blockBlank (s : State) : Decoder := { s.dec with work := { s.dec.work with buf0 := [], buf1 := [] } }

theorem floorSynth_framed (ch f n : Nat) : Keeps (Framed fun s => (synthBlank s, banksView [ch] s)) (floorSynth ch f n) :=
  floorSynth_keeps Framed.chain ⟨fun _ _ _ => .dec rfl rfl, Framed.setCur (List.mem_singleton_self ch) fun _ _ _ => rfl⟩ f n

theorem imdctChannel_framed (b : Bool) (ch : Nat) : Keeps (Framed fun s => (blockBlank s, banksView [ch] s)) (imdctChannel b ch) :=
  imdctChannel_keeps Framed.chain (Framed.setCur (List.mem_singleton_self ch) fun _ _ _ => rfl) b

theorem keeps_forList_mem {α : Type} {R : State → State → Prop} (hR : Chain R) {body : α → M Unit} {xs : List α} (h : ∀ x ∈ xs, Keeps R (body x)) :
    Keeps R (forList xs body) := by
  induction xs with
  | nil => exact .pure hR _
  | cons x xs ih => exact .bind hR (h x (List.mem_cons_self ..)) fun _ => ih fun y hy => h y (List.mem_cons_of_mem x hy)

/-- The channels of coupling steps. -/
abbrev stepChans (steps : List CouplingStep) : List Nat := steps.flatMap fun st => [st.mag, st.ang]

theorem decoupleSteps_framed (n : Nat) (steps : List CouplingStep) :
    Keeps (Framed fun s => (blockBlank s, banksView (stepChans steps) s)) (forList steps.reverse (decoupleStep n)) := by
  refine keeps_forList_mem Framed.chain fun st hst => ?_
  have hmem : ∀ ch ∈ [st.mag, st.ang], ch ∈ stepChans steps := fun ch hch => List.mem_flatMap.mpr ⟨st, List.mem_reverse.mp hst, hch⟩
  intro s
  exact Framed.chain.trans (Framed.setCur (hmem st.mag (by simp)) (fun _ _ _ => rfl) s _) (Framed.setCur (hmem st.ang (by simp)) (fun _ _ _ => rfl) _ _)

/-- A completed `DECOUPLE` is its steps. -/
theorem decoupleAll_ok {m n : Nat} {s t : State} (h : decoupleAll m n s = .ok () t) :
    forList (s.mapping m).steps.reverse (decoupleStep n) s = .ok () t := by
  obtain ⟨_, u, hmap, hrest⟩ := M.bind_eq_ok h
  obtain ⟨-, rfl⟩ := M.ensure_eq_ok (p := m < s.dec.counts.nMappings) hmap
  exact (M.ensure_bind_eq_ok hrest).2

theorem decouple_framed {m n : Nat} {s t : State} (h : exec (.decouple m n) s = .next t) :
    Outside s t ∧ (blockBlank t, banksView (stepChans (s.mapping m).steps) t) = (blockBlank s, banksView (stepChans (s.mapping m).steps) s) := by
  rcases microUnit_eq_next (m := decoupleAll m n) h with ⟨u, hok, rfl⟩ | ⟨c, u, herr, -⟩
  · have hf := (decoupleSteps_framed n _).ok (decoupleAll_ok hok)
    exact ⟨hf.outside .none, hf.seen⟩
  · exact absurd herr (decoupleAll_noRaise m n s u c)

-- RS_DECODE

theorem keeps_forN_lt {R : State → State → Prop} (hR : Chain R) {body : Nat → M Unit} {k : Nat} (lo : Nat) (h : ∀ i, i < lo + k → Keeps R (body i)) :
    Keeps R (forN k lo body) := by
  induction k generalizing lo with
  | zero => exact .pure hR _
  | succ k ih => exact .bind hR (h lo (by omega)) fun _ => ih (lo + 1) fun i hi => h i (by omega)

section

variable {R : State → State → Prop} (hR : Chain R) (hb : ∀ n, Keeps R (readBits n))

include hR hb

theorem decodePartition_keeps_buf {v : Vec} (hv : BufUpdates R v.ref) (rs : Residue) (book off : Nat) : Keeps R (decodePartition rs book v off) := by
  unfold decodePartition
  refine Keeps.ite ?_ ?_
  · exact .bind hR (.read hR _) fun _ => .bind hR (.ensure hR _ _) fun _ => .forN hR (fun _ => codebookVector_keeps hR hb hv _ _ _) _ _
  · exact .bind hR (.read hR _) fun _ => .forN hR (fun _ => codebookVector_keeps hR hb hv _ _ _) _ _

theorem residueCell_keeps_buf {v : Vec} (hv : BufUpdates R v.ref) (rs : Residue) (vs : List Vec) (lim pass q j : Nat) (hj : aget vs j = v) :
    Keeps R (residueCell rs vs lim pass q j) := by
  refine .bind hR (.read hR _) fun cls => ?_
  cases aget (aget rs.books cls) pass with
  | none => exact .pure hR _
  | some book => exact decodePartition_keeps_buf hR hb (hj ▸ hv) rs book _

/-- `RS_INNER` writes the classifications and the buffers of its vectors alone. -/
theorem residueInner_keeps_vecs (hclassif : ∀ s l, R s (s.mapWork fun w => { w with classif := l })) {vs : List Vec} {dnd : List Bool}
    (hlen : dnd.length = vs.length) (hv : ∀ v ∈ vs, BufUpdates R v.ref) (rs : Residue) (size : Nat) : Keeps R (residueInner rs vs dnd size) := by
  have hcell : ∀ pass q j, j < dnd.length → Keeps R (residueCell rs vs (limBegin rs size) pass q j) := fun pass q j hj =>
    residueCell_keeps_buf hR hb (hv _ (List.getElem_mem (hlen ▸ hj))) rs vs _ pass q j (aget_of_lt _)
  have hkept : ∀ {body : Nat → M Unit}, (∀ j, j < dnd.length → Keeps R (body j)) → Keeps R (forKept dnd body) := fun h =>
    keeps_forN_lt hR 0 fun j hj => .ite (.pure hR _) (h j (by omega))
  refine .bind hR (.read hR _) fun cpc => .bind hR (.ensure hR _ _) fun _ => .forN hR (fun pass => .forN hR (fun g => ?_) _ _) _ _
  refine .bind hR (.ite (hkept fun j _ => ?_) (.pure hR _)) fun _ => .forN hR (fun q => hkept (hcell pass q)) _ _
  exact .bind hR (codebookScalar_keeps hR hb _) fun _ => .update fun s => hclassif s _

/-- `RS_DECODE` writes the channels that it names alone. -/
theorem residueDecode_keeps_chans {chans : List Nat} (hclassif : ∀ s l, R s (s.mapWork fun w => { w with classif := l }))
    (hflags : ∀ s l, R s (s.mapWork fun w => { w with doNotDecode := l })) (hinter : ∀ s l, R s (s.mapWork fun w => { w with interleave := l }))
    (hcur : ∀ s ch v, ch ∈ chans → R s (State.setCur ch v s)) (r n : Nat) : Keeps R (residueDecode r chans n) := by
  refine .bind hR (residueOperand_keeps hR r) fun _ => .bind hR (binsOperand_keeps hR n) fun _ => .bind hR (.read hR _) fun _ =>
    .bind hR (.ensure hR _ _) fun _ => .bind hR (.read hR _) fun rs => .bind hR (.ensure hR _ _) fun _ =>
      .bind hR (.read hR _) fun need => .bind hR (.update fun s => hflags s _) fun _ => .ite ?_ ?_
  · refine .bind hR (.update fun s => hinter s _) fun _ => .bind hR (.ite (.pure hR _) ?_) fun _ => keeps_forN_lt hR 0 fun j hj => .update fun s => ?_
    · refine residueInner_keeps_vecs hR hb hclassif rfl (fun v hv => ?_) rs _
      rw [List.mem_singleton.mp hv]
      exact hinter
    · refine hcur s _ _ ?_
      rw [aget_of_lt (by omega)]
      exact List.getElem_mem _
  · refine .bind hR (keeps_forList_mem hR fun c hc => .update fun s => hcur s _ _ hc) fun _ => residueInner_keeps_vecs hR hb hclassif (by simp [doNotDecodeOf]) ?_ rs n
    intro v hv
    obtain ⟨c, hc, rfl⟩ := List.mem_map.mp hv
    exact fun s l => hcur s c l hc

end

/-- The decoder but for the bits held, the two banks and the residue scratch. -/
def residueBlank (s : State) : Decoder :=
  { s.dec with
    bits := BitReader.empty
    work := { s.dec.work with buf0 := [], buf1 := [], interleave := [], classif := [], doNotDecode := [] } }

theorem residueDecode_framed (r : Nat) (chans : List Nat) (n : Nat) :
    Keeps (Framed fun s => (residueBlank s, banksView chans s)) (residueDecode r chans n) :=
  residueDecode_keeps_chans Framed.chain (readBits_framed (fun _ _ => rfl) fun _ _ => rfl) (fun _ _ => .dec rfl rfl) (fun _ _ => .dec rfl rfl)
    (fun _ _ => .dec rfl rfl) (fun s _ v hch => Framed.setCur hch (fun _ _ _ => rfl) s v) r n

/-- Settles O51: each operation on the work buffers writes the channels that it names, through `setCur`, and its scratch. -/
theorem bufferFrame : Obligations.BufferFrame := by
  refine fun s t i h => ⟨fun c v base stride hi => ?_, fun ch f hi => ?_, fun ch f n hi => ?_, fun r chans n hi => ?_, fun b ch hi => ?_, fun m n hi => ?_⟩
  · subst hi
    obtain ⟨ref, size⟩ := v
    cases ref with
    | cur ch =>
      refine (cbVector_cur h).imp_right (And.imp_right fun hv => ⟨?_, banksBut_of_banksView (congrArg Prod.snd hv), congrArg (fun p => p.1.work.interleave) hv⟩)
      exact congrArg (fun p : Decoder × _ =>
        { p.1 with
          bits := t.dec.bits
          work := { p.1.work with buf0 := t.dec.work.buf0, buf1 := t.dec.work.buf1, interleave := t.dec.work.interleave } }) hv
    | interleave =>
      refine (cbVector_interleave h).imp_right (And.imp_right fun hv =>
        ⟨?_, congrArg (fun d => d.work.buf0) hv, congrArg (fun d => d.work.buf1) hv⟩)
      exact congrArg (fun d : Decoder =>
        { d with
          bits := t.dec.bits
          work := { d.work with buf0 := t.dec.work.buf0, buf1 := t.dec.work.buf1, interleave := t.dec.work.interleave } }) hv
  · obtain ⟨m, hm, hkeep⟩ := floorPart_framed hi
    refine (exec_framed hm hkeep h fun _ _ => rfl).imp_right (And.imp_right fun hv => ⟨?_, fun j hj =>
      ⟨aget_eq_of_others (congrArg (fun p => p.2.1) hv) hj, aget_eq_of_others (congrArg (fun p => p.2.2) hv) hj⟩⟩)
    exact congrArg (fun p : Decoder × _ =>
      { p.1 with
        bits := t.dec.bits, work := { p.1.work with hasEnergy := t.dec.work.hasEnergy, floorY := t.dec.work.floorY } }) hv
  · subst hi
    obtain ⟨hout, hv⟩ := exec_framed_of_noRaise rfl (.silent Framed.chain (floorSynth_framed ch f n)) (floorSynth_noRaise ch f n).silent h fun _ _ => rfl
    refine ⟨hout, banksBut_of_banksView (congrArg Prod.snd hv), ?_⟩
    exact congrArg (fun p : Decoder × _ =>
      { p.1 with
        work :=
          { p.1.work with buf0 := t.dec.work.buf0, buf1 := t.dec.work.buf1, finalY := t.dec.work.finalY, step2 := t.dec.work.step2 } }) hv
  · subst hi
    refine (exec_framed rfl (.silent Framed.chain (residueDecode_framed r chans n)) h fun _ _ => rfl).imp_right
      (And.imp_right fun hv => ⟨banksBut_of_banksView (congrArg Prod.snd hv), ?_⟩)
    exact congrArg (fun p : Decoder × _ =>
      { p.1 with
        bits := t.dec.bits
        work :=
          { p.1.work with
            buf0 := t.dec.work.buf0, buf1 := t.dec.work.buf1, interleave := t.dec.work.interleave, classif := t.dec.work.classif
            doNotDecode := t.dec.work.doNotDecode } }) hv
  · subst hi
    obtain ⟨hout, hv⟩ := exec_framed_of_noRaise rfl (.silent Framed.chain (imdctChannel_framed b ch)) (imdctChannel_noRaise b ch).silent h fun _ _ => rfl
    refine ⟨hout, banksBut_of_banksView (congrArg Prod.snd hv), ?_⟩
    exact congrArg (fun p : Decoder × _ => { p.1 with work := { p.1.work with buf0 := t.dec.work.buf0, buf1 := t.dec.work.buf1 } }) hv
  · subst hi
    obtain ⟨hout, hv⟩ := decouple_framed h
    refine ⟨hout, banksBut_of_banksView (congrArg Prod.snd hv), ?_⟩
    exact congrArg (fun p : Decoder × _ => { p.1 with work := { p.1.work with buf0 := t.dec.work.buf0, buf1 := t.dec.work.buf1 } }) hv

-- DECODE and OUTPUT

/-- What decoding a packet leaves of the decoder, whatever else it does. -/
abbrev PacketKept (s t : State) : Prop :=
  TablesSame s t ∧ t.dec.frame.prevBlock = s.dec.frame.prevBlock ∧ t.dec.frame.outCount = s.dec.frame.outCount ∧ t.dec.work.len = s.dec.work.len ∧
    t.dec.work.nextFree = s.dec.work.nextFree

/-- The bank of the frame before, which decoding a frame does not write. -/
abbrev PrevKept (s t : State) : Prop := t.dec.frame.curSel = s.dec.frame.curSel ∧ ∀ ch, t.prev ch = s.prev ch

theorem PacketKept.chain : Chain PacketKept := TablesSame.chain.and ((Chain.eq _).and ((Chain.eq _).and ((Chain.eq _).and (Chain.eq _))))

theorem PacketKept.refl (s : State) : PacketKept s s := PacketKept.chain.refl s

theorem PrevKept.chain : Chain PrevKept := ⟨fun _ => ⟨rfl, fun _ => rfl⟩, fun h h' => ⟨h'.1.trans h.1, fun ch => (h'.2 ch).trans (h.2 ch)⟩⟩

theorem PrevKept.refl (s : State) : PrevKept s s := PrevKept.chain.refl s

/-- The relation between the states before and after a piece of `DECODE` that does not exchange the banks. -/
abbrev PartKept (s t : State) : Prop := PacketKept s t ∧ PrevKept s t

theorem PartKept.chain : Chain PartKept := PacketKept.chain.and PrevKept.chain

theorem PartKept.refl (s : State) : PartKept s s := PartKept.chain.refl s

theorem PartKept.setCur (s : State) (ch : Nat) (v : List F32) : PartKept s (s.setCur ch v) := by
  refine ⟨?_, ?_, fun j => State.prev_setCur s ch v j⟩
  · unfold State.setCur
    split <;> exact PacketKept.refl s
  · unfold State.setCur
    split <;> rfl

theorem readBits_partKept (n : Nat) : Keeps PartKept (readBits n) := readBits_keeps PartKept.chain (fun s _ => .refl s) (fun s _ => .refl s) n

theorem tryReadBits_partKept (n : Nat) : Keeps PartKept (tryReadBits n) := tryReadBits_keeps PartKept.chain (fun s _ => .refl s) (fun s _ => .refl s) n

/-- The frame of an audio packet after the exchange of the banks (46_frame_output R360). -/
def frameRest (m : Nat) : M Unit := do
  let mp ← M.read fun s => s.mapping m
  let channels ← M.read fun s => s.dec.hdr.channels
  let n ← M.read fun s => s.dec.frame.curBlock / 2
  forN channels 0 fun ch => floorDecode ch (floorOf mp ch)
  propagateFlags channels mp.steps
  forN mp.submaps 0 fun sub => residueDecode (aget mp.subResidue sub) (chansOf mp channels sub) n
  decoupleAll m n
  forN channels 0 (synthChannel mp n)
  forN channels 0 transformChannel
  M.update State.dropFloorY
  alignBits
  M.update (State.mapFrame fun f => { f with framePending := true })

/-- The exchange of the banks (46_frame_output R360). -/
def State.swapBanks (s : State) : State := s.mapFrame fun f => { f with curSel := !f.curSel }

theorem frameBody_eq (m : Nat) : frameBody m = (do mappingOperand m; M.update State.swapBanks; frameRest m) := rfl

theorem State.prev_swapBanks (s : State) (ch : Nat) : s.swapBanks.prev ch = s.cur ch := by
  unfold State.prev State.cur State.swapBanks
  cases h : s.dec.frame.curSel <;> simp [h]

theorem frameRest_partKept (m : Nat) : Keeps PartKept (frameRest m) := by
  have hR := PartKept.chain
  have hb := readBits_partKept
  have hset := PartKept.setCur
  refine .bind hR (.read hR _) fun mp => .bind hR (.read hR _) fun channels => .bind hR (.read hR _) fun n => ?_
  refine .bind hR (.forN hR (fun ch => floorDecode_keeps hR hb ⟨fun s _ => .refl s, fun s _ => .refl s⟩ _) _ _) fun _ => ?_
  refine .bind hR (.update fun s => .refl s) fun _ => ?_
  refine .bind hR (.forN hR (fun sub => residueDecode_keeps hR hb ⟨fun s _ => .refl s, fun s _ => .refl s, fun s _ => .refl s, hset⟩ _ _ _) _ _) fun _ => ?_
  refine .bind hR (decoupleAll_keeps hR hset m n) fun _ => ?_
  refine .bind hR (.forN hR (fun ch => .bind hR (.read hR _) fun _ =>
    .ite (floorSynth_keeps hR ⟨fun s _ _ => .refl s, fun s v => hset s ch v⟩ _ _) (.pure hR _)) _ _) fun _ => ?_
  refine .bind hR (.forN hR (fun ch => .bind hR (.read hR _) fun _ => .bind hR (.read hR _) fun _ =>
    .ite (imdctChannel_keeps hR (fun s v => hset s ch v) _) (.update fun s => hset s ch _)) _ _) fun _ => ?_
  exact .bind hR (.update fun s => .refl s) fun _ => .bind hR (.update fun s => .refl s) fun _ => .update fun s => .refl s

theorem packetHeader_partKept : Keeps PartKept packetHeader := packetHeader_keeps PartKept.chain readBits_partKept fun s _ => .refl s

/-- What `DECODE` keeps: after the exchange the previous bank is the current one of before. -/
abbrev DecodeKept (s t : State) : Prop := PacketKept s t ∧ (t.dec.frame.curSel ≠ s.dec.frame.curSel → ∀ ch, t.prev ch = s.cur ch)

theorem frameBody_decodeKept {m : Nat} {s t : State} (h : frameBody m s = .ok () t) : PacketKept s t ∧ ∀ ch, t.prev ch = s.cur ch := by
  rw [frameBody_eq] at h
  obtain ⟨_, u, hmap, hrest⟩ := M.bind_eq_ok h
  obtain ⟨-, rfl⟩ := M.ensure_eq_ok (p := m < s.dec.counts.nMappings) hmap
  obtain ⟨hkept, -, hprev⟩ := (frameRest_partKept m).ok hrest
  exact ⟨hkept, fun ch => (hprev ch).trans (u.prev_swapBanks ch)⟩

/-- The header of a packet does not write the banks. -/
theorem packetHeader_cur : Keeps (fun s t => ∀ ch, t.cur ch = s.cur ch) packetHeader := by
  have hR : Chain fun s t : State => ∀ ch, t.cur ch = s.cur ch := ⟨fun _ _ => rfl, fun h h' ch => (h' ch).trans (h ch)⟩
  exact packetHeader_keeps hR (readBits_keeps hR (fun _ _ _ => rfl) fun _ _ _ => rfl) fun _ _ _ => rfl

theorem audioPacket_decodeKept {s t : State} (h : audioPacket s = .ok () t) : PacketKept s t ∧ ∀ ch, t.prev ch = s.cur ch := by
  obtain ⟨m, u, hhead, hbody⟩ := M.bind_eq_ok h
  obtain ⟨hkept, hprev⟩ := frameBody_decodeKept hbody
  exact ⟨PacketKept.chain.trans (packetHeader_partKept.ok hhead).1 hkept, fun ch => (hprev ch).trans (packetHeader_cur.ok hhead ch)⟩

theorem decodePacket_decodeKept {s t : State} (h : decodePacket s = .ok () t) : DecodeKept s t := by
  obtain ⟨a, u, hread, -, hpacket⟩ := decodePacket_ok h
  obtain ⟨hkept, hprev⟩ := audioPacket_decodeKept hpacket
  have hcur : ∀ ch, u.cur ch = s.cur ch := by
    have hR : Chain fun s t : State => ∀ ch, t.cur ch = s.cur ch := ⟨fun _ _ => rfl, fun h h' ch => (h' ch).trans (h ch)⟩
    exact (tryReadBits_keeps hR (fun _ _ _ => rfl) (fun _ _ _ => rfl) 1).ok hread
  exact ⟨PacketKept.chain.trans ((tryReadBits_partKept 1).ok hread).1 hkept, fun _ ch => (hprev ch).trans (hcur ch)⟩

/-- Everything that the statement says of `DECODE` and an audio packet. -/
abbrev PacketFrame (s t : State) : Prop := DecodeKept s t ∧ t.out = s.out ∧ t.cmd = s.cmd ∧ t.script = s.script ∧ SourceMoved s t

theorem PacketFrame.of_quiet {s t : State} (hk : DecodeKept s t) (hq : Quiet s t) : PacketFrame s t := ⟨hk, hq.out, hq.cmd, hq.script, .of_quiet hq⟩

theorem packetFrame_answers {i : Instr} {s t : State} (hi : i = .cmdDecode ∨ i = .packetAudio) (ha : Answers i s t) (ht : t.phase ≠ .failed) :
    PacketFrame s t := by
  cases ha with
  | worked hw hm =>
    rcases hi with rfl | rfl
    · cases hw
    · cases hw
      obtain ⟨_, v, haudio, hrest⟩ := M.bind_eq_ok hm
      cases hrest
      obtain ⟨hkept, hprev⟩ := audioPacket_decodeKept haudio
      have hframe := PacketFrame.of_quiet ⟨hkept, fun _ => hprev⟩ (quiet_updates.audioPacket.ok haudio)
      exact hframe
  | aborted _ hfail | decodeFailed _ hfail => exact absurd hfail ht
  | refused => exact ⟨⟨.refl s, fun h => absurd rfl h⟩, rfl, rfl, rfl, .refl s⟩
  | decoded hp hm =>
    have hframe := PacketFrame.of_quiet (decodePacket_decodeKept hm) (decodePacket_quiet.ok hm)
    exact hframe
  | ended hp hm =>
    have hread := decodePacket_cleanEnd hm
    obtain ⟨hkept, hsel, -⟩ := (tryReadBits_partKept 1).ok hread
    have hframe := PacketFrame.of_quiet ⟨hkept, fun h => absurd hsel h⟩ ((tryReadBits_quiet 1).ok hread)
    exact hframe
  | opened | setUp | setupFailed | output | closed => rcases hi with hi | hi <;> cases hi

/-- The state but for the three registers and the buffer that `OUTPUT` writes. -/
def outputView (s : State) : State :=
  { s with out := [], dec := { s.dec with frame := { s.dec.frame with outCount := 0#32, prevBlock := 0, framePending := false } } }

theorem outputFrame_view (cap : Nat) : Keeps (fun s t => outputView t = outputView s) (outputFrame cap) :=
  outputFrame_keeps (Chain.eq _) (fun _ _ => rfl) (fun _ _ => rfl) cap

/-- What the statement says of `OUTPUT`. -/
theorem output_frame {s t : State} (h : outputView { t with ret := s.ret } = outputView s) :
    t.phase = s.phase ∧ t.err = s.err ∧ t.src = s.src ∧ t.srcPos = s.srcPos ∧ t.cmd = s.cmd ∧ t.script = s.script ∧ t.result = s.result ∧
      t.dec =
        { s.dec with
          frame :=
            { s.dec.frame with
              outCount := t.dec.frame.outCount, prevBlock := t.dec.frame.prevBlock, framePending := t.dec.frame.framePending } } :=
  have part : ∀ {γ : Type} (f : State → γ), f (outputView { t with ret := s.ret }) = f (outputView s) := fun f => congrArg f h
  ⟨part State.phase, part State.err, part State.src, part State.srcPos, part State.cmd, part State.script, part State.result,
    part fun u =>
      { u.dec with
        frame :=
          { u.dec.frame with
            outCount := t.dec.frame.outCount, prevBlock := t.dec.frame.prevBlock, framePending := t.dec.frame.framePending } }⟩

/-- Settles O52: the updates of `DECODE` and of `OUTPUT`, and the one exchange of the banks. -/
theorem commandFrame : Obligations.CommandFrame := by
  refine fun s t i h => ⟨fun hi ht => ?_, fun cap hi => ?_⟩
  · obtain ⟨⟨⟨⟨htabs, hcounts, hhdr, hpre⟩, hblock, hcount, hlen, hnext⟩, hprev⟩, hout, hcmd, hscript, hsrc⟩ := packetFrame_answers hi (exec_answers h) ht
    exact ⟨htabs, hcounts, hhdr, hpre, hblock, hcount, hlen, hnext, hout, hcmd, hscript, hsrc, hprev⟩
  · subst hi
    refine output_frame ?_
    rcases command_eq_next (m := outputFrame cap) h with ⟨-, rfl⟩ | ⟨-, u, hok, rfl⟩ | ⟨-, c, u, herr, -⟩
    · rfl
    · exact congrArg (fun v : State => { v with ret := s.ret }) ((outputFrame_view cap).ok hok)
    · exact absurd herr (outputFrame_noRaise cap s u c)

end Sys2Proof.Machine
end

section
/-! PROOF. Rounding to binary32 (00_scope R12): the word that `f32Round` builds, the multiple of a power of two that it stands for, and that no other number is
nearer. From these the two conversions, `PCM_OUT` (46_frame_output R380) and `float32_unpack` (41_codebook R202). -/

namespace Sys2Proof.Machine

-- numbers of bits

theorem lt_two_pow_bitLength (m : Nat) : m < 2 ^ bitLength m := lt_two_pow_ilog m

theorem bitLength_le {m k : Nat} (h : m < 2 ^ k) : bitLength m ≤ k := ilog_le h

theorem two_pow_le_of_lt_bitLength {m k : Nat} (h : k < bitLength m) : 2 ^ k ≤ m := by
  by_contra hm
  exact absurd (bitLength_le (Nat.lt_of_not_le hm)) (Nat.not_le.mpr h)

theorem mul_two_pow_lt {u a : Nat} (h : u < 2 ^ a) (b : Nat) : u * 2 ^ b < 2 ^ (a + b) := by
  rw [Nat.pow_add]
  exact Nat.mul_lt_mul_of_pos_right h (Nat.two_pow_pos b)

-- rounding to a multiple of a power of two

section

variable {m d k : Nat}

/-- The two ways in which a number is rounded: down, at most half way and to an even quotient if half way, or up, at least half way and to an even
quotient if half way. -/
theorem roundShift_cases (m d : Nat) : ∃ q r, m = q * 2 ^ d + r ∧ r < 2 ^ d ∧
    ((roundShift m d = q ∧ 2 * r ≤ 2 ^ d ∧ (2 * r = 2 ^ d → q % 2 = 0)) ∨
      (roundShift m d = q + 1 ∧ 2 ^ d ≤ 2 * r ∧ (2 * r = 2 ^ d → (q + 1) % 2 = 0))) := by
  refine ⟨m / 2 ^ d, m % 2 ^ d, (Nat.div_add_mod' m (2 ^ d)).symm, Nat.mod_lt _ (Nat.two_pow_pos d), ?_⟩
  unfold roundShift
  simp only
  split
  · exact .inr ⟨rfl, by omega, by omega⟩
  · exact .inl ⟨rfl, by omega, by omega⟩

@[simp] theorem roundShift_mul (k d : Nat) : roundShift (k * 2 ^ d) d = k := by
  have hd := Nat.two_pow_pos d
  simp [roundShift, Nat.mul_div_cancel _ hd, Nat.not_lt.mpr hd.le, hd.ne]

theorem roundShift_le (h : m ≤ k * 2 ^ d) : roundShift m d ≤ k := by
  obtain ⟨q, r, rfl, hr, ⟨hq, -⟩ | ⟨hq, hhalf, -⟩⟩ := roundShift_cases m d
  · rw [hq]
    exact Nat.le_of_mul_le_mul_right ((Nat.le_add_right _ _).trans h) (Nat.two_pow_pos d)
  · rw [hq]
    refine Nat.lt_of_mul_lt_mul_right (a := 2 ^ d) (lt_of_lt_of_le ?_ h)
    have := Nat.two_pow_pos d
    omega

theorem le_roundShift (h : k * 2 ^ d ≤ m) : k ≤ roundShift m d := by
  have hk : k ≤ m / 2 ^ d := (Nat.le_div_iff_mul_le (Nat.two_pow_pos d)).mpr h
  have hq : m / 2 ^ d ≤ roundShift m d := by
    unfold roundShift
    simp only
    split <;> omega
  exact hk.trans hq

/-- The distance of a number from a multiple of `2^d`. -/
theorem natAbs_mul_sub (q j r D : Nat) (hr : r ≤ D) :
    (((q + 1 + j) * D : Nat) - ((q * D + r : Nat) : Int)).natAbs = j * D + (D - r) ∧
      ((q * D : Nat) - (((q + j) * D + r : Nat) : Int)).natAbs = j * D + r := by
  rw [Nat.add_mul, Nat.add_mul, Nat.add_mul]
  omega

/-- No multiple of `2^d` is nearer than the rounded one, and of two that are equally near it is the even one. -/
theorem roundShift_nearest (m d k : Nat) :
    ((roundShift m d * 2 ^ d : Nat) - (m : Int)).natAbs ≤ ((k * 2 ^ d : Nat) - (m : Int)).natAbs ∧
      (((roundShift m d * 2 ^ d : Nat) - (m : Int)).natAbs = ((k * 2 ^ d : Nat) - (m : Int)).natAbs → k = roundShift m d ∨ roundShift m d % 2 = 0) := by
  obtain ⟨q, r, rfl, hr, h⟩ := roundShift_cases m d
  generalize 2 ^ d = D at hr h ⊢
  have hdown := (natAbs_mul_sub q 0 r D hr.le).2
  have hup := (natAbs_mul_sub q 0 r D hr.le).1
  simp only [Nat.add_zero, Nat.zero_mul, Nat.zero_add] at hdown hup
  rcases Nat.lt_or_ge q k with hk | hk
  · obtain ⟨j, rfl⟩ := Nat.exists_eq_add_of_le (Nat.succ_le_of_lt hk)
    rw [(natAbs_mul_sub q j r D hr.le).1]
    have hj : j = 0 ∨ D ≤ j * D := (Nat.eq_zero_or_pos j).imp_right (Nat.le_mul_of_pos_left D)
    rcases h with ⟨hq, hhalf, heven⟩ | ⟨hq, hhalf, heven⟩ <;> rw [hq]
    · rw [hdown]
      omega
    · rw [hup]
      omega
  · obtain ⟨j, rfl⟩ := Nat.exists_eq_add_of_le hk
    rw [(natAbs_mul_sub k j r D hr.le).2]
    have hj : j = 0 ∨ D ≤ j * D := (Nat.eq_zero_or_pos j).imp_right (Nat.le_mul_of_pos_left D)
    rcases h with ⟨hq, hhalf, heven⟩ | ⟨hq, hhalf, heven⟩ <;> rw [hq]
    · rw [hdown]
      omega
    · rw [hup]
      omega

end

-- the words

theorem f32Mag_lt (a : F32) : f32Mag a < 2 ^ 31 := Nat.mod_lt _ (Nat.two_pow_pos 31)

section

variable {neg : Bool} {mag : Nat}

theorem toNat_f32Of (h : mag < 2 ^ 31) : (f32Of neg mag).toNat = (if neg then 2 ^ 31 else 0) + mag := by
  rw [f32Of, BitVec.toNat_ofNat, Nat.mod_eq_of_lt]
  split <;> omega

theorem f32Mag_f32Of (h : mag < 2 ^ 31) : f32Mag (f32Of neg mag) = mag := by
  rw [f32Mag, toNat_f32Of h]
  split <;> omega

theorem f32Neg_f32Of (h : mag < 2 ^ 31) : f32Neg (f32Of neg mag) = neg := by
  rw [f32Neg, BitVec.getLsbD, toNat_f32Of h, Nat.testBit_eq_decide_div_mod_eq]
  cases neg <;> simp <;> omega

end

/-- What a magnitude word stands for, where its exponent field and its fraction are written as one number: a fraction of 2^24 carries into the exponent. -/
theorem f32UnitsMag_eq {a : F32} {k q : Nat} (ha : f32Mag a = k * 2 ^ 23 + q) (hq : q ≤ 2 ^ 24) (hk : k = 0 ∨ 2 ^ 23 ≤ q) : f32UnitsMag a = q * 2 ^ k := by
  rw [f32UnitsMag, ha]
  rcases Nat.lt_or_ge q (2 ^ 23) with hlow | hlow
  · obtain rfl : k = 0 := hk.resolve_right (Nat.not_le.mpr hlow)
    have he : (0 * 2 ^ 23 + q) / 2 ^ 23 = 0 := by omega
    have hf : (0 * 2 ^ 23 + q) % 2 ^ 23 = q := by omega
    rw [he, hf, if_pos rfl, Nat.pow_zero, Nat.mul_one]
  · rcases Nat.lt_or_ge q (2 ^ 24) with hmid | hhigh
    · have he : (k * 2 ^ 23 + q) / 2 ^ 23 = k + 1 := by omega
      have hf : (k * 2 ^ 23 + q) % 2 ^ 23 = q - 2 ^ 23 := by omega
      rw [he, hf, if_neg (Nat.succ_ne_zero k), Nat.add_sub_cancel' hlow, Nat.add_sub_cancel]
    · obtain rfl : q = 2 ^ 24 := Nat.le_antisymm hq hhigh
      have he : (k * 2 ^ 23 + 2 ^ 24) / 2 ^ 23 = k + 2 := by omega
      have hf : (k * 2 ^ 23 + 2 ^ 24) % 2 ^ 23 = 0 := by omega
      rw [he, hf, if_neg (Nat.succ_ne_zero _), Nat.add_sub_cancel (k + 1) 1]
      ring

/-- A number is a fraction below 2^24 times a power of two. -/
theorem f32UnitsMag_form (a : F32) : ∃ f k, f32UnitsMag a = f * 2 ^ k ∧ f < 2 ^ 24 := by
  unfold f32UnitsMag
  simp only
  have hf : f32Mag a % 2 ^ 23 < 2 ^ 23 := Nat.mod_lt _ (Nat.two_pow_pos 23)
  split
  · exact ⟨_, 0, (Nat.mul_one _).symm, by omega⟩
  · exact ⟨_, _, rfl, by omega⟩

-- f32Round

/-- The bits below the ones that are kept. -/
def dropBits (m e : Nat) : Nat := max e (bitLength m - 24)

/-- The magnitude word of the rounded number, before infinity takes its place. -/
def roundWord (m e : Nat) : Nat := (dropBits m e - e) * 2 ^ 23 + roundShift m (dropBits m e)

theorem le_dropBits (m e : Nat) : e ≤ dropBits m e := Nat.le_max_left _ _

section

variable {m e : Nat} (neg : Bool)

theorem f32Round_eq (m e : Nat) : f32Round neg m e = f32Of neg (min (roundWord m e) f32InfMag) := rfl

theorem min_infMag_lt (w : Nat) : min w f32InfMag < 2 ^ 31 := lt_of_le_of_lt (min_le_right _ _) (by decide)

theorem f32Mag_round : f32Mag (f32Round neg m e) = min (roundWord m e) f32InfMag := f32Mag_f32Of (min_infMag_lt _)

theorem f32Neg_round : f32Neg (f32Round neg m e) = neg := f32Neg_f32Of (min_infMag_lt _)

theorem lt_two_pow_dropBits (m e : Nat) : m < 2 ^ (24 + dropBits m e) :=
  (lt_two_pow_bitLength m).trans_le (Nat.pow_le_pow_right (by decide) (by unfold dropBits; omega))

/-- Where more is dropped than the format asks for, 24 bits are kept. -/
theorem two_pow_le_of_dropBits (h : e < dropBits m e) : 2 ^ 23 * 2 ^ dropBits m e ≤ m := by
  rw [← Nat.pow_add]
  exact two_pow_le_of_lt_bitLength (by unfold dropBits at h ⊢; omega)

theorem roundShift_dropBits_le (m e : Nat) : roundShift m (dropBits m e) ≤ 2 ^ 24 := roundShift_le (by
  rw [← Nat.pow_add]
  exact (lt_two_pow_dropBits m e).le)

/-- A finite rounded number is the rounded multiple of the power of two that was dropped. -/
theorem f32UnitsMag_round (h : roundWord m e < f32InfMag) :
    f32UnitsMag (f32Round neg m e) = roundShift m (dropBits m e) * 2 ^ (dropBits m e - e) := by
  refine f32UnitsMag_eq (by rw [f32Mag_round, min_eq_left h.le]; rfl) (roundShift_dropBits_le m e) ?_
  rcases Nat.lt_or_ge e (dropBits m e) with hlt | hge
  · exact .inr (le_roundShift (two_pow_le_of_dropBits hlt))
  · exact .inl (Nat.sub_eq_zero_of_le hge)

theorem f32UnitsMag_round_mul (h : roundWord m e < f32InfMag) :
    f32UnitsMag (f32Round neg m e) * 2 ^ e = roundShift m (dropBits m e) * 2 ^ dropBits m e := by
  rw [f32UnitsMag_round neg h, Nat.mul_assoc, ← Nat.pow_add, Nat.sub_add_cancel (le_dropBits m e)]

end

-- PCM_OUT

theorem f32UnitsMag_le_one {x : F32} (h : f32Mag x ≤ f32Mag f32One) : f32UnitsMag x ≤ 2 ^ 149 := by
  have hone : f32Mag f32One = 127 * 2 ^ 23 := by decide
  rw [hone] at h
  unfold f32UnitsMag
  simp only
  have hf : f32Mag x % 2 ^ 23 < 2 ^ 23 := Nat.mod_lt _ (Nat.two_pow_pos 23)
  split
  · exact (hf.trans (Nat.pow_lt_pow_right (by decide) (by decide))).le
  · rcases Nat.lt_or_ge (f32Mag x / 2 ^ 23) 127 with he | he
    · calc (2 ^ 23 + f32Mag x % 2 ^ 23) * 2 ^ (f32Mag x / 2 ^ 23 - 1)
        _ ≤ 2 ^ 24 * 2 ^ 125 := Nat.mul_le_mul (by omega) (Nat.pow_le_pow_right (by decide) (by omega))
        _ = 2 ^ 149 := by rw [← Nat.pow_add]
    · have he' : f32Mag x / 2 ^ 23 = 127 := by omega
      have hf' : f32Mag x % 2 ^ 23 = 0 := by omega
      rw [he', hf', Nat.add_zero, ← Nat.pow_add]

theorem f32UnitsMag_scale : f32UnitsMag f32PcmScale = 32767 * 2 ^ 149 := by decide +kernel

/-- The product of a number within -1.0 to 1.0 with 32767.0 is the rounded one. -/
theorem fmul_scale {x : F32} (h : f32Mag x ≤ f32Mag f32One) : fmul x f32PcmScale = f32Round (f32Neg x) (f32UnitsMag x * (32767 * 2 ^ 149)) 149 := by
  have hone : f32Mag f32One < f32InfMag := by decide
  have hnan : f32IsNaN x = false := by simp only [f32IsNaN, decide_eq_false_iff_not]; omega
  have hinf : f32IsInf x = false := by simp only [f32IsInf, decide_eq_false_iff_not]; omega
  have hscale : f32IsNaN f32PcmScale = false ∧ f32IsInf f32PcmScale = false ∧ f32Neg f32PcmScale = false := by decide
  obtain ⟨h1, h2, h3⟩ := hscale
  simp [fmul, hnan, hinf, h1, h2, h3, f32UnitsMag_scale]

theorem mul_two_pow_le {u k : Nat} (a : Nat) (h : u ≤ 2 ^ k) : u * (a * 2 ^ k) ≤ a * 2 ^ (k + k) := by
  rw [Nat.pow_add, Nat.mul_left_comm]
  exact Nat.mul_le_mul_left a (Nat.mul_le_mul_right _ h)

/-- Rounding does not take a magnitude above 32767.0, which is itself a multiple of every power of two that may be dropped. -/
theorem f32UnitsMag_round_le {m : Nat} (neg : Bool) (hm : m ≤ 32767 * 2 ^ (149 + 149)) : f32UnitsMag (f32Round neg m 149) ≤ 32767 * 2 ^ 149 := by
  have hbits : bitLength m ≤ 15 + (149 + 149) := bitLength_le (hm.trans_lt (mul_two_pow_lt (by decide) _))
  have hd : 149 ≤ dropBits m 149 ∧ dropBits m 149 ≤ 289 := by unfold dropBits; omega
  have hsum : 149 + 149 - dropBits m 149 + (dropBits m 149 - 149) = 149 := by omega
  have hword : roundWord m 149 < f32InfMag := by
    have hq := roundShift_dropBits_le m 149
    unfold roundWord f32InfMag
    omega
  have hq : roundShift m (dropBits m 149) ≤ 32767 * 2 ^ (149 + 149 - dropBits m 149) := roundShift_le (by
    rw [Nat.mul_assoc, ← Nat.pow_add, Nat.sub_add_cancel (by omega)]
    exact hm)
  rw [f32UnitsMag_round _ hword]
  calc roundShift m (dropBits m 149) * 2 ^ (dropBits m 149 - 149)
    _ ≤ 32767 * 2 ^ (149 + 149 - dropBits m 149) * 2 ^ (dropBits m 149 - 149) := Nat.mul_le_mul_right _ hq
    _ = 32767 * 2 ^ 149 := by rw [Nat.mul_assoc, ← Nat.pow_add, hsum]

theorem f32UnitsMag_scaled {x : F32} (h : f32Mag x ≤ f32Mag f32One) : f32UnitsMag (fmul x f32PcmScale) ≤ 32767 * 2 ^ 149 := by
  rw [fmul_scale h]
  exact f32UnitsMag_round_le _ (mul_two_pow_le 32767 (f32UnitsMag_le_one h))

theorem f32Trunc_bounds {a : F32} (h : f32UnitsMag a ≤ 32767 * 2 ^ 149) : -32767 ≤ f32Trunc a ∧ f32Trunc a ≤ 32767 := by
  have hdiv : f32UnitsMag a / 2 ^ 149 ≤ 32767 := Nat.div_le_of_le_mul (by rw [Nat.mul_comm]; exact h)
  have habs : (f32Trunc a).natAbs ≤ 32767 := by
    have hunits : (f32Units a).natAbs = f32UnitsMag a := by unfold f32Units; split <;> simp
    rw [f32Trunc, Int.natAbs_tdiv, hunits]
    exact hdiv
  omega

theorem toInt_ofInt_sample {i : Int} (hlo : -32767 ≤ i) (hhi : i ≤ 32767) : (BitVec.ofInt 16 i : Sample).toInt = i := by
  rw [BitVec.toInt_ofInt, Int.bmod_def]
  omega

/-- The number that is converted: clamped to -1.0 and 1.0 (46_frame_output R380). -/
def clamped (x : F32) : F32 := if f32Lt x f32MinusOne then f32MinusOne else if f32Lt f32One x then f32One else x

theorem pcmOf_eq {x : F32} (h : f32IsNaN x = false) : pcmOf x = some (BitVec.ofInt 16 (f32Trunc (fmul (clamped x) f32PcmScale))) := by
  rw [pcmOf, h]
  rfl

theorem f32Mag_le_one_of_not_lt {x : F32} (hn : f32IsNaN x = false) (hlo : f32Lt x f32MinusOne = false) (hhi : f32Lt f32One x = false) :
    f32Mag x ≤ f32Mag f32One := by
  have hkey : f32IsNaN f32MinusOne = false ∧ f32IsNaN f32One = false ∧ f32Key f32MinusOne = -(f32Mag f32One : Int) ∧ f32Key f32One = f32Mag f32One := by decide
  obtain ⟨h1, h2, h3, h4⟩ := hkey
  simp only [f32Lt, hn, h1, h2, h3, h4, Bool.not_false, Bool.and_true, Bool.true_and, decide_eq_false_iff_not] at hlo hhi
  unfold f32Key at hlo hhi
  cases hs : f32Neg x <;> simp only [hs, if_true, if_false, Bool.false_eq_true] at hlo hhi <;> omega

theorem not_lt_both {x : F32} (hlo : f32Lt x f32MinusOne = true) : f32Lt f32One x = false := by
  have hkey : f32Key f32MinusOne < f32Key f32One := by decide
  simp only [f32Lt, Bool.and_eq_true, decide_eq_true_eq] at hlo
  simp only [f32Lt, Bool.and_eq_false_iff, decide_eq_false_iff_not]
  omega

theorem f32Mag_clamped {x : F32} (hn : f32IsNaN x = false) : f32Mag (clamped x) ≤ f32Mag f32One := by
  unfold clamped
  split
  · decide
  next hlo =>
    split
    · exact Nat.le_refl _
    next hhi => exact f32Mag_le_one_of_not_lt hn (Bool.eq_false_of_not_eq_true hlo) (Bool.eq_false_of_not_eq_true hhi)

theorem f32IsZero_iff (x : F32) : f32IsZero x = true ↔ x = 0x00000000#32 ∨ x = 0x80000000#32 := by
  have hx := x.isLt
  rw [f32IsZero, decide_eq_true_eq, f32Mag, ← BitVec.toNat_inj, ← BitVec.toNat_inj, BitVec.toNat_ofNat, BitVec.toNat_ofNat]
  omega

theorem clamped_minusOne : f32Trunc (fmul f32MinusOne f32PcmScale) = -32767 := by decide +kernel

theorem clamped_one : f32Trunc (fmul f32One f32PcmScale) = 32767 := by decide +kernel

theorem pcmOf_zero {x : F32} (h : f32IsZero x = true) : pcmOf x = some 0#16 := by
  rcases (f32IsZero_iff x).mp h with rfl | rfl <;> decide +kernel

/-- Settles O12: the clamped sample is at most 1.0 in magnitude, so that its product with 32767.0 is at most that, rounded or not. -/
theorem pcmOutClamps : Obligations.PcmOutClamps := by
  refine fun s x => ⟨fun hn => ?_, fun hn => ?_⟩
  · have hnone : pcmOf x = none := by rw [pcmOf, if_pos hn]
    have hstop : pcmOut x s = .error (.fault .nanSample) s := by rw [pcmOut, hnone]; rfl
    exact micro_of_error (M.bind_error hstop)
  · obtain ⟨hlo, hhi⟩ := f32Trunc_bounds (f32UnitsMag_scaled (f32Mag_clamped hn))
    have hint := toInt_ofInt_sample hlo hhi
    have hrun : pcmOut x s = .ok (BitVec.ofInt 16 (f32Trunc (fmul (clamped x) f32PcmScale))) s := by rw [pcmOut, pcmOf_eq hn]; rfl
    refine ⟨_, micro_bind_ok hrun rfl, by rw [hint]; exact hlo, by rw [hint]; exact hhi, fun h => ?_, fun h => ?_, fun h h' => ?_, fun h => ?_⟩
    · rw [hint, clamped, if_pos h, clamped_minusOne]
    · have hnot : ¬f32Lt x f32MinusOne = true := fun h' => Bool.false_ne_true ((not_lt_both h').symm.trans h)
      rw [hint, clamped, if_neg hnot, if_pos h, clamped_one]
    · rw [hint, clamped, if_neg (by rw [h]; exact Bool.false_ne_true), if_neg (by rw [h']; exact Bool.false_ne_true)]
    · exact Option.some.inj ((pcmOf_eq hn).symm.trans (pcmOf_zero h))

-- float32_unpack

section

variable {m e p : Nat} {neg : Bool}

/-- Up to half a unit past the largest number the rounded word is finite. -/
theorem roundWord_lt (h : m < (2 ^ 25 - 1) * 2 ^ p) (hp : p + 1 = e + 253) : roundWord m e < f32InfMag := by
  have hinf : f32InfMag = 255 * 2 ^ 23 := by decide
  have hq := roundShift_dropBits_le m e
  have hbits : bitLength m ≤ 25 + p := bitLength_le (h.trans (mul_two_pow_lt (by decide) p))
  have hd : dropBits m e ≤ p + 1 := by unfold dropBits; omega
  rw [roundWord, hinf]
  rcases Nat.lt_or_ge (dropBits m e) (p + 1) with hlt | hge
  · omega
  · rw [Nat.le_antisymm hd hge]
    have hlow : roundShift m (p + 1) < 2 ^ 24 := by
      obtain ⟨q, r, hm, hr, hcase⟩ := roundShift_cases m (p + 1)
      have hpow : 2 ^ (p + 1) = 2 * 2 ^ p := Nat.pow_succ'
      have hdiv := Nat.div_mul_le_self r (2 ^ p)
      have hone : 2 ^ p ≤ r → 1 ≤ r / 2 ^ p := fun hr => (Nat.le_div_iff_mul_le (Nat.two_pow_pos _)).mpr (by omega)
      generalize r / 2 ^ p = j at hdiv hone
      have hlt : q * 2 + j < 2 ^ 25 - 1 := by
        refine Nat.lt_of_mul_lt_mul_right (a := 2 ^ p) (lt_of_le_of_lt ?_ h)
        rw [hm, hpow, Nat.add_mul, Nat.mul_assoc]
        omega
      rcases hcase with ⟨hq', -⟩ | ⟨hq', hhalf, -⟩ <;> rw [hq']
      · omega
      · have hj := hone (by omega)
        omega
    omega

theorem roundShift_of_dvd {d : Nat} (hd : 2 ^ d ∣ m) : roundShift m d * 2 ^ d = m := by
  obtain ⟨k, rfl⟩ := hd
  rw [Nat.mul_comm (2 ^ d) k, roundShift_mul]

/-- A number that is kept whole is finite up to a whole unit past the largest. -/
theorem roundWord_lt_of_dvd (hd : 2 ^ dropBits m e ∣ m) (h : m < 2 ^ (25 + p)) (hp : p + 1 = e + 253) : roundWord m e < f32InfMag := by
  have hinf : f32InfMag = 255 * 2 ^ 23 := by decide
  have hbits := bitLength_le h
  have hq : roundShift m (dropBits m e) < 2 ^ 24 := by
    refine Nat.lt_of_mul_lt_mul_right (a := 2 ^ dropBits m e) ?_
    rw [roundShift_of_dvd hd, ← Nat.pow_add]
    exact lt_two_pow_dropBits m e
  rw [roundWord, hinf]
  unfold dropBits at hq ⊢
  omega

/-- From half a unit past the largest number on the word is that of infinity. -/
theorem infMag_le_roundWord (h : (2 ^ 25 - 1) * 2 ^ p ≤ m) (hp : p + 1 = e + 253) : f32InfMag ≤ roundWord m e := by
  have hinf : f32InfMag = 255 * 2 ^ 23 := by decide
  have hbits : 24 + p < bitLength m := by
    by_contra hb
    have hm : m < 2 ^ (24 + p) := (lt_two_pow_bitLength m).trans_le (Nat.pow_le_pow_right (by decide) (Nat.le_of_not_lt hb))
    rw [Nat.pow_add 2 24 p] at hm
    exact absurd (Nat.lt_of_mul_lt_mul_right (lt_of_le_of_lt h hm)) (by decide)
  have hd : p + 1 ≤ dropBits m e := by unfold dropBits; omega
  rw [roundWord, hinf]
  rcases Nat.lt_or_ge (p + 1) (dropBits m e) with hlt | hge
  · have hq : 2 ^ 23 ≤ roundShift m (dropBits m e) := le_roundShift (two_pow_le_of_dropBits (by omega))
    omega
  · rw [Nat.le_antisymm hge hd]
    have hq : 2 ^ 24 ≤ roundShift m (p + 1) := by
      obtain ⟨q, r, hm, hr, hcase⟩ := roundShift_cases m (p + 1)
      have hpow : 2 ^ (p + 1) = 2 * 2 ^ p := Nat.pow_succ'
      have hr2 : r < 2 * 2 ^ p := hpow ▸ hr
      have hsplit : m = q * 2 * 2 ^ p + r := by rw [hm, hpow, Nat.mul_assoc]
      have hq : 2 ^ 24 - 1 ≤ q := by
        have hlt : (2 ^ 25 - 1) * 2 ^ p < (q * 2 + 2) * 2 ^ p := by
          rw [Nat.add_mul]
          omega
        have := Nat.lt_of_mul_lt_mul_right hlt
        omega
      rcases Nat.lt_or_ge q (2 ^ 24) with hqlt | hqge
      · obtain rfl : q = 2 ^ 24 - 1 := by omega
        have hhalf : 2 ^ (p + 1) ≤ 2 * r := by omega
        rcases hcase with ⟨-, hle, heven⟩ | ⟨hq', -, -⟩
        · exact absurd (heven (Nat.le_antisymm hle hhalf)) (by decide)
        · rw [hq']
          omega
      · rcases hcase with ⟨hq', -⟩ | ⟨hq', -⟩ <;> rw [hq'] <;> omega
    omega

/-- Rounding a multiple of the power of two that is dropped changes nothing. -/
theorem f32UnitsMag_round_exact {u : Nat} (hm : m = u * 2 ^ e) (hd : 2 ^ dropBits m e ∣ m) (hw : roundWord m e < f32InfMag) :
    f32UnitsMag (f32Round neg m e) = u := by
  have hround := f32UnitsMag_round_mul neg hw
  rw [roundShift_of_dvd hd] at hround
  exact Nat.eq_of_mul_eq_mul_right (Nat.two_pow_pos e) (hround.trans hm)

/-- No finite number is nearer than the rounded one. -/
theorem f32Round_nearest (hw : roundWord m e < f32InfMag) (z : F32) :
    ((f32UnitsMag (f32Round neg m e) * 2 ^ e : Nat) - (m : Int)).natAbs ≤ ((f32UnitsMag z * 2 ^ e : Nat) - (m : Int)).natAbs ∧
      (((f32UnitsMag (f32Round neg m e) * 2 ^ e : Nat) - (m : Int)).natAbs = ((f32UnitsMag z * 2 ^ e : Nat) - (m : Int)).natAbs →
        f32UnitsMag z = f32UnitsMag (f32Round neg m e) ∨ roundShift m (dropBits m e) % 2 = 0) := by
  have hround := f32UnitsMag_round_mul neg hw
  obtain ⟨f, k, hz, hf⟩ := f32UnitsMag_form z
  rcases Nat.lt_or_ge (k + e) (dropBits m e) with hk | hk
  · have hlow : f32UnitsMag z * 2 ^ e < 2 ^ 23 * 2 ^ dropBits m e := by
      rw [hz, Nat.mul_assoc, ← Nat.pow_add]
      calc f * 2 ^ (k + e)
        _ < 2 ^ 24 * 2 ^ (k + e) := Nat.mul_lt_mul_of_pos_right hf (Nat.two_pow_pos _)
        _ = 2 ^ 23 * 2 ^ (k + e + 1) := by rw [Nat.pow_succ 2 (k + e)]; ring
        _ ≤ 2 ^ 23 * 2 ^ dropBits m e := Nat.mul_le_mul_left _ (Nat.pow_le_pow_right (by decide) hk)
    have hm := two_pow_le_of_dropBits (m := m) (e := e) (by omega)
    have hnear := (roundShift_nearest m (dropBits m e) (2 ^ 23)).1
    rw [hround]
    omega
  · have hmul : f32UnitsMag z * 2 ^ e = f * 2 ^ (k + e - dropBits m e) * 2 ^ dropBits m e := by
      rw [hz, Nat.mul_assoc, ← Nat.pow_add, Nat.mul_assoc, ← Nat.pow_add, Nat.sub_add_cancel hk]
    have hnear := roundShift_nearest m (dropBits m e) (f * 2 ^ (k + e - dropBits m e))
    rw [← hmul, ← hround] at hnear
    refine ⟨hnear.1, fun heq => (hnear.2 heq).imp_left fun h => ?_⟩
    rw [h, ← hround] at hmul
    exact Nat.eq_of_mul_eq_mul_right (Nat.two_pow_pos e) hmul

end

section

variable (x : BitVec 32)

/-- The mantissa and the exponent of a packed float, as one number (30_encoding R122). -/
def packedNat : Nat := x.toNat % 2 ^ 21 * 2 ^ (x.toNat / 2 ^ 21 % 2 ^ 10)

theorem float32Unpack_eq : float32Unpack x.toNat = f32Round (decide (x.toNat / 2 ^ 31 % 2 = 1 ∧ x.toNat % 2 ^ 21 ≠ 0)) (packedNat x) 639 := rfl

theorem getLsbD_signBit : x.getLsbD 31 = decide (x.toNat / 2 ^ 31 % 2 = 1) := Nat.testBit_eq_decide_div_mod_eq

theorem f32Neg_float32Unpack (h : x.toNat % 2 ^ 21 ≠ 0) : f32Neg (float32Unpack x.toNat) = x.getLsbD 31 := by
  rw [float32Unpack_eq, f32Neg_round, getLsbD_signBit]
  exact decide_eq_decide.mpr (and_iff_left h)

/-- The mantissa has 21 bits: a number whose lowest bit is above those that are kept would have more. -/
theorem packedNat_dvd {u : Nat} (hu : packedNat x = u * 2 ^ 639) : 2 ^ dropBits (packedNat x) 639 ∣ packedNat x := by
  rcases Nat.lt_or_ge 639 (dropBits (packedNat x) 639) with hlt | hge
  · have hmant : x.toNat % 2 ^ 21 < 2 ^ 21 := Nat.mod_lt _ (Nat.two_pow_pos 21)
    have hbits : bitLength (packedNat x) ≤ 21 + x.toNat / 2 ^ 21 % 2 ^ 10 := bitLength_le (mul_two_pow_lt hmant _)
    refine (Nat.pow_dvd_pow 2 ?_).trans (Nat.dvd_mul_left _ _)
    unfold dropBits at hlt ⊢
    omega
  · rw [Nat.le_antisymm hge (le_dropBits _ _)]
    exact Dvd.intro_left u hu.symm

theorem f32Units_float32Unpack {u : Nat} (hu : packedNat x = u * 2 ^ 639) (hlt : u < 2 ^ 277) :
    f32Units (float32Unpack x.toNat) = (if x.getLsbD 31 then -1 else 1) * (u : Int) := by
  have hmag : f32UnitsMag (float32Unpack x.toNat) = u := by
    have hm : packedNat x < 2 ^ (277 + 639) := hu ▸ mul_two_pow_lt hlt 639
    exact f32UnitsMag_round_exact hu (packedNat_dvd x hu) (roundWord_lt_of_dvd (p := 891) (packedNat_dvd x hu) hm rfl)
  by_cases hm : x.toNat % 2 ^ 21 = 0
  · have hzero : u = 0 := by
      rw [packedNat, hm, Nat.zero_mul] at hu
      exact (Nat.mul_eq_zero.mp hu.symm).resolve_right (Nat.two_pow_pos 639).ne'
    rw [f32Units, hmag, hzero]
    simp
  · rw [f32Units, hmag, f32Neg_float32Unpack x hm]
    cases x.getLsbD 31 <;> simp

theorem f32Mag_float32Unpack : f32Mag (float32Unpack x.toNat) = min (roundWord (packedNat x) 639) f32InfMag := by
  rw [float32Unpack_eq, f32Mag_round]

/-- The lowest bit of a finite rounded number is that of its quotient. -/
theorem toNat_float32Unpack_mod_two (hw : roundWord (packedNat x) 639 < f32InfMag) :
    (float32Unpack x.toNat).toNat % 2 = roundShift (packedNat x) (dropBits (packedNat x) 639) % 2 := by
  have hmag := f32Mag_float32Unpack x
  rw [min_eq_left hw.le, roundWord, f32Mag] at hmag
  omega

theorem float32Unpack_zero (h : x.toNat % 2 ^ 21 = 0) : float32Unpack x.toNat = 0#32 := by
  have hm : packedNat x = 0 := by rw [packedNat, h, Nat.zero_mul]
  have hneg : decide (x.toNat / 2 ^ 31 % 2 = 1 ∧ x.toNat % 2 ^ 21 ≠ 0) = false := decide_eq_false fun hn => hn.2 h
  rw [float32Unpack_eq, hm, hneg]
  decide +kernel

end

/-- Settles O22: `float32_unpack` rounds the packed number to a multiple of the power of two that its length asks for. -/
theorem packedFloatExact : Obligations.PackedFloatExact := by
  refine fun x => ⟨float32Unpack_zero x, f32Neg_float32Unpack x, fun u => f32Units_float32Unpack x, fun h => ?_, fun h => ?_⟩
  · have hw : f32InfMag ≤ roundWord (packedNat x) 639 := infMag_le_roundWord (p := 891) h rfl
    rw [f32Mag_float32Unpack, min_eq_right hw]
    rfl
  · have hw : roundWord (packedNat x) 639 < f32InfMag := roundWord_lt (p := 891) h rfl
    refine ⟨?_, fun z _ => ?_⟩
    · rw [f32Mag_float32Unpack, min_eq_left hw.le]
      exact hw
    · rw [toNat_float32Unpack_mod_two x hw]
      exact f32Round_nearest hw z

end Sys2Proof.Machine
end

section
/-! PROOF. `OUTPUT` (46_frame_output R375 to R383): the samples in write order, as a grid of sample indices and channels, and their conversion. -/

namespace Sys2Proof.Machine

-- arrays in two directions

/-- Rows of `m` elements one after the other. -/
def grid {α : Type} (n m : Nat) (f : Nat → Nat → α) : List α := (List.range n).flatMap fun i => (List.range m).map (f i)

section

variable {α : Type} (m : Nat) (f : Nat → Nat → α)

theorem grid_succ (n : Nat) : grid (n + 1) m f = grid n m f ++ (List.range m).map (f n) := by
  rw [grid, List.range_succ, List.flatMap_append, List.flatMap_singleton]
  rfl

theorem length_grid (n : Nat) : (grid n m f).length = n * m := by
  induction n with
  | zero => simp [grid]
  | succ n ih => rw [grid_succ, List.length_append, ih, List.length_map, List.length_range, Nat.succ_mul]

theorem aget_append_left [Inhabited α] {a b : List α} {i : Nat} (h : i < a.length) : aget (a ++ b) i = aget a i := by
  simp [aget, List.getElem?_append_left h]

theorem aget_append_right [Inhabited α] {a b : List α} {i : Nat} (h : a.length ≤ i) : aget (a ++ b) i = aget b (i - a.length) := by
  simp [aget, List.getElem?_append_right h]

theorem aget_grid [Inhabited α] {n i j : Nat} (hi : i < n) (hj : j < m) : aget (grid n m f) (i * m + j) = f i j := by
  induction n with
  | zero => exact absurd hi (Nat.not_lt_zero i)
  | succ n ih =>
    rw [grid_succ]
    rcases Nat.lt_succ_iff_lt_or_eq.mp hi with hlt | rfl
    · have hin : i * m + j < n * m := by
        calc i * m + j
          _ < i * m + m := Nat.add_lt_add_left hj _
          _ = (i + 1) * m := (Nat.succ_mul i m).symm
          _ ≤ n * m := Nat.mul_le_mul_right m hlt
      rw [aget_append_left (by rwa [length_grid]), ih hlt]
    · rw [aget_append_right (by rw [length_grid]; exact Nat.le_add_right _ _), length_grid, Nat.add_sub_cancel_left]
      exact aget_map_range (f i) m j hj

end

-- the samples written

/-- The sample that a number which is no NaN is converted to. -/
def pcmValue (x : F32) : Sample := BitVec.ofInt 16 (f32Trunc (fmul (clamped x) f32PcmScale))

theorem pcmOf_eq_pcmValue {x : F32} (h : f32IsNaN x = false) : pcmOf x = some (pcmValue x) := pcmOf_eq h

theorem writeSamples_ok {xs : List F32} (h : ∀ x ∈ xs, f32IsNaN x = false) (s : State) :
    writeSamples xs s = .ok () (s.setOut (s.out ++ xs.map pcmValue)) := by
  induction xs generalizing s with
  | nil =>
    rw [List.map_nil, List.append_nil]
    rfl
  | cons x xs ih =>
    have hx : pcmOut x s = .ok (pcmValue x) s := by rw [pcmOut, pcmOf_eq_pcmValue (h x List.mem_cons_self)]; rfl
    rw [writeSamples, M.bind_ok hx, M.bind_ok (M.run_update _ s), ih fun y hy => h y (List.mem_cons_of_mem x hy)]
    simp [State.setOut]

section

variable {s : State}

/-- What `OUTPUT` leaves in the host's buffer. -/
def emitted (s : State) : List Sample := if s.dec.frame.prevBlock = 0 then [] else (outputSamples s).map pcmValue

/-- The registers after an `OUTPUT`. -/
def State.emittedFrame (s : State) : State :=
  (s.setOut (emitted s)).mapFrame fun f => { f with outCount := BitVec.ofNat 32 (outputCount s), prevBlock := f.curBlock, framePending := false }

theorem emitSamples_ok (h : s.dec.frame.prevBlock ≠ 0 → ∀ x ∈ outputSamples s, f32IsNaN x = false) :
    emitSamples s.dec.frame.prevBlock (outputSamples s) (s.setOut []) = .ok () (s.setOut (emitted s)) := by
  unfold emitSamples emitted
  by_cases hp : s.dec.frame.prevBlock = 0
  · rw [if_pos hp, if_pos hp]
    rfl
  · rw [if_neg hp, if_neg hp, writeSamples_ok (h hp)]
    rfl

theorem outputFrame_ok {cap : Nat} (hcap : outputCount s ≤ cap) (h : s.dec.frame.prevBlock ≠ 0 → ∀ x ∈ outputSamples s, f32IsNaN x = false) :
    outputFrame cap s = .ok () s.emittedFrame := by
  rw [outputFrame, M.bind_ok (M.run_read _ s), M.bind_ok (M.run_ensure_pos hcap _ s), M.bind_ok (M.run_update _ s), M.bind_ok (M.run_read _ _),
    M.bind_ok (M.run_read _ _)]
  exact M.bind_ok (emitSamples_ok h)

/-- The window pair that the samples are taken under. -/
abbrev outputWindow (s : State) : BlockTables := s.dec.pre.get (windowSel (s.block false) s.dec.frame.prevBlock s.dec.frame.curBlock)

theorem outputSamples_eq_grid (s : State) :
    outputSamples s =
      grid (s.dec.frame.prevBlock / 4 + s.dec.frame.curBlock / 4) s.dec.hdr.channels fun t ch =>
        sampleAt (s.prev ch) (s.cur ch) (outputWindow s).winPrev (outputWindow s).winCur s.dec.frame.prevBlock s.dec.frame.curBlock t := rfl

theorem length_emitted (s : State) : (emitted s).length = outputCount s := by
  unfold emitted outputCount
  split
  · rfl
  · rw [List.length_map, outputSamples_eq_grid, length_grid]

theorem aget_map_of_lt {α β : Type} [Inhabited α] [Inhabited β] (f : α → β) {l : List α} {i : Nat} (h : i < l.length) : aget (l.map f) i = f (aget l i) := by
  rw [aget_of_lt (by simpa using h), aget_of_lt h, List.getElem_map]

/-- The sample at index `t` of channel `ch`. -/
theorem aget_emitted {t ch : Nat} (hp : s.dec.frame.prevBlock ≠ 0) (h : ∀ x ∈ outputSamples s, f32IsNaN x = false)
    (ht : t < s.dec.frame.prevBlock / 4 + s.dec.frame.curBlock / 4) (hch : ch < s.dec.hdr.channels) :
    some (aget (emitted s) (t * s.dec.hdr.channels + ch)) =
      pcmOf (sampleAt (s.prev ch) (s.cur ch) (outputWindow s).winPrev (outputWindow s).winCur s.dec.frame.prevBlock s.dec.frame.curBlock t) := by
  have hat := aget_grid s.dec.hdr.channels
    (fun t ch => sampleAt (s.prev ch) (s.cur ch) (outputWindow s).winPrev (outputWindow s).winCur s.dec.frame.prevBlock s.dec.frame.curBlock t) ht hch
  have hlt : t * s.dec.hdr.channels + ch < (outputSamples s).length := by
    rw [outputSamples_eq_grid, length_grid]
    calc t * s.dec.hdr.channels + ch
      _ < (t + 1) * s.dec.hdr.channels := by rw [Nat.succ_mul]; exact Nat.add_lt_add_left hch _
      _ ≤ _ := Nat.mul_le_mul_right _ ht
  rw [← outputSamples_eq_grid] at hat
  have hmem : aget (outputSamples s) (t * s.dec.hdr.channels + ch) ∈ outputSamples s := by
    rw [aget_of_lt hlt]
    exact List.getElem_mem hlt
  rw [emitted, if_neg hp, aget_map_of_lt pcmValue hlt, ← pcmOf_eq_pcmValue (h _ hmem), hat]

end

-- the three regions (46_frame_output R376 to R379)

section

variable (prev cur winPrev winCur : List F32) (p c : Nat)

theorem sampleAt_before {i : Nat} (h : i < p / 4 - min p c / 4) : sampleAt prev cur winPrev winCur p c i = aget prev (p / 2 + i) := by
  simp only [sampleAt, overlapHalf]
  exact if_pos h

theorem sampleAt_overlap {i : Nat} (h : i < 2 * (min p c / 4)) :
    sampleAt prev cur winPrev winCur p c (p / 4 - min p c / 4 + i) =
      fadd (fmul (aget prev (p / 2 + p / 4 - min p c / 4 + i)) (aget winPrev i)) (fmul (aget cur (c / 4 - min p c / 4 + i)) (aget winCur i)) := by
  have ho : min p c / 4 ≤ p / 4 := Nat.div_le_div_right (Nat.min_le_left p c)
  have h1 : ¬p / 4 - min p c / 4 + i < p / 4 - min p c / 4 := Nat.not_lt.mpr (Nat.le_add_right _ _)
  have h2 : p / 4 - min p c / 4 + i < p / 4 + min p c / 4 := by omega
  simp only [sampleAt, overlapHalf, if_neg h1, if_pos h2, Nat.add_sub_cancel_left]

theorem sampleAt_after (i : Nat) :
    sampleAt prev cur winPrev winCur p c (p / 4 + min p c / 4 + i) = aget cur (c / 4 + min p c / 4 + i) := by
  have h1 : ¬p / 4 + min p c / 4 + i < p / 4 - min p c / 4 := by omega
  have h2 : ¬p / 4 + min p c / 4 + i < p / 4 + min p c / 4 := Nat.not_lt.mpr (Nat.le_add_right _ _)
  simp only [sampleAt, overlapHalf, if_neg h1, if_neg h2, Nat.add_sub_cancel_left]

end

theorem windowSel_eq (short p c : Nat) : windowSel short p c = decide (min p c ≠ short) := by
  unfold windowSel
  split <;> simp [*]

/-- Settles O11: the samples written are a grid, sample index by sample index, and the sample index decides the region. -/
theorem outputEmits : Obligations.OutputEmits := by
  intro s cap p c o ch count win hphase hpending hcap hnan
  refine ⟨_, command_of_ok ⟨hphase, hpending⟩ (outputFrame_ok hcap hnan), length_emitted s, rfl, fun hp j hj => ?_⟩
  have hwin : win = outputWindow s := by rw [outputWindow, windowSel_eq]
  have hat := fun t ht => aget_emitted (t := t) hp (hnan hp) ht hj
  have hop : min p c / 4 ≤ p / 4 := Nat.div_le_div_right (Nat.min_le_left p c)
  have hoc : min p c / 4 ≤ c / 4 := Nat.div_le_div_right (Nat.min_le_right p c)
  refine ⟨fun i hi => ?_, fun i hi => ?_, fun i hi => ?_⟩
  · exact (hat i (by omega)).trans (congrArg pcmOf (sampleAt_before _ _ _ _ p c hi))
  · rw [hwin]
    exact (hat (p / 4 - o + i) (by omega)).trans (congrArg pcmOf (sampleAt_overlap _ _ _ _ p c hi))
  · exact (hat (p / 4 + o + i) (by omega)).trans (congrArg pcmOf (sampleAt_after _ _ _ _ p c i))

end Sys2Proof.Machine
end

section
/-! PROOF. Over-subscription (41_codebook R196, R198): every codeword takes its leaves out of the free ones, and an assignment fails only where fewer are left. -/

namespace Sys2Proof.Machine

open Classical in
/-- The number of free leaves, of the 2^32 that the code space has. -/
noncomputable def freeCount (F : Nat → Nat → Prop) : Nat := ((Finset.range (2 ^ 32)).filter (FreeLeaf F)).card

theorem card_node {w n N : Nat} (h : w + n ≤ N) : ((Finset.range N).filter fun x => w ≤ x ∧ x < w + n).card = n := by
  have hset : (Finset.range N).filter (fun x => w ≤ x ∧ x < w + n) = Finset.Ico w (w + n) := by
    ext x
    simp only [Finset.mem_filter, Finset.mem_range, Finset.mem_Ico]
    omega
  rw [hset, Nat.card_Ico, Nat.add_sub_cancel_left]

/-- Before any codeword is assigned every leaf is free. -/
theorem freeCount_root : freeCount rootNode = 2 ^ 32 := by
  classical
  rw [freeCount, Finset.filter_true_of_mem, Finset.card_range]
  intro x hx
  exact ⟨0, 0, ⟨rfl, rfl⟩, Nat.zero_le x, by simpa using hx⟩

section

variable {cs : List Code} {F : Nat → Nat → Prop} {r w : Nat} {k : Code}

/-- A codeword takes as many leaves as a node of its depth has. -/
theorem Takes.freeCount_split (ht : Tracks cs F) (hk : Takes F r w k) : freeCount (splitNode F r w k.len) + 2 ^ (32 - k.len) = freeCount F := by
  classical
  have hroom := ht.room hk.free
  have hsize : 2 ^ (32 - k.len) ≤ 2 ^ (32 - r) := Nat.pow_le_pow_right (by decide) (Nat.sub_le_sub_left hk.le 32)
  have hnode := card_node (w := w) (n := 2 ^ (32 - k.len)) (N := 2 ^ 32) (by omega)
  have hin : (Finset.range (2 ^ 32)).filter (fun x => FreeLeaf F x ∧ InNode k.len w x) = (Finset.range (2 ^ 32)).filter fun x => w ≤ x ∧ x < w + 2 ^ (32 - k.len) :=
    Finset.filter_congr fun x _ => and_iff_right_of_imp fun hx => ⟨r, w, hk.free, inNode_mono hk.le hx⟩
  rw [freeCount, freeCount, ← hnode, ← hin, Finset.filter_congr fun x _ => hk.freeLeaf_splitNode ht x, ← Finset.filter_filter, ← Finset.filter_filter,
    Nat.add_comm, Finset.card_filter_add_card_filter_not]

end

/-- The free leaves of a tracker whose nodes are all deeper than `l`: at most one node is at each depth. -/
theorem freeCount_lt {next : List (BitVec 32)} (l : Nat) (hl : l ≤ 32) (h : ∀ d v, trackerNodes next d v → l < d) :
    freeCount (trackerNodes next) < 2 ^ (32 - l) := by
  classical
  have hcount : ∀ k, k ≤ 32 → ((Finset.range (2 ^ 32)).filter fun x => ∃ d v, trackerNodes next d v ∧ 32 - k < d ∧ InNode d v x).card < 2 ^ k := by
    intro k hk
    induction k with
    | zero =>
      rw [Finset.filter_false_of_mem]
      · exact Nat.one_pos
      · rintro x - ⟨d, v, ⟨-, hd, -⟩, hlt, -⟩
        omega
    | succ k ih =>
      have hsub : ((Finset.range (2 ^ 32)).filter fun x => ∃ d v, trackerNodes next d v ∧ 32 - (k + 1) < d ∧ InNode d v x) ⊆
          ((Finset.range (2 ^ 32)).filter fun x => ∃ d v, trackerNodes next d v ∧ 32 - k < d ∧ InNode d v x) ∪
            Finset.Ico (aget next (32 - k)).toNat ((aget next (32 - k)).toNat + 2 ^ k) := by
        intro x hx
        obtain ⟨hx, d, v, hnode, hd, hin⟩ := Finset.mem_filter.mp hx
        rcases Nat.lt_or_ge (32 - k) d with hlt | hge
        · exact Finset.mem_union_left _ (Finset.mem_filter.mpr ⟨hx, d, v, hnode, hlt, hin⟩)
        · obtain rfl : d = 32 - k := by omega
          obtain ⟨-, -, -, rfl⟩ := hnode
          obtain ⟨hlo, hhi⟩ := hin
          rw [Nat.sub_sub_self (by omega)] at hhi
          exact Finset.mem_union_right _ (Finset.mem_Ico.mpr ⟨hlo, hhi⟩)
      have hle := (Finset.card_le_card hsub).trans (Finset.card_union_le _ _)
      rw [Nat.card_Ico, Nat.add_sub_cancel_left] at hle
      have hlow := ih (by omega)
      have hpow : 2 ^ (k + 1) = 2 ^ k * 2 := pow_succ 2 k
      omega
  refine lt_of_le_of_lt (Finset.card_le_card fun x hx => ?_) (hcount (32 - l) (Nat.sub_le 32 l))
  obtain ⟨hx, d, v, hnode, hin⟩ := Finset.mem_filter.mp hx
  rw [Nat.sub_sub_self hl]
  exact Finset.mem_filter.mpr ⟨hx, d, v, hnode, h d v hnode, hin⟩

/-- An assignment that fails finds no free node down to its depth. -/
theorem assignOne_eq_none {next : List (BitVec 32)} {l e : Nat} (hl : l ≤ 32) (h : assignOne next l e = none) :
    freeCount (trackerNodes next) < 2 ^ (32 - l) := by
  refine freeCount_lt l hl fun d v hnode => ?_
  obtain ⟨hd, -, hv, rfl⟩ := hnode
  obtain ⟨-, -, hnone⟩ := freeDepth_spec next l
  have hzero : freeDepth next l = 0 := by
    simp only [assignOne] at h
    split at h
    · assumption
    · cases h
  by_contra hle
  exact hv (by rw [hnone d (by omega) (by omega)]; rfl)

/-- The leaves that the used entries of a list ask for. -/
def askedLeaves (ls : List Nat) : Nat := ((ls.filter fun l => decide (l ≠ 0)).map fun l => 2 ^ (32 - l)).sum

theorem askedLeaves_cons_zero (ls : List Nat) : askedLeaves (0 :: ls) = askedLeaves ls := rfl

theorem askedLeaves_cons {l : Nat} (hl : l ≠ 0) (ls : List Nat) : askedLeaves (l :: ls) = 2 ^ (32 - l) + askedLeaves ls := by
  simp [askedLeaves, hl]

theorem assignRest_of_none {next : List (BitVec 32)} {e l : Nat} (hl : l ≠ 0) (h : assignOne next l e = none) (ls : List Nat) :
    assignRest next e (l :: ls) = none := by
  cases l with
  | zero => exact absurd rfl hl
  | succ l => simp only [assignRest, h]

theorem assignRest_of_some {next next' : List (BitVec 32)} {e l : Nat} {k : Code} (hl : l ≠ 0) (h : assignOne next l e = some (k, next'))
    (ls : List Nat) : assignRest next e (l :: ls) = none ↔ assignRest next' (e + 1) ls = none := by
  cases l with
  | zero => exact absurd rfl hl
  | succ l =>
    simp only [assignRest, h]
    cases assignRest next' (e + 1) ls <;> simp

theorem assignFrom_cons {e l : Nat} (hl : l ≠ 0) (ls : List Nat) : assignFrom e (l :: ls) = none ↔ assignRest (firstFree l) (e + 1) ls = none := by
  cases l with
  | zero => exact absurd rfl hl
  | succ l =>
    simp only [assignFrom]
    cases assignRest (firstFree (l + 1)) (e + 1) ls <;> simp

/-- The entries after the first fail exactly if they ask for more leaves than are free. -/
theorem assignRest_eq_none {ls : List Nat} (hls : ∀ l ∈ ls, l ≤ 32) {cs : List Code} {next : List (BitVec 32)} {e : Nat}
    (ht : Tracks cs (trackerNodes next)) : assignRest next e ls = none ↔ freeCount (trackerNodes next) < askedLeaves ls := by
  induction ls generalizing cs next e with
  | nil => exact iff_of_false nofun (Nat.not_lt_zero _)
  | cons l ls ih =>
    rw [List.forall_mem_cons] at hls
    by_cases hl : l = 0
    · subst hl
      exact ih hls.2 ht
    · rw [askedLeaves_cons hl]
      cases hone : assignOne next l e with
      | none => exact iff_of_true (assignRest_of_none hl hone ls) (Nat.lt_add_right _ (assignOne_eq_none hls.1 hone))
      | some p =>
        obtain ⟨k, next'⟩ := p
        obtain ⟨r, w, hk, hnext⟩ := assignOne_takes ht (Nat.one_le_iff_ne_zero.mpr hl) hls.1 hone
        obtain ⟨_, -, -, -, -, hlen, -⟩ := assignOne_eq_some hone
        have hcount := hk.freeCount_split ht
        rw [← hnext, hlen] at hcount
        rw [assignRest_of_some hl hone, ih hls.2 (hnext ▸ hk.tracks ht)]
        dsimp only at hcount
        omega

/-- Settles O24: the leaves that are free before the first entry are all of the code space. -/
theorem oversubscribedExactly : Obligations.OversubscribedExactly := by
  have key : ∀ (ls : List Nat) (e : Nat), (∀ l ∈ ls, l ≤ 32) → (assignFrom e ls = none ↔ 2 ^ 32 < askedLeaves ls) := by
    intro ls
    induction ls with
    | nil => exact fun e _ => iff_of_false nofun (Nat.not_lt_zero _)
    | cons l ls ih =>
      intro e hls
      rw [List.forall_mem_cons] at hls
      by_cases hl : l = 0
      · subst hl
        exact ih (e + 1) hls.2
      · have hk : Takes rootNode 0 0 { len := l, cw := 0#32, entry := e } :=
          ⟨⟨rfl, rfl⟩, Nat.zero_le l, fun hv _ => hv.1.le, Nat.one_le_iff_ne_zero.mpr hl, hls.1, (Nat.zero_div _).symm⟩
        have hcount := hk.freeCount_split tracks_root
        rw [freeCount_root] at hcount
        rw [assignFrom_cons hl, assignRest_eq_none hls.2 (trackerNodes_firstFree hls.1 ▸ hk.tracks tracks_root), askedLeaves_cons hl,
          trackerNodes_firstFree hls.1]
        dsimp only at hcount
        omega
  exact fun lens hlens => key lens 0 hlens

end Sys2Proof.Machine
end

section
/-! PROOF. Scalar and vector decode (41_codebook R205 to R208): the codeword read, and the elements added into a buffer. -/

namespace Sys2Proof.Machine

section

variable {s : State} {c : Nat} {k : Code}

/-- `CB_SCALAR` on the bits of a codeword returns its entry and moves past it (R205). -/
theorem codebookScalar_ok (hv : s.dec.bits.Valid) (hk : CodeOf s c k) (hp : k.bits <+: s.ahead) :
    codebookScalar c s = .ok k.entry (s.advance k.len) := by
  obtain ⟨hc, hd, hmem⟩ := hk
  obtain ⟨hlo, hhi, -⟩ := hd.2 k hmem
  have hwalk := scalarWalk_ok hd hmem hv hp Config.maxCwLen 0 hlo (by omega)
  rw [State.advance_zero hv] at hwalk
  rw [codebookScalar, M.bind_ok (bookOperand_ok hc), M.bind_ok (M.run_read ..)]
  exact hwalk

/-- Where no codeword is ahead, the walk takes 32 bits and finds none (R206). -/
theorem scalarWalk_noCodeword {codes : List Code} (hcodes : ∀ k ∈ codes, k.Fits ∧ ¬k.bits <+: s.ahead) (hv : s.dec.bits.Valid) {n : Nat}
    (hn : n ≤ s.ahead.length) (fuel l : Nat) (hl : l + fuel = n) :
    scalarWalk codes fuel l (bitsNat (s.ahead.take l).reverse) (s.advance l) = .error (.raise .noCodeword) (s.advance n) := by
  induction fuel generalizing l with
  | zero =>
    rw [← hl]
    rfl
  | succ fuel ih =>
    have hlt : l < s.ahead.length := by omega
    have hread := readBit_prefix hv List.prefix_rfl hlt
    have hvalue : 2 * bitsNat (s.ahead.take l).reverse + s.ahead[l].toNat = bitsNat (s.ahead.take (l + 1)).reverse := by
      rw [List.take_succ_eq_append_getElem hlt, List.reverse_concat, bitsNat, Nat.add_comm]
    have hnone : findCode codes (l + 1) (bitsNat (s.ahead.take (l + 1)).reverse) = none := by
      have hfind := findCode_eq_find? (fun k hk => (hcodes k hk).1) (s.ahead.take (l + 1))
      rw [List.length_take, Nat.min_eq_left hlt] at hfind
      rw [hfind, List.find?_eq_none.mpr]
      · rfl
      · intro k hk hbits
        have heq : k.bits = s.ahead.take (l + 1) := of_decide_eq_true hbits
        exact (hcodes k hk).2 (heq ▸ List.take_prefix _ _)
    rw [← hvalue] at hnone
    rw [scalarWalk_miss hread hnone, hvalue]
    exact ih (l + 1) (by omega)

theorem codebookScalar_noCodeword (hc : c < s.dec.counts.nCodebooks) (hv : s.dec.bits.Valid)
    (hcodes : ∀ k ∈ (s.codebook c).codes, k.Fits ∧ ¬k.bits <+: s.ahead) (hlen : Config.maxCwLen ≤ s.ahead.length) :
    codebookScalar c s = .error (.raise .noCodeword) (s.advance Config.maxCwLen) := by
  have hwalk := scalarWalk_noCodeword hcodes hv hlen Config.maxCwLen 0 (Nat.zero_add _)
  rw [State.advance_zero hv] at hwalk
  rw [codebookScalar, M.bind_ok (bookOperand_ok hc), M.bind_ok (M.run_read ..)]
  exact hwalk

theorem codebookScalar_quiet (c : Nat) : Keeps Quiet (codebookScalar c) := codebookScalar_keeps Quiet.chain readBits_quiet c

end

/-- Settles O26: the walk ends at the codeword ahead, and at 32 bits where none is. -/
theorem scalarDecodes : Obligations.ScalarDecodes := by
  refine fun s c hc hv => ⟨fun k hk hp => ?_, fun hcodes hlen => ?_⟩
  · exact micro_bind_ok (codebookScalar_ok hv hk hp) rfl
  · have hrun := codebookScalar_noCodeword hc hv hcodes hlen
    exact micro_bind_aborts hrun ((codebookScalar_quiet c).error hrun) nofun

-- adding a vector into a buffer (R208)

section

variable (s : State) (r : BufRef) (v w : List F32)

@[simp] theorem State.bufGet_bufSet : (s.bufSet r v).bufGet r = v := by
  cases r with
  | cur ch => exact s.cur_setCur_self ch v
  | interleave => rfl

@[simp] theorem State.setCur_setCur (ch : Nat) : (s.setCur ch v).setCur ch w = s.setCur ch w := by
  unfold State.setCur
  cases h : s.dec.frame.curSel <;> simp [h, State.mapWork]

@[simp] theorem State.bufSet_bufSet : (s.bufSet r v).bufSet r w = s.bufSet r w := by
  cases r with
  | cur ch => exact s.setCur_setCur v w ch
  | interleave => rfl

end

/-- An array with the elements of a vector added at every `stride`-th place from `i` on. -/
def addStrided (stride : Nat) : Nat → List F32 → List F32 → List F32
  | _, [], l => l
  | i, v :: vs, l => addStrided stride (i + stride) vs (aset l i (fadd (aget l i) v))

/-- Element `p` after the additions: the one element of the vector that falls on it is added. -/
theorem aget_addStrided {stride : Nat} (hs : 1 ≤ stride) (i p : Nat) (vs l : List F32) :
    aget (addStrided stride i vs l) p =
      if i ≤ p ∧ (p - i) % stride = 0 ∧ (p - i) / stride < vs.length then fadd (aget l p) (aget vs ((p - i) / stride)) else aget l p := by
  induction vs generalizing i l with
  | nil => simp [addStrided]
  | cons v vs ih =>
    rw [addStrided, ih]
    rcases Nat.lt_trichotomy p i with hlt | rfl | hgt
    · rw [if_neg (by omega), if_neg (by omega), aget_aset_of_ne l _ (Nat.ne_of_lt hlt)]
    · rw [if_neg (by omega), aget_aset_self, if_pos (by simp)]
      simp
    · rw [aget_aset_of_ne l _ (Nat.ne_of_gt hgt)]
      rcases Nat.lt_or_ge (p - i) stride with hnear | hfar
      · have hmod : (p - i) % stride ≠ 0 := by rw [Nat.mod_eq_of_lt hnear]; omega
        rw [if_neg (by omega), if_neg fun h => hmod h.2.1]
      · have hsub : p - (i + stride) = p - i - stride := Nat.sub_add_eq p i stride
        have hdiv : (p - i) / stride = (p - i - stride) / stride + 1 := Nat.div_eq_sub_div (by omega) hfar
        have hmod : (p - i) % stride = (p - i - stride) % stride := Nat.mod_eq_sub_mod hfar
        rw [hsub, hdiv, hmod, List.length_cons, aget_cons_succ]
        refine if_congr ?_ rfl rfl
        omega

/-- The loop of R208 adds the elements one after the other, all of them inside the vector. -/
theorem addElements_ok {buf : Vec} {stride i : Nat} {v : F32} {vs : List F32} (h : i + vs.length * stride < buf.size) (s : State) :
    addElements buf stride i (v :: vs) s = .ok () (s.bufSet buf.ref (addStrided stride i (v :: vs) (s.bufGet buf.ref))) := by
  have hadd : ∀ u : State, addInto buf i v u = .ok () (u.bufSet buf.ref (aset (u.bufGet buf.ref) i (fadd (aget (u.bufGet buf.ref) i) v))) := fun u => by
    rw [addInto, M.bind_ok (M.run_ensure_pos (by omega) _ u)]
    rfl
  induction vs generalizing i v s with
  | nil =>
    rw [addElements, M.bind_ok (hadd s)]
    rfl
  | cons w vs ih =>
    rw [List.length_cons, Nat.succ_mul] at h
    rw [addElements, M.bind_ok (hadd s), ih (by omega) _ fun u => ?_, State.bufSet_bufSet, State.bufGet_bufSet]
    · rfl
    · rw [addInto, M.bind_ok (M.run_ensure_pos (by omega) _ u)]
      rfl

section

variable {s : State} {c : Nat} {k : Code} {buf : Vec} {base stride : Nat}

@[simp] theorem length_vqVector (b : Codebook) (e : Nat) : (vqVector b e).length = b.dim := length_vqElements _ _ _ _ _

/-- `CB_VECTOR` on the bits of a codeword of a codebook with lookup (R208). -/
theorem codebookVector_ok (hv : s.dec.bits.Valid) (hk : CodeOf s c k) (hp : k.bits <+: s.ahead) (hlookup : (s.codebook c).lookupType ≠ 0)
    (hdim : (s.codebook c).dim ≠ 0) (hstride : 1 ≤ stride) (hsize : base + ((s.codebook c).dim - 1) * stride < buf.size) :
    codebookVector c buf base stride s =
      .ok () ((s.advance k.len).bufSet buf.ref
        (addStrided stride base (vqVector (s.codebook c) k.entry) ((s.advance k.len).bufGet buf.ref))) := by
  rw [codebookVector, M.bind_ok (bookOperand_ok hk.1), M.bind_ok (M.run_ensure_pos hstride _ s), M.bind_ok (M.run_read _ s),
    M.bind_ok (M.run_ensure_pos hlookup _ s), M.bind_ok (M.run_ensure_pos hdim _ s), M.bind_ok (codebookScalar_ok hv hk hp)]
  have hlen := length_vqVector (s.codebook c) k.entry
  cases hvec : vqVector (s.codebook c) k.entry with
  | nil =>
    rw [hvec] at hlen
    exact absurd hlen.symm hdim
  | cons v vs =>
    rw [hvec, List.length_cons] at hlen
    refine addElements_ok ?_ _
    rwa [show vs.length = (s.codebook c).dim - 1 by omega]

/-- A vector operand is accepted as its buffer asks. -/
theorem vecOperand_ok
    (h : match buf.ref with
      | .cur ch => ch < s.dec.hdr.channels ∧ buf.size ≤ Config.maxBlock
      | .interleave => buf.size ≤ Config.maxChannels * (Config.maxBlock / 2)) :
    vecOperand buf s = .ok () s := by
  obtain ⟨ref, size⟩ := buf
  cases ref with
  | cur ch => exact M.run_ensure_pos h _ s
  | interleave => exact M.run_ensure_pos h _ s

@[simp] theorem State.bufGet_setResult (s : State) (res : Result) (r : BufRef) : (s.setResult res).bufGet r = s.bufGet r := by cases r <;> rfl

@[simp] theorem State.bufGet_advance (s : State) (n : Nat) (r : BufRef) : (s.advance n).bufGet r = s.bufGet r := by cases r <;> rfl

end

/-- Settles O28: the codeword's vector is added at its stride, and no other element of the buffer is written. -/
theorem vectorAdds : Obligations.VectorAdds := by
  intro s c v base stride k hv hk hp hlookup hdim hstride hvec hsize
  refine ⟨_, microUnit_of_ok (m := do vecOperand v; codebookVector c v base stride)
    ((M.bind_ok (vecOperand_ok hvec)).trans (codebookVector_ok hv hk hp hlookup hdim hstride hsize)), ?_, fun j hj => ?_, fun i hi => ?_⟩
  · rw [State.bufGet_setResult, State.bufGet_bufSet]
  · rw [State.bufGet_setResult, State.bufGet_bufSet, State.bufGet_advance, aget_addStrided hstride, Nat.add_sub_cancel_left,
      Nat.mul_div_cancel j (by omega), if_pos ⟨Nat.le_add_right _ _, Nat.mul_mod_left j stride, by rwa [length_vqVector]⟩]
  · rw [State.bufGet_setResult, State.bufGet_bufSet, State.bufGet_advance, aget_addStrided hstride, if_neg]
    rintro ⟨hle, hmod, hlt⟩
    rw [length_vqVector] at hlt
    refine hi _ hlt ?_
    have := Nat.div_add_mod' (i - base) stride
    omega

end Sys2Proof.Machine
end

section
/-! PROOF. A calculus for the pieces that read fields (30_encoding): which fields a piece takes from the stream, what it returns, and how it changes the state in which
the cursor is past them. The setup of every table entry is put together from these rules. -/

namespace Sys2Proof.Machine

theorem M.bind_assoc {α β γ : Type} (m : M α) (f : α → M β) (g : β → M γ) : m >>= f >>= g = m >>= fun x => f x >>= g := by
  funext s
  cases hm : m s <;> simp only [M.run_bind, hm]

/-- A change of the state that neither looks at the stream nor moves it. -/
structure Blind (g : State → State) : Prop where
  bits : ∀ s, (g s).dec.bits = s.dec.bits
  ahead : ∀ s, (g s).ahead = s.ahead
  advance : ∀ s k, (g s).advance k = g (s.advance k)

theorem Blind.id : Blind id := ⟨fun _ => rfl, fun _ => rfl, fun _ _ => rfl⟩

theorem Blind.comp {g h : State → State} (hg : Blind g) (hh : Blind h) : Blind (g ∘ h) :=
  ⟨fun s => (hg.bits _).trans (hh.bits s), fun s => (hg.ahead _).trans (hh.ahead s), fun s k => by
    rw [Function.comp_apply, hg.advance, hh.advance, Function.comp_apply]⟩

theorem Blind.tabs (f : Tables → Tables) : Blind (State.mapTabs f) := ⟨fun _ => rfl, fun _ => rfl, fun _ _ => rfl⟩

theorem Blind.work (f : Work → Work) : Blind (State.mapWork f) := ⟨fun _ => rfl, fun _ => rfl, fun _ _ => rfl⟩

theorem Blind.counts (f : Counts → Counts) : Blind (State.mapCounts f) := ⟨fun _ => rfl, fun _ => rfl, fun _ _ => rfl⟩

theorem Blind.valid {g : State → State} (hg : Blind g) {s : State} (h : s.dec.bits.Valid) : (g s).dec.bits.Valid := by rwa [hg.bits]

theorem Blind.reads {g : State → State} (hg : Blind g) {s : State} {fs : List (Nat × Nat)} (h : s.Reads fs) : (g s).Reads fs := by
  rwa [State.Reads, hg.ahead]

theorem Blind.past {g : State → State} (hg : Blind g) (s : State) (fs : List (Nat × Nat)) : (g s).past fs = g (s.past fs) := hg.advance s _

/-- A condition on the state that a move of the cursor does not touch. -/
def Steady (pre : State → Prop) : Prop := ∀ ⦃s⦄ (k : Nat), pre s → pre (s.advance k)

/-- Where the fields are ahead and the condition holds, the piece takes exactly the fields, returns `a`, and completes in the state that `g` makes of the one in which
the cursor is past them. -/
def Parses {α : Type} (pre : State → Prop) (fs : List (Nat × Nat)) (m : M α) (a : α) (g : State → State) : Prop :=
  ∀ ⦃s : State⦄, s.dec.bits.Valid → s.Reads fs → pre s → m s = .ok a (g (s.past fs))

namespace Parses

variable {α β : Type} {pre pre' : State → Prop} {fs fs' : List (Nat × Nat)} {m : M α} {f : α → M β} {a : α} {b : β} {g g' h : State → State}

/-- A piece and the rest of the work after it. -/
theorem bind (hm : Parses pre fs m a g) (hg : Blind g) (hp : ∀ s, pre s → pre' (g (s.past fs))) (hf : Parses pre' fs' (f a) b g') :
    Parses pre (fs ++ fs') (m >>= f) b fun s => g' (g s) := fun s hv hr hs => by
  rw [M.bind_ok (hm hv hr.left hs), hf (hg.valid (State.past_valid hv)) (hg.reads (hr.right hv)) (hp s hs), hg.past, State.past_append hv hr.left]

/-- A piece without a result, and the rest of the work after it. -/
theorem seq {m : M Unit} {k : M β} (hm : Parses pre fs m () g) (hg : Blind g) (hp : ∀ s, pre s → pre' (g (s.past fs))) (hk : Parses pre' fs' k b g') :
    Parses pre (fs ++ fs') (m >>= fun _ => k) b fun s => g' (g s) := hm.bind hg hp hk

/-- The same of a piece that only reads. -/
theorem bindRead (hst : Steady pre) (hm : Parses pre fs m a id) (hf : Parses pre fs' (f a) b g) : Parses pre (fs ++ fs') (m >>= f) b g :=
  hm.bind Blind.id (fun _ hs => hst _ hs) hf

theorem readField (pre : State → Prop) {w v : Nat} (hw : w ≤ 24) (hlt : v < 2 ^ w) : Parses pre [(w, v)] (readBits w) v id := fun _ hv hr _ =>
  readBits_past hv hw hlt hr

/-- One field, and the rest of the work. -/
theorem read {f : Nat → M β} (hst : Steady pre) {w v : Nat} (hw : w ≤ 24) (hlt : v < 2 ^ w) (hf : Parses pre fs (f v) b g) :
    Parses pre ((w, v) :: fs) (readBits w >>= f) b g := (readField pre hw hlt).bindRead hst hf

theorem pure (pre : State → Prop) (a : α) : Parses pre [] (Pure.pure a : M α) a id := fun s hv _ _ => by
  rw [State.past_nil hv]
  rfl

theorem pure_of_eq (pre : State → Prop) {a' : α} (h : a = a') : Parses pre [] (Pure.pure a : M α) a' id := h ▸ pure pre a

theorem update {k : M β} (hh : Blind h) (hp : ∀ s, pre s → pre' (h s)) (hf : Parses pre' fs k b g) :
    Parses pre fs (M.update h >>= fun _ => k) b fun s => g (h s) := fun s hv hr hs => by
  rw [M.bind_ok (M.run_update h s), hf (hh.valid hv) (hh.reads hr) (hp s hs), hh.past]

theorem last (pre : State → Prop) (h : State → State) : Parses pre [] (M.update h) () h := fun s hv _ _ => by
  rw [State.past_nil hv]
  rfl

theorem look {v : State → α} (hx : ∀ s, pre s → v s = a) (hf : Parses pre fs (f a) b g) : Parses pre fs (M.read v >>= f) b g := fun s hv hr hs => by
  rw [M.bind_ok (M.run_read v s), hx s hs]
  exact hf hv hr hs

/-- A check that the condition passes, and the rest of the work. -/
theorem check {m : M Unit} {k : M β} (hm : ∀ s, pre s → m s = .ok () s) (hf : Parses pre fs k b g) : Parses pre fs (m >>= fun _ => k) b g :=
  fun s hv hr hs => by
  rw [M.bind_ok (hm s hs)]
  exact hf hv hr hs

theorem ensure {p : Prop} [Decidable p] {x : Stop} {k : M β} (hp : p) (hf : Parses pre fs k b g) : Parses pre fs (M.ensure p x >>= fun _ => k) b g :=
  check (fun s _ => M.run_ensure_pos hp x s) hf

theorem mono (hp : ∀ s, pre s → pre' s) (hm : Parses pre' fs m a g) : Parses pre fs m a g := fun s hv hr hs => hm hv hr (hp s hs)

/-- Changes that agree where the condition holds are one for the piece. -/
theorem congr (hst : Steady pre) (hg : ∀ s, pre s → g s = g' s) (hm : Parses pre fs m a g) : Parses pre fs m a g' := fun s hv hr hs => by
  rw [hm hv hr hs, hg (s.past fs) (hst _ hs)]

/-- A collecting loop whose turns only read: turn `i` takes the fields of `ys[i]` and returns its value. -/
theorem collectMap {γ : Type} (hst : Steady pre) {f : Nat → M α} {F : γ → List (Nat × Nat)} {v : γ → α} {ys : List γ} {lo : Nat}
    (hf : ∀ i (hi : i < ys.length), Parses pre (F ys[i]) (f (lo + i)) (v ys[i]) id) :
    Parses pre (ys.flatMap F) (collect ys.length lo f) (ys.map v) id := by
  induction ys generalizing lo with
  | nil => exact pure pre []
  | cons y ys ih =>
    rw [List.length_cons, collect_succ, List.flatMap_cons]
    refine bindRead hst (hf 0 (Nat.succ_pos _)) ?_
    rw [← List.append_nil (ys.flatMap F)]
    refine bindRead hst (ih fun i hi => ?_) (pure pre _)
    have hnext := hf (i + 1) (Nat.succ_lt_succ hi)
    rwa [List.getElem_cons_succ, ← Nat.add_assoc, Nat.add_right_comm] at hnext

/-- The same, of turns that return the elements. -/
theorem collect (hst : Steady pre) {f : Nat → M α} {F : α → List (Nat × Nat)} {xs : List α} {lo : Nat}
    (hf : ∀ i (hi : i < xs.length), Parses pre (F xs[i]) (f (lo + i)) xs[i] id) : Parses pre (xs.flatMap F) (collect xs.length lo f) xs id := by
  have h := collectMap (v := fun x => x) hst hf
  rwa [List.map_id'] at h

/-- A piece at the head of the work. -/
theorem assoc {γ : Type} {f' : β → M γ} {d : γ} (hm : Parses pre fs ((m >>= f) >>= f') d g) : Parses pre fs (m >>= fun x => f x >>= f') d g :=
  M.bind_assoc m f f' ▸ hm

/-- A micro-operation that takes fields. -/
theorem exec {m : M Unit} (hm : Parses pre fs m () g) {s : State} (hv : s.dec.bits.Valid) (hr : s.Reads fs) (hs : pre s) :
    microUnit m s = .next ((g (s.past fs)).setResult .none) := microUnit_of_ok (hm hv hr hs)

end Parses

/-- Where the fields are ahead and the condition holds, the piece does not complete, and `x` is what it answers. -/
def Stops {α : Type} (pre : State → Prop) (fs : List (Nat × Nat)) (m : M α) (x : Stop) : Prop :=
  ∀ ⦃s : State⦄, s.dec.bits.Valid → s.Reads fs → pre s → ∃ t, m s = .error x t

namespace Stops

variable {α β : Type} {pre pre' : State → Prop} {fs fs' : List (Nat × Nat)} {m : M α} {f : α → M β} {a : α} {g : State → State} {x : Stop}

/-- The rest of the work stops, after a piece that completes. -/
theorem after (hm : Parses pre fs m a g) (hg : Blind g) (hp : ∀ s, pre s → pre' (g (s.past fs))) (hf : Stops pre' fs' (f a) x) :
    Stops pre (fs ++ fs') (m >>= f) x := fun s hv hr hs => by
  rw [M.bind_ok (hm hv hr.left hs)]
  exact hf (hg.valid (State.past_valid hv)) (hg.reads (hr.right hv)) (hp s hs)

theorem afterRead (hst : Steady pre) (hm : Parses pre fs m a id) (hf : Stops pre fs' (f a) x) : Stops pre (fs ++ fs') (m >>= f) x :=
  after hm Blind.id (fun _ hs => hst _ hs) hf

theorem afterSeq {m : M Unit} {k : M β} (hm : Parses pre fs m () g) (hg : Blind g) (hp : ∀ s, pre s → pre' (g (s.past fs))) (hk : Stops pre' fs' k x) :
    Stops pre (fs ++ fs') (m >>= fun _ => k) x := after hm hg hp hk

theorem read {f : Nat → M β} (hst : Steady pre) {w v : Nat} (hw : w ≤ 24) (hlt : v < 2 ^ w) (hf : Stops pre fs (f v) x) :
    Stops pre ((w, v) :: fs) (readBits w >>= f) x := afterRead hst (.readField pre hw hlt) hf

theorem flag {f : Nat → M β} (hst : Steady pre) (v : Bool) (hf : Stops pre fs (f v.toNat) x) : Stops pre (flagField v :: fs) (readBit >>= f) x :=
  read hst (by decide) v.toNat_lt hf

theorem look {v : State → α} (hx : ∀ s, pre s → v s = a) (hf : Stops pre fs (f a) x) : Stops pre fs (M.read v >>= f) x := fun s hv hr hs => by
  rw [M.bind_ok (M.run_read v s), hx s hs]
  exact hf hv hr hs

theorem check {m : M Unit} {k : M β} (hm : ∀ s, pre s → m s = .ok () s) (hk : Stops pre fs k x) : Stops pre fs (m >>= fun _ => k) x := fun s hv hr hs => by
  rw [M.bind_ok (hm s hs)]
  exact hk hv hr hs

theorem ensure {p : Prop} [Decidable p] {y : Stop} {k : M β} (hp : p) (hk : Stops pre fs k x) : Stops pre fs (M.ensure p y >>= fun _ => k) x :=
  check (fun s _ => M.run_ensure_pos hp y s) hk

/-- A check that fails. -/
theorem failing (pre : State → Prop) {p : Prop} [Decidable p] (hp : ¬p) : Stops pre [] (M.ensure p x) x := fun s _ _ _ => ⟨s, M.run_ensure_neg hp x s⟩

theorem stop (pre : State → Prop) (x : Stop) : Stops pre [] (M.stop x : M α) x := fun s _ _ _ => ⟨s, rfl⟩

/-- A piece that stops, and so the work that begins with it. -/
theorem head (hm : Stops pre fs m x) (f : α → M β) : Stops pre fs (m >>= f) x := fun _ hv hr hs => (hm hv hr hs).imp fun _ h => M.bind_error h

theorem mono (hp : ∀ s, pre s → pre' s) (hm : Stops pre' fs m x) : Stops pre fs m x := fun s hv hr hs => hm hv hr (hp s hs)

/-- A collecting loop that stops in the turn after those of `ys`. -/
theorem collectMap {γ : Type} (hst : Steady pre) {f : Nat → M α} {F : γ → List (Nat × Nat)} {v : γ → α} {ys : List γ} {k lo : Nat} (hk : ys.length < k)
    (hf : ∀ i (hi : i < ys.length), Parses pre (F ys[i]) (f (lo + i)) (v ys[i]) id) (hstop : Stops pre fs (f (lo + ys.length)) x) :
    Stops pre (ys.flatMap F ++ fs) (collect k lo f) x := by
  induction ys generalizing k lo with
  | nil =>
    obtain ⟨k, rfl⟩ := Nat.exists_eq_succ_of_ne_zero hk.ne'
    exact hstop.head _
  | cons y ys ih =>
    obtain ⟨k, rfl⟩ := Nat.exists_eq_succ_of_ne_zero (Nat.ne_of_gt (Nat.zero_lt_of_lt hk))
    rw [List.flatMap_cons, List.append_assoc, collect_succ]
    rw [List.length_cons] at hk hstop
    refine afterRead hst (hf 0 (Nat.succ_pos _)) (head (ih (Nat.lt_of_succ_lt_succ hk) (fun i hi => ?_) ?_) _)
    · have hnext := hf (i + 1) (Nat.succ_lt_succ hi)
      rwa [List.getElem_cons_succ, ← Nat.add_assoc, Nat.add_right_comm] at hnext
    · rwa [Nat.add_assoc, Nat.add_comm 1]

theorem assoc {γ : Type} {f' : β → M γ} (hm : Stops pre fs ((m >>= f) >>= f') x) : Stops pre fs (m >>= fun y => f y >>= f') x := M.bind_assoc m f f' ▸ hm

theorem fault {m : M Unit} {y : Fault} (hm : Stops pre fs m (.fault y)) {s : State} (hv : s.dec.bits.Valid) (hr : s.Reads fs) (hs : pre s) :
    microUnit m s = .fault y := by
  obtain ⟨t, ht⟩ := hm hv hr hs
  exact microUnit_of_error ht

/-- A micro-operation that raises an error after some fields. -/
theorem aborts {m : M Unit} {c : Cause} (hm : Stops pre fs m (.raise c)) (hq : Keeps Quiet m) (hc : c ≠ .cleanEnd) {s : State} (hv : s.dec.bits.Valid)
    (hr : s.Reads fs) (hs : pre s) : ∃ t, microUnit m s = .next t ∧ Aborted s t ∧ t.err = c.err := by
  obtain ⟨t, ht⟩ := hm hv hr hs
  exact micro_bind_aborts ht (hq.error ht) hc

end Stops

/-- `RD32` takes the two halves of a word (40_bit_reader R181). -/
theorem read32_parses (pre : State → Prop) (w : BitVec 32) : Parses pre (halfFields w) read32 w.toNat id := fun _ hv hr _ => read32_ok hv hr

theorem flag_lt (b : Bool) : b.toNat < 2 ^ 1 := b.toNat_lt

/-- One flag, and the rest of the work. -/
theorem Parses.flag {β : Type} {pre : State → Prop} {fs : List (Nat × Nat)} {f : Nat → M β} {b : β} {g : State → State} (hst : Steady pre) (v : Bool)
    (hf : Parses pre fs (f v.toNat) b g) : Parses pre (flagField v :: fs) (readBit >>= f) b g := .read hst (by decide) (flag_lt v) hf

end Sys2Proof.Machine
end

section
/-! PROOF. The codebook header (41_codebook R191 to R200): its length lists, its lookups, and what `CB_SETUP` stores. -/

namespace Sys2Proof.Machine

/-- Codebook `c` exists, and its entry has the property. -/
def BookHas (c : Nat) (P : Codebook → Prop) (s : State) : Prop := c < s.dec.counts.nCodebooks ∧ P (s.codebook c)

section

variable {c : Nat} {P Q : Codebook → Prop}

theorem BookHas.steady : Steady (BookHas c P) := fun _ _ h => h

theorem BookHas.operand {s : State} (h : BookHas c P s) : bookOperand c s = .ok () s := bookOperand_ok h.1

theorem BookHas.put {s : State} (h : BookHas c P s) {g : Codebook → Codebook} (hg : ∀ b, P b → Q (g b)) : BookHas c Q (s.putBook c g) :=
  ⟨h.1, by rw [State.codebook_putBook]; exact hg _ h.2⟩

theorem Blind.putBook (c : Nat) (g : Codebook → Codebook) : Blind (State.putBook c g) := ⟨fun _ => rfl, fun _ => rfl, fun _ _ => rfl⟩

end

/-- The entry is written, and the rest of the work. -/
theorem Parses.putBook {β : Type} {c : Nat} {P Q : Codebook → Prop} {h : Codebook → Codebook} {fs : List (Nat × Nat)} {k : M β} {b : β} {g : State → State}
    (hp : ∀ b, P b → Q (h b)) (hk : Parses (BookHas c Q) fs k b g) :
    Parses (BookHas c P) fs (setCodebook c h >>= fun _ => k) b fun s => g (s.putBook c h) := .update (.putBook c h) (fun _ hs => hs.put hp) hk

theorem State.putBook_congr {s : State} {c : Nat} {g h : Codebook → Codebook} (hgh : g (s.codebook c) = h (s.codebook c)) : s.putBook c g = s.putBook c h := by
  rw [State.codebook] at hgh
  rw [State.putBook, State.putBook, State.mapTabs, State.mapTabs, hgh]

/-- The length list is written. -/
def State.putLens (lens : List Nat) (s : State) : State := s.mapWork fun w => { w with len := lens }

theorem Blind.putLens (lens : List Nat) : Blind (State.putLens lens) := ⟨fun _ => rfl, fun _ => rfl, fun _ _ => rfl⟩

-- length lists (R193, R194)

section

variable {c : Nat} {lens : List Nat} {P : Codebook → Prop}

theorem lengthsDense_parses (hP : ∀ b, P b → b.entries = lens.length) (hl : ∀ l ∈ lens, 1 ≤ l ∧ l ≤ Config.maxCwLen) :
    Parses (BookHas c P) (denseFields lens) (lengthsDense c) () (State.putLens lens) := by
  have hread := Parses.collect (BookHas.steady (c := c) (P := P)) (f := fun _ => do let v ← readBits 5; pure (v + 1)) (F := fun l => [(5, l - 1)]) (xs := lens) (lo := 0)
    fun i hi => by
      obtain ⟨hlo, hhi⟩ := hl lens[i] (List.getElem_mem hi)
      rw [← Nat.sub_add_cancel hlo]
      exact .read BookHas.steady (by decide) (by unfold Config.maxCwLen at hhi; omega) (.pure _ _)
  have hfields : denseFields lens = lens.flatMap (fun l => [(5, l - 1)]) ++ [] := by
    rw [List.append_nil, denseFields, List.map_eq_flatMap]
  rw [hfields]
  exact .check (fun _ h => h.operand) (.look (fun _ h => hP _ h.2) (.bindRead BookHas.steady hread (.last _ _)))

theorem lengthsSparse_parses (hP : ∀ b, P b → b.entries = lens.length) (hl : ∀ l ∈ lens, l ≤ Config.maxCwLen) :
    Parses (BookHas c P) (sparseFields lens) (lengthsSparse c) () (State.putLens lens) := by
  have hst := BookHas.steady (c := c) (P := P)
  have hread := Parses.collect hst
    (f := fun _ => do
      let used ← readBit
      if used = 1 then
        let v ← readBits 5
        pure (v + 1)
      else pure 0)
    (F := fun l => if l = 0 then [(1, 0)] else [(1, 1), (5, l - 1)]) (xs := lens) (lo := 0) fun i hi => by
      have hhi := hl lens[i] (List.getElem_mem hi)
      by_cases h0 : lens[i] = 0
      · rw [h0]
        exact .flag hst false (.pure _ _)
      · rw [if_neg h0]
        obtain ⟨l, hl⟩ := Nat.exists_eq_succ_of_ne_zero h0
        rw [hl] at hhi ⊢
        exact .flag hst true (.read hst (by decide) (by unfold Config.maxCwLen at hhi; simp; omega) (.pure _ _))
  rw [← List.append_nil (sparseFields lens)]
  exact .check (fun _ h => h.operand) (.look (fun _ h => hP _ h.2) (.bindRead hst hread (.last _ _)))

/-- The runs of a list, whose bound is no less than their number. -/
theorem lengthRuns_parses {pre : State → Prop} (hst : Steady pre) {entries : Nat} (he : entries < 2 ^ 24) (counts : List Nat) (fuel cur len : Nat) (acc : List Nat)
    (hfuel : counts.length ≤ fuel) (hl : runsLegal entries cur len counts = true) :
    Parses pre (runFields entries cur counts) (lengthRuns entries fuel cur len acc) (acc ++ runLens len counts) id := by
  have hw : ∀ cur, ilog (entries - cur) ≤ 24 := fun cur => ilog_le (by omega)
  have hfit : ∀ cur k, cur + k ≤ entries → k < 2 ^ ilog (entries - cur) := fun cur k h => by
    have := lt_two_pow_ilog (entries - cur)
    omega
  induction counts generalizing fuel cur len acc with
  | nil => cases hl
  | cons k ks ih =>
    obtain ⟨fuel, rfl⟩ : ∃ n, fuel = n + 1 := ⟨fuel - 1, by rw [List.length_cons] at hfuel; omega⟩
    have hrun : cur + k ≤ entries ∧ (k = 0 ∨ len ≤ Config.maxCwLen) := by
      cases ks <;> simp only [runsLegal, Bool.and_eq_true, Bool.or_eq_true, decide_eq_true_eq] at hl <;> omega
    refine .read hst (hw cur) (hfit cur k hrun.1) (.ensure hrun.1 (.ensure (by omega) ?_))
    cases ks with
    | nil =>
      simp only [runsLegal, Bool.and_eq_true, decide_eq_true_eq] at hl
      rw [if_pos hl.1.ge, runLens, runLens, List.append_nil]
      exact .pure pre _
    | cons k' ks =>
      simp only [runsLegal, Bool.and_eq_true, decide_eq_true_eq] at hl
      obtain ⟨⟨hlt, -⟩, hrest⟩ := hl
      rw [if_neg (Nat.not_le.mpr hlt), runLens, ← List.append_assoc]
      exact ih fuel (cur + k) (len + 1) _ (by rw [List.length_cons] at hfuel; omega) hrest

/-- Every run but the last has a count of at least one bit. -/
theorem length_runFields {entries cur len : Nat} {counts : List Nat} (hl : runsLegal entries cur len counts = true) :
    counts.length ≤ (fieldBits (runFields entries cur counts)).length + 1 := by
  induction counts generalizing cur len with
  | nil => exact Nat.zero_le _
  | cons k ks ih =>
    cases ks with
    | nil => simp
    | cons k' ks =>
      simp only [runsLegal, Bool.and_eq_true, decide_eq_true_eq] at hl
      obtain ⟨⟨hlt, -⟩, hrest⟩ := hl
      have hbit : 1 ≤ ilog (entries - cur) := by
        by_contra h
        have := lt_two_pow_ilog (entries - cur)
        rw [Nat.lt_one_iff.mp (Nat.lt_of_not_le h)] at this
        omega
      have hih := ih hrest
      rw [runFields, fieldBits_cons, List.length_append, length_bitsOf, List.length_cons]
      omega

theorem lengthsRunLength_parses (hP : ∀ b, P b → b.entries = lens.length) (he : lens.length < 2 ^ 24) {first : Nat} {counts : List Nat}
    (hl : (LenForm.runs first counts).legal lens = true) :
    Parses (BookHas c P) ((LenForm.runs first counts).body lens) (lengthsRunLength c) () (State.putLens lens) := by
  have hst := BookHas.steady (c := c) (P := P)
  simp only [LenForm.legal, Bool.and_eq_true, decide_eq_true_eq] at hl
  obtain ⟨⟨⟨hlo, hhi⟩, hruns⟩, hlens⟩ := hl
  refine .check (fun _ h => h.operand) (.look (fun _ h => hP _ h.2) (.read hst (by decide) (by unfold Config.maxCwLen at hhi; omega) ?_))
  intro s hv hr hs
  have hbits : (fieldBits (runFields lens.length 0 counts)).length ≤ s.bitsLeft := by
    rw [State.bitsLeft, ← State.length_ahead]
    exact hr.length_le
  have hread := lengthRuns_parses hst he counts (s.bitsLeft + 1) 0 (first - 1 + 1) [] ((length_runFields hruns).trans (Nat.succ_le_succ hbits))
    (by rwa [Nat.sub_add_cancel hlo])
  rw [M.bind_ok (M.run_read _ s), M.bind_ok (hread hv hr hs), List.nil_append, Nat.sub_add_cancel hlo, hlens]
  rfl

/-- The explicit list, from its flag on. -/
theorem lengthsExplicit_parses (hP : ∀ b, P b → b.entries = lens.length) {f : LenForm} (hf : f = .dense ∨ f = .sparse) (hl : f.legal lens = true) :
    Parses (BookHas c P) (f.body lens) (lengthsExplicit c) () (State.putLens lens) := by
  refine .check (fun _ h => h.operand) ?_
  rcases hf with rfl | rfl <;> simp only [LenForm.legal, List.all_eq_true, Bool.and_eq_true, decide_eq_true_eq] at hl
  · exact .flag BookHas.steady false (lengthsDense_parses hP hl)
  · exact .flag BookHas.steady true (lengthsSparse_parses hP hl)

/-- The list in any form, from `ordered` on. -/
theorem lengthList_parses (hP : ∀ b, P b → b.entries = lens.length) (he : lens.length < 2 ^ 24) {f : LenForm} (hl : f.legal lens = true) :
    Parses (BookHas c P) (f.fields lens) (do let ordered ← readBit; lengthList c ordered) () (State.putLens lens) := by
  cases f with
  | dense => exact .flag BookHas.steady false (lengthsExplicit_parses hP (.inl rfl) hl)
  | sparse => exact .flag BookHas.steady false (lengthsExplicit_parses hP (.inr rfl) hl)
  | runs first counts => exact .flag BookHas.steady true (lengthsRunLength_parses hP he hl)

end

/-- Settles O19: each form of the list is read turn by turn, and written once. -/
theorem lengthListsRead : Obligations.LengthListsRead := by
  intro s c f lens hv hc he hlens hl
  have hs : BookHas c (fun b => b.entries = lens.length) s := ⟨hc, he⟩
  have hP : ∀ b : Codebook, b.entries = lens.length → b.entries = lens.length := fun _ h => h
  cases f with
  | dense =>
    have hall : ∀ l ∈ lens, 1 ≤ l ∧ l ≤ Config.maxCwLen := by simpa [LenForm.legal] using hl
    exact ⟨fun hr => (lengthsDense_parses hP hall).exec hv hr hs, fun hr => (lengthsExplicit_parses hP (.inl rfl) hl).exec hv hr hs⟩
  | sparse =>
    have hall : ∀ l ∈ lens, l ≤ Config.maxCwLen := by simpa [LenForm.legal] using hl
    exact ⟨fun hr => (lengthsSparse_parses hP hall).exec hv hr hs, fun hr => (lengthsExplicit_parses hP (.inr rfl) hl).exec hv hr hs⟩
  | runs first counts => exact fun hr => (lengthsRunLength_parses hP hlens hl).exec hv hr hs

-- lookups (R200)

section

variable {c : Nat} {P : Codebook → Prop}

/-- The fields of a lookup up to `SEQ`, after a write of the entry. -/
theorem lookupFields_parses (g : Codebook → Codebook) (l : LookupForm) (hlo : 1 ≤ l.valueBits) (hhi : l.valueBits ≤ 16) :
    Parses (BookHas c P) (halfFields l.minWord ++ halfFields l.deltaWord ++ [(4, l.valueBits - 1), flagField l.seq])
      (do setCodebook c g; lookupFields c) ()
      (State.putBook c (storeLookupFields (float32Unpack l.minWord.toNat) (float32Unpack l.deltaWord.toNat) (l.valueBits - 1) l.seq ∘ g)) :=
  fun s hv hr hs => (M.bind_ok (setCodebook_run c g s)).trans (lookupFields_ok hv hs.1 (by omega) hr)

/-- The multiplicands of a lookup (R200). -/
theorem lookupMults_parses {mult : List Nat} {vb : Nat} (hvb : vb ≤ 16) (hlt : ∀ m ∈ mult, m < 2 ^ vb) (hP : ∀ b, P b → b.valueBits = vb) :
    Parses (BookHas c P) (mult.map fun m => (vb, m)) (lookupMults c mult.length) ()
      (State.putBook c fun b => { b with lookupValues := mult.length, mult := mult }) := by
  let Q : Codebook → Prop := fun b => b.valueBits = vb
  have hst := BookHas.steady (c := c) (P := Q)
  have hread := Parses.collect hst (f := fun _ => readBits vb) (F := fun m => [(vb, m)]) (xs := mult) (lo := 0) fun i hi =>
    .readField _ (by omega) (hlt _ (List.getElem_mem hi))
  have hlook : Parses (BookHas c Q) (mult.flatMap (fun m => [(vb, m)]) ++ [])
      (do
        let vb ← M.read fun s => (s.codebook c).valueBits
        let ms ← collect mult.length 0 fun _ => readBits vb
        setCodebook c fun b => { b with mult := ms }) () (State.putBook c fun b => { b with mult := mult }) :=
    .look (fun _ h => h.2) (.bindRead hst hread (.last _ _))
  rw [List.append_nil, ← List.map_eq_flatMap] at hlook
  have hrun : Parses (BookHas c P) (mult.map fun m => (vb, m)) (lookupMults c mult.length) () fun s =>
      State.putBook c (fun b => { b with mult := mult }) (State.putBook c (fun b => { b with lookupValues := mult.length }) s) :=
    .putBook hP hlook
  simpa only [State.putBook_putBook, Function.comp_def] using hrun

/-- The entry after the fields of a lookup up to `SEQ`. -/
def LookupForm.opened (l : LookupForm) (t : Nat) (b : Codebook) : Codebook :=
  storeLookupFields (float32Unpack l.minWord.toNat) (float32Unpack l.deltaWord.toNat) (l.valueBits - 1) l.seq { b with lookupType := t }

/-- A lookup, whose multiplicands are read by some work that looks at the entry. -/
theorem lookup_parses {l : LookupForm} (hl : l.legal l.mult.length = true) (t : Nat) {b₀ : Codebook} {K : Codebook → M Unit}
    (hK : K (l.opened t b₀) = lookupMults c l.mult.length) :
    Parses (BookHas c (· = b₀)) l.fields
      (do
        (do setCodebook c fun b => { b with lookupType := t }; lookupFields c)
        let b ← M.read fun s => s.codebook c
        K b) ()
      (State.putBook c (l.store t)) := by
  simp only [LookupForm.legal, Bool.and_eq_true, decide_eq_true_eq, List.all_eq_true] at hl
  obtain ⟨⟨⟨hlo, hhi⟩, -⟩, hlt⟩ := hl
  have hmults := lookupMults_parses (c := c) (P := (· = l.opened t b₀)) hhi hlt fun b hb => by
    rw [hb]
    exact Nat.sub_add_cancel hlo
  rw [← hK] at hmults
  have hlook : Parses (BookHas c (· = l.opened t b₀)) (l.mult.map fun m => (l.valueBits, m)) (do let b ← M.read fun s => s.codebook c; K b) () _ :=
    .look (fun _ h => h.2) hmults
  have hrun := (lookupFields_parses (c := c) (P := (· = b₀)) (fun b => { b with lookupType := t }) l hlo hhi).seq (.putBook c _)
    (fun _ hs => ⟨hs.1, by
      rw [State.codebook_putBook]
      exact congrArg (l.opened t) hs.2⟩) hlook
  have hstore : (fun s => State.putBook c (fun b => { b with lookupValues := l.mult.length, mult := l.mult })
      (State.putBook c (storeLookupFields (float32Unpack l.minWord.toNat) (float32Unpack l.deltaWord.toNat) (l.valueBits - 1) l.seq ∘
        fun b => { b with lookupType := t }) s)) = State.putBook c (l.store t) := by
    funext s
    rw [State.putBook_putBook]
    refine congrArg (State.putBook c · s) (funext fun b => ?_)
    simp [LookupForm.store, storeLookupFields, Nat.sub_add_cancel hlo]
  rwa [hstore] at hrun

theorem LookupForm.length_mult {l : LookupForm} {values : Nat} (hl : l.legal values = true) : l.mult.length = values := by
  simp only [LookupForm.legal, Bool.and_eq_true, decide_eq_true_eq] at hl
  exact hl.1.2

theorem lookupLattice_parses {l : LookupForm} {b : Codebook} (hd : b.dim ≠ 0) (hl : l.legal (lookup1Values b.entries b.dim) = true) :
    Parses (BookHas c (· = b)) l.fields (lookupLattice c) () (State.putBook c (l.store 1)) :=
  .check (fun _ h => h.operand) (lookup_parses (l.length_mult hl ▸ hl) 1
    (K := fun b => do M.ensure (b.dim ≠ 0) (.fault .zeroDim); lookupMults c (lookup1Values b.entries b.dim))
    (by rw [l.length_mult hl]; exact funext fun s => M.bind_ok (M.run_ensure_pos hd _ s)))

theorem lookupExplicit_parses {l : LookupForm} {b : Codebook} (hl : l.legal (b.entries * b.dim) = true) :
    Parses (BookHas c (· = b)) l.fields (lookupExplicit c) () (State.putBook c (l.store 2)) :=
  .check (fun _ h => h.operand) (lookup_parses (l.length_mult hl ▸ hl) 2 (K := fun b => lookupMults c (b.entries * b.dim))
    (by rw [l.length_mult hl]; rfl))

end

/-- Settles O20: the lookup's fields are four writes of the entry, its multiplicands two more. -/
theorem lookupsRead : Obligations.LookupsRead := by
  intro s c hc
  refine ⟨microUnit_of_ok (M.bind_ok (bookOperand_ok hc)), microUnit_of_ok (M.bind_ok (bookOperand_ok hc)),
    microUnit_of_ok (M.bind_ok (bookOperand_ok hc)), fun f hv hr => ⟨fun hd hl => ?_, fun hl => ?_⟩⟩
  · exact (lookupLattice_parses hd hl).exec hv hr ⟨hc, rfl⟩
  · exact (lookupExplicit_parses hl).exec hv hr ⟨hc, rfl⟩

-- the whole header (R191 to R204)

/-- The list and the tracker of an assignment are written. -/
def State.putScratch (lens : List Nat) (next : List (BitVec 32)) (s : State) : State := s.mapWork fun w => { w with len := lens, nextFree := next }

theorem Blind.putScratch (lens : List Nat) (next : List (BitVec 32)) : Blind (State.putScratch lens next) :=
  ⟨fun _ => rfl, fun _ => rfl, fun _ _ => rfl⟩

theorem State.putScratch_putBook (c : Nat) (g : Codebook → Codebook) (lens : List Nat) (next : List (BitVec 32)) (s : State) :
    (s.putBook c g).putScratch lens next = (s.putScratch lens next).putBook c g := rfl

/-- The list is written and its codewords are stored. -/
theorem assignCodes_run {s : State} {c : Nat} {lens : List Nat} (h : (assignFrom 0 lens).isSome = true) :
    assignCodes c (s.putLens lens) = .ok () ((s.putScratch lens (trackerOf lens)).putBook c fun b => { b with codes := codesOf lens }) := by
  obtain ⟨⟨cs, next⟩, ha⟩ := Option.isSome_iff_exists.mp h
  have hlen : (s.putLens lens).dec.work.len = lens := rfl
  rw [assignCodes, M.bind_ok (M.run_read _ _), hlen, codesOf, trackerOf, ha]
  rfl

/-- The list, from `ordered` on, and its codewords. -/
theorem lengthsAndCodes_parses {c : Nat} {lens : List Nat} {P : Codebook → Prop} (hP : ∀ b, P b → b.entries = lens.length) (he : lens.length < 2 ^ 24)
    {f : LenForm} (hl : f.legal lens = true) (ha : (assignFrom 0 lens).isSome = true) :
    Parses (BookHas c P) (f.fields lens)
      (do
        (do let ordered ← readBit; lengthList c ordered)
        assignCodes c) ()
      fun s => (s.putScratch lens (trackerOf lens)).putBook c fun b => { b with codes := codesOf lens } := fun s hv hr hs => by
  rw [M.bind_ok (lengthList_parses hP he hl hv hr hs), assignCodes_run ha]

/-- The entry before its lookup part. -/
def CodebookForm.listed (f : CodebookForm) (b : Codebook) : Codebook := { b with dim := f.dim, entries := f.lens.length, codes := codesOf f.lens }

/-- The lookup part, from its type on, of an entry that holds the rest of the header. -/
theorem lookupPart_parses {c : Nat} {f : CodebookForm} (hl : f.legal = true) (b : Codebook) :
    Parses (BookHas c (· = f.listed b)) f.lookupFields (lookupPart c) () (State.putBook c f.store) := by
  simp only [CodebookForm.legal, Bool.and_eq_true] at hl
  have hlook := hl.2
  have hstore : ∀ {g : Codebook → Codebook}, g (f.listed b) = f.store b → ∀ s, BookHas c (· = f.listed b) s → s.putBook c g = s.putBook c f.store :=
    fun hg s hs => State.putBook_congr (by rw [hs.2, hg]; rfl)
  rcases hf : f.lookup with _ | ⟨_ | _, l⟩ <;> rw [hf] at hlook <;> rw [CodebookForm.lookupFields, hf]
  · refine .congr BookHas.steady (hstore (g := fun b => { b with lookupType := 0 }) (by rw [CodebookForm.store, hf]; rfl)) ?_
    exact .read BookHas.steady (by decide) (by decide) (.check (fun _ h => h.operand) (.last _ _))
  · simp only [Bool.and_eq_true, Bool.false_or, decide_eq_true_eq] at hlook
    refine .congr BookHas.steady (hstore (g := l.store 1) (by rw [CodebookForm.store, hf]; rfl)) ?_
    exact .read BookHas.steady (by decide) (by decide) (lookupLattice_parses hlook.1 hlook.2)
  · simp only [Bool.and_eq_true, Bool.true_or] at hlook
    refine .congr BookHas.steady (hstore (g := l.store 2) (by rw [CodebookForm.store, hf]; rfl)) ?_
    exact .read BookHas.steady (by decide) (by decide) (lookupExplicit_parses hlook.2)

/-- `CB_SETUP` on the fields of a legal header. -/
theorem codebookSetup_parses {c : Nat} {f : CodebookForm} (hl : f.legal = true) :
    Parses (fun s => c < s.dec.counts.nCodebooks) f.fields (codebookSetup c) ()
      fun s => (s.putBook c f.store).putScratch f.lens (trackerOf f.lens) := by
  intro s hv hr hc
  have hlook := lookupPart_parses (c := c) hl (s.codebook c)
  have hform := hl
  simp only [CodebookForm.legal, Bool.and_eq_true, decide_eq_true_eq] at hform
  obtain ⟨⟨⟨⟨hdim, hlens⟩, hlf⟩, ha⟩, -⟩ := hform
  have hcodes := lengthsAndCodes_parses (c := c) (P := (· = { s.codebook c with dim := f.dim, entries := f.lens.length })) (fun b hb => by rw [hb]) hlens hlf ha
  have hrest := hcodes.seq ((Blind.putBook c _).comp (.putScratch _ _)) (fun _ hs => ⟨hs.1, by
    rw [State.codebook_putBook]
    exact congrArg (fun b : Codebook => { b with codes := codesOf f.lens }) hs.2⟩) hlook
  have hst := BookHas.steady (c := c) (P := (· = s.codebook c))
  have hst' := BookHas.steady (c := c) (P := (· = { s.codebook c with dim := f.dim }))
  have hrun : Parses (BookHas c (· = s.codebook c)) f.fields (codebookSetup c) () _ :=
    .check (fun _ h => h.operand) (.read hst (by decide) (by decide) (.ensure rfl (.read hst (by decide) hdim
      (.putBook (fun _ hb => by rw [hb]) (.read hst' (by decide) hlens
        (.putBook (fun _ hb => by rw [hb]) hrest.assoc.assoc))))))
  rw [hrun hv hr ⟨hc, rfl⟩]
  simp only [State.putScratch_putBook, State.putBook_putBook]
  rfl

/-- Settles O18: the fields of the header in order, each stored as it is read. -/
theorem codebookSetupStores : Obligations.CodebookSetupStores := fun _ _ _ hv hc hl hr => (codebookSetup_parses hl).exec hv hr hc

end Sys2Proof.Machine
end

section
/-! PROOF. The floor header (42_floor R231 to R239): what `FL_SETUP` stores, and where it stops. -/

namespace Sys2Proof.Machine

section

variable {pre : State → Prop} (hst : Steady pre) {n : Nat} (hn : ∀ s, pre s → s.dec.counts.nCodebooks = n)

-- sub-books and classes (R233)

include hn in
theorem floorBookCheck_passes {b : Nat} (hb : b < n) : ∀ s, pre s → floorBookCheck b s = .ok () s := fun s hs => by
  rw [floorBookCheck, M.run_ensure_pos (by rwa [hn s hs])]

include hn in
theorem floorBookCheck_stops {b : Nat} (hb : n ≤ b) : Stops pre [] (floorBookCheck b) (.fault .floorBook) := fun s _ _ hs =>
  ⟨s, M.run_ensure_neg (by rw [hn s hs]; exact Nat.not_lt.mpr hb) _ s⟩

include hst hn

theorem readSubbook_parses (b : Option Nat) (hb : ∀ k ∈ b, k < n ∧ k < 255) : Parses pre [bookField b] readSubbook b id := by
  cases b with
  | none => exact .read hst (by decide) (by decide) (.pure _ _)
  | some k =>
    obtain ⟨hkn, hk⟩ := hb k rfl
    exact .read hst (by decide) (show k + 1 < 2 ^ 8 by omega) (.check (floorBookCheck_passes hn hkn) (.pure _ _))

/-- A sub-book that does not exist is fault U11 (R238). -/
theorem readSubbook_stops {b : Nat} (hb : n ≤ b) (hw : b < 255) : Stops pre [(8, b + 1)] readSubbook (.fault .floorBook) :=
  .read hst (by decide) (by omega) ((floorBookCheck_stops hn hb).head _)

theorem subbooks_parses {k : Nat} {sb : List (Option Nat)} (hk : sb.length = k) (hb : ∀ o ∈ sb, ∀ k ∈ o, k < n ∧ k < 255) :
    Parses pre (sb.map bookField) (collect k 0 fun _ => readSubbook) sb id := by
  subst hk
  rw [List.map_eq_flatMap]
  exact .collect hst fun i hi => readSubbook_parses hst hn _ (hb _ (List.getElem_mem hi))

/-- The sub-book after the ones that exist does not. -/
theorem subbooks_stops {k b : Nat} {sb : List (Option Nat)} (hk : sb.length < k) (hsb : ∀ o ∈ sb, ∀ k ∈ o, k < n ∧ k < 255) (hb : n ≤ b) (hw : b < 255) :
    Stops pre (sb.map bookField ++ [(8, b + 1)]) (collect k 0 fun _ => readSubbook) (.fault .floorBook) := by
  rw [List.map_eq_flatMap]
  exact .collectMap (v := id) hst hk (fun i hi => readSubbook_parses hst hn _ (hsb _ (List.getElem_mem hi))) (readSubbook_stops hst hn hb hw)

theorem readFloorClass_parses {c : FloorClass} (hc : c.legal n = true) : Parses pre c.fields readFloorClass c id := by
  simp only [FloorClass.legal, Bool.and_eq_true, and_assoc, decide_eq_true_eq, List.all_eq_true] at hc
  obtain ⟨hlo, hhi, hexp, hlen, hmaster, hbooks⟩ := hc
  have hsub := subbooks_parses hst hn hlen fun o ho k hk => by
    have := hbooks o ho
    rw [Option.mem_def.mp hk] at this
    simpa using this
  obtain ⟨d, e, m, sb⟩ := c
  have hd : d - 1 + 1 = d := Nat.sub_add_cancel hlo
  rw [FloorClass.fields, List.append_assoc, ← List.append_nil (List.map _ _), List.cons_append, List.cons_append, List.nil_append]
  refine .read hst (by decide) (by omega) (.read hst (by decide) (by omega) ?_)
  dsimp only at hmaster hsub ⊢
  rw [hd]
  split
  next he =>
    simp only [if_pos he, Bool.and_eq_true, decide_eq_true_eq] at hmaster
    rw [List.singleton_append]
    refine .read hst (by decide) hmaster.2 (.check (floorBookCheck_passes hn hmaster.1) ?_)
    exact .bindRead hst hsub (.pure _ _)
  next he =>
    have hm : m = 0 := by simpa [he] using hmaster
    rw [List.nil_append, hm]
    exact .bindRead hst hsub (.pure _ _)

/-- A master book that does not exist is fault U11 (R238). -/
theorem readFloorClass_stops_master {d e m : Nat} (hlo : 1 ≤ d) (hhi : d ≤ 8) (he : e < 4) (hm : m < 256) (hpos : 0 < e) (hbad : n ≤ m) :
    Stops pre [(3, d - 1), (2, e), (8, m)] readFloorClass (.fault .floorBook) := by
  refine .read hst (by decide) (by omega) (.read hst (by decide) (by omega) ?_)
  rw [if_pos hpos]
  exact .read hst (by decide) hm ((floorBookCheck_stops hn hbad).head _)

theorem readFloorClass_stops_subbook {d e m b : Nat} {sb : List (Option Nat)} (hlo : 1 ≤ d) (hhi : d ≤ 8) (he : e < 4) (hm : m < 256)
    (hmaster : 0 < e → m < n) (hlen : sb.length < 2 ^ e) (hsb : ∀ o ∈ sb, ∀ k ∈ o, k < n ∧ k < 255) (hbad : n ≤ b) (hb : b < 255) :
    Stops pre ([(3, d - 1), (2, e)] ++ (if 0 < e then [(8, m)] else []) ++ sb.map bookField ++ [(8, b + 1)]) readFloorClass (.fault .floorBook) := by
  have hsub := subbooks_stops hst hn hlen hsb hbad hb
  rw [List.append_assoc, List.append_assoc]
  refine .read hst (by decide) (by omega) (.read hst (by decide) (by omega) ?_)
  split
  next hpos => exact .read hst (by decide) hm (.check (floorBookCheck_passes hn (hmaster hpos)) (hsub.head _))
  next => exact hsub.head _

omit hn

-- X values (R235)

theorem readXs_parses {rb : Nat} (hrb : rb ≤ 24) {xs acc : List Nat} (hx : ∀ x ∈ xs, x < 2 ^ rb) (hlen : acc.length + xs.length ≤ Config.floorMaxValues) :
    Parses pre (xs.map fun x => (rb, x)) (readXs rb xs.length acc) (acc ++ xs) id := by
  induction xs generalizing acc with
  | nil =>
    rw [List.append_nil]
    exact .pure pre acc
  | cons x xs ih =>
    rw [List.length_cons] at hlen
    refine .ensure (by omega) (.read hst hrb (hx x List.mem_cons_self) ?_)
    rw [List.append_cons acc x xs]
    exact ih (acc := acc ++ [x]) (fun y hy => hx y (List.mem_cons_of_mem _ hy)) (by rw [List.length_append, List.length_singleton]; omega)

/-- The 66th value is fault U12 (R235). -/
theorem readXs_stops {rb k : Nat} (hrb : rb ≤ 24) {xs acc : List Nat} (hx : ∀ x ∈ xs, x < 2 ^ rb) (hlen : acc.length + xs.length = Config.floorMaxValues)
    (hk : xs.length < k) : Stops pre (xs.map fun x => (rb, x)) (readXs rb k acc) (.fault .floorTooManyX) := by
  induction xs generalizing acc k with
  | nil =>
    obtain ⟨k, rfl⟩ := Nat.exists_eq_succ_of_ne_zero hk.ne'
    exact (Stops.failing pre (not_not.mpr hlen)).head _
  | cons x xs ih =>
    rw [List.length_cons] at hlen hk
    obtain ⟨k, rfl⟩ := Nat.exists_eq_succ_of_ne_zero (Nat.ne_of_gt (Nat.zero_lt_of_lt hk))
    exact .ensure (show acc.length ≠ 65 by unfold Config.floorMaxValues at hlen; omega) (.read hst hrb (hx x List.mem_cons_self)
      (ih (fun y hy => hx y (List.mem_cons_of_mem _ hy)) (by rw [List.length_append, List.length_singleton]; omega) (Nat.lt_of_succ_lt_succ hk)))

theorem readPartitionXs_parses {rb : Nat} (hrb : rb ≤ 24) {classes : List FloorClass} {ks xs acc : List Nat} (hx : ∀ x ∈ xs, x < 2 ^ rb)
    (hlen : acc.length + xs.length ≤ Config.floorMaxValues) (hsum : xs.length = (ks.map fun k => (aget classes k).dim).sum) :
    Parses pre (xs.map fun x => (rb, x)) (readPartitionXs rb classes ks acc) (acc ++ xs) id := by
  induction ks generalizing xs acc with
  | nil =>
    rw [List.length_eq_zero_iff.mp hsum, List.append_nil]
    exact .pure pre acc
  | cons k ks ih =>
    rw [List.map_cons, List.sum_cons] at hsum
    obtain ⟨ys, zs, rfl, hys⟩ : ∃ ys zs, xs = ys ++ zs ∧ ys.length = (aget classes k).dim :=
      ⟨_, _, (List.take_append_drop (aget classes k).dim xs).symm, List.length_take_of_le (by omega)⟩
    rw [List.length_append] at hsum hlen
    rw [List.map_append, ← List.append_assoc, readPartitionXs, ← hys]
    exact .bindRead hst (readXs_parses hst hrb (fun x h => hx x (List.mem_append_left _ h)) (by omega))
      (ih (fun x h => hx x (List.mem_append_right _ h)) (by rw [List.length_append]; omega) (by omega))

theorem readPartitionXs_stops {rb : Nat} (hrb : rb ≤ 24) {classes : List FloorClass} {ks xs acc : List Nat} (hx : ∀ x ∈ xs, x < 2 ^ rb)
    (hlen : acc.length + xs.length = Config.floorMaxValues) (hsum : xs.length < (ks.map fun k => (aget classes k).dim).sum) :
    Stops pre (xs.map fun x => (rb, x)) (readPartitionXs rb classes ks acc) (.fault .floorTooManyX) := by
  induction ks generalizing xs acc with
  | nil => exact absurd hsum (Nat.not_lt_zero _)
  | cons k ks ih =>
    rw [List.map_cons, List.sum_cons] at hsum
    rcases Nat.lt_or_ge xs.length (aget classes k).dim with hlt | hge
    · exact (readXs_stops hst hrb hx hlen hlt).head _
    · obtain ⟨ys, zs, rfl, hys⟩ : ∃ ys zs, xs = ys ++ zs ∧ ys.length = (aget classes k).dim :=
        ⟨_, _, (List.take_append_drop (aget classes k).dim xs).symm, List.length_take_of_le hge⟩
      rw [List.length_append] at hsum hlen
      rw [List.map_append, readPartitionXs, ← hys]
      exact .afterRead hst (readXs_parses hst hrb (fun x h => hx x (List.mem_append_left _ h)) (by omega))
        (ih (fun x h => hx x (List.mem_append_right _ h)) (by rw [List.length_append]; omega) (by omega))

end

theorem lt_classCount {k : Nat} {pc : List Nat} (hk : k ∈ pc) : k < classCount pc := by
  have hmono : ∀ (l : List Nat) (a b : Nat), a ≤ b → a ≤ l.foldl (fun n c => max n (c + 1)) b := fun l => by
    induction l with
    | nil => exact fun _ _ h => h
    | cons c l ih => exact fun a b h => ih a _ (h.trans (Nat.le_max_left _ _))
  obtain ⟨l, r, rfl⟩ := List.append_of_mem hk
  rw [classCount, List.foldl_append]
  exact hmono r (k + 1) _ (Nat.le_max_right _ _)

theorem distinct_eq_true {xs : List Nat} : distinct xs = true ↔ xs.Nodup := by
  induction xs with
  | nil => simp [distinct]
  | cons x xs ih => simp [distinct, ih]

/-- Floor `f` exists, and there are `n` codebooks. -/
def FloorIn (f n : Nat) (s : State) : Prop := f < s.dec.counts.nFloors ∧ s.dec.counts.nCodebooks = n

section

variable {f n : Nat}

theorem FloorIn.steady : Steady (FloorIn f n) := fun _ _ h => h

theorem FloorIn.operand (s : State) (h : FloorIn f n s) : floorOperand f s = .ok () s := M.run_ensure_pos h.1 _ s

theorem FloorIn.books (s : State) (h : FloorIn f n s) : s.dec.counts.nCodebooks = n := h.2

/-- The state in which one floor entry has been written. -/
def State.putFloor (f : Nat) (fl : Floor) (s : State) : State := s.mapTabs fun t => { t with fl := aset t.fl f fl }

theorem partClass_parses {pc : List Nat} (hpc : ∀ k ∈ pc, k < 16) :
    Parses (FloorIn f n) (pc.map fun k => (4, k)) (collect pc.length 0 fun _ => readBits 4) pc id := by
  rw [List.map_eq_flatMap]
  exact .collect FloorIn.steady fun i hi => .readField _ (by decide) (hpc _ (List.getElem_mem hi))

theorem classes_parses {k : Nat} {cs : List FloorClass} (hk : cs.length = k) (hcs : cs.all (FloorClass.legal n) = true) :
    Parses (FloorIn f n) (cs.flatMap FloorClass.fields) (collect k 0 fun _ => readFloorClass) cs id := by
  subst hk
  exact .collect FloorIn.steady fun i hi => readFloorClass_parses FloorIn.steady FloorIn.books (List.all_eq_true.mp hcs _ (List.getElem_mem hi))

/-- The floor body on the fields of a legal floor. -/
theorem floorBody_parses {fl : Floor} (hl : fl.legal n = true) : Parses (FloorIn f n) fl.fields (floorBody f) () (State.putFloor f fl) := by
  have hst := FloorIn.steady (f := f) (n := n)
  simp only [Floor.legal, Bool.and_eq_true, and_assoc, decide_eq_true_eq, List.all_eq_true] at hl
  obtain ⟨hparts, hle, hpc, hcount, hclasses, hmlo, hmhi, hrange, hrb, htake, hlen, hmax, hxs, hdist, hsort⟩ := hl
  have hdrop : fl.xs = [0, 2 ^ fl.rangebits] ++ fl.xs.drop 2 := by rw [← htake, List.take_append_drop]
  have hread : Parses (FloorIn f n) ((fl.xs.drop 2).map fun x => (fl.rangebits, x))
      (readPartitionXs fl.rangebits fl.classes fl.partClass [0, 2 ^ fl.rangebits]) fl.xs id := by
    have := readPartitionXs_parses hst (rb := fl.rangebits) (classes := fl.classes) (ks := fl.partClass) (acc := [0, 2 ^ fl.rangebits]) (by omega) hxs
      (by rw [List.length_drop]; simp only [List.length_cons, List.length_nil]; omega) (by rw [List.length_drop, hlen]; exact Nat.add_sub_cancel_left _ _)
    rwa [← hdrop] at this
  have hm : fl.mult - 1 + 1 = fl.mult := Nat.sub_add_cancel hmlo
  have hfields : fl.fields = (5, fl.partClass.length) :: (fl.partClass.map (fun k => (4, k)) ++ (fl.classes.flatMap FloorClass.fields ++
      ((2, fl.mult - 1) :: (4, fl.rangebits) :: (((fl.xs.drop 2).map fun x => (fl.rangebits, x)) ++ [])))) := by
    simp [Floor.fields]
  rw [hfields]
  refine .check FloorIn.operand (.read hst (by decide) (by omega) (.bindRead hst (partClass_parses fun k hk => by simpa using hpc k hk)
    (.bindRead hst (classes_parses hcount (List.all_eq_true.mpr hclasses)) (.read hst (by decide) (by omega) (.read hst (by decide) (by omega)
      (.bindRead hst hread (.ensure hdist ?_)))))))
  rw [hm, ← hsort, ← hrange, ← hparts]
  exact .last _ _

end

/-- Settles O29: the floor is written once, after its last field. -/
theorem floorSetupStores : Obligations.FloorSetupStores := fun _ f _ hv hf hl =>
  have hbody := floorBody_parses (f := f) hl
  ⟨fun hr => hbody.exec hv hr ⟨hf, rfl⟩, fun hr => Parses.exec (m := floorSetup f)
    (.check FloorIn.operand (.read FloorIn.steady (by decide) (by decide) hbody)) hv hr ⟨hf, rfl⟩⟩

-- where it stops (R235, R238)

section

variable {f n : Nat} {pc : List Nat} {cs : List FloorClass}

/-- A class after the classes `cs` stops the floor. -/
theorem floorBody_stops_class (hlen : pc.length < 32) (hpc : ∀ k ∈ pc, k < 16) (hcs : cs.all (FloorClass.legal n) = true) (hmore : ∃ k ∈ pc, cs.length ≤ k)
    {fs : List (Nat × Nat)} {x : Stop} (hstop : Stops (FloorIn f n) fs readFloorClass x) : Stops (FloorIn f n) (floorHead pc cs ++ fs) (floorBody f) x := by
  have hst := FloorIn.steady (f := f) (n := n)
  obtain ⟨k, hk, hle⟩ := hmore
  rw [floorHead, List.append_assoc]
  exact .check FloorIn.operand (.read hst (by decide) (by omega) (.afterRead hst (partClass_parses hpc)
    ((Stops.collectMap (v := id) hst (hle.trans_lt (lt_classCount hk))
      (fun i hi => readFloorClass_parses hst FloorIn.books (List.all_eq_true.mp hcs _ (List.getElem_mem hi))) hstop).head _)))

/-- The floor body after its classes (R234 to R239). -/
def floorRest (f : Nat) (pc : List Nat) (cs : List FloorClass) : M Unit := do
  let m ← readBits 2
  let rb ← readBits 4
  let xs ← readPartitionXs rb cs pc [0, 2 ^ rb]
  M.ensure (distinct xs = true) (.fault .floorEqualX)
  setFloor f fun _ =>
    { partitions := pc.length, partClass := pc, classes := cs, mult := m + 1, range := rangeOf m, rangebits := rb, xs := xs, sort := sortPositions xs }

/-- What stops after the classes stops the floor. -/
theorem floorBody_stops_rest (hlen : pc.length < 32) (hpc : ∀ k ∈ pc, k < 16) (hcs : cs.all (FloorClass.legal n) = true) (hcount : cs.length = classCount pc)
    {fs : List (Nat × Nat)} {x : Stop} (hstop : Stops (FloorIn f n) fs (floorRest f pc cs) x) : Stops (FloorIn f n) (floorHead pc cs ++ fs) (floorBody f) x := by
  have hst := FloorIn.steady (f := f) (n := n)
  rw [floorHead, List.append_assoc]
  exact .check FloorIn.operand (.read hst (by decide) (by omega) (.afterRead hst (partClass_parses hpc) (.afterRead hst (classes_parses hcount hcs) hstop)))

variable {mf rb : Nat} {xs : List Nat}

/-- More than 63 X values beside the two bounds are fault U12 (R235). -/
theorem floorRest_stops_tooMany (hmf : mf < 4) (hrb : rb < 16) (hxs : ∀ x ∈ xs, x < 2 ^ rb) (hlen : xs.length = 63)
    (hsum : 63 < (pc.map fun k => (aget cs k).dim).sum) :
    Stops (FloorIn f n) ((2, mf) :: (4, rb) :: xs.map fun x => (rb, x)) (floorRest f pc cs) (.fault .floorTooManyX) :=
  .read FloorIn.steady (by decide) (by omega) (.read FloorIn.steady (by decide) (by omega)
    ((readPartitionXs_stops FloorIn.steady (by omega) hxs (by rw [hlen]; rfl) (by rwa [hlen])).head _))

/-- Two equal X values are fault U13 (R238). -/
theorem floorRest_stops_equal (hmf : mf < 4) (hrb : rb < 16) (hxs : ∀ x ∈ xs, x < 2 ^ rb) (hlen : xs.length ≤ 63)
    (hsum : xs.length = (pc.map fun k => (aget cs k).dim).sum) (hdup : ¬(0 :: 2 ^ rb :: xs).Nodup) :
    Stops (FloorIn f n) ((2, mf) :: (4, rb) :: xs.map fun x => (rb, x)) (floorRest f pc cs) (.fault .floorEqualX) := by
  have hread := readPartitionXs_parses (FloorIn.steady (f := f) (n := n)) (rb := rb) (classes := cs) (ks := pc) (acc := [0, 2 ^ rb]) (by omega) hxs
    (show 2 + xs.length ≤ 65 by omega) hsum
  rw [← List.append_nil (xs.map _)]
  exact .read FloorIn.steady (by decide) (by omega) (.read FloorIn.steady (by decide) (by omega)
    (.afterRead FloorIn.steady hread ((Stops.failing _ (mt distinct_eq_true.mp hdup)).head _)))

/-- What stops the floor body stops both ways to issue it. -/
theorem floor_stops {fs : List (Nat × Nat)} {x : Fault} (hstop : Stops (FloorIn f n) fs (floorBody f) (.fault x)) {s : State} (hv : s.dec.bits.Valid)
    (hs : FloorIn f n s) : (s.Reads ((16, 1) :: fs) → exec (.flSetup f) s = .fault x) ∧ (s.Reads fs → exec (.floorType1 f) s = .fault x) :=
  ⟨fun hr => Stops.fault (m := floorSetup f) (.check FloorIn.operand (.read FloorIn.steady (by decide) (by decide) hstop)) hv hr hs,
    fun hr => hstop.fault hv hr hs⟩

end

/-- U11, U12 and U13, after the classes `cs`. -/
theorem floorFaults {s : State} {f : Nat} {pc : List Nat} {cs : List FloorClass} (hv : s.dec.bits.Valid) (hf : f < s.dec.counts.nFloors)
    (hlen : pc.length < 32) (hpc : ∀ k ∈ pc, k < 16) (hcs : cs.all (FloorClass.legal s.dec.counts.nCodebooks) = true) :
    let stops := fun (fs : List (Nat × Nat)) (x : Fault) =>
      (s.Reads ((16, 1) :: floorHead pc cs ++ fs) → exec (.flSetup f) s = .fault x) ∧ (s.Reads (floorHead pc cs ++ fs) → exec (.floorType1 f) s = .fault x)
    (∀ d e m : Nat, (∃ k ∈ pc, cs.length ≤ k) → 1 ≤ d → d ≤ 8 → e < 4 → m < 256 →
      (0 < e → s.dec.counts.nCodebooks ≤ m → stops [(3, d - 1), (2, e), (8, m)] .floorBook) ∧
        ∀ (sb : List (Option Nat)) (b : Nat), (0 < e → m < s.dec.counts.nCodebooks) → sb.length < 2 ^ e →
          (∀ o ∈ sb, ∀ k ∈ o, k < s.dec.counts.nCodebooks ∧ k < 255) → s.dec.counts.nCodebooks ≤ b → b < 255 →
            stops ([(3, d - 1), (2, e)] ++ (if 0 < e then [(8, m)] else []) ++ sb.map bookField ++ [(8, b + 1)]) .floorBook) ∧
    ∀ (mf rb : Nat) (xs : List Nat), cs.length = classCount pc → mf < 4 → rb < 16 → (∀ x ∈ xs, x < 2 ^ rb) →
      (xs.length = 63 → 63 < (pc.map fun k => (aget cs k).dim).sum → stops ((2, mf) :: (4, rb) :: xs.map fun x => (rb, x)) .floorTooManyX) ∧
        (xs.length ≤ 63 → xs.length = (pc.map fun k => (aget cs k).dim).sum → ¬(0 :: 2 ^ rb :: xs).Nodup →
          stops ((2, mf) :: (4, rb) :: xs.map fun x => (rb, x)) .floorEqualX) := by
  have hs : FloorIn f s.dec.counts.nCodebooks s := ⟨hf, rfl⟩
  refine ⟨fun d e m hmore hdlo hdhi he hm => ⟨fun hpos hbad => ?_, fun sb b hmaster hsbl hsb hbad hb => ?_⟩, fun mf rb xs hcount hmf hrb hxs => ⟨fun hl hsum => ?_,
    fun hl hsum hdup => ?_⟩⟩
  · exact floor_stops (floorBody_stops_class hlen hpc hcs hmore (readFloorClass_stops_master FloorIn.steady FloorIn.books hdlo hdhi he hm hpos hbad)) hv hs
  · exact floor_stops (floorBody_stops_class hlen hpc hcs hmore
      (readFloorClass_stops_subbook FloorIn.steady FloorIn.books hdlo hdhi he hm hmaster hsbl hsb hbad hb)) hv hs
  · exact floor_stops (floorBody_stops_rest hlen hpc hcs hcount (floorRest_stops_tooMany hmf hrb hxs hl hsum)) hv hs
  · exact floor_stops (floorBody_stops_rest hlen hpc hcs hcount (floorRest_stops_equal hmf hrb hxs hl hsum hdup)) hv hs

end Sys2Proof.Machine
end

section
/-! PROOF. The residue header (43_residue R271 to R275): what `RS_SETUP` stores, and where it stops. -/

namespace Sys2Proof.Machine

/-- The residue that the fields after the type stand for, before it is checked (R272 to R274). -/
def residueRead (t : Nat) : M Residue := do
  let b ← readBits 24
  let e ← readBits 24
  let p ← readBits 24
  let nc ← readBits 6
  let cbk ← readBits 8
  let cascade ← collect (nc + 1) 0 fun _ => readCascade
  let books ← collect (nc + 1) 0 fun k => collect Config.nPasses 0 fun pass => readBook (aget cascade k) pass
  pure { rtype := t, beginPos := b, endPos := e, partSize := p + 1, nclass := nc + 1, classbook := cbk, cascade := cascade, books := books }

/-- The checks of a residue, in their order, and its storing (R275). -/
def residueStore (r : Nat) (rs : Residue) : M Unit := do
  let n ← M.read fun s => s.dec.counts.nCodebooks
  M.ensure (rs.classbook < n ∧ booksBelow n rs.books = true) (.fault .residueBook)
  let dim ← M.read fun s => (s.codebook rs.classbook).dim
  M.ensure (dim ≠ 0) (.fault .zeroDim)
  M.ensure (rs.beginPos ≤ rs.endPos) (.fault .residueRange)
  let looked ← M.read fun s => s.booksLookUp rs.books
  M.ensure (looked = true) (.fault .vectorWithoutLookup)
  setResidue r fun _ => rs

theorem M.pure_bind {α β : Type} (a : α) (f : α → M β) : (pure a : M α) >>= f = f a := rfl

theorem residueBody_eq (r t : Nat) : residueBody r t = (do residueOperand r; let rs ← residueRead t; residueStore r rs) := by
  simp only [residueRead, M.bind_assoc, M.pure_bind]
  rfl

section

variable {pre : State → Prop} (hst : Steady pre)

include hst

-- cascades and books (R273, R274)

theorem readCascade_parses {p : Nat × Bool} (hp : (if p.2 then p.1 < 256 else p.1 < 8) = true) : Parses pre (cascadeFields p) readCascade p.1 id := by
  obtain ⟨v, b⟩ := p
  cases b with
  | false =>
    have hv : v < 8 := by simpa using hp
    exact .read hst (by decide) (Nat.mod_lt _ (by decide)) (.flag hst false (.bindRead hst (.pure _ 0) (.pure_of_eq _ (by omega))))
  | true =>
    have hv : v < 256 := by simpa using hp
    exact .read hst (by decide) (Nat.mod_lt _ (by decide)) (.flag hst true (.read hst (by decide) (by omega) (.pure_of_eq _ (by omega))))

theorem readBook_parses {cascade pass : Nat} {b : Option Nat}
    (hb : (match b with
      | none => !bitOf cascade pass
      | some k => bitOf cascade pass && k < 256 && k < 256) = true) :
    Parses pre (b.map fun k => (8, k)).toList (readBook cascade pass) b id := by
  cases b with
  | none =>
    have hbit : ¬bitOf cascade pass = true := by simpa using hb
    rw [readBook, if_neg hbit]
    exact .pure _ _
  | some k =>
    simp only [Bool.and_eq_true, decide_eq_true_eq] at hb
    rw [readBook, if_pos hb.1.1]
    exact .read hst (by decide) hb.2 (.pure _ _)

theorem bookRow_parses {cascade : Nat} {row : List (Option Nat)} (hrow : bookRowLegal 256 (cascade, row) = true) :
    Parses pre (bookRowFields row) (collect Config.nPasses 0 fun pass => readBook cascade pass) row id := by
  simp only [bookRowLegal, Bool.and_eq_true, decide_eq_true_eq, List.all_eq_true, List.mem_range] at hrow
  obtain ⟨hlen, hbits⟩ := hrow
  rw [bookRowFields, List.filterMap_eq_flatMap_toList, ← hlen]
  refine .collect hst fun i hi => ?_
  have hbook := hbits i (hlen ▸ hi)
  rw [aget_of_lt hi] at hbook
  rw [Nat.zero_add]
  exact readBook_parses hst hbook

theorem residueRead_parses {rs : Residue} {flags : List Bool} (hl : rs.readable flags = true) :
    Parses pre (rs.fields flags) (residueRead rs.rtype) rs id := by
  simp only [Residue.readable, Residue.legal, Bool.and_eq_true, and_assoc, decide_eq_true_eq] at hl
  obtain ⟨-, -, hend, hplo, hphi, hclo, hchi, -, -, hcas, hflags, hbooks, hcascades, hrows, hbegin, hcb⟩ := hl
  have hzip : (rs.cascade.zip flags).length = rs.nclass := by rw [List.length_zip, hcas, hflags, Nat.min_self]
  have hcascade : Parses pre ((rs.cascade.zip flags).flatMap cascadeFields) (collect rs.nclass 0 fun _ => readCascade) rs.cascade id := by
    have h := Parses.collectMap hst (f := fun _ => readCascade) (F := cascadeFields) (v := Prod.fst) (ys := rs.cascade.zip flags) (lo := 0)
      fun i hi => readCascade_parses hst (by simpa using List.all_eq_true.mp hcascades _ (List.getElem_mem hi))
    rwa [hzip, List.map_fst_zip (by rw [hcas, hflags])] at h
  have hread : Parses pre (rs.books.flatMap bookRowFields)
      (collect rs.nclass 0 fun k => collect Config.nPasses 0 fun pass => readBook (aget rs.cascade k) pass) rs.books id := by
    rw [← hbooks]
    refine .collect hst fun i hi => bookRow_parses hst ?_
    have hi' : i < (rs.cascade.zip rs.books).length := by rw [List.length_zip, hcas, hbooks, Nat.min_self]; exact hbooks ▸ hi
    rw [Nat.zero_add, aget_of_lt (by omega)]
    simpa using List.all_eq_true.mp hrows _ (List.getElem_mem hi')
  have hc : rs.nclass - 1 + 1 = rs.nclass := Nat.sub_add_cancel hclo
  have hp : rs.partSize - 1 + 1 = rs.partSize := Nat.sub_add_cancel hplo
  rw [Residue.fields, List.append_assoc, ← List.append_nil (rs.books.flatMap _)]
  simp only [List.cons_append, List.nil_append]
  refine .read hst (by decide) hbegin (.read hst (by decide) hend (.read hst (by decide) (by omega) (.read hst (by decide) (by omega)
    (.read hst (by decide) hcb ?_))))
  rw [hc, hp]
  exact .bindRead hst hcascade (.bindRead hst hread (.pure _ _))

end

/-- The checks of residue `r` let `rs` pass. -/
def ResidueFits (r : Nat) (rs : Residue) (s : State) : Prop :=
  r < s.dec.counts.nResidues ∧ (rs.classbook < s.dec.counts.nCodebooks ∧ booksBelow s.dec.counts.nCodebooks rs.books = true) ∧
    (s.codebook rs.classbook).dim ≠ 0 ∧ rs.beginPos ≤ rs.endPos ∧ s.booksLookUp rs.books = true

/-- The checks of residue `r` stop on `rs` with `x`: the first that fails decides (U15, U9, U18, U16). -/
def ResidueRefused (r : Nat) (rs : Residue) (x : Fault) (s : State) : Prop :=
  r < s.dec.counts.nResidues ∧
    (¬(rs.classbook < s.dec.counts.nCodebooks ∧ booksBelow s.dec.counts.nCodebooks rs.books = true) ∧ x = .residueBook ∨
      (rs.classbook < s.dec.counts.nCodebooks ∧ booksBelow s.dec.counts.nCodebooks rs.books = true) ∧
        ((s.codebook rs.classbook).dim = 0 ∧ x = .zeroDim ∨
          (s.codebook rs.classbook).dim ≠ 0 ∧
            (¬rs.beginPos ≤ rs.endPos ∧ x = .residueRange ∨ rs.beginPos ≤ rs.endPos ∧ s.booksLookUp rs.books ≠ true ∧ x = .vectorWithoutLookup)))

section

variable {r : Nat} {rs : Residue} {x : Fault} {flags : List Bool} {s : State}

theorem ResidueFits.steady : Steady (ResidueFits r rs) := fun _ _ h => h

theorem ResidueRefused.steady : Steady (ResidueRefused r rs x) := fun _ _ h => h

/-- The state in which one residue entry has been written. -/
def State.putResidue (r : Nat) (rs : Residue) (s : State) : State := s.mapTabs fun t => { t with rs := aset t.rs r rs }

theorem residueStore_ok (h : ResidueFits r rs s) : residueStore r rs s = .ok () (s.putResidue r rs) := by
  obtain ⟨-, hbooks, hdim, hrange, hlook⟩ := h
  rw [residueStore, M.bind_ok (M.run_read _ s), M.bind_ok (M.run_ensure_pos hbooks _ s), M.bind_ok (M.run_read _ s), M.bind_ok (M.run_ensure_pos hdim _ s),
    M.bind_ok (M.run_ensure_pos hrange _ s), M.bind_ok (M.run_read _ s), M.bind_ok (M.run_ensure_pos hlook _ s)]
  rfl

theorem residueStore_error (h : ResidueRefused r rs x s) : residueStore r rs s = .error (.fault x) s := by
  rw [residueStore, M.bind_ok (M.run_read _ s)]
  rcases h with ⟨-, ⟨hbooks, rfl⟩ | ⟨hbooks, h⟩⟩
  · exact M.bind_error (M.run_ensure_neg hbooks _ s)
  rw [M.bind_ok (M.run_ensure_pos hbooks _ s), M.bind_ok (M.run_read _ s)]
  rcases h with ⟨hdim, rfl⟩ | ⟨hdim, h⟩
  · exact M.bind_error (M.run_ensure_neg (not_not.mpr hdim) _ s)
  rw [M.bind_ok (M.run_ensure_pos hdim _ s)]
  rcases h with ⟨hrange, rfl⟩ | ⟨hrange, hlook, rfl⟩
  · exact M.bind_error (M.run_ensure_neg hrange _ s)
  rw [M.bind_ok (M.run_ensure_pos hrange _ s), M.bind_ok (M.run_read _ s)]
  exact M.bind_error (M.run_ensure_neg hlook _ s)

theorem residueOperand_ok (hr : r < s.dec.counts.nResidues) : residueOperand r s = .ok () s := M.run_ensure_pos hr _ s

theorem residueBody_parses (hl : rs.readable flags = true) :
    Parses (ResidueFits r rs) (rs.fields flags) (residueBody r rs.rtype) () (State.putResidue r rs) := by
  rw [residueBody_eq, ← List.append_nil (rs.fields flags)]
  refine .check (fun s h => residueOperand_ok h.1) (.bindRead ResidueFits.steady (residueRead_parses ResidueFits.steady hl) fun s hv _ hs => ?_)
  rw [State.past_nil hv, residueStore_ok hs]

theorem residueBody_stops (hl : rs.readable flags = true) : Stops (ResidueRefused r rs x) (rs.fields flags) (residueBody r rs.rtype) (.fault x) := by
  rw [residueBody_eq, ← List.append_nil (rs.fields flags)]
  exact .check (fun s h => residueOperand_ok h.1) (.afterRead ResidueRefused.steady (residueRead_parses ResidueRefused.steady hl)
    fun s _ _ hs => ⟨s, residueStore_error hs⟩)

/-- A type that setup knows leads to the body of that type. -/
theorem residueSetup_parses (hl : rs.readable flags = true) (ht : rs.rtype ≤ 2) :
    Parses (ResidueFits r rs) ((16, rs.rtype) :: rs.fields flags) (residueSetup r) () (State.putResidue r rs) := by
  refine .check (fun s h => residueOperand_ok h.1) (.read ResidueFits.steady (by decide) (by omega) ?_)
  have hbody := residueBody_parses (r := r) hl
  interval_cases rs.rtype <;> exact hbody

theorem residueSetup_stops (hl : rs.readable flags = true) (ht : rs.rtype ≤ 2) :
    Stops (ResidueRefused r rs x) ((16, rs.rtype) :: rs.fields flags) (residueSetup r) (.fault x) := by
  refine .check (fun s h => residueOperand_ok h.1) (.read ResidueRefused.steady (by decide) (by omega) ?_)
  have hbody := residueBody_stops (r := r) (x := x) hl
  interval_cases rs.rtype <;> exact hbody

theorem bookRowLegal_mono {n : Nat} {p : Nat × List (Option Nat)} (h : bookRowLegal n p = true) : bookRowLegal 256 p = true := by
  simp only [bookRowLegal, Bool.and_eq_true, List.all_eq_true] at h ⊢
  refine ⟨h.1, fun pass hp => ?_⟩
  have hbook := h.2 pass hp
  cases hrow : aget p.2 pass <;> simp only [hrow, Bool.and_eq_true] at hbook ⊢
  · exact hbook
  · exact ⟨⟨hbook.1.1, hbook.2⟩, hbook.2⟩

theorem Residue.readable_of_legal {n : Nat} (hl : rs.legal n flags = true) : rs.readable flags = true := by
  simp only [Residue.readable, Residue.legal, Bool.and_eq_true, and_assoc, decide_eq_true_eq] at hl ⊢
  obtain ⟨ht, hrange, hend, hplo, hphi, hclo, hchi, -, hcb, hcas, hflags, hbooks, hcascades, hrows⟩ := hl
  refine ⟨ht, Nat.zero_le _, hend, hplo, hphi, hclo, hchi, by decide, by decide, hcas, hflags, hbooks, hcascades, ?_, by omega, hcb⟩
  exact List.all_eq_true.mpr fun p hp => bookRowLegal_mono (List.all_eq_true.mp hrows p hp)

/-- The books of a legal residue exist. -/
theorem Residue.books_of_legal {n : Nat} (hl : rs.legal n flags = true) : rs.classbook < n ∧ booksBelow n rs.books = true := by
  simp only [Residue.legal, Bool.and_eq_true, and_assoc, decide_eq_true_eq] at hl
  obtain ⟨-, -, -, -, -, -, -, hcb, -, hcas, -, hbooks, -, hrows⟩ := hl
  refine ⟨hcb, List.all_eq_true.mpr fun row hrow => List.all_eq_true.mpr fun b hb => ?_⟩
  obtain ⟨i, hi, rfl⟩ := List.getElem_of_mem hrow
  obtain ⟨pass, hp, rfl⟩ := List.getElem_of_mem hb
  have hi' : i < (rs.cascade.zip rs.books).length := by rw [List.length_zip, hcas, hbooks, Nat.min_self]; exact hbooks ▸ hi
  have hlegal := List.all_eq_true.mp hrows _ (List.getElem_mem hi')
  simp only [List.getElem_zip, bookRowLegal, Bool.and_eq_true, decide_eq_true_eq, List.all_eq_true, List.mem_range] at hlegal
  have hbook := hlegal.2 pass (hlegal.1 ▸ hp)
  rw [aget_of_lt hp] at hbook
  split <;> simp_all

theorem booksBelow_eq_true {n : Nat} {books : List (List (Option Nat))} : booksBelow n books = true ↔ ∀ row ∈ books, ∀ b ∈ row, ∀ k ∈ b, k < n := by
  refine List.all_eq_true.trans (forall₂_congr fun row _ => List.all_eq_true.trans (forall₂_congr fun b _ => ?_))
  cases b <;> simp

/-- A residue whose books are not all known. -/
theorem not_booksKnown {n : Nat} :
    ¬(rs.classbook < n ∧ booksBelow n rs.books = true) ↔ n ≤ rs.classbook ∨ ∃ row ∈ rs.books, ∃ b ∈ row, ∃ k ∈ b, n ≤ k := by
  rw [booksBelow_eq_true, not_and_or, Nat.not_lt]
  push Not
  exact Iff.rfl

theorem Residue.range_of_legal {n : Nat} (hl : rs.legal n flags = true) : rs.beginPos ≤ rs.endPos := by
  simp only [Residue.legal, Bool.and_eq_true, decide_eq_true_eq] at hl
  omega

theorem Residue.rtype_le (hl : rs.readable flags = true) : rs.rtype ≤ 2 := by
  simp only [Residue.readable, Residue.legal, Bool.and_eq_true, decide_eq_true_eq] at hl
  omega

end

/-- Settles O34: the residue is read, checked and written once. -/
theorem residueSetupStores : Obligations.ResidueSetupStores := by
  intro s r rs flags hv hr hl hdim hlook
  have hread := rs.readable_of_legal hl
  have hs : ResidueFits r rs s := ⟨hr, Residue.books_of_legal hl, hdim, Residue.range_of_legal hl, hlook⟩
  refine ⟨fun hf => ⟨fun ht => ?_, fun ht => ?_, fun ht => ?_⟩, fun hf => (residueSetup_parses hread (Residue.rtype_le hread)).exec hv hf hs⟩
  all_goals
    have hbody := residueBody_parses (r := r) hread
    rw [ht] at hbody
    exact hbody.exec hv hf hs

end Sys2Proof.Machine
end

section
/-! PROOF. Mappings and modes (44_mapping_mode R301 to R311): what their headers store, and where they stop. -/

namespace Sys2Proof.Machine

/-- The state in which one mapping entry has been written. -/
def State.putMapping (m : Nat) (g : Mapping → Mapping) (s : State) : State := s.mapTabs fun t => { t with mp := aset t.mp m (g (aget t.mp m)) }

theorem Blind.putMapping (m : Nat) (g : Mapping → Mapping) : Blind (State.putMapping m g) := ⟨fun _ => rfl, fun _ => rfl, fun _ _ => rfl⟩

@[simp] theorem State.mapping_putMapping (m : Nat) (g : Mapping → Mapping) (s : State) : (s.putMapping m g).mapping m = g (s.mapping m) := aget_aset_self _ _ _

@[simp] theorem State.putMapping_putMapping (m : Nat) (f g : Mapping → Mapping) (s : State) :
    (s.putMapping m f).putMapping m g = s.putMapping m (g ∘ f) := by simp [State.putMapping, State.mapTabs]

/-- Mapping `m` exists and has the property, and these are the numbers of channels, of floors and of residues. -/
def MapHas (m ch nf nr : Nat) (P : Mapping → Prop) (s : State) : Prop :=
  m < s.dec.counts.nMappings ∧ s.dec.hdr.channels = ch ∧ s.dec.counts.nFloors = nf ∧ s.dec.counts.nResidues = nr ∧ P (s.mapping m)

section

variable {m ch nf nr : Nat} {P Q : Mapping → Prop}

theorem MapHas.steady : Steady (MapHas m ch nf nr P) := fun _ _ h => h

theorem MapHas.operand (s : State) (h : MapHas m ch nf nr P s) : mappingOperand m s = .ok () s := M.run_ensure_pos h.1 _ s

theorem MapHas.channels (s : State) (h : MapHas m ch nf nr P s) : s.dec.hdr.channels = ch := h.2.1

theorem MapHas.floors (s : State) (h : MapHas m ch nf nr P s) : s.dec.counts.nFloors = nf := h.2.2.1

theorem MapHas.residues (s : State) (h : MapHas m ch nf nr P s) : s.dec.counts.nResidues = nr := h.2.2.2.1

theorem MapHas.entry (s : State) (h : MapHas m ch nf nr P s) : P (s.mapping m) := h.2.2.2.2

theorem MapHas.put {s : State} (h : MapHas m ch nf nr P s) {g : Mapping → Mapping} (hg : ∀ e, P e → Q (g e)) : MapHas m ch nf nr Q (s.putMapping m g) :=
  ⟨h.1, h.2.1, h.2.2.1, h.2.2.2.1, by rw [State.mapping_putMapping]; exact hg _ h.entry⟩

/-- The entry is written, and the rest of the work. -/
theorem Parses.putMapping {β : Type} {g : Mapping → Mapping} {fs : List (Nat × Nat)} {k : M β} {b : β} {h : State → State} (hp : ∀ e, P e → Q (g e))
    (hk : Parses (MapHas m ch nf nr Q) fs k b h) :
    Parses (MapHas m ch nf nr P) fs (setMapping m g >>= fun _ => k) b fun s => h (s.putMapping m g) := .update (.putMapping m g) (fun _ hs => hs.put hp) hk

theorem Stops.putMapping {β : Type} {g : Mapping → Mapping} {fs : List (Nat × Nat)} {k : M β} {x : Stop} (hp : ∀ e, P e → Q (g e))
    (hk : Stops (MapHas m ch nf nr Q) fs k x) : Stops (MapHas m ch nf nr P) fs (setMapping m g >>= fun _ => k) x := fun s hv hr hs =>
  hk (s := s.putMapping m g) hv hr (hs.put hp)

-- the submap count (R302)

theorem submapPart_parses {f : MappingForm} {mp : Mapping} (hlo : 1 ≤ mp.submaps) (hhi : mp.submaps ≤ 16) (hf : f.submapsFlag = true ∨ mp.submaps = 1) :
    Parses (MapHas m ch nf nr P) (flagField f.submapsFlag :: f.countFields mp) (do let sf ← readBit; submapPart m sf) ()
      (State.putMapping m fun e => { e with submaps := mp.submaps }) := by
  have hst := MapHas.steady (m := m) (ch := ch) (nf := nf) (nr := nr) (P := P)
  rw [MappingForm.countFields]
  cases hflag : f.submapsFlag with
  | false =>
    have hone : mp.submaps = 1 := by simpa [hflag] using hf
    rw [hone]
    exact .flag hst false (.check MapHas.operand (.last _ _))
  | true =>
    have hlast := Parses.last (MapHas m ch nf nr P) (State.putMapping m fun e => { e with submaps := mp.submaps - 1 + 1 })
    rw [Nat.sub_add_cancel hlo] at hlast
    refine .flag hst true (.check MapHas.operand (.read hst (by decide) (by omega) ?_))
    rw [Nat.sub_add_cancel hlo]
    exact hlast

-- coupling steps (R303)

theorem lt_two_pow_channelBits {c : Nat} (h : c < ch) : c < 2 ^ ilog (ch - 1) := (Nat.le_sub_one_of_lt h).trans_lt (lt_two_pow_ilog _)

section

variable {pre : State → Prop} (hst : Steady pre) (hch : ch < 2 ^ 8)

include hst hch

theorem readStep_parses {st : CouplingStep} (h : st.legal ch = true) : Parses pre (pairFields ch st) (readStep ch) st id := by
  simp only [CouplingStep.legal, Bool.and_eq_true, decide_eq_true_eq] at h
  obtain ⟨⟨hne, hmag⟩, hang⟩ := h
  have hw : ilog (ch - 1) ≤ 24 := ilog_le (by omega)
  exact .read hst hw (lt_two_pow_channelBits hmag) (.read hst hw (lt_two_pow_channelBits hang) (.ensure hne (.ensure ⟨hmag, hang⟩ (.pure _ _))))

/-- A channel coupled with itself. -/
theorem readStep_stops_self {v : Nat} (hv : v < 2 ^ ilog (ch - 1)) :
    Stops pre [(ilog (ch - 1), v), (ilog (ch - 1), v)] (readStep ch) (.raise .badCoupling) :=
  have hw : ilog (ch - 1) ≤ 24 := ilog_le (by omega)
  .read hst hw hv (.read hst hw hv ((Stops.failing pre (not_not.mpr rfl)).head _))

/-- A channel that does not exist is fault U21. -/
theorem readStep_stops_channel {a b : Nat} (hne : a ≠ b) (hbad : ch ≤ max a b) (ha : a < 2 ^ ilog (ch - 1)) (hb : b < 2 ^ ilog (ch - 1)) :
    Stops pre [(ilog (ch - 1), a), (ilog (ch - 1), b)] (readStep ch) (.fault .couplingChannel) :=
  have hw : ilog (ch - 1) ≤ 24 := ilog_le (by omega)
  .read hst hw ha (.read hst hw hb (.ensure hne ((Stops.failing pre (by omega)).head _)))

end

theorem couplingPresent_parses {st : List CouplingStep} (hch : ch < 2 ^ 8) (hlo : 1 ≤ st.length) (hhi : st.length ≤ 256)
    (hst : st.all (CouplingStep.legal ch) = true) :
    Parses (MapHas m ch nf nr P) (stepFields ch st) (couplingPresent m) () (State.putMapping m fun e => { e with steps := st }) := by
  have hsteady := MapHas.steady (m := m) (ch := ch) (nf := nf) (nr := nr) (P := P)
  rw [stepFields, ← List.append_nil (st.flatMap _)]
  refine .check MapHas.operand (.read hsteady (by decide) (by omega) (.look MapHas.channels ?_))
  rw [Nat.sub_add_cancel hlo]
  exact .bindRead hsteady (.collect hsteady fun i hi => readStep_parses hsteady hch (List.all_eq_true.mp hst _ (List.getElem_mem hi))) (.last _ _)

/-- A step after the steps `pre` stops the list. -/
theorem couplingPresent_stops {pre : List CouplingStep} {n : Nat} {fs : List (Nat × Nat)} {x : Stop} (hch : ch < 2 ^ 8)
    (hpre : pre.all (CouplingStep.legal ch) = true) (hlen : pre.length ≤ n) (hn : n < 256) (hstop : Stops (MapHas m ch nf nr P) fs (readStep ch) x) :
    Stops (MapHas m ch nf nr P) ((8, n) :: pre.flatMap (pairFields ch) ++ fs) (couplingPresent m) x := by
  have hsteady := MapHas.steady (m := m) (ch := ch) (nf := nf) (nr := nr) (P := P)
  exact .check MapHas.operand (.read hsteady (by decide) hn (.look MapHas.channels ((Stops.collectMap (v := id) hsteady (Nat.lt_succ_of_le hlen)
    (fun i hi => readStep_parses hsteady hch (List.all_eq_true.mp hpre _ (List.getElem_mem hi))) hstop).head _)))

theorem couplingPart_parses {f : MappingForm} {mp : Mapping} (hch : ch < 2 ^ 8)
    (hsteps : (if f.couplingFlag then 1 ≤ mp.steps.length && mp.steps.length ≤ 256 else mp.steps = []) = true) (hst : mp.steps.all (CouplingStep.legal ch) = true) :
    Parses (MapHas m ch nf nr P) (flagField f.couplingFlag :: if f.couplingFlag then stepFields ch mp.steps else [])
      (do let cf ← readBit; couplingPart m cf) () (State.putMapping m fun e => { e with steps := mp.steps }) := by
  cases hflag : f.couplingFlag with
  | false =>
    have hnone : mp.steps = [] := by simpa [hflag] using hsteps
    rw [hnone]
    exact .flag MapHas.steady false (.check MapHas.operand (.last _ _))
  | true =>
    have hlen : 1 ≤ mp.steps.length ∧ mp.steps.length ≤ 256 := by simpa [hflag] using hsteps
    exact .flag MapHas.steady true (couplingPresent_parses hch hlen.1 hlen.2 hst)

-- the whole entry

/-- The part of the mapping before its reserved field (R302, R303). -/
def mappingHead (m : Nat) : M Unit := do
  let sf ← readBit
  submapPart m sf
  let cf ← readBit
  couplingPart m cf

/-- The submaps (R306). -/
def mappingSubs (m submaps : Nat) : M Unit := do
  let subs ← collect submaps 0 fun _ => readSubmap
  setMapping m fun e => { e with subFloor := subs.map Prod.fst, subResidue := subs.map Prod.snd }

/-- The routing and the submaps (R305, R306). -/
def mappingRoutes (m : Nat) : M Unit := do
  let channels ← M.read fun s => s.dec.hdr.channels
  let submaps ← M.read fun s => (s.mapping m).submaps
  let mux ← collect channels 0 fun _ => readMux submaps
  setMapping m fun e => { e with mux := mux }
  mappingSubs m submaps

/-- The mapping from its reserved field on (R304 to R306). -/
def mappingRest (m : Nat) : M Unit := do
  let reserved ← readBits 2
  M.ensure (reserved = 0) (.raise .reservedBits)
  mappingRoutes m

theorem mappingBody_eq (m : Nat) : mappingBody m = (do mappingOperand m; mappingHead m; mappingRest m) := by
  simp only [mappingHead, M.bind_assoc]
  rfl

theorem mappingHead_parses {f : MappingForm} {mp : Mapping} (hch : ch < 2 ^ 8) (hl : f.headLegal ch mp = true) :
    Parses (MapHas m ch nf nr P) (f.head ch mp) (mappingHead m) ()
      (State.putMapping m fun e => { e with submaps := mp.submaps, steps := mp.steps }) := by
  simp only [MappingForm.headLegal, Bool.and_eq_true, Bool.or_eq_true, decide_eq_true_eq] at hl
  obtain ⟨⟨⟨⟨hlo, hhi⟩, hone⟩, hlen⟩, hst⟩ := hl
  have hrun := (submapPart_parses (P := P) (m := m) (nf := nf) (nr := nr) hlo hhi hone).seq (.putMapping m _)
    (pre' := MapHas m ch nf nr fun _ => True) (fun s hs => hs.put (s := s.past _) fun _ _ => trivial) (couplingPart_parses hch hlen hst)
  simp only [State.putMapping_putMapping, Function.comp_def] at hrun
  exact hrun.assoc

/-- What stops among the coupling steps stops the part. -/
theorem mappingHead_stops {f : MappingForm} {mp : Mapping} (hl : f.headLegal ch mp = true) {fs : List (Nat × Nat)} {x : Stop}
    (hstop : Stops (MapHas m ch nf nr fun _ => True) fs (couplingPresent m) x) :
    Stops (MapHas m ch nf nr P) (flagField f.submapsFlag :: f.countFields mp ++ (1, 1) :: fs) (mappingHead m) x := by
  simp only [MappingForm.headLegal, Bool.and_eq_true, Bool.or_eq_true, decide_eq_true_eq] at hl
  obtain ⟨⟨⟨⟨hlo, hhi⟩, hone⟩, -⟩, -⟩ := hl
  have hflag : Stops (MapHas m ch nf nr fun _ => True) ((1, 1) :: fs) (do let cf ← readBit; couplingPart m cf) x := .flag MapHas.steady true hstop
  exact (Stops.afterSeq (submapPart_parses hlo hhi hone) (.putMapping m _) (fun s hs => hs.put (s := s.past _) fun _ _ => trivial)
    hflag).assoc

-- routing (R305)

section

variable {pre : State → Prop} (hst : Steady pre) {submaps : Nat} (hhi : submaps ≤ 16)

/-- The routing of one channel, which is there if there is more than one submap. -/
def muxField (submaps v : Nat) : List (Nat × Nat) := if 1 < submaps then [(4, v)] else []

theorem muxFields_eq (submaps : Nat) (mux : List Nat) : muxFields submaps mux = mux.flatMap (muxField submaps) := by
  rw [muxFields]
  split
  next h => rw [List.map_eq_flatMap, show muxField submaps = fun v => [(4, v)] from funext fun _ => if_pos h]
  next h => rw [show muxField submaps = fun _ => [] from funext fun _ => if_neg h, List.flatMap_eq_nil_iff.mpr fun _ _ => rfl]

include hst hhi

theorem readMux_parses {v : Nat} (hv : v < submaps) : Parses pre (muxField submaps v) (readMux submaps) v id := by
  rw [muxField, readMux]
  split
  · exact .read hst (by decide) (by omega) (.ensure hv (.pure _ _))
  · exact .pure_of_eq _ (by omega)

omit hhi in
/-- A submap that does not exist is fault U19. -/
theorem readMux_stops {v : Nat} (hmany : 1 < submaps) (hbad : submaps ≤ v) (hv : v < 16) : Stops pre [(4, v)] (readMux submaps) (.fault .muxRange) := by
  rw [readMux, if_pos hmany]
  exact .read hst (by decide) hv ((Stops.failing pre (Nat.not_lt.mpr hbad)).head _)

end

-- submaps (R306)

/-- The three fields of a submap are in their ranges, and its floor and its residue exist. -/
def SubmapFits (nf nr : Nat) (p : Nat × Nat × Nat) : Prop := p.1 < 256 ∧ p.2.1 < 256 ∧ p.2.2 < 256 ∧ p.2.1 < nf ∧ p.2.2 < nr

theorem readSubmap_parses {p : Nat × Nat × Nat} (hp : SubmapFits nf nr p) : Parses (MapHas m ch nf nr P) (submapTriple p) readSubmap p.2 id := by
  have hst := MapHas.steady (m := m) (ch := ch) (nf := nf) (nr := nr) (P := P)
  obtain ⟨ht, hf, hr, hnf, hnr⟩ := hp
  exact .read hst (by decide) ht (.read hst (by decide) hf (.look MapHas.floors (.ensure hnf (.read hst (by decide) hr
    (.look MapHas.residues (.ensure hnr (.pure _ _)))))))

/-- A floor or a residue that does not exist is fault U20. -/
theorem readSubmap_stops_floor {t v : Nat} (ht : t < 256) (hv : v < 256) (hbad : nf ≤ v) :
    Stops (MapHas m ch nf nr P) [(8, t), (8, v)] readSubmap (.fault .submapEntry) :=
  have hst := MapHas.steady (m := m) (ch := ch) (nf := nf) (nr := nr) (P := P)
  .read hst (by decide) ht (.read hst (by decide) hv (.look MapHas.floors ((Stops.failing _ (Nat.not_lt.mpr hbad)).head _)))

theorem readSubmap_stops_residue {t fl v : Nat} (ht : t < 256) (hfl : fl < 256) (hnf : fl < nf) (hv : v < 256) (hbad : nr ≤ v) :
    Stops (MapHas m ch nf nr P) [(8, t), (8, fl), (8, v)] readSubmap (.fault .submapEntry) :=
  have hst := MapHas.steady (m := m) (ch := ch) (nf := nf) (nr := nr) (P := P)
  .read hst (by decide) ht (.read hst (by decide) hfl (.look MapHas.floors (.ensure hnf (.read hst (by decide) hv
    (.look MapHas.residues ((Stops.failing _ (Nat.not_lt.mpr hbad)).head _))))))

theorem mappingSubs_parses {subs : List (Nat × Nat × Nat)} (hs : ∀ p ∈ subs, SubmapFits nf nr p) :
    Parses (MapHas m ch nf nr P) (subs.flatMap submapTriple) (mappingSubs m subs.length) ()
      (State.putMapping m fun e => { e with subFloor := subs.map fun p => p.2.1, subResidue := subs.map fun p => p.2.2 }) := by
  have hread := Parses.collectMap (MapHas.steady (m := m) (ch := ch) (nf := nf) (nr := nr) (P := P)) (f := fun _ => readSubmap) (v := Prod.snd) (lo := 0)
    fun i hi => readSubmap_parses (hs _ (List.getElem_mem hi))
  rw [← List.append_nil (subs.flatMap _)]
  refine .bindRead MapHas.steady hread ?_
  rw [List.map_map, List.map_map]
  exact .last _ _

theorem mappingSubs_stops {subs : List (Nat × Nat × Nat)} {k : Nat} {fs : List (Nat × Nat)} {x : Stop} (hk : subs.length < k)
    (hs : ∀ p ∈ subs, SubmapFits nf nr p) (hstop : Stops (MapHas m ch nf nr P) fs readSubmap x) :
    Stops (MapHas m ch nf nr P) (subs.flatMap submapTriple ++ fs) (mappingSubs m k) x :=
  (Stops.collectMap MapHas.steady hk (fun _ hi => readSubmap_parses (hs _ (List.getElem_mem hi))) hstop).head _

theorem mappingRoutes_parses {k : Nat} (hk : k ≤ 16) {mux : List Nat} {subs : List (Nat × Nat × Nat)} (hlen : mux.length = ch) (hmux : ∀ v ∈ mux, v < k)
    (hcount : subs.length = k) (hs : ∀ p ∈ subs, SubmapFits nf nr p) :
    Parses (MapHas m ch nf nr fun e => e.submaps = k) (muxFields k mux ++ subs.flatMap submapTriple) (mappingRoutes m) ()
      (State.putMapping m fun e => { e with mux := mux, subFloor := subs.map fun p => p.2.1, subResidue := subs.map fun p => p.2.2 }) := by
  have hst := MapHas.steady (m := m) (ch := ch) (nf := nf) (nr := nr) (P := fun e => e.submaps = k)
  have hsubs := mappingSubs_parses (m := m) (ch := ch) (P := fun e => e.submaps = k) hs
  have hread := Parses.collect hst (f := fun _ => readMux k) (F := muxField k) (xs := mux) (lo := 0)
    fun i hi => readMux_parses hst hk (hmux _ (List.getElem_mem hi))
  rw [hcount] at hsubs
  rw [hlen, ← muxFields_eq] at hread
  have hrun : Parses (MapHas m ch nf nr fun e => e.submaps = k) (muxFields k mux ++ subs.flatMap submapTriple) (mappingRoutes m) () _ :=
    .look MapHas.channels (.look MapHas.entry (.bindRead hst hread (.putMapping (fun _ h => h) hsubs)))
  simpa only [State.putMapping_putMapping, Function.comp_def] using hrun

/-- A routing after the routings `mux` stops the mapping. -/
theorem mappingRoutes_stops_mux {k : Nat} (hk : k ≤ 16) {mux : List Nat} (hlen : mux.length < ch) (hmux : ∀ v ∈ mux, v < k) {fs : List (Nat × Nat)} {x : Stop}
    (hstop : Stops (MapHas m ch nf nr fun e => e.submaps = k) fs (readMux k) x) :
    Stops (MapHas m ch nf nr fun e => e.submaps = k) (muxFields k mux ++ fs) (mappingRoutes m) x := by
  have hst := MapHas.steady (m := m) (ch := ch) (nf := nf) (nr := nr) (P := fun e => e.submaps = k)
  rw [muxFields_eq]
  exact .look MapHas.channels (.look MapHas.entry
    ((Stops.collectMap (v := id) hst hlen (fun i hi => readMux_parses hst hk (hmux _ (List.getElem_mem hi))) hstop).head _))

/-- What stops the submaps stops the mapping. -/
theorem mappingRoutes_stops_subs {k : Nat} (hk : k ≤ 16) {mux : List Nat} (hlen : mux.length = ch) (hmux : ∀ v ∈ mux, v < k) {fs : List (Nat × Nat)} {x : Stop}
    (hstop : Stops (MapHas m ch nf nr fun e => e.submaps = k) fs (mappingSubs m k) x) :
    Stops (MapHas m ch nf nr fun e => e.submaps = k) (muxFields k mux ++ fs) (mappingRoutes m) x := by
  have hst := MapHas.steady (m := m) (ch := ch) (nf := nf) (nr := nr) (P := fun e => e.submaps = k)
  have hread := Parses.collect hst (f := fun _ => readMux k) (F := muxField k) (xs := mux) (lo := 0)
    fun i hi => readMux_parses hst hk (hmux _ (List.getElem_mem hi))
  rw [hlen, ← muxFields_eq] at hread
  exact .look MapHas.channels (.look MapHas.entry (.afterRead hst hread (.putMapping (fun _ h => h) hstop)))

/-- What stops from the reserved field on stops the body, after a legal head. -/
theorem mappingBody_stops_rest {f : MappingForm} {mp : Mapping} (hch : ch < 2 ^ 8) (hl : f.headLegal ch mp = true) {fs : List (Nat × Nat)} {x : Stop}
    (hstop : Stops (MapHas m ch nf nr fun e => e.submaps = mp.submaps) fs (mappingRest m) x) :
    Stops (MapHas m ch nf nr P) (f.head ch mp ++ fs) (mappingBody m) x := by
  rw [mappingBody_eq]
  exact .check MapHas.operand (.afterSeq (mappingHead_parses hch hl) (.putMapping m _) (fun s hs => hs.put (s := s.past _) fun _ _ => rfl) hstop)

theorem mappingBody_stops_head {f : MappingForm} {mp : Mapping} (hl : f.headLegal ch mp = true) {fs : List (Nat × Nat)} {x : Stop}
    (hstop : Stops (MapHas m ch nf nr fun _ => True) fs (couplingPresent m) x) :
    Stops (MapHas m ch nf nr P) (flagField f.submapsFlag :: f.countFields mp ++ (1, 1) :: fs) (mappingBody m) x := by
  rw [mappingBody_eq]
  exact .check MapHas.operand ((mappingHead_stops hl hstop).head _)

/-- A reserved field that is not 0 (R304). -/
theorem mappingRest_stops_reserved {v : Nat} (hv : v < 4) (hne : v ≠ 0) : Stops (MapHas m ch nf nr P) [(2, v)] (mappingRest m) (.raise .reservedBits) :=
  .read MapHas.steady (by decide) hv ((Stops.failing _ hne).head _)

theorem mappingRest_stops_routes {fs : List (Nat × Nat)} {x : Stop} (hstop : Stops (MapHas m ch nf nr P) fs (mappingRoutes m) x) :
    Stops (MapHas m ch nf nr P) ((2, 0) :: fs) (mappingRest m) x := .read MapHas.steady (by decide) (by decide) (.ensure rfl hstop)

/-- The submaps of a legal mapping, with their discarded fields. -/
theorem MappingForm.submaps_of_legal {f : MappingForm} {mp : Mapping} (hl : f.legal ch nf nr mp = true) :
    (f.times.zip (mp.subFloor.zip mp.subResidue)).length = mp.submaps ∧ (∀ p ∈ f.times.zip (mp.subFloor.zip mp.subResidue), SubmapFits nf nr p) ∧
      ((f.times.zip (mp.subFloor.zip mp.subResidue)).map fun p => p.2.1) = mp.subFloor ∧
        ((f.times.zip (mp.subFloor.zip mp.subResidue)).map fun p => p.2.2) = mp.subResidue := by
  simp only [MappingForm.legal, Bool.and_eq_true, decide_eq_true_eq, List.all_eq_true] at hl
  obtain ⟨⟨⟨⟨⟨-, htlen⟩, htimes⟩, hflen⟩, hfloors⟩, hrlen⟩ := hl.1
  have hzip : (mp.subFloor.zip mp.subResidue).length = mp.submaps := by rw [List.length_zip, hflen, hrlen, Nat.min_self]
  refine ⟨by rw [List.length_zip, htlen, hzip, Nat.min_self], fun p hp => ?_, ?_, ?_⟩
  · obtain ⟨ht, hp⟩ := List.of_mem_zip hp
    obtain ⟨hf, hr⟩ := List.of_mem_zip hp
    exact ⟨htimes _ ht, (hfloors _ hf).2, (hl.2 _ hr).2, (hfloors _ hf).1, (hl.2 _ hr).1⟩
  · rw [← Function.comp_def Prod.fst Prod.snd, ← List.map_map, List.map_snd_zip (by rw [htlen, hzip]), List.map_fst_zip (by rw [hflen, hrlen])]
  · rw [← Function.comp_def Prod.snd Prod.snd, ← List.map_map, List.map_snd_zip (by rw [htlen, hzip]), List.map_snd_zip (by rw [hflen, hrlen])]

/-- The mapping body on the fields of a legal mapping. -/
theorem mappingBody_parses {f : MappingForm} {mp : Mapping} (hch : ch < 2 ^ 8) (hl : f.legal ch nf nr mp = true) :
    Parses (MapHas m ch nf nr P) (f.fields ch mp) (mappingBody m) () (State.putMapping m fun _ => mp) := by
  obtain ⟨hcount, hsubs, hfloors, hresidues⟩ := MappingForm.submaps_of_legal hl
  simp only [MappingForm.legal, Bool.and_eq_true, decide_eq_true_eq, List.all_eq_true] at hl
  obtain ⟨⟨⟨⟨⟨⟨⟨⟨hhead, hlen⟩, hmux⟩, -⟩, -⟩, -⟩, -⟩, -⟩, -⟩ := hl
  have hhi : mp.submaps ≤ 16 := by
    simp only [MappingForm.headLegal, Bool.and_eq_true, decide_eq_true_eq] at hhead
    omega
  have hroutes := mappingRoutes_parses (m := m) hhi hlen hmux hcount hsubs
  have hrest : Parses (MapHas m ch nf nr fun e => e.submaps = mp.submaps) _ (mappingRest m) () _ :=
    .read MapHas.steady (by decide) (by decide : 0 < 2 ^ 2) (.ensure rfl hroutes)
  have hrun := (mappingHead_parses (P := P) (m := m) (nf := nf) (nr := nr) hch hhead).seq (.putMapping m _)
    (fun s hs => hs.put (s := s.past _) fun _ _ => rfl) hrest
  rw [mappingBody_eq, MappingForm.fields, List.append_assoc]
  simp only [State.putMapping_putMapping, Function.comp_def, hfloors, hresidues] at hrun
  exact .check MapHas.operand hrun

theorem mappingSetup_of_body {fs : List (Nat × Nat)} {g : State → State} (h : Parses (MapHas m ch nf nr P) fs (mappingBody m) () g) :
    Parses (MapHas m ch nf nr P) ((16, 0) :: fs) (mappingSetup m) () g :=
  .check MapHas.operand (.read MapHas.steady (by decide) (by decide) h)

end

/-- Settles O37: the head, the routing and the submaps write the whole entry. -/
theorem mappingSetupStores : Obligations.MappingSetupStores := fun s m _ _ hv hm hch hl =>
  have hs : MapHas m _ _ _ (fun _ => True) s := ⟨hm, rfl, rfl, rfl, trivial⟩
  have hbody := mappingBody_parses (m := m) (P := fun _ => True) hch hl
  ⟨fun hr => hbody.exec hv hr hs, fun hr => (mappingSetup_of_body hbody).exec hv hr hs⟩

/-- Settles O38: an absent count is written without a read, a present one after its fields. -/
theorem mappingSelectors : Obligations.MappingSelectors := by
  intro s m hv hm hch
  have hs : MapHas m _ _ _ (fun _ => True) s := ⟨hm, rfl, rfl, rfl, trivial⟩
  refine ⟨microUnit_of_ok (M.bind_ok (MapHas.operand s hs)), microUnit_of_ok (M.bind_ok (MapHas.operand s hs)), fun v hlt hr => ?_,
    fun st hlo hhi hst hr => (couplingPresent_parses hch hlo hhi hst).exec hv hr hs⟩
  exact Parses.exec (m := submapsPresent m) (g := State.putMapping m fun e => { e with submaps := v + 1 })
    (.check MapHas.operand (.read MapHas.steady (by decide) hlt (.last _ _))) hv hr hs

-- modes (R310, R311)

/-- The state in which one mode entry has been written. -/
def State.putMode (k : Nat) (g : Mode → Mode) (s : State) : State := s.mapTabs fun t => { t with md := aset t.md k (g (aget t.md k)) }

theorem Blind.putMode (k : Nat) (g : Mode → Mode) : Blind (State.putMode k g) := ⟨fun _ => rfl, fun _ => rfl, fun _ _ => rfl⟩

@[simp] theorem State.putMode_putMode (k : Nat) (f g : Mode → Mode) (s : State) : (s.putMode k f).putMode k g = s.putMode k (g ∘ f) := by
  simp [State.putMode, State.mapTabs]

/-- Mode `k` exists, and there are `n` mappings. -/
def ModeIn (k n : Nat) (s : State) : Prop := k < s.dec.counts.nModes ∧ s.dec.counts.nMappings = n

section

variable {k n : Nat} {s : State}

theorem ModeIn.steady : Steady (ModeIn k n) := fun _ _ h => h

theorem ModeIn.operand (s : State) (h : ModeIn k n s) : modeOperand k s = .ok () s := M.run_ensure_pos h.1 _ s

theorem blockPart_parses (b : Bool) :
    Parses (ModeIn k n) [flagField b] (do let b ← readBit; blockPart k b) () (State.putMode k fun e => { e with blockFlag := b }) := by
  cases b with
  | false => exact .flag ModeIn.steady false (.check ModeIn.operand (.last _ _))
  | true => exact .flag ModeIn.steady true (.check ModeIn.operand (.last _ _))

/-- The mode after its block flag (R310, R311). -/
def modeRest (k : Nat) : M Unit := do
  let w ← readBits 16
  M.ensure (w = 0) (.raise .reservedBits)
  let t ← readBits 16
  M.ensure (t = 0) (.raise .reservedBits)
  let m ← readBits 8
  setMode k fun e => { e with mapping := m }
  let n ← M.read fun s => s.dec.counts.nMappings
  M.ensure (m < n) (.fault .modeMapping)

theorem modeSetup_eq (k : Nat) : modeSetup k = (do modeOperand k; (do let b ← readBit; blockPart k b); modeRest k) := by
  simp only [M.bind_assoc]
  rfl

theorem modeSetup_parses {md : Mode} (hm : md.mapping < n) (hw : md.mapping < 256) :
    Parses (ModeIn k n) md.fields (modeSetup k) () (State.putMode k fun _ => md) := by
  have hst := ModeIn.steady (k := k) (n := n)
  have hlast : Parses (ModeIn k n) []
      (do
        setMode k fun e => { e with mapping := md.mapping }
        let n ← M.read fun s => s.dec.counts.nMappings
        M.ensure (md.mapping < n) (.fault .modeMapping)) () (State.putMode k fun e => { e with mapping := md.mapping }) := fun s hv _ hs => by
    rw [State.past_nil hv]
    exact M.run_ensure_pos (show md.mapping < s.dec.counts.nMappings by rwa [hs.2]) _ _
  have hrest : Parses (ModeIn k n) [(16, 0), (16, 0), (8, md.mapping)] (modeRest k) () _ :=
    .read hst (by decide) (by decide) (.ensure rfl (.read hst (by decide) (by decide) (.ensure rfl (.read hst (by decide) hw hlast))))
  have hrun := (blockPart_parses (k := k) (n := n) md.blockFlag).seq (.putMode k _) (fun _ hs => hs) hrest
  simp only [State.putMode_putMode, Function.comp_def] at hrun
  rw [modeSetup_eq]
  exact .check ModeIn.operand hrun

/-- What stops after the block flag stops the mode. -/
theorem modeSetup_stops (b : Bool) {fs : List (Nat × Nat)} {x : Stop} (hstop : Stops (ModeIn k n) fs (modeRest k) x) :
    Stops (ModeIn k n) (flagField b :: fs) (modeSetup k) x := by
  rw [modeSetup_eq]
  exact .check ModeIn.operand (.afterSeq (blockPart_parses b) (.putMode k _) (fun _ hs => hs) hstop)

end

/-- Settles O39: the fields of a mode in order, and for the selectors one write of the flag. -/
theorem modeSetupStores : Obligations.ModeSetupStores := fun s k _ hv hk =>
  have hs : ModeIn k s.dec.counts.nMappings s := ⟨hk, rfl⟩
  ⟨fun hm hw hr => (modeSetup_parses hm hw).exec hv hr hs, microUnit_of_ok (M.bind_ok (ModeIn.operand s hs)),
    microUnit_of_ok (M.bind_ok (ModeIn.operand s hs))⟩

end Sys2Proof.Machine
end

section
/-! PROOF. The headers that are read byte-wise (46_frame_output R343 to R346): the tag, the identification header and the comment header. -/

namespace Sys2Proof.Machine

theorem State.dropBytes_dropBytes (m n : Nat) (s : State) : (s.dropBytes m).dropBytes n = s.dropBytes (m + n) := by
  simp [State.dropBytes, List.drop_drop, Nat.add_assoc]

/-- Where the bytes are ahead at a byte boundary, the piece takes exactly them and returns `a`. -/
def TakesBytes {α : Type} (bs : List Byte) (m : M α) (a : α) : Prop :=
  ∀ ⦃s : State⦄ (rest : List Byte), s.dec.bits.nbits = 0 → s.src.bytes = bs ++ rest → m s = .ok a (s.dropBytes bs.length)

section

variable {α β : Type} {bs cs : List Byte} {m : M α} {f : α → M β} {a : α} {b : β}

theorem TakesBytes.bind (hm : TakesBytes bs m a) (hf : TakesBytes cs (f a) b) : TakesBytes (bs ++ cs) (m >>= f) b := fun s rest hb hs => by
  rw [List.append_assoc] at hs
  have hrest := hf (s := s.dropBytes bs.length) rest hb (by rw [State.dropBytes_src, hs, List.drop_left])
  rw [M.bind_ok (hm (cs ++ rest) hb hs), hrest, State.dropBytes_dropBytes, List.length_append]

theorem TakesBytes.pure (a : α) : TakesBytes [] (pure a : M α) a := fun _ _ _ _ => rfl

theorem readExact_takes {n : Nat} (hn : bs.length = n) : TakesBytes bs (readExact n) bs := fun _ _ hb hs => by rw [hn, readExact_append hb hs hn]

theorem readU8_takes (v : Byte) : TakesBytes [v] readU8 v := fun _ _ hb hs => readU8_ok hb hs

theorem skipBytes_takes {n : Nat} (hn : bs.length = n) : TakesBytes bs (skipBytes n) () := by
  rw [← List.append_nil bs]
  exact (readExact_takes hn).bind (.pure ())

/-- Four bytes give the number that they hold. -/
theorem le32_le32Bytes_ofNat {n : Nat} (hn : n < 2 ^ 32) : le32 (le32Bytes (BitVec.ofNat 32 n)) 0 = n := by
  have h := le32_le32Bytes (BitVec.ofNat 32 n) []
  rwa [List.append_nil, BitVec.toNat_ofNat, Nat.mod_eq_of_lt hn] at h

/-- A string is passed over, its length first (R346). -/
theorem skipString_takes {v : List Byte} (hv : v.length < 2 ^ 32) : TakesBytes (stringBytes v) skipString () :=
  (readExact_takes rfl).bind (skipBytes_takes (le32_le32Bytes_ofNat hv).symm)

theorem skipStrings_takes {vs : List (List Byte)} (hv : ∀ v ∈ vs, v.length < 2 ^ 32) (i : Nat) :
    TakesBytes (vs.flatMap stringBytes) (forN vs.length i fun _ => skipString) () := by
  induction vs generalizing i with
  | nil => exact .pure ()
  | cons v vs ih =>
    rw [List.forall_mem_cons] at hv
    exact (skipString_takes hv.1).bind (ih hv.2 (i + 1))

end

/-- The comment header up to its framing byte (R346). -/
def commentHead : M Byte := do
  skipString
  let cc ← readExact 4
  forN (le32 cc 0) 0 fun _ => skipString
  readU8

theorem headerComment_eq : headerComment = (do let f ← commentHead; M.ensure (f.toNat % 2 = 1) (.raise .badFraming)) := by
  simp only [commentHead, M.bind_assoc]
  rfl

section

variable {cm : CommentForm}

theorem commentHead_takes (hv : cm.vendor.length < 2 ^ 32) (hn : cm.comments.length < 2 ^ 32) (hc : ∀ c ∈ cm.comments, c.length < 2 ^ 32) :
    TakesBytes cm.bytes commentHead cm.framing := by
  rw [CommentForm.bytes, List.append_assoc, List.append_assoc]
  refine (skipString_takes hv).bind ((readExact_takes rfl).bind (.bind (a := ()) ?_ (readU8_takes cm.framing)))
  rw [le32_le32Bytes_ofNat hn]
  exact skipStrings_takes hc 0

variable {s : State} {rest : List Byte}

/-- Past its bytes, the framing flag decides (R346). -/
theorem headerComment_run (hb : s.dec.bits.nbits = 0) (hv : cm.vendor.length < 2 ^ 32) (hn : cm.comments.length < 2 ^ 32)
    (hc : ∀ c ∈ cm.comments, c.length < 2 ^ 32) (hs : s.src.bytes = cm.bytes ++ rest) :
    headerComment s = M.ensure (cm.framing.toNat % 2 = 1) (.raise .badFraming) (s.dropBytes cm.bytes.length) := by
  rw [headerComment_eq, M.bind_ok (commentHead_takes hv hn hc rest hb hs)]

theorem headerComment_ok (hb : s.dec.bits.nbits = 0) (hl : cm.Legal) (hs : s.src.bytes = cm.bytes ++ rest) :
    headerComment s = .ok () (s.dropBytes cm.bytes.length) := by
  obtain ⟨hv, hn, hc, hf⟩ := hl
  rw [headerComment_run hb hv hn hc hs, M.run_ensure_pos hf]

end

/-- Settles O45: the strings are skipped one after the other, and the framing byte decides. -/
theorem commentHeaderSkips : Obligations.CommentHeaderSkips := fun _ _ _ hb hv hn hc hs =>
  have hrun := headerComment_run hb hv hn hc hs
  ⟨fun hf => microUnit_of_ok (m := headerComment) (hrun.trans (M.run_ensure_pos hf _ _)),
    fun hf => microUnit_of_error (m := headerComment) (hrun.trans (M.run_ensure_neg (by omega) _ _))⟩

section

variable {s : State} {rest : List Byte}

/-- The seven bytes of a tag pass its checks (R343). -/
theorem headerTag_ok {t : Byte} (hb : s.dec.bits.nbits = 0) (hs : s.src.bytes = tagBytes t ++ rest) : headerTag t s = .ok () (s.dropBytes 7) := by
  refine (M.bind_ok (readExact_append hb hs rfl)).trans ?_
  exact (M.bind_ok (M.run_ensure_pos rfl _ _)).trans (M.run_ensure_pos rfl _ _)

/-- The checks of an identification header that is accepted (R344, R345). -/
theorem headerIdent_ok {id : IdentForm} (hb : s.dec.bits.nbits = 0) (hl : id.Legal) (hs : s.src.bytes = id.bytes ++ rest) :
    headerIdent s = .ok () ((s.dropBytes 23).mapHdr fun _ => id.regs) := by
  obtain ⟨hlen, hversion, hch, hmax, hrate, hexps, hle, hmaxExp, hframing⟩ := hl
  have hversion' : le32 id.bytes 0 = 0 := id.le32_version.trans ((toNat_eq_zero_iff _).mpr hversion)
  have hch' : (id.bytes.getD 4 0#8).toNat ≠ 0 := mt (toNat_eq_zero_iff _).mp hch
  have hmax' : (id.bytes.getD 4 0#8).toNat ≤ Config.maxChannels := hmax
  have hrate' : le32 id.bytes 5 ≠ 0 := id.le32_rate ▸ mt (toNat_eq_zero_iff _).mp hrate
  have hexps' : Config.minBlockExp ≤ (id.bytes.getD 21 0#8).toNat % 16 ∧ (id.bytes.getD 21 0#8).toNat % 16 ≤ (id.bytes.getD 21 0#8).toNat / 16 ∧
      (id.bytes.getD 21 0#8).toNat / 16 ≤ Config.maxBlockExp := by
    rw [id.getD_exps hlen]
    exact ⟨hexps, hle, hmaxExp⟩
  have hframing' : (id.bytes.getD 22 0#8).toNat % 2 = 1 := by rwa [id.getD_framing hlen]
  have hregs : StreamRegs.mk (id.bytes.getD 4 0#8).toNat (BitVec.ofNat 32 (le32 id.bytes 5)) ((id.bytes.getD 21 0#8).toNat % 16)
      ((id.bytes.getD 21 0#8).toNat / 16) = id.regs := by
    rw [id.getD_channels, id.le32_rate, id.getD_exps hlen, BitVec.ofNat_toNat, BitVec.setWidth_eq, IdentForm.regs]
  rw [headerIdent, M.bind_ok (readExact_append hb hs (id.length_bytes hlen)), M.bind_ok (M.run_ensure_pos hversion' _ _), M.bind_ok (M.run_update _ _),
    M.bind_ok (M.run_ensure_pos hch' _ _), M.bind_ok (M.run_ensure_pos hmax' _ _), M.bind_ok (M.run_ensure_pos hrate' _ _),
    M.bind_ok (M.run_ensure_pos hexps' _ _), M.run_ensure_pos hframing', hregs]

end

end Sys2Proof.Machine
end

section
/-! PROOF. The setup header (46_frame_output R347 to R349): its tables entry by entry, and what stands in the state at its end. -/

namespace Sys2Proof.Machine

-- a loop whose turns fill entries

/-- What the turns of a loop make of the state, one after the other: turn `i` is that of its element. -/
def runTurns {γ : Type} (G : Nat → γ → State → State) : Nat → List γ → State → State
  | _, [], s => s
  | i, y :: ys, s => runTurns G (i + 1) ys (G i y s)

section

variable {γ : Type} {G : Nat → γ → State → State} {pre : State → Prop} {f : Nat → M Unit} {F : γ → List (Nat × Nat)}

theorem Blind.runTurns (hG : ∀ i y, Blind (G i y)) (ys : List γ) (lo : Nat) : Blind (runTurns G lo ys) := by
  induction ys generalizing lo with
  | nil => exact Blind.id
  | cons y ys ih => exact (ih (lo + 1)).comp (hG lo y)

theorem runTurns_keeps {β : Type} {view : State → β} (h : ∀ i y s, view (G i y s) = view s) (ys : List γ) (lo : Nat) (s : State) :
    view (runTurns G lo ys s) = view s := by
  induction ys generalizing lo s with
  | nil => rfl
  | cons y ys ih => exact (ih (lo + 1) _).trans (h lo y s)

/-- Entry `j` at the end, where turn `i` writes entry `i` alone. -/
theorem entry_runTurns {ε : Type} {entry : State → Nat → ε} {v : γ → ε → ε} (hself : ∀ i y s, entry (G i y s) i = v y (entry s i))
    (hother : ∀ i y s j, j ≠ i → entry (G i y s) j = entry s j) (ys : List γ) (lo : Nat) (s : State) (j : Nat) (hj : j < ys.length) :
    entry (runTurns G lo ys s) (lo + j) = v ys[j] (entry s (lo + j)) := by
  have hbefore : ∀ (ys : List γ) (lo : Nat) (s : State) (k : Nat), k < lo → entry (runTurns G lo ys s) k = entry s k := fun ys => by
    induction ys with
    | nil => exact fun _ _ _ _ => rfl
    | cons y ys ih => exact fun lo s k hk => (ih (lo + 1) _ k (by omega)).trans (hother lo y s k (by omega))
  induction ys generalizing lo s j with
  | nil => exact absurd hj (Nat.not_lt_zero _)
  | cons y ys ih =>
    cases j with
    | zero => exact (hbefore ys (lo + 1) _ lo (Nat.lt_succ_self _)).trans (hself lo y s)
    | succ j =>
      have h := ih (lo + 1) (G lo y s) j (Nat.lt_of_succ_lt_succ hj)
      rw [Nat.add_right_comm] at h
      exact h.trans (congrArg _ (hother lo y s _ (by omega)))

theorem Parses.forN (hG : ∀ i y, Blind (G i y)) (hst : Steady pre) (hpre : ∀ i y s, pre s → pre (G i y s)) {ys : List γ} {lo : Nat}
    (hf : ∀ i (hi : i < ys.length), Parses pre (F ys[i]) (f (lo + i)) () (G (lo + i) ys[i])) :
    Parses pre (ys.flatMap F) (forN ys.length lo f) () (runTurns G lo ys) := by
  induction ys generalizing lo with
  | nil => exact .pure pre ()
  | cons y ys ih =>
    rw [List.flatMap_cons]
    have hfirst : Parses pre (F y) (f lo) () (G lo y) := hf 0 (Nat.succ_pos _)
    refine Parses.seq (g' := Machine.runTurns G (lo + 1) ys) hfirst (hG _ _) (fun s hs => hpre _ _ _ (hst _ hs)) (ih fun i hi => ?_)
    have hnext := hf (i + 1) (Nat.succ_lt_succ hi)
    rwa [List.getElem_cons_succ, ← Nat.add_assoc, Nat.add_right_comm] at hnext

end

-- the time-domain placeholders (R348)

section

variable {pre : State → Prop} (hst : Steady pre)

include hst

theorem timeLoop_parses (n lo : Nat) : Parses pre (List.replicate n (16, 0)) (forN n lo fun _ => timePlaceholder) () id := by
  induction n generalizing lo with
  | zero => exact .pure pre ()
  | succ n ih =>
    have hone : Parses pre [(16, 0)] timePlaceholder () id := .read hst (by decide) (by decide) fun s hv _ _ => by
      rw [State.past_nil hv]
      rfl
    exact Parses.seq hone Blind.id (fun s hs => hst _ hs) (ih (lo + 1))

theorem timeLoop_stops {n j v : Nat} (hj : j < n) (hv : v < 2 ^ 16) (hne : v ≠ 0) (lo : Nat) :
    Stops pre (List.replicate j (16, 0) ++ [(16, v)]) (forN n lo fun _ => timePlaceholder) (.raise .reservedBits) := by
  induction j generalizing n lo with
  | zero =>
    obtain ⟨n, rfl⟩ := Nat.exists_eq_succ_of_ne_zero hj.ne'
    have hone : Stops pre [(16, v)] timePlaceholder (.raise .reservedBits) := .read hst (by decide) hv (.failing pre hne)
    exact hone.head _
  | succ j ih =>
    obtain ⟨n, rfl⟩ := Nat.exists_eq_succ_of_ne_zero (Nat.ne_of_gt (Nat.zero_lt_of_lt hj))
    have hone : Parses pre [(16, 0)] timePlaceholder () id := .read hst (by decide) (by decide) fun s hv _ _ => by
      rw [State.past_nil hv]
      rfl
    exact Stops.afterSeq (fs := [(16, 0)]) hone Blind.id (fun s hs => hst _ hs) (ih (Nat.lt_of_succ_lt_succ hj) (lo + 1))

end

-- the tables

/-- Codebook `c` is filled (R192 to R204). -/
def State.fillBook (c : Nat) (f : CodebookForm) (s : State) : State := (s.putBook c f.store).putScratch f.lens (trackerOf f.lens)

/-- What the setup of the codebooks makes of the state; the others below, of their tables. -/
def storeBooks (cbs : List CodebookForm) (s : State) : State :=
  runTurns State.fillBook 0 cbs (s.mapCounts fun c => { c with nCodebooks := cbs.length })

def storeFloors (fls : List Floor) (s : State) : State := runTurns State.putFloor 0 fls (s.mapCounts fun c => { c with nFloors := fls.length })

def storeResidues (rss : List (List Bool × Residue)) (s : State) : State :=
  runTurns (fun r p => State.putResidue r p.2) 0 rss (s.mapCounts fun c => { c with nResidues := rss.length })

def storeMappings (mps : List (MappingForm × Mapping)) (s : State) : State :=
  runTurns (fun m p => State.putMapping m fun _ => p.2) 0 mps (s.mapCounts fun c => { c with nMappings := mps.length })

def storeModes (mds : List Mode) (s : State) : State :=
  (runTurns (fun k md => State.putMode k fun _ => md) 0 mds (s.mapCounts fun c => { c with nModes := mds.length })).mapCounts fun c =>
    { c with modeBits := ilog (mds.length - 1) }

theorem runTurns_inv {γ : Type} {G : Nat → γ → State → State} {P : State → Prop} (h : ∀ i y s, P s → P (G i y s)) (ys : List γ) (lo : Nat) {s : State}
    (hs : P s) : P (runTurns G lo ys s) := by
  induction ys generalizing lo s with
  | nil => exact hs
  | cons y ys ih => exact ih (lo + 1) (h lo y s hs)

theorem Blind.fillBook (c : Nat) (f : CodebookForm) : Blind (State.fillBook c f) := ⟨fun _ => rfl, fun _ => rfl, fun _ _ => rfl⟩

theorem Blind.putFloor (f : Nat) (fl : Floor) : Blind (State.putFloor f fl) := ⟨fun _ => rfl, fun _ => rfl, fun _ _ => rfl⟩

theorem Blind.putResidue (r : Nat) (rs : Residue) : Blind (State.putResidue r rs) := ⟨fun _ => rfl, fun _ => rfl, fun _ _ => rfl⟩

theorem Blind.storeBooks (cbs : List CodebookForm) : Blind (storeBooks cbs) := (Blind.runTurns .fillBook cbs 0).comp (.counts _)

theorem Blind.storeFloors (fls : List Floor) : Blind (storeFloors fls) := (Blind.runTurns .putFloor fls 0).comp (.counts _)

theorem Blind.storeResidues (rss : List (List Bool × Residue)) : Blind (storeResidues rss) :=
  (Blind.runTurns (fun r (p : List Bool × Residue) => .putResidue r p.2) rss 0).comp (.counts _)

theorem Blind.storeMappings (mps : List (MappingForm × Mapping)) : Blind (storeMappings mps) :=
  (Blind.runTurns (fun m (p : MappingForm × Mapping) => .putMapping m fun _ => p.2) mps 0).comp (.counts _)

theorem Blind.storeModes (mds : List Mode) : Blind (storeModes mds) :=
  (Blind.counts _).comp ((Blind.runTurns (fun k md => .putMode k fun _ => md) mds 0).comp (.counts _))

/-- The stream has `ch` channels, the codebooks are filled, and the other counts have the property. -/
def Booked (ch : Nat) (cbs : List CodebookForm) (P : Counts → Prop) (s : State) : Prop :=
  s.dec.hdr.channels = ch ∧ s.dec.counts.nCodebooks = cbs.length ∧ P s.dec.counts ∧ ∀ c (h : c < cbs.length), ∃ b, s.codebook c = cbs[c].store b

section

variable {ch : Nat} {cbs : List CodebookForm} {P : Counts → Prop}

theorem Booked.steady : Steady (Booked ch cbs P) := fun _ _ h => h

theorem storeBooks_codebook (s : State) {c : Nat} (h : c < cbs.length) : (storeBooks cbs s).codebook c = cbs[c].store (s.codebook c) := by
  have hentry := entry_runTurns (G := State.fillBook) (entry := State.codebook) (v := CodebookForm.store) (fun i y s => State.codebook_putBook i y.store s)
    (fun i y s j hj => aget_aset_of_ne _ _ hj) cbs 0 (s.mapCounts fun c => { c with nCodebooks := cbs.length }) c h
  rwa [Nat.zero_add] at hentry

theorem booked_storeBooks {s : State} (hs : s.dec.hdr.channels = ch) : Booked ch cbs (fun _ => True) (storeBooks cbs s) := by
  have hregs : (storeBooks cbs s).dec.hdr.channels = ch ∧ (storeBooks cbs s).dec.counts.nCodebooks = cbs.length :=
    runTurns_inv (G := State.fillBook) (P := fun s => s.dec.hdr.channels = ch ∧ s.dec.counts.nCodebooks = cbs.length) (fun _ _ _ h => h) cbs 0 ⟨hs, rfl⟩
  exact ⟨hregs.1, hregs.2, trivial, fun _ h => ⟨_, storeBooks_codebook s h⟩⟩

theorem setupCodebooks_parses (hlo : 1 ≤ cbs.length) (hhi : cbs.length ≤ 256) (hl : cbs.all CodebookForm.legal = true) :
    Parses (fun s => s.dec.hdr.channels = ch) ((8, cbs.length - 1) :: cbs.flatMap CodebookForm.fields) setupCodebooks () (storeBooks cbs) := by
  refine .read (fun _ _ h => h) (by decide) (by omega) ?_
  rw [Nat.sub_add_cancel hlo]
  refine .update (pre' := fun s => s.dec.counts.nCodebooks = cbs.length) (.counts _) (fun _ _ => rfl)
    (.forN .fillBook (fun _ _ h => h) (fun _ _ _ h => h) fun i hi => ?_)
  rw [Nat.zero_add]
  exact (codebookSetup_parses (List.all_eq_true.mp hl _ (List.getElem_mem hi))).mono fun s hs => hs ▸ hi

theorem setupFloors_parses {fls : List Floor} (hlo : 1 ≤ fls.length) (hhi : fls.length ≤ 64) (hl : fls.all (Floor.legal cbs.length) = true) :
    Parses (Booked ch cbs P) ((6, fls.length - 1) :: fls.flatMap fun fl => (16, 1) :: fl.fields) setupFloors () (storeFloors fls) := by
  refine .read Booked.steady (by decide) (by omega) ?_
  rw [Nat.sub_add_cancel hlo]
  refine .update (pre' := fun s => s.dec.counts.nFloors = fls.length ∧ s.dec.counts.nCodebooks = cbs.length) (.counts _) (fun _ hs => ⟨rfl, hs.2.1⟩)
    (.forN .putFloor (fun _ _ h => h) (fun _ _ _ h => h) fun i hi => ?_)
  rw [Nat.zero_add]
  have hbody := floorBody_parses (f := i) (List.all_eq_true.mp hl _ (List.getElem_mem hi))
  exact Parses.mono (pre' := FloorIn i cbs.length) (fun s hs => ⟨hs.1 ▸ hi, hs.2⟩)
    (.check FloorIn.operand (.read FloorIn.steady (by decide) (by decide) hbody))

theorem CodebookForm.store_dim (f : CodebookForm) (b : Codebook) : (f.store b).dim = f.dim := by
  rw [CodebookForm.store]
  cases f.lookup <;> rfl

theorem CodebookForm.store_lookupType {f : CodebookForm} (h : f.lookup.isSome = true) (b : Codebook) : (f.store b).lookupType ≠ 0 := by
  obtain ⟨⟨explicit, l⟩, hl⟩ := Option.isSome_iff_exists.mp h
  rw [CodebookForm.store, hl]
  cases explicit <;> exact nofun

/-- A residue of a legal setup header passes its checks, once the codebooks are filled. -/
theorem residueFits_of_booked {rs : Residue} {flags : List Bool} {r : Nat} {s : State} (hs : Booked ch cbs P s) (hr : r < s.dec.counts.nResidues)
    (hl : rs.legal cbs.length flags = true) (hclass : classbookLegal cbs rs = true) (hpass : passBooksLegal cbs rs = true) : ResidueFits r rs s := by
  obtain ⟨-, hn, -, hbooks⟩ := hs
  have hknown := Residue.books_of_legal hl
  refine ⟨hr, hn ▸ hknown, ?_, Residue.range_of_legal hl, List.all_eq_true.mpr fun row hrow => List.all_eq_true.mpr fun b hb => ?_⟩
  · obtain ⟨b, hb⟩ := hbooks _ hknown.1
    rw [hb, CodebookForm.store_dim]
    simpa [classbookLegal, List.getElem?_eq_getElem hknown.1] using hclass
  · cases b with
    | none => rfl
    | some k =>
      have hk : k < cbs.length := booksBelow_eq_true.mp hknown.2 row hrow _ hb k rfl
      have hlook := List.all_eq_true.mp (List.all_eq_true.mp hpass row hrow) _ hb
      rw [Option.all_some, List.getElem?_eq_getElem hk, Option.bind_some] at hlook
      obtain ⟨b, hb⟩ := hbooks k hk
      simpa [hb] using CodebookForm.store_lookupType hlook b

theorem setupResidues_parses {rss : List (List Bool × Residue)} (hlo : 1 ≤ rss.length) (hhi : rss.length ≤ 64)
    (hl : rss.all (fun p => p.2.legal cbs.length p.1 && classbookLegal cbs p.2 && passBooksLegal cbs p.2) = true) :
    Parses (Booked ch cbs P) ((6, rss.length - 1) :: rss.flatMap fun p => (16, p.2.rtype) :: p.2.fields p.1) setupResidues () (storeResidues rss) := by
  refine .read Booked.steady (by decide) (by omega) ?_
  rw [Nat.sub_add_cancel hlo]
  refine .update (pre' := Booked ch cbs fun c => c.nResidues = rss.length) (.counts _) (fun _ hs => ⟨hs.1, hs.2.1, rfl, hs.2.2.2⟩)
    (.forN (fun r (p : List Bool × Residue) => .putResidue r p.2) Booked.steady (fun _ _ _ h => h) fun i hi => ?_)
  rw [Nat.zero_add]
  have hlegal := List.all_eq_true.mp hl _ (List.getElem_mem hi)
  simp only [Bool.and_eq_true] at hlegal
  obtain ⟨⟨hres, hclass⟩, hpass⟩ := hlegal
  have hread := Residue.readable_of_legal hres
  exact (residueSetup_parses hread (Residue.rtype_le hread)).mono fun s hs => residueFits_of_booked hs (hs.2.2.1 ▸ hi) hres hclass hpass

theorem setupMappings_parses {mps : List (MappingForm × Mapping)} {nf nr : Nat} (hch : ch < 2 ^ 8) (hlo : 1 ≤ mps.length) (hhi : mps.length ≤ 64)
    (hl : mps.all (fun p => p.1.legal ch nf nr p.2) = true) :
    Parses (Booked ch cbs fun c => c.nFloors = nf ∧ c.nResidues = nr) ((6, mps.length - 1) :: mps.flatMap fun p => (16, 0) :: p.1.fields ch p.2)
      setupMappings () (storeMappings mps) := by
  refine .read Booked.steady (by decide) (by omega) ?_
  rw [Nat.sub_add_cancel hlo]
  refine .update (pre' := Booked ch cbs fun c => c.nMappings = mps.length ∧ c.nFloors = nf ∧ c.nResidues = nr) (.counts _)
    (fun _ hs => ⟨hs.1, hs.2.1, ⟨rfl, hs.2.2.1⟩, hs.2.2.2⟩)
    (.forN (fun m (p : MappingForm × Mapping) => .putMapping m fun _ => p.2) Booked.steady (fun _ _ _ h => h) fun i hi => ?_)
  rw [Nat.zero_add]
  have hbody := mappingBody_parses (m := i) (P := fun _ => True) hch (List.all_eq_true.mp hl _ (List.getElem_mem hi))
  exact (mappingSetup_of_body hbody).mono fun s hs => ⟨hs.2.2.1.1 ▸ hi, hs.1, hs.2.2.1.2.1, hs.2.2.1.2.2, trivial⟩

theorem setupModes_parses {mds : List Mode} {nm : Nat} (hnm : nm ≤ 64) (hlo : 1 ≤ mds.length) (hhi : mds.length ≤ 64)
    (hl : mds.all (fun md => md.mapping < nm) = true) :
    Parses (Booked ch cbs fun c => c.nMappings = nm) ((6, mds.length - 1) :: mds.flatMap Mode.fields) setupModes () (storeModes mds) := by
  have hloop : Parses (fun s => s.dec.counts.nModes = mds.length ∧ s.dec.counts.nMappings = nm) (mds.flatMap Mode.fields) (forN mds.length 0 modeSetup) ()
      (runTurns (fun k md => State.putMode k fun _ => md) 0 mds) := by
    refine .forN (fun k md => .putMode k fun _ => md) (fun _ _ h => h) (fun _ _ _ h => h) fun i hi => ?_
    rw [Nat.zero_add]
    have hm : mds[i].mapping < nm := by simpa using List.all_eq_true.mp hl _ (List.getElem_mem hi)
    exact Parses.mono (pre' := ModeIn i nm) (fun s hs => ⟨hs.1 ▸ hi, hs.2⟩) (modeSetup_parses hm (by omega))
  have hend := hloop.seq (.runTurns (fun k md => .putMode k fun _ => md) mds 0) (fun _ _ => trivial)
    (.last (fun _ => True) (State.mapCounts fun c => { c with modeBits := ilog (mds.length - 1) }))
  rw [List.append_nil] at hend
  refine .read Booked.steady (by decide) (by omega) ?_
  rw [Nat.sub_add_cancel hlo]
  exact .update (.counts _) (fun _ hs => ⟨rfl, hs.2.2.1⟩) hend

end

-- the whole header

/-- The setup header up to its framing flag. -/
def setupBody : M Unit := do
  setupCodebooks
  timePlaceholders
  setupFloors
  setupResidues
  setupMappings
  setupModes

theorem headerSetup_eq : headerSetup = (do setupBody; setupEnd) := by
  simp only [setupBody, M.bind_assoc]
  rfl

/-- What a setup header makes of the state, but for the cursor. -/
def SetupForm.storeAll (su : SetupForm) (s : State) : State :=
  storeModes su.modes (storeMappings su.mappings (storeResidues su.residues (storeFloors su.floors (storeBooks su.codebooks s))))

section

variable {su : SetupForm} {ch : Nat}

theorem countLegal_eq_true {n most : Nat} : countLegal n most = true ↔ 1 ≤ n ∧ n ≤ most := by simp [countLegal]

theorem Blind.storeAll (su : SetupForm) : Blind su.storeAll :=
  (Blind.storeModes _).comp ((Blind.storeMappings _).comp ((Blind.storeResidues _).comp ((Blind.storeFloors _).comp (.storeBooks _))))

theorem booked_storeFloors {cbs : List CodebookForm} {P : Counts → Prop} {fls : List Floor} {s : State} (hs : Booked ch cbs P s) :
    Booked ch cbs (fun c => c.nFloors = fls.length) (storeFloors fls s) :=
  runTurns_inv (G := State.putFloor) (P := Booked ch cbs fun c => c.nFloors = fls.length) (fun _ _ _ h => h) fls 0 ⟨hs.1, hs.2.1, rfl, hs.2.2.2⟩

theorem booked_storeResidues {cbs : List CodebookForm} {nf : Nat} {rss : List (List Bool × Residue)} {s : State} (hs : Booked ch cbs (fun c => c.nFloors = nf) s) :
    Booked ch cbs (fun c => c.nFloors = nf ∧ c.nResidues = rss.length) (storeResidues rss s) :=
  runTurns_inv (G := fun r (p : List Bool × Residue) => State.putResidue r p.2) (P := Booked ch cbs fun c => c.nFloors = nf ∧ c.nResidues = rss.length) (fun _ _ _ h => h) rss 0
    ⟨hs.1, hs.2.1, ⟨hs.2.2.1, rfl⟩, hs.2.2.2⟩

theorem booked_storeMappings {cbs : List CodebookForm} {P : Counts → Prop} {mps : List (MappingForm × Mapping)} {s : State} (hs : Booked ch cbs P s) :
    Booked ch cbs (fun c => c.nMappings = mps.length) (storeMappings mps s) :=
  runTurns_inv (G := fun m (p : MappingForm × Mapping) => State.putMapping m fun _ => p.2) (P := Booked ch cbs fun c => c.nMappings = mps.length) (fun _ _ _ h => h) mps 0
    ⟨hs.1, hs.2.1, rfl, hs.2.2.2⟩

theorem timePlaceholders_parses {pre : State → Prop} (hst : Steady pre) {n : Nat} (hlo : 1 ≤ n) (hhi : n ≤ 64) :
    Parses pre ((6, n - 1) :: List.replicate n (16, 0)) timePlaceholders () id := by
  refine .read hst (by decide) (by omega) ?_
  rw [Nat.sub_add_cancel hlo]
  exact timeLoop_parses hst n 0

theorem setupBody_parses (hch : ch < 2 ^ 8) (hl : su.legal ch = true) : Parses (fun s => s.dec.hdr.channels = ch) (su.body ch) setupBody () su.storeAll := by
  simp only [SetupForm.legal, Bool.and_eq_true, and_assoc] at hl
  obtain ⟨hcb, htime, hfl, hrs, hmp, hmd, hbooks, hfloors, hresidues, hmappings, hmodes⟩ := hl
  simp only [countLegal_eq_true, Config.maxCodebooks, Config.maxTables] at hcb htime hfl hrs hmp hmd
  have hmodes := setupModes_parses (ch := ch) (cbs := su.codebooks) hmp.2 hmd.1 hmd.2 hmodes
  have hmappings := (setupMappings_parses (cbs := su.codebooks) hch hmp.1 hmp.2 hmappings).seq (.storeMappings _)
    (fun s hs => booked_storeMappings (s := s.past _) (Booked.steady _ hs)) hmodes
  have hresidues := (setupResidues_parses (ch := ch) (P := fun c => c.nFloors = su.floors.length) hrs.1 hrs.2 hresidues).seq (.storeResidues _)
    (fun s hs => booked_storeResidues (s := s.past _) hs) hmappings
  have hfloors := (setupFloors_parses (ch := ch) (P := fun _ => True) hfl.1 hfl.2 hfloors).seq (.storeFloors _)
    (fun s hs => booked_storeFloors (s := s.past _) (Booked.steady _ hs)) hresidues
  have htimes := (timePlaceholders_parses (Booked.steady (ch := ch) (cbs := su.codebooks) (P := fun _ => True)) htime.1 htime.2).seq Blind.id
    (fun s hs => Booked.steady _ hs) hfloors
  have hall := (setupCodebooks_parses (ch := ch) hcb.1 hcb.2 hbooks).seq (.storeBooks _) (fun s hs => booked_storeBooks (s := s.past _) hs) htimes
  simp only [SetupForm.body, List.append_assoc]
  exact hall

theorem headerSetup_parses (hch : ch < 2 ^ 8) (hl : su.legal ch = true) :
    Parses (fun s => s.dec.hdr.channels = ch) (su.fields ch) headerSetup () fun s => (su.storeAll s).aligned := by
  rw [headerSetup_eq]
  refine Parses.seq (g' := State.aligned) (pre' := fun _ => True) (setupBody_parses hch hl) (.storeAll su) (fun _ _ => trivial)
    (.read (fun _ _ h => h) (by decide) (by decide) fun s hv _ _ => ?_)
  rw [State.past_nil hv]
  rfl

/-- A placeholder that is not 0, after the codebooks and some placeholders that are (R348). -/
theorem headerSetup_stops_time {j v : Nat} (hl : su.legal ch = true) (hj : j < su.timeCount) (hv : v < 2 ^ 16) (hne : v ≠ 0) :
    Stops (fun s => s.dec.hdr.channels = ch)
      ((8, su.codebooks.length - 1) :: su.codebooks.flatMap CodebookForm.fields ++ (6, su.timeCount - 1) :: List.replicate j (16, 0) ++ [(16, v)])
      headerSetup (.raise .reservedBits) := by
  simp only [SetupForm.legal, Bool.and_eq_true, and_assoc] at hl
  obtain ⟨hcb, htime, -, -, -, -, hbooks, -, -, -, -⟩ := hl
  simp only [countLegal_eq_true, Config.maxCodebooks, Config.maxTables] at hcb htime
  have hst := Booked.steady (ch := ch) (cbs := su.codebooks) (P := fun _ => True)
  have htimes : Stops (Booked ch su.codebooks fun _ => True) ((6, su.timeCount - 1) :: (List.replicate j (16, 0) ++ [(16, v)])) timePlaceholders
      (.raise .reservedBits) := .read hst (by decide) (by omega) (timeLoop_stops hst (by omega) hv hne 0)
  rw [List.append_assoc]
  exact .afterSeq (setupCodebooks_parses hcb.1 hcb.2 hbooks) (.storeBooks _) (fun s hs => booked_storeBooks (s := s.past _) hs) (htimes.head _)

/-- A framing flag that is not set (R349). -/
theorem headerSetup_stops_framing (hch : ch < 2 ^ 8) (hl : su.legal ch = true) :
    Stops (fun s => s.dec.hdr.channels = ch) (su.body ch ++ [(1, 0)]) headerSetup (.raise .badFraming) := by
  rw [headerSetup_eq]
  exact .afterSeq (pre' := fun _ => True) (setupBody_parses hch hl) (.storeAll su) (fun _ _ => trivial)
    (.read (fun _ _ h => h) (by decide) (by decide) ((Stops.failing _ (by decide)).head _))

-- what stands in the state at the end

/-- The state with all that a setup header fills blanked. -/
def setupBlank (s : State) : State :=
  { s with dec := { s.dec with counts := default, tabs := Tables.empty, work := { s.dec.work with len := [], nextFree := [] } } }

section

variable {β : Type} {view : State → β} (hcounts : ∀ f s, view (State.mapCounts f s) = view s)

include hcounts

theorem storeBooks_keeps (h : ∀ c f s, view (State.fillBook c f s) = view s) (cbs : List CodebookForm) (s : State) : view (storeBooks cbs s) = view s :=
  (runTurns_keeps h cbs 0 _).trans (hcounts _ s)

theorem storeFloors_keeps (h : ∀ k fl s, view (State.putFloor k fl s) = view s) (fls : List Floor) (s : State) : view (storeFloors fls s) = view s :=
  (runTurns_keeps h fls 0 _).trans (hcounts _ s)

theorem storeResidues_keeps (h : ∀ r rs s, view (State.putResidue r rs s) = view s) (rss : List (List Bool × Residue)) (s : State) :
    view (storeResidues rss s) = view s := (runTurns_keeps (G := fun r (p : List Bool × Residue) => State.putResidue r p.2) (fun r p => h r p.2) rss 0 _).trans (hcounts _ s)

theorem storeMappings_keeps (h : ∀ m g s, view (State.putMapping m g s) = view s) (mps : List (MappingForm × Mapping)) (s : State) :
    view (storeMappings mps s) = view s := (runTurns_keeps (G := fun m (p : MappingForm × Mapping) => State.putMapping m fun _ => p.2) (fun m p => h m fun _ => p.2) mps 0 _).trans (hcounts _ s)

theorem storeModes_keeps (h : ∀ k g s, view (State.putMode k g s) = view s) (mds : List Mode) (s : State) : view (storeModes mds s) = view s :=
  (hcounts _ _).trans ((runTurns_keeps (fun k md => h k fun _ => md) mds 0 _).trans (hcounts _ s))

end

theorem storeFloors_floor (s : State) {fls : List Floor} {k : Nat} (h : k < fls.length) : (storeFloors fls s).floor k = fls[k] := by
  have hentry := entry_runTurns (G := State.putFloor) (entry := State.floor) (v := fun fl _ => fl) (fun _ _ _ => aget_aset_self _ _ _)
    (fun _ _ _ _ hj => aget_aset_of_ne _ _ hj) fls 0 (s.mapCounts fun c => { c with nFloors := fls.length }) k h
  rwa [Nat.zero_add] at hentry

theorem storeResidues_residue (s : State) {rss : List (List Bool × Residue)} {r : Nat} (h : r < rss.length) : (storeResidues rss s).residue r = rss[r].2 := by
  have hentry := entry_runTurns (G := fun r (p : List Bool × Residue) => State.putResidue r p.2) (entry := State.residue) (v := fun p _ => p.2)
    (fun _ _ _ => aget_aset_self _ _ _) (fun _ _ _ _ hj => aget_aset_of_ne _ _ hj) rss 0 (s.mapCounts fun c => { c with nResidues := rss.length }) r h
  rwa [Nat.zero_add] at hentry

theorem storeMappings_mapping (s : State) {mps : List (MappingForm × Mapping)} {m : Nat} (h : m < mps.length) : (storeMappings mps s).mapping m = mps[m].2 := by
  have hentry := entry_runTurns (G := fun m (p : MappingForm × Mapping) => State.putMapping m fun _ => p.2) (entry := State.mapping) (v := fun p _ => p.2)
    (fun _ _ _ => aget_aset_self _ _ _) (fun _ _ _ _ hj => aget_aset_of_ne _ _ hj) mps 0 (s.mapCounts fun c => { c with nMappings := mps.length }) m h
  rwa [Nat.zero_add] at hentry

theorem storeModes_mode (s : State) {mds : List Mode} {k : Nat} (h : k < mds.length) : (storeModes mds s).mode k = mds[k] := by
  have hentry := entry_runTurns (G := fun k md => State.putMode k fun _ => md) (entry := State.mode) (v := fun md _ => md)
    (fun _ _ _ => aget_aset_self _ _ _) (fun _ _ _ _ hj => aget_aset_of_ne _ _ hj) mds 0 (s.mapCounts fun c => { c with nModes := mds.length }) k h
  rw [Nat.zero_add] at hentry
  exact hentry

theorem storeAll_counts (s : State) : (su.storeAll s).dec.counts = su.counts := by
  have hb := runTurns_keeps (G := State.fillBook) (view := fun s => s.dec.counts) (fun _ _ _ => rfl) su.codebooks 0
  have hf := runTurns_keeps (G := State.putFloor) (view := fun s => s.dec.counts) (fun _ _ _ => rfl) su.floors 0
  have hr := runTurns_keeps (G := fun r (p : List Bool × Residue) => State.putResidue r p.2) (view := fun s => s.dec.counts) (fun _ _ _ => rfl) su.residues 0
  have hm := runTurns_keeps (G := fun m (p : MappingForm × Mapping) => State.putMapping m fun _ => p.2) (view := fun s => s.dec.counts) (fun _ _ _ => rfl) su.mappings 0
  have hd := runTurns_keeps (G := fun k md => State.putMode k fun _ => md) (view := fun s => s.dec.counts) (fun _ _ _ => rfl) su.modes 0
  simp only [SetupForm.storeAll, storeModes, storeMappings, storeResidues, storeFloors, storeBooks, State.mapCounts, hd, hm, hr, hf, hb]
  rfl

theorem storeAll_stored (s : State) : su.Stored s (su.storeAll s) := by
  refine ⟨storeAll_counts s, fun c hc => ?_, fun k hk => ?_, fun r hr => ?_, fun m hm => ?_, fun k hk => ?_⟩
  · rw [SetupForm.storeAll, storeModes_keeps (view := fun s => s.codebook c) (fun _ _ => rfl) (fun _ _ _ => rfl),
      storeMappings_keeps (view := fun s => s.codebook c) (fun _ _ => rfl) (fun _ _ _ => rfl),
      storeResidues_keeps (view := fun s => s.codebook c) (fun _ _ => rfl) (fun _ _ _ => rfl),
      storeFloors_keeps (view := fun s => s.codebook c) (fun _ _ => rfl) (fun _ _ _ => rfl), storeBooks_codebook s hc]
  · rw [SetupForm.storeAll, storeModes_keeps (view := fun s => s.floor k) (fun _ _ => rfl) (fun _ _ _ => rfl),
      storeMappings_keeps (view := fun s => s.floor k) (fun _ _ => rfl) (fun _ _ _ => rfl),
      storeResidues_keeps (view := fun s => s.floor k) (fun _ _ => rfl) (fun _ _ _ => rfl), storeFloors_floor _ hk]
  · rw [SetupForm.storeAll, storeModes_keeps (view := fun s => s.residue r) (fun _ _ => rfl) (fun _ _ _ => rfl),
      storeMappings_keeps (view := fun s => s.residue r) (fun _ _ => rfl) (fun _ _ _ => rfl), storeResidues_residue _ hr]
  · rw [SetupForm.storeAll, storeModes_keeps (view := fun s => s.mapping m) (fun _ _ => rfl) (fun _ _ _ => rfl), storeMappings_mapping _ hm]
  · rw [SetupForm.storeAll, storeModes_mode _ hk]

/-- Nothing else is touched. -/
theorem storeAll_blank (s : State) : setupBlank (su.storeAll s) = setupBlank s := by
  rw [SetupForm.storeAll, storeModes_keeps (view := setupBlank) (fun _ _ => rfl) (fun _ _ _ => rfl),
    storeMappings_keeps (view := setupBlank) (fun _ _ => rfl) (fun _ _ _ => rfl), storeResidues_keeps (view := setupBlank) (fun _ _ => rfl) (fun _ _ _ => rfl),
    storeFloors_keeps (view := setupBlank) (fun _ _ => rfl) (fun _ _ _ => rfl), storeBooks_keeps (view := setupBlank) (fun _ _ => rfl) (fun _ _ _ => rfl)]

end

/-- States that agree but for what a setup header fills. -/
theorem eq_of_setupBlank {u w : State} (h : setupBlank w = setupBlank u) :
    w.src = u.src ∧ w.srcPos = u.srcPos ∧ w.dec.hdr = u.dec.hdr ∧ w.dec.frame = u.dec.frame ∧ w.dec.pre = u.dec.pre ∧
      w.dec.work = { u.dec.work with len := w.dec.work.len, nextFree := w.dec.work.nextFree } ∧ w.free = u.free ∧ w.phase = u.phase ∧ w.err = u.err ∧
      w.ret = u.ret ∧ w.cmd = u.cmd ∧ w.out = u.out ∧ w.script = u.script := by
  have hview : ∀ {β : Type} (view : State → β), view (setupBlank w) = view (setupBlank u) := fun view => congrArg view h
  have hwork := hview fun v => (v.putScratch w.dec.work.len w.dec.work.nextFree).dec.work
  exact ⟨hview State.src, hview State.srcPos, hview fun v => v.dec.hdr, hview fun v => v.dec.frame, hview fun v => v.dec.pre, hwork,
    hview State.free, hview State.phase, hview State.err, hview State.ret, hview State.cmd, hview State.out, hview State.script⟩

/-- Settles O46: the header takes its fields, fills its tables, and discards the bits left. -/
theorem setupHeaderStores : Obligations.SetupHeaderStores := by
  intro s su hv hch hl hr
  obtain ⟨hsrc, hpos, hhdr, hframe, hpre, hwork, hfree, hphase, herr, hret, hcmd, hout, hscript⟩ :=
    eq_of_setupBlank (storeAll_blank (su := su) (s.past (su.fields s.dec.hdr.channels)))
  have hexec : exec .hdrSetup s = .next ((su.storeAll (s.past (su.fields s.dec.hdr.channels))).aligned.setResult .none) :=
    (headerSetup_parses hch hl).exec hv hr rfl
  have hstored : su.Stored s (su.storeAll (s.past (su.fields s.dec.hdr.channels))) := storeAll_stored (s.past _)
  generalize su.storeAll (s.past (su.fields s.dec.hdr.channels)) = w at *
  simp only [State.past, State.advance_hdr, State.advance_frame, State.advance_pre, State.advance_work, State.advance_free, State.advance_phase, State.advance_err,
    State.advance_ret, State.advance_cmd, State.advance_out, State.advance_script] at hhdr hframe hpre hwork hfree hphase herr hret hcmd hout hscript
  exact ⟨_, hexec, hstored, rfl, hsrc, hpos, hhdr, hframe, hpre, hwork, hfree, hphase, herr, hret, hcmd,
    hout, hscript, rfl⟩

end Sys2Proof.Machine
end

section
/-! PROOF. The header type selectors and SETUP (46_frame_output R342, R343): the tags, the bodies after them, and the tables of the two block sizes. -/

namespace Sys2Proof.Machine

section

variable {s : State}

theorem tagCheck_wrongType {t type : Byte} (h : t ≠ type) (sync : List Byte) (s : State) : tagCheck t type sync s = .error (.raise .badHeaderTag) s :=
  M.bind_error (M.run_ensure_neg (Ne.symm h) _ s)

theorem tagCheck_wrongSync {sync : List Byte} (h : sync ≠ syncBytes) (t : Byte) (s : State) : tagCheck t t sync s = .error (.raise .badSync) s :=
  (M.bind_ok (M.run_ensure_pos rfl _ s)).trans (M.run_ensure_neg h _ s)

theorem tagCheck_ok (t : Byte) (s : State) : tagCheck t t syncBytes s = .ok () s := (M.bind_ok (M.run_ensure_pos rfl _ s)).trans (M.run_ensure_pos rfl _ s)

/-- A body whose tag does not pass is not run. -/
theorem microUnit_of_tag {t type : Byte} {sync : List Byte} {c : Cause} (h : tagCheck t type sync s = .error (.raise c) s) (body : M Unit) :
    microUnit (do tagCheck t type sync; body) s = .next (s.raise c) := microUnit_of_error (M.bind_error h)

end

/-- Settles O47: the checks of the tag in their order, then what the body alone does. -/
theorem headerTypesRun : Obligations.HeaderTypesRun := by
  intro s t sync
  refine ⟨⟨fun h => microUnit_of_tag (tagCheck_wrongType h sync s) _, fun h => microUnit_of_tag (tagCheck_wrongType h sync s) _,
    fun h => microUnit_of_tag (tagCheck_wrongType h sync s) _⟩, fun h => ⟨microUnit_of_tag (tagCheck_wrongSync h _ s) _,
    microUnit_of_tag (tagCheck_wrongSync h _ s) _, microUnit_of_tag (tagCheck_wrongSync h _ s) _⟩, fun id rest hb hl hs => ?_, fun cm rest hb hl hs => ?_,
    fun su hv hch hl hr => ?_⟩
  · exact microUnit_of_ok ((M.bind_ok (tagCheck_ok _ s)).trans (headerIdent_ok hb hl hs))
  · exact microUnit_of_ok ((M.bind_ok (tagCheck_ok _ s)).trans (headerComment_ok hb hl hs))
  · obtain ⟨u, hexec, hstored, hbits, -⟩ := setupHeaderStores s su hv hch hl hr
    exact ⟨u, (microUnit_bind_ok (tagCheck_ok _ s)).trans hexec, hstored, hbits⟩

-- SETUP (R342)

/-- The three headers up to the body of the last. -/
def headersBefore : M Unit := do
  headerTag 0x01#8
  headerIdent
  headerTag 0x03#8
  headerComment
  headerTag 0x05#8

/-- The state in which the tables of both block sizes have been written and the decoder is ready. -/
def State.prepared (s : State) : State :=
  (((((s.setPhase .hdrs).putTables false BlockTables.window).putTables true BlockTables.window).putTables false BlockTables.imdct).putTables true
    BlockTables.imdct).setPhase .ready

theorem setupStream_eq : setupStream = (do headersBefore; headerSetup; M.update State.prepared) := by
  simp only [headersBefore, M.bind_assoc]
  rfl

section

variable {s : State} {id : IdentForm} {cm : CommentForm} {tail : List Byte}

theorem headersBefore_ok (hb : s.dec.bits.nbits = 0) (hid : id.Legal) (hcm : cm.Legal)
    (hs : s.src.bytes = tagBytes 0x01#8 ++ id.bytes ++ (tagBytes 0x03#8 ++ cm.bytes ++ (tagBytes 0x05#8 ++ tail))) :
    headersBefore s = .ok () ((s.dropBytes (s.src.bytes.length - tail.length)).mapHdr fun _ => id.regs) := by
  have hlen := id.length_bytes hid.1
  have hcount : s.src.bytes.length - tail.length = 7 + 23 + 7 + cm.bytes.length + 7 := by
    have htag : ∀ t, (tagBytes t).length = 7 := fun _ => rfl
    rw [hs]
    simp only [List.length_append, htag, hlen]
    omega
  have h1 : s.src.bytes.drop 7 = id.bytes ++ (tagBytes 0x03#8 ++ cm.bytes ++ (tagBytes 0x05#8 ++ tail)) := by
    rw [hs, List.append_assoc]
    exact List.drop_left' rfl
  have h2 : s.src.bytes.drop (7 + 23) = tagBytes 0x03#8 ++ (cm.bytes ++ (tagBytes 0x05#8 ++ tail)) := by
    rw [← List.drop_drop, h1, List.drop_left' hlen, List.append_assoc]
  have h3 : s.src.bytes.drop (7 + 23 + 7) = cm.bytes ++ (tagBytes 0x05#8 ++ tail) := by
    rw [← List.drop_drop, h2]
    exact List.drop_left' rfl
  have h4 : s.src.bytes.drop (7 + 23 + 7 + cm.bytes.length) = tagBytes 0x05#8 ++ tail := by rw [← List.drop_drop, h3, List.drop_left]
  let u : Nat → State := fun k => (s.dropBytes k).mapHdr fun _ => id.regs
  have hu : ∀ j k, (u j).dropBytes k = u (j + k) := fun j k => congrArg (State.mapHdr fun _ => id.regs) (State.dropBytes_dropBytes j k s)
  have hident : headerIdent (s.dropBytes 7) = .ok () (u (7 + 23)) := (headerIdent_ok (s := s.dropBytes 7) hb hid h1).trans (by rw [State.dropBytes_dropBytes])
  rw [headersBefore, M.bind_ok (headerTag_ok hb (hs.trans (List.append_assoc ..))), M.bind_ok hident, M.bind_ok (headerTag_ok (s := u (7 + 23)) hb h2), hu,
    M.bind_ok (headerComment_ok (s := u (7 + 23 + 7)) hb hcm h3), hu, headerTag_ok (s := u (7 + 23 + 7 + cm.bytes.length)) hb h4, hu, hcount]

/-- What `SETUP` leaves of the state before its last steps. -/
theorem State.prepared_tables (u : State) (b : Bool) :
    (u.prepared.dec.pre.get b).winCur.length = u.block b / 2 ∧ (u.prepared.dec.pre.get b).winPrev.length = u.block b / 2 ∧
      (u.prepared.dec.pre.get b).bitrev.length = u.block b / 8 := by
  cases b
  all_goals
    refine ⟨?_, ?_, ?_⟩
    all_goals exact (List.length_map ..).trans List.length_range

end

/-- Settles O8: the three headers are read, the tables of both block sizes are written, and the decoder is ready. -/
theorem setupReachesReady : Obligations.SetupReachesReady := by
  intro s id cm su tail hphase hbits hid hcm hl hs hr
  generalize hk : s.src.bytes.length - tail.length = k
  have hdrop : s.src.bytes.drop k = tail := by
    rw [← hk, hs, ← List.append_assoc, ← List.append_assoc, List.length_append, Nat.add_sub_cancel]
    exact List.drop_left
  let u := (s.dropBytes k).mapHdr fun _ => id.regs
  have hbefore : headersBefore s = .ok () u := by
    rw [headersBefore_ok (by rw [hbits]; rfl) hid hcm hs, hk]
  have hubits : u.dec.bits = BitReader.empty := hbits
  have hvalid : u.dec.bits.Valid := by
    rw [hubits]
    decide
  have hahead : u.Reads (su.fields id.channels.toNat) := by
    rw [State.Reads, State.ahead, hubits, show u.src.bytes = tail from hdrop]
    exact hr
  have hbytes : u.bytesFor (fieldBits (su.fields id.channels.toNat)).length = ((fieldBits (su.fields id.channels.toNat)).length + 7) / 8 := by
    rw [State.bytesFor, hubits]
    rfl
  have hch : id.channels.toNat < 2 ^ 8 := id.channels.isLt
  have hsetup := headerSetup_parses hch hl hvalid hahead rfl
  have hrun : setupStream s = .ok () (su.storeAll (u.past (su.fields id.channels.toNat))).aligned.prepared := by
    rw [setupStream_eq, M.bind_ok hbefore, M.bind_ok hsetup]
    rfl
  have hstored : su.Stored s (su.storeAll (u.past (su.fields id.channels.toNat))) := storeAll_stored (u.past _)
  obtain ⟨hsrc, hpos, hhdr, hframe, hpre, -, -, -, herr, -, hcmd, hout, hscript⟩ :=
    eq_of_setupBlank (storeAll_blank (su := su) (u.past (su.fields id.channels.toNat)))
  generalize su.storeAll (u.past (su.fields id.channels.toNat)) = w at *
  refine ⟨_, command_of_ok (m := setupStream) hphase hrun, rfl, herr, congrArg retDone herr, rfl, hhdr, hstored, hframe, w.aligned.prepared_tables, ?_, ?_, hcmd,
    hout, hscript⟩
  · refine (congrArg ByteSource.bytes hsrc).trans ((State.advance_bytes _ u).trans ?_)
    rw [hbytes, show u.src.bytes = tail from hdrop]
  · refine hpos.trans ((State.advance_srcPos _ u).trans ?_)
    rw [hbytes]
    rfl

end Sys2Proof.Machine
end

section
/-! PROOF. The fields that setup refuses (41_codebook to 44_mapping_mode, 46_frame_output), each after what a header holds before it. -/

namespace Sys2Proof.Machine

-- codebooks (R192, R196, R200)

/-- Codebook `c` exists, and its length list has been read. -/
def Listed (c : Nat) (lens : List Nat) (s : State) : Prop := c < s.dec.counts.nCodebooks ∧ s.dec.work.len = lens

section

variable {c : Nat} {lens : List Nat}

theorem Listed.steady : Steady (Listed c lens) := fun _ _ h => h

theorem codebookSetup_stops_sync {w : Nat} (hw : w < 2 ^ 24) (hne : w ≠ 0x564342) :
    Stops (BookHas c fun _ => True) [(24, w)] (codebookSetup c) (.raise .badSync) :=
  .check (fun _ h => h.operand) (.read BookHas.steady (by decide) hw ((Stops.failing _ hne).head _))

/-- What stops after the length list stops the codebook. -/
theorem codebookSetup_stops_rest {f : CodebookForm} (hdim : f.dim < 2 ^ 16) (hlens : f.lens.length < 2 ^ 24) (hform : f.lenForm.legal f.lens = true)
    {fs : List (Nat × Nat)} {x : Stop} (hstop : Stops (Listed c f.lens) fs (do assignCodes c; lookupPart c) x) :
    Stops (BookHas c fun _ => True) ([(24, 0x564342), (16, f.dim), (24, f.lens.length)] ++ f.lenForm.fields f.lens ++ fs) (codebookSetup c) x := by
  have hlist := (Stops.afterSeq (lengthList_parses (c := c) (P := fun b => b.entries = f.lens.length) (fun _ h => h) hlens hform) (.putLens f.lens)
    (fun s hs => ⟨hs.1, rfl⟩) hstop).assoc
  have hput : ∀ {P Q : Codebook → Prop} {g : Codebook → Codebook} {k : M Unit} {fs : List (Nat × Nat)}, (∀ b, P b → Q (g b)) → Stops (BookHas c Q) fs k x →
      Stops (BookHas c P) fs (setCodebook c g >>= fun _ => k) x := fun hg hk s hv hr hs => hk (s := s.putBook c _) hv hr (hs.put hg)
  rw [List.append_assoc]
  exact .check (fun _ h => h.operand) (.read BookHas.steady (by decide) (by decide) (.ensure rfl (.read BookHas.steady (by decide) hdim
    (hput (Q := fun _ => True) (fun _ _ => trivial) (.read BookHas.steady (by decide) hlens (hput (fun _ _ => rfl) hlist))))))

theorem assignCodes_stops (h : assignFrom 0 lens = none) : Stops (Listed c lens) [] (assignCodes c) (.raise .oversubscribed) := fun s _ _ hs => by
  refine ⟨s, ?_⟩
  rw [assignCodes, M.bind_ok (M.run_read _ _), hs.2, h]
  rfl

theorem assignCodes_parses (h : assignFrom 0 lens ≠ none) :
    Parses (Listed c lens) [] (assignCodes c) ()
      fun s => (s.mapWork fun w => { w with nextFree := trackerOf lens }).putBook c fun b => { b with codes := codesOf lens } := fun s hv _ hs => by
  obtain ⟨⟨cs, next⟩, ha⟩ := Option.ne_none_iff_exists'.mp h
  rw [State.past_nil hv, assignCodes, M.bind_ok (M.run_read _ _), hs.2, codesOf, trackerOf, ha]
  rfl

/-- A lookup type above 2 is fault U8. -/
theorem lookupPart_stops {v : Nat} (hlo : 3 ≤ v) (hhi : v < 16) : Stops (Listed c lens) [(4, v)] (lookupPart c) (.fault .lookupType) := by
  refine .read Listed.steady (by decide) hhi ?_
  obtain ⟨v, rfl⟩ := Nat.exists_eq_add_of_le' hlo
  exact .stop _ _

theorem codes_stops_lookup {v : Nat} (h : assignFrom 0 lens ≠ none) (hlo : 3 ≤ v) (hhi : v < 16) :
    Stops (Listed c lens) [(4, v)] (do assignCodes c; lookupPart c) (.fault .lookupType) :=
  Stops.afterSeq (fs := []) (assignCodes_parses h) ((Blind.putBook c _).comp (.work _)) (fun _ hs => hs) (lookupPart_stops hlo hhi)

end

-- types (R231, R271, R301)

section

variable {s : State} {c v : Nat}

theorem floorSetup_stops_type {n : Nat} (hv : v < 2 ^ 16) (hne : v ≠ 1) : Stops (FloorIn c n) [(16, v)] (floorSetup c) (.raise .unsupportedFloorType) := by
  refine .check FloorIn.operand (.read FloorIn.steady (by decide) hv ?_)
  rw [if_neg hne]
  exact .stop _ _

theorem residueSetup_stops_type (hv : v < 2 ^ 16) (hbad : 2 < v) :
    Stops (fun s => c < s.dec.counts.nResidues) [(16, v)] (residueSetup c) (.raise .unsupportedResidueType) := by
  refine .check (fun _ h => residueOperand_ok h) (.read (fun _ _ h => h) (by decide) hv ?_)
  obtain ⟨v, rfl⟩ := Nat.exists_eq_add_of_le' (Nat.succ_le_of_lt hbad)
  exact .stop _ _

theorem mappingSetup_stops_type {ch nf nr : Nat} (hv : v < 2 ^ 16) (hne : v ≠ 0) :
    Stops (MapHas c ch nf nr fun _ => True) [(16, v)] (mappingSetup c) (.raise .unsupportedMappingType) := by
  refine .check MapHas.operand (.read MapHas.steady (by decide) hv ?_)
  rw [if_neg hne]
  exact .stop _ _

/-- What stops the body stops the setup of a mapping. -/
theorem mappingSetup_stops {ch nf nr : Nat} {P : Mapping → Prop} {fs : List (Nat × Nat)} {x : Stop} (h : Stops (MapHas c ch nf nr P) fs (mappingBody c) x) :
    Stops (MapHas c ch nf nr P) ((16, 0) :: fs) (mappingSetup c) x := .check MapHas.operand (.read MapHas.steady (by decide) (by decide) h)

/-- Reserved fields of a mode that are not 0 (R310). -/
theorem modeRest_stops_first {n : Nat} (hv : v < 2 ^ 16) (hne : v ≠ 0) : Stops (ModeIn c n) [(16, v)] (modeRest c) (.raise .reservedBits) :=
  .read ModeIn.steady (by decide) hv ((Stops.failing _ hne).head _)

theorem modeRest_stops_second {n : Nat} (hv : v < 2 ^ 16) (hne : v ≠ 0) : Stops (ModeIn c n) [(16, 0), (16, v)] (modeRest c) (.raise .reservedBits) :=
  .read ModeIn.steady (by decide) (by decide) (.ensure rfl (.read ModeIn.steady (by decide) hv ((Stops.failing _ hne).head _)))

theorem residueSetup_quiet (r : Nat) : Keeps Quiet (residueSetup r) := residueSetup_keeps Quiet.chain readBits_quiet fun _ _ => Quiet.dec rfl

theorem couplingPresent_quiet (m : Nat) : Keeps Quiet (couplingPresent m) := couplingPresent_keeps Quiet.chain readBits_quiet fun _ _ => Quiet.dec rfl

theorem mappingBody_quiet (m : Nat) : Keeps Quiet (mappingBody m) := mappingBody_keeps Quiet.chain readBits_quiet fun _ _ => Quiet.dec rfl

theorem mappingSetup_quiet (m : Nat) : Keeps Quiet (mappingSetup m) := mappingSetup_keeps Quiet.chain readBits_quiet fun _ _ => Quiet.dec rfl

theorem modeSetup_quiet (k : Nat) : Keeps Quiet (modeSetup k) := modeSetup_keeps Quiet.chain readBits_quiet fun _ _ => Quiet.dec rfl

/-- An error in a mapping's body aborts both ways to issue it. -/
theorem mapping_aborts {ch nf nr : Nat} {P : Mapping → Prop} {fs : List (Nat × Nat)} {cause : Cause} (h : Stops (MapHas c ch nf nr P) fs (mappingBody c) (.raise cause))
    (hc : cause ≠ .cleanEnd) (hv : s.dec.bits.Valid) (hs : MapHas c ch nf nr P s) :
    (s.Reads ((16, 0) :: fs) → ∃ t, exec (.mapSetup c) s = .next t ∧ Aborted s t ∧ t.err = cause.err) ∧
      (s.Reads fs → ∃ t, exec (.mappingType0 c) s = .next t ∧ Aborted s t ∧ t.err = cause.err) :=
  ⟨fun hr => (mappingSetup_stops h).aborts (mappingSetup_quiet c) hc hv hr hs, fun hr => h.aborts (mappingBody_quiet c) hc hv hr hs⟩

end

/-- Settles O40: each refused field stops its header after the fields before it. -/
theorem setupErrors : Obligations.SetupErrors := by
  intro s c v hv hlt
  refine ⟨fun hc hne hr => ?_, fun hc hbad hr => ?_, fun hc hne hr => ?_, fun w hw hne hc hr => ?_, fun b hc hne => ⟨fun hr => ?_, fun hr => ?_⟩,
    fun f mp => ?_, fun su hch hl => ⟨fun j hj hne hr => ?_, fun hr => ?_⟩, fun f hc hdim hlens hform hnone hr => ?_⟩
  · exact (floorSetup_stops_type (n := s.dec.counts.nCodebooks) hlt hne).aborts (floorSetup_quiet c) nofun hv hr ⟨hc, rfl⟩
  · exact (residueSetup_stops_type hlt hbad).aborts (residueSetup_quiet c) nofun hv hr hc
  · exact (mappingSetup_stops_type hlt hne).aborts (mappingSetup_quiet c) nofun hv hr ⟨hc, rfl, rfl, rfl, trivial⟩
  · exact (codebookSetup_stops_sync hw hne).aborts (codebookSetup_quiet c) nofun hv hr ⟨hc, trivial⟩
  · exact (modeSetup_stops (n := s.dec.counts.nMappings) b (modeRest_stops_first hlt hne)).aborts (modeSetup_quiet c) nofun hv hr ⟨hc, rfl⟩
  · exact (modeSetup_stops (n := s.dec.counts.nMappings) b (modeRest_stops_second hlt hne)).aborts (modeSetup_quiet c) nofun hv hr ⟨hc, rfl⟩
  · intro ch refused hc hch hl
    have hs : MapHas c ch s.dec.counts.nFloors s.dec.counts.nResidues (fun _ => True) s := ⟨hc, rfl, rfl, rfl, trivial⟩
    refine ⟨fun hv4 hne => mapping_aborts (mappingBody_stops_rest hch hl (mappingRest_stops_reserved hv4 hne)) nofun hv hs, fun pre n hpre hlen hn hself => ?_⟩
    have hstop := couplingPresent_stops hch hpre hlen hn (readStep_stops_self (MapHas.steady (m := c) (nf := s.dec.counts.nFloors) (nr := s.dec.counts.nResidues)
      (P := fun _ => True)) hch hself)
    exact ⟨fun hr => hstop.aborts (couplingPresent_quiet c) nofun hv hr hs, mapping_aborts (mappingBody_stops_head hl hstop) nofun hv hs⟩
  · exact (headerSetup_stops_time hl hj hlt hne).aborts headerSetup_quiet nofun hv hr rfl
  · exact (headerSetup_stops_framing hch hl).aborts headerSetup_quiet nofun hv hr rfl
  · have hstop := codebookSetup_stops_rest (c := c) hdim hlens hform ((assignCodes_stops hnone).head fun _ => lookupPart c)
    rw [List.append_nil] at hstop
    exact hstop.aborts (codebookSetup_quiet c) nofun hv hr ⟨hc, trivial⟩

end Sys2Proof.Machine
end

section
/-! PROOF. The fault points (60_exceptions): reads, run-length lists, vector decode, residues, mappings, packets and output, each with what comes before it. -/

namespace Sys2Proof.Machine

-- U6, U7: the run after the runs `pre` (R194)

section

variable {cond : State → Prop} (hst : Steady cond) {entries : Nat} (he : entries < 2 ^ 24)

/-- A field of a run's count has at least one bit while entries are left. -/
theorem one_le_runBits {n : Nat} (h : 0 < n) : 1 ≤ ilog n := by
  by_contra hlt
  have := lt_two_pow_ilog n
  rw [Nat.lt_one_iff.mp (Nat.lt_of_not_le hlt)] at this
  omega

theorem length_le_runFields {pre : List Nat} {cur k : Nat} (h : cur + pre.sum < entries) :
    pre.length + 1 ≤ (fieldBits (runFields entries cur (pre ++ [k]))).length := by
  induction pre generalizing cur with
  | nil =>
    have := one_le_runBits (n := entries - cur) (by simp at h; omega)
    simpa [runFields, fieldBits_cons] using this
  | cons p ps ih =>
    rw [List.sum_cons] at h
    have hbit := one_le_runBits (n := entries - cur) (by omega)
    have hih := ih (cur := cur + p) (by omega)
    rw [List.cons_append, runFields, fieldBits_cons, List.length_append, length_bitsOf, List.length_cons]
    omega

include hst he

/-- Runs that leave entries over and give no length above 32 are passed over; the next run decides. -/
theorem lengthRuns_stops {pre : List Nat} {fuel cur len k : Nat} {acc : List Nat} {x : Fault} (hfuel : pre.length < fuel) (hsum : cur + pre.sum < entries)
    (hlens : ∀ i, i < pre.length → aget pre i = 0 ∨ len + i ≤ 32) (hk : k < 2 ^ ilog (entries - (cur + pre.sum)))
    (hbad : entries < cur + pre.sum + k ∧ x = .lengthRunPastEntries ∨ cur + pre.sum + k ≤ entries ∧ 0 < k ∧ 32 < len + pre.length ∧ x = .lengthAbove32) :
    Stops cond (runFields entries cur (pre ++ [k])) (lengthRuns entries fuel cur len acc) (.fault x) := by
  have hw : ∀ cur, ilog (entries - cur) ≤ 24 := fun cur => ilog_le (by omega)
  obtain ⟨fuel, rfl⟩ := Nat.exists_eq_succ_of_ne_zero (Nat.ne_of_gt (Nat.zero_lt_of_lt hfuel))
  induction pre generalizing fuel cur len acc with
  | nil =>
    refine .read hst (hw cur) hk ?_
    rcases hbad with ⟨hpast, rfl⟩ | ⟨hle, hpos, hlong, rfl⟩
    · exact (Stops.failing cond (Nat.not_le.mpr hpast)).head _
    · exact .ensure hle ((Stops.failing cond (not_not.mpr ⟨hpos, hlong⟩)).head _)
  | cons p ps ih =>
    rw [List.sum_cons] at hsum hk hbad
    rw [List.length_cons] at hfuel hbad
    have hfit : p < 2 ^ ilog (entries - cur) := by
      have := lt_two_pow_ilog (entries - cur)
      omega
    have hlen := hlens 0 (Nat.succ_pos _)
    rw [aget_cons_zero, Nat.add_zero] at hlen
    refine .read hst (hw cur) hfit (.ensure (show cur + p ≤ entries by omega) (.ensure (show ¬(0 < p ∧ 32 < len) by omega) ?_))
    rw [if_neg (by omega)]
    obtain ⟨fuel, rfl⟩ := Nat.exists_eq_succ_of_ne_zero (Nat.ne_of_gt (Nat.zero_lt_of_lt (Nat.lt_of_succ_lt_succ hfuel)))
    refine ih (by omega) (fun i hi => ?_) (by rwa [Nat.add_assoc]) 
      (hbad.imp (fun ⟨h, hx⟩ => ⟨by omega, hx⟩) fun ⟨h, hpos, hlong, hx⟩ => ⟨by omega, hpos, by omega, hx⟩) fuel (by omega)
    have hnext := hlens (i + 1) (Nat.succ_lt_succ hi)
    rw [aget_cons_succ] at hnext
    omega

end

theorem lengthsRunLength_stops {c first k : Nat} {pre : List Nat} {entries : Nat} {x : Fault} (he : entries < 2 ^ 24) (hlo : 1 ≤ first) (hhi : first ≤ 32)
    (hsum : pre.sum < entries) (hlens : ∀ i, i < pre.length → aget pre i = 0 ∨ first + i ≤ 32) (hk : k < 2 ^ ilog (entries - pre.sum))
    (hbad : entries < pre.sum + k ∧ x = .lengthRunPastEntries ∨ pre.sum + k ≤ entries ∧ 0 < k ∧ 32 < first + pre.length ∧ x = .lengthAbove32) :
    Stops (BookHas c fun b => b.entries = entries) ((5, first - 1) :: runFields entries 0 (pre ++ [k])) (lengthsRunLength c) (.fault x) := by
  have hst := BookHas.steady (c := c) (P := fun b => b.entries = entries)
  refine .check (fun _ h => h.operand) (.look (fun _ h => h.2) (.read hst (by decide) (by omega) fun s hv hr hs => ?_))
  have hfuel : pre.length < s.bitsLeft + 1 := by
    have := length_le_runFields (k := k) (cur := 0) (by rwa [Nat.zero_add] : 0 + pre.sum < entries)
    have := hr.length_le
    rw [State.length_ahead] at this
    rw [State.bitsLeft]
    omega
  rw [M.bind_ok (M.run_read _ s), Nat.sub_add_cancel hlo]
  exact (lengthRuns_stops hst he hfuel (by rwa [Nat.zero_add]) hlens (by rwa [Nat.zero_add]) (by rwa [Nat.zero_add])).head _ hv hr hs

-- U9, U16, U17: vector decode (R208)

section

variable {s : State} {c : Nat} {buf : Vec} {base stride : Nat}

theorem codebookVector_withoutLookup (hc : c < s.dec.counts.nCodebooks) (hstride : 1 ≤ stride) (h : (s.codebook c).lookupType = 0) :
    codebookVector c buf base stride s = .error (.fault .vectorWithoutLookup) s := by
  rw [codebookVector, M.bind_ok (bookOperand_ok hc), M.bind_ok (M.run_ensure_pos hstride _ s), M.bind_ok (M.run_read _ s)]
  exact M.bind_error (M.run_ensure_neg (not_not.mpr h) _ s)

theorem codebookVector_zeroDim (hc : c < s.dec.counts.nCodebooks) (hstride : 1 ≤ stride) (hlook : (s.codebook c).lookupType ≠ 0)
    (h : (s.codebook c).dim = 0) : codebookVector c buf base stride s = .error (.fault .zeroDim) s := by
  rw [codebookVector, M.bind_ok (bookOperand_ok hc), M.bind_ok (M.run_ensure_pos hstride _ s), M.bind_ok (M.run_read _ s),
    M.bind_ok (M.run_ensure_pos hlook _ s)]
  exact M.bind_error (M.run_ensure_neg (not_not.mpr h) _ s)

/-- A vector whose last element is past the buffer stops somewhere in it. -/
theorem addElements_past {i : Nat} {v : F32} {vs : List F32} (h : buf.size ≤ i + vs.length * stride) (s : State) :
    ∃ t, addElements buf stride i (v :: vs) s = .error (.fault .vectorPastBuffer) t := by
  induction vs generalizing i v s with
  | nil => exact ⟨s, M.bind_error (M.bind_error (M.run_ensure_neg (by simpa using h) _ s))⟩
  | cons w vs ih =>
    rcases Nat.lt_or_ge i buf.size with hin | hout
    · rw [List.length_cons, Nat.succ_mul] at h
      have hadd : ∃ u, addInto buf i v s = .ok () u := ⟨_, M.bind_ok (M.run_ensure_pos hin _ s)⟩
      obtain ⟨u, hu⟩ := hadd
      obtain ⟨t, ht⟩ := ih (i := i + stride) (v := w) (by omega) u
      exact ⟨t, (M.bind_ok hu).trans ht⟩
    · exact ⟨s, M.bind_error (M.bind_error (M.run_ensure_neg (Nat.not_lt.mpr hout) _ s))⟩

theorem codebookVector_pastBuffer {k : Code} (hv : s.dec.bits.Valid) (hk : CodeOf s c k) (hp : k.bits <+: s.ahead) (hlook : (s.codebook c).lookupType ≠ 0)
    (hdim : (s.codebook c).dim ≠ 0) (hstride : 1 ≤ stride) (hsize : buf.size ≤ base + ((s.codebook c).dim - 1) * stride) :
    ∃ t, codebookVector c buf base stride s = .error (.fault .vectorPastBuffer) t := by
  rw [codebookVector, M.bind_ok (bookOperand_ok hk.1), M.bind_ok (M.run_ensure_pos hstride _ s), M.bind_ok (M.run_read _ s),
    M.bind_ok (M.run_ensure_pos hlook _ s), M.bind_ok (M.run_ensure_pos hdim _ s), M.bind_ok (codebookScalar_ok hv hk hp)]
  have hlen := length_vqVector (s.codebook c) k.entry
  cases hvec : vqVector (s.codebook c) k.entry with
  | nil =>
    rw [hvec] at hlen
    exact absurd hlen.symm hdim
  | cons v vs =>
    rw [hvec, List.length_cons] at hlen
    refine addElements_past ?_ _
    rwa [show vs.length = (s.codebook c).dim - 1 by omega]

/-- A stop after the operand's check. -/
theorem exec_cbVector_of_error {x : Fault} {t : State} (hop : vecOperand buf s = .ok () s) (h : codebookVector c buf base stride s = .error (.fault x) t) :
    exec (.cbVector c buf base stride) s = .fault x := microUnit_of_error (m := do vecOperand buf; codebookVector c buf base stride) ((M.bind_ok hop).trans h)

end

-- U15, U9, U18, U16 of a residue (R275)

/-- The four faults at the end of a residue, in their order. -/
theorem residueFaults {s : State} {r : Nat} {rs : Residue} {flags : List Bool} {x : Fault} (hv : s.dec.bits.Valid) (hl : rs.readable flags = true)
    (hs : ResidueRefused r rs x s) :
    (s.Reads ((16, rs.rtype) :: rs.fields flags) → exec (.rsSetup r) s = .fault x) ∧
      (s.Reads (rs.fields flags) →
        (rs.rtype = 0 → exec (.residueType0 r) s = .fault x) ∧ (rs.rtype = 1 → exec (.residueType1 r) s = .fault x) ∧
          (rs.rtype = 2 → exec (.residueType2 r) s = .fault x)) := by
  refine ⟨fun hr => (residueSetup_stops hl (Residue.rtype_le hl)).fault hv hr hs, fun hr => ⟨fun ht => ?_, fun ht => ?_, fun ht => ?_⟩⟩
  all_goals
    have hbody := residueBody_stops (r := r) (x := x) hl
    rw [ht] at hbody
    exact hbody.fault hv hr hs

-- U19, U20, U21 of a mapping (R303, R305, R306)

theorem mapping_faults {s : State} {m ch nf nr : Nat} {P : Mapping → Prop} {fs : List (Nat × Nat)} {x : Fault}
    (h : Stops (MapHas m ch nf nr P) fs (mappingBody m) (.fault x)) (hv : s.dec.bits.Valid) (hs : MapHas m ch nf nr P s) :
    (s.Reads ((16, 0) :: fs) → exec (.mapSetup m) s = .fault x) ∧ (s.Reads fs → exec (.mappingType0 m) s = .fault x) :=
  ⟨fun hr => (mappingSetup_stops h).fault hv hr hs, fun hr => h.fault hv hr hs⟩

/-- A submap after the submaps `subs` stops the mapping. -/
theorem mapping_stops_submap {m ch nf nr : Nat} {P : Mapping → Prop} {f : MappingForm} {mp : Mapping} {mux : List Nat} {subs : List (Nat × Nat × Nat)}
    {fs : List (Nat × Nat)} {x : Stop} (hch : ch < 2 ^ 8) (hl : f.headLegal ch mp = true) (hhi : mp.submaps ≤ 16) (hlen : mux.length = ch)
    (hmux : ∀ u ∈ mux, u < mp.submaps) (hcount : subs.length < mp.submaps) (hsubs : ∀ p ∈ subs, SubmapFits nf nr p)
    (hstop : Stops (MapHas m ch nf nr fun e => e.submaps = mp.submaps) fs readSubmap x) :
    Stops (MapHas m ch nf nr P) (f.head ch mp ++ (2, 0) :: muxFields mp.submaps mux ++ subs.flatMap submapTriple ++ fs) (mappingBody m) x := by
  have h := mappingBody_stops_rest (P := P) hch hl (mappingRest_stops_routes (mappingRoutes_stops_subs hhi hlen hmux (mappingSubs_stops hcount hsubs hstop)))
  rwa [List.append_assoc, List.append_assoc]

-- U22 of a mode, U23 of a packet (R311, R362)

theorem modeRest_stops_mapping {k n m : Nat} (hw : m < 256) (hbad : n ≤ m) :
    Stops (ModeIn k n) [(16, 0), (16, 0), (8, m)] (modeRest k) (.fault .modeMapping) := by
  refine .read ModeIn.steady (by decide) (by decide) (.ensure rfl (.read ModeIn.steady (by decide) (by decide) (.ensure rfl
    (.read ModeIn.steady (by decide) hw fun s _ _ hs => ?_))))
  have hs' : s.dec.counts.nMappings = n := hs.2
  exact ⟨_, M.run_ensure_neg (p := m < s.dec.counts.nMappings) (by omega) _ (s.putMode k fun e => { e with mapping := m })⟩

/-- The counts that a packet header looks at. -/
def ModesAre (mb n : Nat) (s : State) : Prop := s.dec.counts.modeBits = mb ∧ s.dec.counts.nModes = n

theorem ModesAre.steady {mb n : Nat} : Steady (ModesAre mb n) := fun _ _ h => h

theorem audioPacket_stops {mb n k : Nat} (hmb : mb ≤ 6) (hbad : n ≤ k) (hk : k < 2 ^ mb) : Stops (ModesAre mb n) [(mb, k)] audioPacket (.fault .packetMode) := by
  have hheader : Stops (ModesAre mb n) [(mb, k)] packetHeader (.fault .packetMode) :=
    .look (fun _ h => h.1) (.read ModesAre.steady (by omega) hk (.look (fun _ h => h.2) ((Stops.failing _ (Nat.not_lt.mpr hbad)).head _)))
  exact hheader.head _

/-- The packet type read as 0. -/
theorem tryReadBits_audio {s : State} {fs : List (Nat × Nat)} (hv : s.dec.bits.Valid) (hr : s.Reads ((1, 0) :: fs)) :
    tryReadBits 1 s = .ok (some 0) (s.past [(1, 0)]) := by
  have hlen : 1 ≤ s.ahead.length := (by rw [fieldBits_cons, List.length_append, length_bitsOf]; omega : 1 ≤ (fieldBits ((1, 0) :: fs)).length).trans hr.length_le
  have htake : s.ahead.take 1 = bitsOf 1 0 := by
    obtain ⟨rest, h⟩ := hr
    rw [← h, fieldBits_cons, List.append_assoc, List.take_left' (length_bitsOf _ _)]
  rw [tryReadBits_ok hv (by decide) hlen, htake]
  rfl

-- U24, U29: OUTPUT (R380, R383)

/-- A NaN among the samples stops the writing. -/
theorem writeSamples_nan {xs : List F32} (h : ∃ x ∈ xs, f32IsNaN x = true) (s : State) : ∃ t, writeSamples xs s = .error (.fault .nanSample) t := by
  induction xs generalizing s with
  | nil =>
    obtain ⟨x, hx, -⟩ := h
    exact absurd hx List.not_mem_nil
  | cons y ys ih =>
    cases hy : f32IsNaN y with
    | true =>
      have hstop : pcmOut y s = .error (.fault .nanSample) s := by rw [pcmOut, pcmOf, if_pos hy]; rfl
      exact ⟨s, M.bind_error hstop⟩
    | false =>
      have hout : pcmOut y s = .ok (pcmValue y) s := by rw [pcmOut, pcmOf_eq_pcmValue hy]; rfl
      obtain ⟨t, ht⟩ := ih (by simpa [hy] using h) (s.setOut (s.out ++ [pcmValue y]))
      exact ⟨t, (M.bind_ok hout).trans ht⟩

theorem outputFrame_nan {s : State} {cap : Nat} (hcap : outputCount s ≤ cap) (hp : s.dec.frame.prevBlock ≠ 0) (h : ∃ x ∈ outputSamples s, f32IsNaN x = true) :
    ∃ t, outputFrame cap s = .error (.fault .nanSample) t := by
  obtain ⟨t, ht⟩ := writeSamples_nan h (s.setOut [])
  have hemit : emitSamples s.dec.frame.prevBlock (outputSamples s) (s.setOut []) = .error (.fault .nanSample) t := by rw [emitSamples, if_neg hp, ht]
  refine ⟨t, ?_⟩
  rw [outputFrame, M.bind_ok (M.run_read _ s), M.bind_ok (M.run_ensure_pos hcap _ s), M.bind_ok (M.run_update _ s), M.bind_ok (M.run_read _ _),
    M.bind_ok (M.run_read _ _)]
  exact M.bind_error hemit

theorem outputFrame_tooSmall {s : State} {cap : Nat} (hcap : cap < outputCount s) : outputFrame cap s = .error (.refuse .bufferTooSmall) s := by
  rw [outputFrame, M.bind_ok (M.run_read _ s)]
  exact M.bind_error (M.run_ensure_neg (Nat.not_le.mpr hcap) _ s)

/-- Settles O13: the named fault points, each by the piece that stops there. -/
theorem stopsAsRuled : Obligations.StopsAsRuled := by
  intro s
  refine ⟨fun n hn => ⟨?_, ?_⟩, fun n hb => ⟨?_, ?_⟩, fun c first k pre hv hc he hlo hhi hsum hlens hk hr => ?_, fun c v f hv hc hdim hlens hform hnone hlo hhi hr => ?_,
    fun c v base stride hc hstride hop => ⟨fun h => ?_, fun hlook hdim => ?_, fun k hv hk hp hlook hdim hsize => ?_⟩,
    fun f pc cs hv hf hlen hpc hcs => floorFaults hv hf hlen hpc hcs, fun r rs flags x hv hr hl hx => ?_, fun m f mp => ?_,
    fun k md hv hk hbad hw hr => ?_, fun k hmb hbad hk => ⟨fun hp hf hb hr => ?_, fun hv hr => ?_⟩, fun cap hp hf hprev => ?_⟩
  -- reads
  · exact micro_of_error (M.bind_error (M.bind_error (M.run_ensure_neg (Nat.not_le.mpr hn) _ s)))
  · exact micro_of_error (M.bind_error (M.bind_error (M.run_ensure_neg (Nat.not_le.mpr hn) _ s)))
  · exact micro_of_error (M.bind_error (M.bind_error (M.run_ensure_neg hb _ s)))
  · exact micro_of_error (M.bind_error (readExact_unaligned hb))
  -- codebooks
  · have hstops := fun x hbad => (lengthsRunLength_stops (c := c) (x := x) he hlo hhi hsum hlens hk hbad).fault hv hr ⟨hc, rfl⟩
    exact ⟨fun hpast => hstops _ (.inl ⟨hpast, rfl⟩), fun hle hpos hlong => hstops _ (.inr ⟨hle, hpos, hlong, rfl⟩)⟩
  · exact (codebookSetup_stops_rest hdim hlens hform (codes_stops_lookup hnone hlo hhi)).fault hv hr ⟨hc, trivial⟩
  · exact exec_cbVector_of_error (vecOperand_ok hop) (codebookVector_withoutLookup hc hstride h)
  · exact exec_cbVector_of_error (vecOperand_ok hop) (codebookVector_zeroDim hc hstride hlook hdim)
  · obtain ⟨t, ht⟩ := codebookVector_pastBuffer hv hk hp hlook hdim hstride hsize
    exact exec_cbVector_of_error (vecOperand_ok hop) ht
  -- residues
  · have hknown := not_booksKnown (rs := rs) (n := s.dec.counts.nCodebooks)
    refine residueFaults hv hl ⟨hr, ?_⟩
    rcases hx with ⟨hu, rfl⟩ | ⟨hu, hdim, rfl⟩ | ⟨hu, hdim, hrange, rfl⟩ | ⟨hu, hdim, hrange, hlook, rfl⟩
    · exact .inl ⟨hknown.mpr hu, rfl⟩
    · exact .inr ⟨not_not.mp (mt hknown.mp hu), .inl ⟨hdim, rfl⟩⟩
    · exact .inr ⟨not_not.mp (mt hknown.mp hu), .inr ⟨hdim, .inl ⟨Nat.not_le.mpr hrange, rfl⟩⟩⟩
    · exact .inr ⟨not_not.mp (mt hknown.mp hu), .inr ⟨hdim, .inr ⟨hrange, by rw [hlook]; exact Bool.false_ne_true, rfl⟩⟩⟩
  -- mappings
  · intro ch stops hv hm hch hl
    have hs : MapHas m ch s.dec.counts.nFloors s.dec.counts.nResidues (fun _ => True) s := ⟨hm, rfl, rfl, rfl, trivial⟩
    have hhi : mp.submaps ≤ 16 := by
      simp only [MappingForm.headLegal, Bool.and_eq_true, decide_eq_true_eq] at hl
      omega
    have hst := fun P => MapHas.steady (m := m) (ch := ch) (nf := s.dec.counts.nFloors) (nr := s.dec.counts.nResidues) (P := P)
    refine ⟨fun pre c a b hpre hlen hc hne hbad ha hb => ?_, fun mux v hmany hlen hmux hbad hv16 => ?_, fun mux subs t fl v hlen hmux hcount hsubs ht hv8 => ?_⟩
    · refine mapping_faults ?_ hv hs
      rw [List.append_assoc]
      exact mappingBody_stops_head hl (couplingPresent_stops hch hpre hlen hc (readStep_stops_channel (hst _) hch hne hbad ha hb))
    · refine mapping_faults ?_ hv hs
      rw [List.append_assoc]
      exact mappingBody_stops_rest hch hl (mappingRest_stops_routes (mappingRoutes_stops_mux hhi hlen hmux (readMux_stops (hst _) hmany hbad hv16)))
    · refine ⟨fun hbad => ?_, fun hfl hnf hbad => ?_⟩
      · exact mapping_faults (mapping_stops_submap hch hl hhi hlen hmux hcount hsubs (readSubmap_stops_floor ht hv8 hbad)) hv hs
      · exact mapping_faults (mapping_stops_submap hch hl hhi hlen hmux hcount hsubs (readSubmap_stops_residue ht hfl hnf hv8 hbad)) hv hs
  -- modes and packets
  · exact (modeSetup_stops md.blockFlag (modeRest_stops_mapping hw hbad)).fault hv hr ⟨hk, rfl⟩
  · have hv : s.dec.bits.Valid := by
      rw [hb]
      decide
    have hread := tryReadBits_audio hv hr
    obtain ⟨t, ht⟩ := audioPacket_stops hmb hbad hk (State.past_valid hv) (hr.right hv (fs := [(1, 0)])) ⟨rfl, rfl⟩
    exact command_of_error (m := decodePacket) ⟨hp, hf⟩ ((decodePacket_of_some hread).trans ht)
  · exact (audioPacket_stops hmb hbad hk).fault hv hr ⟨rfl, rfl⟩
  -- output
  · have hcount : outputCount s = (s.dec.frame.prevBlock / 4 + s.dec.frame.curBlock / 4) * s.dec.hdr.channels := if_neg hprev
    refine ⟨fun hsmall => ?_, fun hle hnan => ?_⟩
    · exact command_of_error (m := outputFrame cap) ⟨hp, hf⟩ (outputFrame_tooSmall (hcount ▸ hsmall))
    · obtain ⟨t, ht⟩ := outputFrame_nan (hcount ▸ hle) hprev hnan
      exact command_of_error (m := outputFrame cap) ⟨hp, hf⟩ ht

end Sys2Proof.Machine
end

section
/-! PROOF. The floor part of a packet (42_floor R240 to R245): the codewords of its partitions, and the raw values that they stand for. -/

namespace Sys2Proof.Machine

/-- Where the bits are ahead and the condition holds, the piece takes exactly the bits and returns `a`. -/
def ReadsAs {α : Type} (pre : State → Prop) (bits : List Bool) (m : M α) (a : α) : Prop :=
  ∀ ⦃s : State⦄, s.dec.bits.Valid → bits <+: s.ahead → pre s → m s = .ok a (s.advance bits.length)

section

variable {α β : Type} {pre : State → Prop} {bits bits' : List Bool} {m : M α} {f : α → M β} {a : α} {b : β}

/-- Bits that begin with others: these come first, and then the rest. -/
theorem prefix_advance {s : State} (hv : s.dec.bits.Valid) (h : bits ++ bits' <+: s.ahead) : bits <+: s.ahead ∧ bits' <+: (s.advance bits.length).ahead := by
  obtain ⟨rest, h⟩ := h
  rw [List.append_assoc] at h
  have hle : bits.length ≤ s.ahead.length := by rw [← h, List.length_append]; exact Nat.le_add_right _ _
  refine ⟨⟨_, h⟩, rest, ?_⟩
  rw [State.ahead_advance hv hle, ← h, List.drop_left]

theorem ReadsAs.bind (hst : Steady pre) (hm : ReadsAs pre bits m a) (hf : ReadsAs pre bits' (f a) b) : ReadsAs pre (bits ++ bits') (m >>= f) b := fun s hv hr hs => by
  obtain ⟨hfirst, hrest⟩ := prefix_advance hv hr
  rw [M.bind_ok (hm hv hfirst hs), hf (State.advance_valid hv) hrest (hst _ hs), State.advance_advance hv hfirst.length_le, List.length_append]

theorem ReadsAs.pure (pre : State → Prop) (a : α) : ReadsAs pre [] (pure a : M α) a := fun s hv _ _ => by
  rw [List.length_nil, State.advance_zero hv]
  rfl

/-- A piece with a result made of that of another. -/
theorem ReadsAs.map (hst : Steady pre) (hm : ReadsAs pre bits m a) (g : α → β) : ReadsAs pre bits (do let x ← m; Pure.pure (g x)) (g a) := by
  rw [← List.append_nil bits]
  exact .bind hst hm (.pure pre (g a))

theorem ReadsAs.of_parses {fs : List (Nat × Nat)} (hm : Parses pre fs m a id) : ReadsAs pre (fieldBits fs) m a := fun _ hv hr hs => hm hv hr hs

end

theorem readBits_reads (pre : State → Prop) {w v : Nat} (hw : w ≤ 24) (hlt : v < 2 ^ w) : ReadsAs pre (bitsOf w v) (readBits w) v := by
  have h := ReadsAs.of_parses (.readField pre hw hlt)
  rwa [fieldBits_cons, fieldBits_nil, List.append_nil] at h

/-- The state has the tables and the counts of `s₀`. -/
def TablesOf (s₀ s : State) : Prop := s.dec.tabs = s₀.dec.tabs ∧ s.dec.counts = s₀.dec.counts

section

variable {s₀ : State}

theorem TablesOf.steady : Steady (TablesOf s₀) := fun _ _ h => h

theorem TablesOf.codebook {s : State} (h : TablesOf s₀ s) (c : Nat) : s.codebook c = s₀.codebook c := by rw [State.codebook, h.1, State.codebook]

theorem TablesOf.codeOf {s : State} (h : TablesOf s₀ s) {c : Nat} {k : Code} (hk : CodeOf s₀ c k) : CodeOf s c k := by
  rw [CodeOf, h.2, h.codebook]
  exact hk

theorem codebookScalar_reads {c : Nat} {k : Code} (hk : CodeOf s₀ c k) : ReadsAs (TablesOf s₀) k.bits (codebookScalar c) k.entry := fun _ hv hp hs => by
  rw [codebookScalar_ok hv (hs.codeOf hk) hp, Code.length_bits]

-- the values of one partition (R243, R244)

theorem readDim_reads {book : Option Nat} {k : Code} (hk : ∀ b ∈ book, CodeOf s₀ b k) :
    ReadsAs (TablesOf s₀) (dimBits book k) (readDim book) (dimValue book k) := by
  cases book with
  | none => exact .pure _ 0
  | some b => exact codebookScalar_reads (hk b rfl)

theorem readPartitionYs_reads {cls : FloorClass} {k cval : Nat} {dims : List Code} (hlen : dims.length = k)
    (hk : ∀ q ∈ (dimBooks cls k cval).zip dims, ∀ b ∈ q.1, CodeOf s₀ b q.2) :
    ReadsAs (TablesOf s₀) (((dimBooks cls k cval).zip dims).flatMap fun q => dimBits q.1 q.2) (readPartitionYs cls k cval)
      (((dimBooks cls k cval).zip dims).map fun q => dimValue q.1 q.2) := by
  induction k generalizing cval dims with
  | zero => exact .pure _ []
  | succ k ih =>
    obtain ⟨d, ds, rfl⟩ := List.exists_cons_of_length_eq_add_one hlen
    rw [dimBooks, List.zip_cons_cons, List.forall_mem_cons] at hk
    rw [dimBooks, List.zip_cons_cons, List.flatMap_cons, List.map_cons]
    exact .bind TablesOf.steady (readDim_reads hk.1) (.map TablesOf.steady (ih (Nat.succ.inj hlen) hk.2) _)

theorem readClassification_reads {cls : FloorClass} {p : PartitionCodes} (hp : 0 < cls.subexp → CodeOf s₀ cls.master p.master) :
    ReadsAs (TablesOf s₀) (if 0 < cls.subexp then p.master.bits else []) (readClassification cls) (p.cval cls) := by
  rw [readClassification, PartitionCodes.cval]
  split
  next h => exact codebookScalar_reads (hp h)
  next => exact .pure _ 0

-- the values of all partitions (R243)

theorem readAllYs_reads {fl : Floor} {ks : List Nat} {ps : List PartitionCodes} (hlen : ps.length = ks.length)
    (hl : ∀ q ∈ (ks.map (aget fl.classes)).zip ps, q.2.Legal s₀ q.1) :
    ReadsAs (TablesOf s₀) (((ks.map (aget fl.classes)).zip ps).flatMap fun q => q.2.bits q.1) (readAllYs fl ks)
      (((ks.map (aget fl.classes)).zip ps).flatMap fun q => q.2.ys q.1) := by
  induction ks generalizing ps with
  | nil => exact .pure _ []
  | cons k ks ih =>
    obtain ⟨p, ps, rfl⟩ := List.exists_cons_of_length_eq_add_one hlen
    rw [List.map_cons, List.zip_cons_cons, List.forall_mem_cons] at hl
    obtain ⟨⟨hdims, hmaster, hbooks⟩, hrest⟩ := hl
    rw [List.map_cons, List.zip_cons_cons, List.flatMap_cons, List.flatMap_cons, PartitionCodes.bits, List.append_assoc]
    exact .bind TablesOf.steady (readClassification_reads hmaster) (.bind TablesOf.steady (readPartitionYs_reads hdims hbooks)
      (.map TablesOf.steady (ih (Nat.succ.inj hlen) hrest) _))

end

-- FL_DECODE (R240, R241, R245)

/-- The energy flag of a channel is written. -/
def State.putEnergy (ch : Nat) (v : Bool) (s : State) : State := s.mapWork fun w => { w with hasEnergy := aset w.hasEnergy ch v }

theorem setEnergy_run (ch : Nat) (v : Bool) (s : State) : setEnergy ch v s = .ok () (s.putEnergy ch v) := rfl

/-- The raw values of a channel are written over the first ones. -/
def State.putFloorY (ch : Nat) (ys : List Nat) (s : State) : State := s.mapWork fun w => { w with floorY := aset w.floorY ch (overlay ys (aget w.floorY ch)) }

/-- The raw values of a channel with energy, in list order (R242, R243). -/
def readFloorYs (fl : Floor) : M (List Nat) := do
  let y0 ← readBits (ilog (fl.range - 1))
  let y1 ← readBits (ilog (fl.range - 1))
  let ys ← readAllYs fl fl.partClass
  pure (y0 :: y1 :: ys)

theorem floorEnergyPart_eq (ch f : Nat) :
    floorEnergyPart ch f =
      (do
        chanOperand ch
        floorOperand f
        setEnergy ch true
        let fl ← M.read fun s => s.floor f
        let ys ← readFloorYs fl
        M.update (State.putFloorY ch ys)) := by
  simp only [readFloorYs, M.bind_assoc, M.pure_bind]
  rfl

theorem readFloorYs_reads {s₀ : State} {fl : Floor} {y0 y1 : Nat} {ps : List PartitionCodes} (hw : ilog (fl.range - 1) ≤ 24) (h0 : y0 < 2 ^ ilog (fl.range - 1))
    (h1 : y1 < 2 ^ ilog (fl.range - 1)) (hlen : ps.length = fl.partClass.length) (hl : ∀ q ∈ partsOf fl ps, q.2.Legal s₀ q.1) :
    ReadsAs (TablesOf s₀) (floorPartBits fl y0 y1 ps) (readFloorYs fl) (floorPartYs fl y0 y1 ps) := by
  rw [floorPartBits, fieldBits_cons, fieldBits_cons, fieldBits_nil, List.append_nil, List.append_assoc]
  exact .bind TablesOf.steady (readBits_reads _ hw h0) (.bind TablesOf.steady (readBits_reads _ hw h1) (.map TablesOf.steady (readAllYs_reads hlen hl) _))

section

variable {s : State} {ch f : Nat}

theorem floorOperand_ok (hf : f < s.dec.counts.nFloors) : floorOperand f s = .ok () s := M.run_ensure_pos hf _ s

theorem floorSilentPart_ok (hch : ch < s.dec.hdr.channels) (hf : f < s.dec.counts.nFloors) : floorSilentPart ch f s = .ok () (s.putEnergy ch false) := by
  rw [floorSilentPart, M.bind_ok (chanOperand_ok hch), M.bind_ok (floorOperand_ok hf)]
  rfl

theorem floorEnergyPart_ok {y0 y1 : Nat} {ps : List PartitionCodes} (hch : ch < s.dec.hdr.channels) (hf : f < s.dec.counts.nFloors) (hv : s.dec.bits.Valid)
    (hw : ilog ((s.floor f).range - 1) ≤ 24) (h0 : y0 < 2 ^ ilog ((s.floor f).range - 1)) (h1 : y1 < 2 ^ ilog ((s.floor f).range - 1))
    (hlen : ps.length = (s.floor f).partClass.length) (hl : ∀ q ∈ partsOf (s.floor f) ps, q.2.Legal s q.1)
    (hr : floorPartBits (s.floor f) y0 y1 ps <+: s.ahead) :
    floorEnergyPart ch f s =
      .ok () (((s.advance (floorPartBits (s.floor f) y0 y1 ps).length).putEnergy ch true).putFloorY ch (floorPartYs (s.floor f) y0 y1 ps)) := by
  have hread := readFloorYs_reads hw h0 h1 hlen hl (s := s.putEnergy ch true) hv hr ⟨rfl, rfl⟩
  rw [floorEnergyPart_eq, M.bind_ok (chanOperand_ok hch), M.bind_ok (floorOperand_ok hf), M.bind_ok (setEnergy_run ch true s), M.bind_ok (M.run_read _ _)]
  exact M.bind_ok hread

/-- The has-energy bit decides (R241). -/
theorem floorDecode_eq (hch : ch < s.dec.hdr.channels) (hf : f < s.dec.counts.nFloors) (hv : s.dec.bits.Valid) (e : Bool) (hr : s.Reads [(1, e.toNat)]) :
    floorDecode ch f s = (if e then floorEnergyPart ch f else floorSilentPart ch f) (s.past [(1, e.toNat)]) := by
  rw [floorDecode, M.bind_ok (chanOperand_ok hch), M.bind_ok (floorOperand_ok hf), readBit, M.bind_ok (readBits_past hv (by decide) e.toNat_lt hr)]
  cases e <;> rfl

end

/-- Settles O31: the has-energy bit decides, and the raw values are written once, after the last codeword. -/
theorem floorDecodes : Obligations.FloorDecodes := by
  intro s ch f hv hch hf
  refine ⟨microUnit_of_ok (floorSilentPart_ok hch hf), fun hr => ?_, fun y0 y1 ps hw h0 h1 hlen hl => ⟨fun hr => ?_, fun hr => ?_⟩⟩
  · exact microUnit_of_ok ((floorDecode_eq hch hf hv false hr).trans (floorSilentPart_ok hch hf))
  · exact microUnit_of_ok (floorEnergyPart_ok hch hf hv hw h0 h1 hlen hl hr)
  · obtain ⟨hflag, hrest⟩ := prefix_advance hv hr
    have hrun := floorEnergyPart_ok (s := s.past [(1, 1)]) hch hf (State.past_valid hv) hw h0 h1 hlen hl hrest
    have hend : (s.past [(1, 1)]).advance (floorPartBits (s.floor f) y0 y1 ps).length = s.advance (1 + (floorPartBits (s.floor f) y0 y1 ps).length) :=
      State.advance_advance hv hflag.length_le
    refine microUnit_of_ok (m := floorDecode ch f) ((floorDecode_eq hch hf hv true hflag).trans (hrun.trans ?_))
    rw [State.floor, show (s.past [(1, 1)]).dec.tabs = s.dec.tabs from rfl, ← State.floor, hend]
    rfl

end Sys2Proof.Machine
end

section
/-! PROOF. The amplitudes of a floor (42_floor R247 to R250): the neighbours of a list position, and what one position after another adds. -/

namespace Sys2Proof.Machine

-- an X list that passed setup (R238)

section

variable {xs : List Nat} (hxs : xsOk xs = true)

include hxs

theorem xsOk_nodup : xs.Nodup := by
  match xs, hxs with
  | x0 :: x1 :: rest, h =>
    simp only [xsOk, Bool.and_eq_true, decide_eq_true_eq, List.all_eq_true] at h
    obtain ⟨⟨hlt, hall⟩, hrest⟩ := h
    refine List.nodup_cons.mpr ⟨fun hmem => ?_, List.nodup_cons.mpr ⟨fun hmem => ?_, distinct_eq_true.mp hrest⟩⟩
    · rcases List.mem_cons.mp hmem with rfl | hmem
      · exact Nat.lt_irrefl _ hlt
      · exact Nat.lt_irrefl _ (hall _ hmem).1
    · exact Nat.lt_irrefl _ (hall _ hmem).2

theorem xsOk_bounds : aget xs 0 < aget xs 1 ∧ ∀ i, 2 ≤ i → i < xs.length → aget xs 0 < aget xs i ∧ aget xs i < aget xs 1 := by
  match xs, hxs with
  | x0 :: x1 :: rest, h =>
    simp only [xsOk, Bool.and_eq_true, decide_eq_true_eq, List.all_eq_true] at h
    refine ⟨h.1.1, fun i hi hlt => ?_⟩
    obtain ⟨i, rfl⟩ := Nat.exists_eq_add_of_le' hi
    have hlt' : i < rest.length := Nat.lt_of_add_lt_add_right hlt
    have hmem := h.1.2 rest[i] (List.getElem_mem hlt')
    rw [← aget_of_lt hlt'] at hmem
    exact hmem

theorem xsOk_length : 2 ≤ xs.length := by
  match xs, hxs with
  | x0 :: x1 :: rest, _ => simp

theorem xsOk_inj {i j : Nat} (hi : i < xs.length) (hj : j < xs.length) (h : aget xs i = aget xs j) : i = j := by
  rw [aget_of_lt hi, aget_of_lt hj] at h
  exact (xsOk_nodup hxs).getElem_inj_iff.mp h

end

-- neighbours (R248)

/-- A walk over the positions below `n` that moves to each better one ends at a position than which none of them is better. -/
theorem foldl_best {p : Nat → Prop} {better : Nat → Nat → Prop} [DecidablePred p] [DecidableRel better] (hirrefl : ∀ a, ¬better a a)
    (htrans : ∀ a b c, better a b → better b c → better a c) {b i : Nat} (hb : p b) (hbi : b < i) {n : Nat} (hn : n ≤ i) {r : Nat}
    (hr : (List.range n).foldl (fun best j => if p j ∧ better best j then j else best) b = r) : r < i ∧ p r ∧ ∀ k, k < n → p k → ¬better r k := by
  induction n generalizing r with
  | zero => exact hr ▸ ⟨hbi, hb, fun k hk => absurd hk (Nat.not_lt_zero k)⟩
  | succ n ih =>
    rw [List.range_succ, List.foldl_append, List.foldl_cons, List.foldl_nil] at hr
    obtain ⟨hlt, hp, hbest⟩ := ih (Nat.le_of_succ_le hn) rfl
    split at hr
    next h =>
      subst hr
      refine ⟨hn, h.1, fun k hk hpk hbetter => ?_⟩
      rcases Nat.lt_succ_iff_lt_or_eq.mp hk with hk | rfl
      · exact hbest k hk hpk (htrans _ _ _ h.2 hbetter)
      · exact hirrefl _ hbetter
    next h =>
      subst hr
      refine ⟨hlt, hp, fun k hk hpk hbetter => ?_⟩
      rcases Nat.lt_succ_iff_lt_or_eq.mp hk with hk | rfl
      · exact hbest k hk hpk hbetter
      · exact h ⟨hpk, hbetter⟩

section

variable {xs : List Nat} {i j j' : Nat}

theorem lowNeighbor_isLow (hpos : 0 < i) (h0 : aget xs 0 < aget xs i) : IsLow xs i (lowNeighbor xs i) := by
  obtain ⟨hlt, hx, hbest⟩ := foldl_best (p := fun j => aget xs j < aget xs i) (better := fun b j => aget xs b < aget xs j) (fun _ => Nat.lt_irrefl _)
    (fun _ _ _ => Nat.lt_trans) h0 hpos le_rfl (r := lowNeighbor xs i) rfl
  exact ⟨hlt, hx, fun k hk hkx => Nat.le_of_not_lt (hbest k hk hkx)⟩

theorem highNeighbor_isHigh (hpos : 1 < i) (h1 : aget xs i < aget xs 1) : IsHigh xs i (highNeighbor xs i) := by
  obtain ⟨hlt, hx, hbest⟩ := foldl_best (p := fun j => aget xs i < aget xs j) (better := fun b j => aget xs j < aget xs b) (fun _ => Nat.lt_irrefl _)
    (fun _ _ _ h h' => Nat.lt_trans h' h) h1 hpos le_rfl (r := highNeighbor xs i) rfl
  exact ⟨hlt, hx, fun k hk hkx => Nat.le_of_not_lt (hbest k hk hkx)⟩

/-- With no two equal X values there is one low and one high neighbour. -/
theorem isLow_unique (hxs : xsOk xs = true) (hi : i < xs.length) (h : IsLow xs i j) (h' : IsLow xs i j') : j = j' :=
  xsOk_inj hxs (h.1.trans hi) (h'.1.trans hi) (le_antisymm (h'.2.2 j h.1 h.2.1) (h.2.2 j' h'.1 h'.2.1))

theorem isHigh_unique (hxs : xsOk xs = true) (hi : i < xs.length) (h : IsHigh xs i j) (h' : IsHigh xs i j') : j = j' :=
  xsOk_inj hxs (h.1.trans hi) (h'.1.trans hi) (le_antisymm (h.2.2 j' h'.1 h'.2.1) (h'.2.2 j h.1 h.2.1))

theorem isLow_iff (hxs : xsOk xs = true) (hlo : 2 ≤ i) (hi : i < xs.length) : IsLow xs i j ↔ lowNeighbor xs i = j :=
  have hlow := lowNeighbor_isLow (by omega) ((xsOk_bounds hxs).2 i hlo hi).1
  ⟨fun h => isLow_unique hxs hi hlow h, fun h => h ▸ hlow⟩

theorem isHigh_iff (hxs : xsOk xs = true) (hlo : 2 ≤ i) (hi : i < xs.length) : IsHigh xs i j ↔ highNeighbor xs i = j :=
  have hhigh := highNeighbor_isHigh (by omega) ((xsOk_bounds hxs).2 i hlo hi).2
  ⟨fun h => isHigh_unique hxs hi hhigh h, fun h => h ▸ hhigh⟩

end

-- prediction and correction (R249, R250)

/-- Between two points whose X values are in order, the pseudocode's division is one of natural numbers. -/
theorem renderPoint_eq_predictedY {x0 x1 x : Nat} {y0 y1 : Int} (hlt : x0 < x1) (hx : x0 ≤ x) : renderPoint x0 y0 x1 y1 x = predictedY x0 y0 x1 y1 x := by
  have hoff : (((y1 - y0).natAbs : Int) * ((x : Int) - x0)).tdiv ((x1 : Int) - x0) = ((y1 - y0).natAbs * (x - x0) / (x1 - x0) : Nat) := by
    rw [← Nat.cast_sub hx, ← Nat.cast_sub hlt.le, ← Nat.cast_mul, Int.ofNat_tdiv]
  rw [renderPoint, predictedY, hoff]
  by_cases h : y1 < y0
  · rw [if_pos h, if_pos (by omega)]
  · rw [if_neg h, if_neg (by omega)]

theorem correctedY_eq_amplitudeOf {range p : Int} {v : Nat} (hv : v ≠ 0) : correctedY range p v = amplitudeOf range p v := by
  have hodd : (v : Int) % 2 = 1 ↔ v % 2 = 1 := by omega
  have hup : ((v : Int) + 1) / 2 = ((v + 1) / 2 : Nat) := by omega
  have hdown : (v : Int) / 2 = (v / 2 : Nat) := by omega
  rw [correctedY, amplitudeOf, if_neg hv, hup, hdown]
  simp only [hodd]

-- the amplitudes so far (R247, R250)

/-- The amplitudes of the positions below `m`. -/
def ampsBelow (fl : Floor) (ys : List Nat) (m : Nat) : Amps :=
  (List.range' 2 (m - 2)).foldl (ampStep fl ys) { finalY := [(aget ys 0 : Int), (aget ys 1 : Int)], step2 := [true, true] }

theorem ampsBelow_succ (fl : Floor) (ys : List Nat) {m : Nat} (hm : 2 ≤ m) : ampsBelow fl ys (m + 1) = ampStep fl ys (ampsBelow fl ys m) m := by
  have h : List.range' 2 (m + 1 - 2) = List.range' 2 (m - 2) ++ [m] := by
    rw [Nat.sub_add_comm hm, List.range'_1_concat, Nat.add_sub_cancel' hm]
  rw [ampsBelow, h, List.foldl_append]
  rfl

/-- The prediction for position `i` from the amplitudes of its neighbours. -/
def predictedAt (fl : Floor) (a : Amps) (i : Nat) : Int :=
  predictedY (aget fl.xs (lowNeighbor fl.xs i)) (aget a.finalY (lowNeighbor fl.xs i)) (aget fl.xs (highNeighbor fl.xs i))
    (aget a.finalY (highNeighbor fl.xs i)) (aget fl.xs i)

/-- What has been fixed of the positions below `m`: an amplitude for each, and the points set by the raw values so far. -/
structure AmpsFixed (fl : Floor) (ys : List Nat) (m : Nat) (a : Amps) : Prop where
  length_finalY : a.finalY.length = m
  length_step2 : a.step2.length = m
  first : ∀ i, i < 2 → aget a.finalY i = aget ys i ∧ aget a.step2 i = true
  finalY : ∀ i, 2 ≤ i → i < m → aget a.finalY i = amplitudeOf fl.range (predictedAt fl a i) (aget ys i)
  step2 : ∀ i, 2 ≤ i → i < m → (aget a.step2 i = true ↔
    aget ys i ≠ 0 ∨ ∃ k, i < k ∧ k < m ∧ aget ys k ≠ 0 ∧ (lowNeighbor fl.xs k = i ∨ highNeighbor fl.xs k = i))

section

variable {fl : Floor} {ys : List Nat} {m : Nat} {a : Amps}

/-- The flags after one more position. -/
theorem aget_step2_ampStep (i : Nat) :
    aget (ampStep fl ys a m).step2 i =
      if i = m then decide (aget ys m ≠ 0)
      else if aget ys m ≠ 0 ∧ (lowNeighbor fl.xs m = i ∨ highNeighbor fl.xs m = i) then true else aget a.step2 i := by
  rw [ampStep]
  by_cases h0 : aget ys m = 0
  · rw [if_pos h0, aget_aset]
    simp [h0]
  · rw [if_neg h0]
    simp only [aget_aset, h0, not_false_eq_true, ne_eq, true_and, decide_true, eq_comm (a := i)]
    split
    · rfl
    · by_cases hhi : highNeighbor fl.xs m = i <;> simp [hhi]

theorem aget_finalY_ampStep_of_ne {i : Nat} (h : i ≠ m) : aget (ampStep fl ys a m).finalY i = aget a.finalY i := by
  rw [ampStep]
  split <;> exact aget_aset_of_ne _ _ h

theorem aget_finalY_ampStep_self (hlow : IsLow fl.xs m (lowNeighbor fl.xs m)) (hhigh : IsHigh fl.xs m (highNeighbor fl.xs m)) :
    aget (ampStep fl ys a m).finalY m = amplitudeOf fl.range (predictedAt fl a m) (aget ys m) := by
  have hpred : renderPoint (aget fl.xs (lowNeighbor fl.xs m)) (aget a.finalY (lowNeighbor fl.xs m)) (aget fl.xs (highNeighbor fl.xs m))
      (aget a.finalY (highNeighbor fl.xs m)) (aget fl.xs m) = predictedAt fl a m :=
    renderPoint_eq_predictedY (hlow.2.1.trans hhigh.2.1) hlow.2.1.le
  rw [ampStep, hpred]
  by_cases h0 : aget ys m = 0
  · rw [if_pos h0, aget_aset_self, amplitudeOf, if_pos h0]
  · rw [if_neg h0, aget_aset_self, correctedY_eq_amplitudeOf h0]

theorem length_ampStep (hlow : lowNeighbor fl.xs m < m) (hhigh : highNeighbor fl.xs m < m) (hf : a.finalY.length = m) (hs : a.step2.length = m) :
    (ampStep fl ys a m).finalY.length = m + 1 ∧ (ampStep fl ys a m).step2.length = m + 1 := by
  rw [ampStep]
  split <;> simp only [length_aset, hf, hs] <;> omega

/-- A later position changes no amplitude that an earlier prediction uses. -/
theorem predictedAt_ampStep {i : Nat} (hlow : lowNeighbor fl.xs i < m) (hhigh : highNeighbor fl.xs i < m) :
    predictedAt fl (ampStep fl ys a m) i = predictedAt fl a i := by
  rw [predictedAt, aget_finalY_ampStep_of_ne hlow.ne, aget_finalY_ampStep_of_ne hhigh.ne, predictedAt]

theorem AmpsFixed.step (hxs : xsOk fl.xs = true) (hlo : 2 ≤ m) (hm : m < fl.xs.length) (h : AmpsFixed fl ys m a) :
    AmpsFixed fl ys (m + 1) (ampStep fl ys a m) := by
  have hnear : ∀ i, 2 ≤ i → i < fl.xs.length → IsLow fl.xs i (lowNeighbor fl.xs i) ∧ IsHigh fl.xs i (highNeighbor fl.xs i) := fun i hi hlt =>
    ⟨(isLow_iff hxs hi hlt).mpr rfl, (isHigh_iff hxs hi hlt).mpr rfl⟩
  obtain ⟨hlow, hhigh⟩ := hnear m hlo hm
  obtain ⟨hlenF, hlenS⟩ := length_ampStep (ys := ys) hlow.1 hhigh.1 h.length_finalY h.length_step2
  refine ⟨hlenF, hlenS, fun i hi => ⟨?_, ?_⟩, fun i hi hlt => ?_, fun i hi hlt => ?_⟩
  · rw [aget_finalY_ampStep_of_ne (by omega)]
    exact (h.first i hi).1
  · rw [aget_step2_ampStep, if_neg (by omega), (h.first i hi).2, ite_self]
  · rcases Nat.lt_succ_iff_lt_or_eq.mp hlt with hlt | rfl
    · obtain ⟨hlow', hhigh'⟩ := hnear i hi (hlt.trans hm)
      rw [aget_finalY_ampStep_of_ne hlt.ne, predictedAt_ampStep (hlow'.1.trans hlt) (hhigh'.1.trans hlt), h.finalY i hi hlt]
    · rw [aget_finalY_ampStep_self hlow hhigh, predictedAt_ampStep hlow.1 hhigh.1]
  · rw [aget_step2_ampStep]
    rcases Nat.lt_succ_iff_lt_or_eq.mp hlt with hlt | rfl
    · rw [if_neg hlt.ne, ite_eq_left_iff]
      constructor
      · intro himp
        by_cases hset : aget ys m ≠ 0 ∧ (lowNeighbor fl.xs m = i ∨ highNeighbor fl.xs m = i)
        · exact .inr ⟨m, hlt, Nat.lt_succ_self m, hset.1, hset.2⟩
        · exact ((h.step2 i hi hlt).mp (himp hset)).imp id fun ⟨k, hik, hk, hrest⟩ => ⟨k, hik, Nat.lt_succ_of_lt hk, hrest⟩
      · intro hcases hnot
        refine (h.step2 i hi hlt).mpr (hcases.imp id fun ⟨k, hik, hk, hrest⟩ => ⟨k, hik, ?_, hrest⟩)
        exact (Nat.lt_succ_iff_lt_or_eq.mp hk).resolve_right fun hkm => hnot (hkm ▸ hrest)
    · rw [if_pos rfl, decide_eq_true_eq]
      exact ⟨.inl, fun hcases => hcases.resolve_right fun ⟨k, hik, hk, _⟩ => by omega⟩

theorem ampsBelow_fixed (hxs : xsOk fl.xs = true) (hlo : 2 ≤ m) (hm : m ≤ fl.xs.length) : AmpsFixed fl ys m (ampsBelow fl ys m) := by
  induction m, hlo using Nat.le_induction with
  | base =>
    refine ⟨rfl, rfl, fun i hi => ?_, fun i hi hlt => absurd hlt (Nat.not_lt.mpr hi), fun i hi hlt => absurd hlt (Nat.not_lt.mpr hi)⟩
    interval_cases i <;> exact ⟨aget_natCast ys _, rfl⟩
  | succ m hlo ih =>
    rw [ampsBelow_succ fl ys hlo]
    exact (ih (Nat.le_of_succ_le hm)).step hxs hlo hm

theorem amplitudes_fixed (hxs : xsOk fl.xs = true) : AmpsFixed fl ys fl.xs.length (amplitudes fl ys) := ampsBelow_fixed hxs (xsOk_length hxs) le_rfl

end

end Sys2Proof.Machine
end

section
/-! PROOF. The lines and the curve of a floor (42_floor R252 to R255): a line has the value of the linear prediction at every bin, and the curve is one line after
the other. -/

namespace Sys2Proof.Machine

-- one line (R255)

/-- The offset of a line of height `d` over `a` bins at its bin `k`, in the direction of its slope. -/
def lineAt (down : Bool) (y0 : Int) (d a k : Nat) : Int := if down then y0 - (d * k / a : Nat) else y0 + (d * k / a : Nat)

/-- One bin further, the quotient grows by the slope and the carry of the remainders. -/
theorem mul_succ_div {d a k : Nat} (ha : 0 < a) :
    d * (k + 1) / a = d * k / a + d / a + (if a ≤ d * k % a + d % a then 1 else 0) ∧
      d * (k + 1) % a = d * k % a + d % a - (if a ≤ d * k % a + d % a then a else 0) := by
  rw [Nat.mul_succ, Nat.add_div ha, Nat.add_mod]
  have h1 := Nat.mod_lt (d * k) ha
  have h2 := Nat.mod_lt d ha
  split
  next h => exact ⟨by rw [Nat.add_assoc], by rw [Nat.mod_eq_sub_mod h, Nat.mod_eq_of_lt (by omega)]⟩
  next h => exact ⟨by rw [Nat.add_assoc], by rw [Nat.mod_eq_of_lt (by omega), Nat.sub_zero]⟩

/-- The error term is the remainder, and the value the quotient, of the same product. -/
theorem lineFrom_eq (down : Bool) (y0 : Int) {d a : Nat} (ha : 0 < a) (n k : Nat) :
    lineFrom (if down then -(d / a : Nat) else (d / a : Nat)) (if down then -(d / a : Nat) - 1 else (d / a : Nat) + 1) (d % a : Nat) a n (lineAt down y0 d a k)
        (d * k % a : Nat) =
      (List.range n).map fun j => lineAt down y0 d a (k + j) := by
  induction n generalizing k with
  | zero => rfl
  | succ n ih =>
    obtain ⟨hdiv, hmod⟩ := mul_succ_div (d := d) (k := k) ha
    rw [lineFrom, List.range_succ_eq_map, List.map_cons, List.map_map, Nat.add_zero]
    have htail : ((fun j => lineAt down y0 d a (k + j)) ∘ Nat.succ) = fun j => lineAt down y0 d a (k + 1 + j) := funext fun j => by
      rw [Function.comp_apply, Nat.succ_eq_add_one, Nat.add_assoc, Nat.add_comm 1]
    rw [htail, ← ih]
    congr 1
    by_cases h : a ≤ d * k % a + d % a
    · rw [if_pos (by exact_mod_cast h)]
      rw [if_pos h] at hdiv hmod
      congr 1
      · rw [lineAt, lineAt, hdiv]
        cases down <;> simp <;> omega
      · rw [hmod]
        omega
    · rw [if_neg (by exact_mod_cast h)]
      rw [if_neg h] at hdiv hmod
      congr 1
      · rw [lineAt, lineAt, hdiv]
        cases down <;> simp <;> omega
      · rw [hmod]
        omega

section

variable {x0 x1 : Nat} {y0 y1 : Int} (hlt : x0 < x1)

include hlt

theorem renderPoint_eq_lineAt (k : Nat) : renderPoint x0 y0 x1 y1 (x0 + k) = lineAt (y1 - y0 < 0) y0 (y1 - y0).natAbs (x1 - x0) k := by
  have hoff : (((y1 - y0).natAbs : Int) * (((x0 + k : Nat) : Int) - x0)).tdiv ((x1 : Int) - x0) = ((y1 - y0).natAbs * k / (x1 - x0) : Nat) := by
    rw [← Nat.cast_sub hlt.le, Nat.cast_add, add_sub_cancel_left, ← Nat.cast_mul, Int.ofNat_tdiv]
  rw [renderPoint, hoff, lineAt]
  simp

/-- The slope, toward zero. -/
theorem slope_eq : (y1 - y0).tdiv ((x1 : Int) - x0) =
    if decide (y1 - y0 < 0) then -(((y1 - y0).natAbs / (x1 - x0) : Nat) : Int) else ((y1 - y0).natAbs / (x1 - x0) : Nat) := by
  rw [← Nat.cast_sub hlt.le]
  by_cases h : y1 - y0 < 0
  · obtain ⟨d, hd⟩ : ∃ d : Nat, y1 - y0 = -(d : Int) := ⟨(y1 - y0).natAbs, by omega⟩
    rw [if_pos (decide_eq_true h), hd, Int.natAbs_neg, Int.natAbs_natCast, Int.neg_tdiv, Int.ofNat_tdiv]
  · obtain ⟨d, hd⟩ : ∃ d : Nat, y1 - y0 = d := ⟨(y1 - y0).natAbs, by omega⟩
    rw [if_neg (by simpa using h), hd, Int.natAbs_natCast, Int.ofNat_tdiv]

theorem renderLine_eq : renderLine x0 y0 x1 y1 = (List.range (x1 - x0)).map fun k => renderPoint x0 y0 x1 y1 (x0 + k) := by
  have ha : 0 < x1 - x0 := Nat.sub_pos_of_lt hlt
  have hline := lineFrom_eq (decide (y1 - y0 < 0)) y0 (d := (y1 - y0).natAbs) ha (x1 - x0) 0
  have hstep : (if y1 - y0 < 0 then (y1 - y0).tdiv ((x1 : Int) - x0) - 1 else (y1 - y0).tdiv ((x1 : Int) - x0) + 1) =
      if decide (y1 - y0 < 0) then -(((y1 - y0).natAbs / (x1 - x0) : Nat) : Int) - 1 else ((y1 - y0).natAbs / (x1 - x0) : Nat) + 1 := by
    rw [slope_eq hlt]
    by_cases h : y1 - y0 < 0 <;> simp [h]
  have hrest : ((y1 - y0).natAbs : Int) - ((y1 - y0).tdiv ((x1 : Int) - x0)).natAbs * ((x1 : Int) - x0) = ((y1 - y0).natAbs % (x1 - x0) : Nat) := by
    have hq : ((y1 - y0).tdiv ((x1 : Int) - x0)).natAbs = (y1 - y0).natAbs / (x1 - x0) := by
      rw [slope_eq hlt]
      split
      · rw [Int.natAbs_neg, Int.natAbs_natCast]
      · rw [Int.natAbs_natCast]
    have hdm := Nat.div_add_mod' (y1 - y0).natAbs (x1 - x0)
    rw [hq, ← Nat.cast_sub hlt.le, ← Nat.cast_mul]
    omega
  have hstart : lineAt (decide (y1 - y0 < 0)) y0 (y1 - y0).natAbs (x1 - x0) 0 = y0 := by
    rw [lineAt, Nat.mul_zero, Nat.zero_div]
    by_cases h : y1 - y0 < 0 <;> simp [h]
  rw [← slope_eq hlt, ← hstep, hstart, Nat.mul_zero, Nat.zero_mod, ← hrest, Nat.cast_sub hlt.le] at hline
  refine hline.trans (List.map_congr_left fun k _ => ?_)
  rw [Nat.zero_add, renderPoint_eq_lineAt hlt]

theorem renderLine_bounds : ∀ y ∈ renderLine x0 y0 x1 y1, min y0 y1 ≤ y ∧ y ≤ max y0 y1 := by
  intro y hy
  rw [renderLine_eq hlt] at hy
  obtain ⟨k, hk, rfl⟩ := List.mem_map.mp hy
  rw [renderPoint_eq_lineAt hlt, lineAt]
  have hle : (y1 - y0).natAbs * k / (x1 - x0) ≤ (y1 - y0).natAbs := by
    refine Nat.div_le_of_le_mul ?_
    rw [Nat.mul_comm]
    exact Nat.mul_le_mul_right _ (List.mem_range.mp hk).le
  generalize (y1 - y0).natAbs * k / (x1 - x0) = q at hle
  by_cases hneg : y1 - y0 < 0
  · rw [if_pos (decide_eq_true hneg)]
    omega
  · rw [if_neg (by simpa using hneg)]
    omega

end

-- the curve (R252, R253)

/-- The height of the curve at position `i`. -/
def vertexY (fl : Floor) (a : Amps) (i : Nat) : Int := aget a.finalY i * (fl.mult : Int)

section

variable (fl : Floor) (a : Amps) (n : Nat)

/-- Positions that are not set are passed over. -/
theorem curveFrom_filter (ps : List Nat) (lx : Nat) (ly : Int) : curveFrom fl a n ps lx ly = curveFrom fl a n (ps.filter fun i => aget a.step2 i) lx ly := by
  induction ps generalizing lx ly with
  | nil => rfl
  | cons p ps ih =>
    by_cases hp : aget a.step2 p = true
    · rw [List.filter_cons_of_pos hp, curveFrom, curveFrom, if_pos hp, if_pos hp]
      exact congrArg (renderLine lx ly _ _ ++ ·) (ih _ _)
    · rw [List.filter_cons_of_neg hp, curveFrom, if_neg hp, ih]

theorem length_renderLine (x0 x1 : Nat) (y0 y1 : Int) : (renderLine x0 y0 x1 y1).length = x1 - x0 := by
  have hlen : ∀ base sy ady adx k y err, (lineFrom base sy ady adx k y err).length = k := fun base sy ady adx k => by
    induction k with
    | zero => exact fun _ _ => rfl
    | succ k ih =>
      intro y err
      rw [lineFrom, List.length_cons]
      split <;> rw [ih]
  exact hlen ..

/-- The lines reach at least to bin `n`. -/
theorem length_curveFrom (ps : List Nat) (lx : Nat) (ly : Int) : n - lx ≤ (curveFrom fl a n ps lx ly).length := by
  induction ps generalizing lx ly with
  | nil => rw [curveFrom, List.length_replicate]
  | cons p ps ih =>
    rw [curveFrom]
    split
    · have hrest := ih (aget fl.xs p) (vertexY fl a p)
      rw [vertexY] at hrest
      rw [List.length_append, length_renderLine]
      omega
    · exact ih lx ly

theorem length_floorCurve : (floorCurve fl a n).length = n := by
  rw [floorCurve, List.length_take]
  exact Nat.min_eq_left (length_curveFrom fl a n fl.sort.tail 0 _)

/-- A curve whose vertices stay within bounds stays within them. -/
theorem curveFrom_bounds {lo hi : Int} {ps : List Nat} (hps : ∀ i ∈ ps, lo ≤ vertexY fl a i ∧ vertexY fl a i ≤ hi) {lx : Nat} {ly : Int}
    (hl : lo ≤ ly ∧ ly ≤ hi) : ∀ y ∈ curveFrom fl a n ps lx ly, lo ≤ y ∧ y ≤ hi := by
  induction ps generalizing lx ly with
  | nil =>
    intro y hy
    rw [curveFrom] at hy
    rwa [List.eq_of_mem_replicate hy]
  | cons p ps ih =>
    rw [List.forall_mem_cons] at hps
    rw [curveFrom]
    split
    · intro y hy
      rcases List.mem_append.mp hy with hy | hy
      · have hpos : lx < aget fl.xs p := by
          have hlen := List.length_pos_of_mem hy
          rw [length_renderLine] at hlen
          omega
        have hline := renderLine_bounds hpos y hy
        have hvertex := hps.1
        rw [vertexY] at hvertex
        omega
      · exact ih hps.2 hps.1 y hy
    · exact ih hps.2 hl

variable {fl a n}

/-- On set positions in ascending order: after the last the curve is flat, and from one to the next it is the line. -/
theorem curveFrom_value {c : Nat} {qs : List Nat} (hset : ∀ i ∈ qs, aget a.step2 i = true) (hasc : (c :: qs).Pairwise fun i j => aget fl.xs i < aget fl.xs j)
    {before : List Nat} {i : Nat} {after : List Nat} (hsplit : c :: qs = before ++ i :: after) {x : Nat} (hx : aget fl.xs i ≤ x) (hn : x < n) :
    (after = [] → aget (curveFrom fl a n qs (aget fl.xs c) (vertexY fl a c)) (x - aget fl.xs c) = vertexY fl a i) ∧
      ∀ k rest, after = k :: rest → x < aget fl.xs k → aget (curveFrom fl a n qs (aget fl.xs c) (vertexY fl a c)) (x - aget fl.xs c) =
        renderPoint (aget fl.xs i) (vertexY fl a i) (aget fl.xs k) (vertexY fl a k) x := by
  induction qs generalizing c before with
  | nil =>
    obtain ⟨rfl, heq⟩ : before = [] ∧ [c] = i :: after := by
      cases before with
      | nil => exact ⟨rfl, hsplit⟩
      | cons b bs => exact absurd (List.cons.inj hsplit).2.symm (by simp)
    obtain ⟨rfl, rfl⟩ := List.cons.inj heq
    refine ⟨fun _ => ?_, nofun⟩
    rw [curveFrom, aget_replicate, if_pos (by omega)]
  | cons q qs ih =>
    obtain ⟨hc, hq⟩ := List.pairwise_cons.mp hasc
    have hcq : aget fl.xs c < aget fl.xs q := hc q List.mem_cons_self
    rw [List.forall_mem_cons] at hset
    rw [curveFrom, if_pos hset.1]
    cases before with
    | nil =>
      obtain ⟨rfl, rfl⟩ := List.cons.inj hsplit
      refine ⟨nofun, fun k rest hk hxk => ?_⟩
      obtain ⟨rfl, rfl⟩ := List.cons.inj hk
      rw [aget_append_left (by rw [length_renderLine]; omega), renderLine_eq hcq, aget_map_range _ _ _ (by omega), Nat.add_sub_cancel' hx]
      rfl
    | cons b bs =>
      have hsplit' : q :: qs = bs ++ i :: after := (List.cons.inj hsplit).2
      have hqi : aget fl.xs q ≤ aget fl.xs i := by
        have hmem : i ∈ q :: qs := hsplit' ▸ List.mem_append_right _ List.mem_cons_self
        rcases List.mem_cons.mp hmem with rfl | hmem
        · exact le_rfl
        · exact ((List.pairwise_cons.mp hq).1 i hmem).le
      have hskip : x - aget fl.xs c - (aget fl.xs q - aget fl.xs c) = x - aget fl.xs q := by omega
      rw [aget_append_right (by rw [length_renderLine]; omega), length_renderLine, hskip]
      exact ih hset.2 hq hsplit'

end

-- the curve of a floor that passed setup

section

variable {fl : Floor} {a : Amps} {n : Nat} (hxs : xsOk fl.xs = true) (hsort : fl.sort = sortPositions fl.xs)

include hxs hsort

omit hxs in
theorem mem_sort {i : Nat} : i ∈ fl.sort ↔ i < fl.xs.length := by
  rw [hsort, (sortPositions_perm fl.xs).mem_iff, List.mem_range]

theorem sort_ascends : fl.sort.Pairwise fun i j => aget fl.xs i < aget fl.xs j := by
  rw [hsort]
  refine (sortPositions_pairwise fl.xs).imp_of_mem fun {i j} hi hj h => h.elim id fun ⟨heq, hlt⟩ => ?_
  rw [← hsort, mem_sort hsort] at hi hj
  exact absurd (xsOk_inj hxs hi hj heq) hlt.ne

/-- Position 0 has the smallest X, so that it comes first. -/
theorem sort_eq_cons (h0 : aget fl.xs 0 = 0) : fl.sort = 0 :: fl.sort.tail := by
  have hmem : 0 ∈ fl.sort := (mem_sort hsort).mpr (Nat.zero_lt_of_lt (xsOk_length hxs))
  cases hs : fl.sort with
  | nil => rw [hs] at hmem; cases hmem
  | cons c qs =>
    rw [hs] at hmem
    rcases List.mem_cons.mp hmem with rfl | hmem
    · rfl
    · have hasc := sort_ascends hxs hsort
      rw [hs] at hasc
      exact absurd ((List.pairwise_cons.mp hasc).1 0 hmem) (by omega)

/-- The set positions in the order of their X values. -/
def setPositions (fl : Floor) (a : Amps) : List Nat := fl.sort.tail.filter fun i => aget a.step2 i

theorem setPositions_ascends (h0 : aget fl.xs 0 = 0) : (0 :: setPositions fl a).Pairwise fun i j => aget fl.xs i < aget fl.xs j := by
  have hasc := sort_ascends hxs hsort
  rw [sort_eq_cons hxs hsort h0] at hasc
  exact hasc.sublist (List.filter_sublist.cons_cons 0)

theorem mem_setPositions (h0 : aget fl.xs 0 = 0) {i : Nat} : i ∈ 0 :: setPositions fl a ↔ i < fl.xs.length ∧ (i = 0 ∨ aget a.step2 i = true) := by
  have hmem : i ∈ 0 :: fl.sort.tail ↔ i < fl.xs.length := by rw [← sort_eq_cons hxs hsort h0, mem_sort hsort]
  rw [setPositions, List.mem_cons, List.mem_filter, ← hmem, List.mem_cons]
  tauto

theorem aget_floorCurve (h0 : aget fl.xs 0 = 0) {x : Nat} (hx : x < n) :
    aget (floorCurve fl a n) x = aget (curveFrom fl a n (setPositions fl a) (aget fl.xs 0) (vertexY fl a 0)) (x - aget fl.xs 0) := by
  have hhead : aget fl.sort 0 = 0 := by
    rw [sort_eq_cons hxs hsort h0]
    rfl
  rw [floorCurve, curveFrom_filter, hhead, h0, Nat.sub_zero]
  simp only [aget, List.getD_eq_getElem?_getD, List.getElem?_take, if_pos hx]
  rfl

/-- From a set point on, the curve is the line to the next set point, or flat where there is none. -/
theorem floorCurve_value (h0 : aget fl.xs 0 = 0) {before : List Nat} {i : Nat} {after : List Nat} (hsplit : 0 :: setPositions fl a = before ++ i :: after)
    {x : Nat} (hx : aget fl.xs i ≤ x) (hn : x < n) :
    (after = [] → aget (floorCurve fl a n) x = vertexY fl a i) ∧
      ∀ k rest, after = k :: rest → x < aget fl.xs k →
        aget (floorCurve fl a n) x = renderPoint (aget fl.xs i) (vertexY fl a i) (aget fl.xs k) (vertexY fl a k) x := by
  rw [aget_floorCurve hxs hsort h0 hn]
  exact curveFrom_value (fun i hi => (List.mem_filter.mp hi).2) (setPositions_ascends hxs hsort h0) hsplit hx hn

end

theorem renderPoint_start (x0 x1 : Nat) (y0 y1 : Int) : renderPoint x0 y0 x1 y1 x0 = y0 := by
  rw [renderPoint, sub_self, mul_zero, Int.zero_tdiv]
  simp

/-- Settles O33: the amplitudes position by position, the line by its remainders, and the curve from one set point to the next. -/
theorem curveInterpolates : Obligations.CurveInterpolates := by
  refine ⟨fun fl ys hxs => ?_, fun x0 x1 y0 y1 hlt => ⟨renderLine_eq hlt, fun x hx => renderPoint_eq_predictedY hlt hx, renderLine_bounds hlt⟩,
    fun fl a n hxs hsort h0 => ?_⟩
  · have h := amplitudes_fixed (ys := ys) hxs
    refine ⟨h.length_finalY, h.length_step2, fun i hi => ⟨(h.first i hi).1.trans (aget_natCast ys i).symm, (h.first i hi).2⟩, fun i hi hlt =>
      ⟨?_, _, _, (isLow_iff hxs hi hlt).mpr rfl, (isHigh_iff hxs hi hlt).mpr rfl, h.finalY i hi hlt⟩⟩
    refine (h.step2 i hi hlt).trans (or_congr_right (exists_congr fun k => and_congr_right fun hik => and_congr_right fun hk => and_congr_right fun _ => ?_))
    rw [isLow_iff hxs (by omega) hk, isHigh_iff hxs (by omega) hk]
  · refine ⟨length_floorCurve fl a n, fun i hi x hix hxn => ?_⟩
    obtain ⟨before, after, hsplit⟩ := List.append_of_mem ((mem_setPositions hxs hsort h0 (a := a)).mpr hi)
    have hasc := setPositions_ascends hxs hsort h0 (a := a)
    rw [hsplit] at hasc
    obtain ⟨_, hafter, hbefore⟩ := List.pairwise_append.mp hasc
    obtain ⟨hnext, hrest⟩ := List.pairwise_cons.mp hafter
    obtain ⟨hflat, hline⟩ := floorCurve_value hxs hsort h0 hsplit hix hxn
    have hset : ∀ {j}, j ∈ before ++ i :: after ↔ j < fl.xs.length ∧ (j = 0 ∨ aget a.step2 j = true) := fun {j} =>
      hsplit ▸ mem_setPositions hxs hsort h0
    cases after with
    | nil =>
      refine ⟨fun _ => hflat rfl, fun k hk hxk _ => ?_, fun _ => hflat rfl⟩
      -- no set point is further right
      have hki : aget fl.xs k ≤ aget fl.xs i := by
        rcases List.mem_append.mp (hset.mpr hk) with hk | hk
        · exact (hbefore k hk i List.mem_cons_self).le
        · rw [List.mem_singleton.mp hk]
      omega
    | cons j js =>
      have hij : aget fl.xs i < aget fl.xs j := hnext j List.mem_cons_self
      have hj := hset.mp (List.mem_append_right before (List.mem_cons_of_mem i List.mem_cons_self))
      refine ⟨fun hx => ?_, fun k hk hxk hbetween => ?_, fun hlast => absurd (hlast j hj) (by omega)⟩
      · subst hx
        exact (hline j js rfl hij).trans (renderPoint_start ..)
      · -- the next set point is the first one further right
        have hjk : aget fl.xs j = aget fl.xs k := by
          refine le_antisymm ?_ ((hbetween j hj).resolve_left (by omega))
          rcases List.mem_append.mp (hset.mpr hk) with hk | hk
          · have := hbefore k hk i List.mem_cons_self
            omega
          · rcases List.mem_cons.mp hk with rfl | hk
            · omega
            · rcases List.mem_cons.mp hk with rfl | hk
              · exact le_rfl
              · exact ((List.pairwise_cons.mp hrest).1 k hk).le
        obtain rfl : j = k := xsOk_inj hxs hj.1 hk.1 hjk
        exact (hline j js rfl hxk).trans (renderPoint_eq_predictedY hij hix)

end Sys2Proof.Machine
end

section
/-! PROOF. `FL_SYNTH` (42_floor R246 to R258): each bin times the table value of the curve, or the stop on an amplitude out of range. -/

namespace Sys2Proof.Machine

theorem aget_mem {α : Type} [Inhabited α] {l : List α} {i : Nat} (h : i < l.length) : aget l i ∈ l := by
  rw [aget_of_lt h]
  exact List.getElem_mem h

/-- No table index of a floor is above 255: the four multipliers and their ranges fit each other (R250, R257). -/
theorem rangeOf_mul_le {m : Nat} (hlo : 1 ≤ m) (hhi : m ≤ 4) : (rangeOf (m - 1) - 1) * m ≤ 255 := by interval_cases m <;> decide

section

variable {fl : Floor} {a : Amps} {n : Nat} (hsort : fl.sort = sortPositions fl.xs)

include hsort

/-- With every amplitude in range, every bin of the curve is a place of `INV_DB`. -/
theorem floorCurve_indexOk (hlo : 1 ≤ fl.mult) (hhi : fl.mult ≤ 4) (hrange : fl.range = rangeOf (fl.mult - 1)) (h0 : 2 ≤ fl.xs.length)
    (hlen : a.finalY.length = fl.xs.length) (hy : ∀ y ∈ a.finalY, 0 ≤ y ∧ y < (fl.range : Int)) : ∀ y ∈ floorCurve fl a n, invDbIndexOk y = true := by
  have hbound : ∀ i ∈ fl.sort, 0 ≤ vertexY fl a i ∧ vertexY fl a i ≤ 255 := fun i hi => by
    rw [mem_sort hsort, ← hlen] at hi
    obtain ⟨hpos, hlt⟩ := hy _ (aget_mem hi)
    refine ⟨Int.mul_nonneg hpos (by omega), ?_⟩
    have hmul : vertexY fl a i ≤ ((fl.range - 1 : Nat) : Int) * fl.mult := Int.mul_le_mul_of_nonneg_right (by omega) (by omega)
    have hmax := rangeOf_mul_le hlo hhi
    rw [← hrange] at hmax
    exact hmul.trans (by exact_mod_cast hmax)
  have hhead : aget fl.sort 0 ∈ fl.sort := aget_mem (by
    rw [hsort, (sortPositions_perm fl.xs).length_eq, List.length_range]
    omega)
  intro y hmem
  obtain ⟨hpos, hle⟩ := curveFrom_bounds fl a n (fun i hi => hbound i (List.mem_of_mem_tail hi)) (hbound _ hhead) y (List.mem_of_mem_take hmem)
  simp only [invDbIndexOk, Config.invDbLen, Bool.and_eq_true, decide_eq_true_eq]
  omega

end

/-- `FINAL_Y` and `STEP2` hold the amplitudes (R248, R249). -/
def State.holdAmps (a : Amps) (s : State) : State :=
  s.mapWork fun w => { w with finalY := overlay a.finalY w.finalY, step2 := overlay a.step2 w.step2 }

/-- The channel's bins, each times the table value of the curve (R254). -/
def State.synthesise (ch n : Nat) (curve : List Int) (s : State) : State :=
  s.setCur ch (overlay (List.zipWith (fun x y => fmul x (invDbAt y)) (atake n (s.cur ch)) curve) (s.cur ch))

theorem State.bits_synthesise (ch n : Nat) (curve : List Int) (s : State) : (s.synthesise ch n curve).dec.bits = s.dec.bits := by
  rw [State.synthesise, State.setCur_frame]

theorem State.src_synthesise (ch n : Nat) (curve : List Int) (s : State) : (s.synthesise ch n curve).src = s.src := by
  rw [State.synthesise, State.setCur_frame]

theorem aget_synthesise {ch n : Nat} {curve : List Int} (hlen : curve.length = n) (s : State) (i : Nat) :
    aget ((s.synthesise ch n curve).cur ch) i = if i < n then fmul (aget (s.cur ch) i) (invDbAt (aget curve i)) else aget (s.cur ch) i := by
  rw [State.synthesise, State.cur_setCur_self, aget_overlay, List.length_zipWith, length_atake, hlen, Nat.min_self]
  split
  next hi => rw [aget_of_lt (by simpa [hlen] using hi), List.getElem_zipWith, ← aget_of_lt, ← aget_of_lt, aget_atake, if_pos hi]
  next => rfl

section

variable {s : State} {ch f n : Nat}

/-- `FL_SYNTH` with its operands in range, as far as the amplitudes. -/
theorem floorSynth_eq (hch : ch < s.dec.hdr.channels) (hf : f < s.dec.counts.nFloors) (hn : 2 * n ≤ Config.maxBlock)
    (he : aget s.dec.work.hasEnergy ch = true) (hxs : xsOk (s.floor f).xs = true) {a : Amps}
    (ha : a = amplitudes (s.floor f) (aget s.dec.work.floorY ch)) :
    floorSynth ch f n s =
      (do
        M.ensure (a.finalY.all (ampInRange (s.floor f).range) = true) (.fault .floorAmplitude)
        M.ensure ((floorCurve (s.floor f) a n).all invDbIndexOk = true) (.fault .floorAmplitude)
        M.update (State.synthesise ch n (floorCurve (s.floor f) a n)) : M Unit) (s.holdAmps a) := by
  subst ha
  have hbins : binsOperand n s = .ok () s := M.run_ensure_pos hn _ s
  rw [floorSynth, M.bind_ok (chanOperand_ok hch), M.bind_ok (floorOperand_ok hf), M.bind_ok hbins, M.bind_ok (energyOperand_ok he),
    M.bind_ok (M.run_read _ s), M.bind_ok (M.run_ensure_pos hxs _ s), M.bind_ok (M.run_read _ s)]
  rfl

end

theorem all_ampInRange {range : Nat} {ys : List Int} : ys.all (ampInRange range) = true ↔ ∀ y ∈ ys, 0 ≤ y ∧ y < (range : Int) := by
  simp [ampInRange]

/-- Settles O32: with the amplitudes in range the curve stays inside the table, so that every bin gets its factor. -/
theorem floorSynthesises : Obligations.FloorSynthesises := by
  intro s ch f n fl a hch hf hn he hxs hsort hlo hhi hrange
  have heq := floorSynth_eq hch hf hn he hxs (a := a) rfl
  refine ⟨fun hy => ?_, fun hy => ?_⟩
  · have hamps := amplitudes_fixed (fl := fl) (ys := aget s.dec.work.floorY ch) hxs
    have hcurve := floorCurve_indexOk (n := n) hsort hlo hhi hrange (xsOk_length hxs) hamps.length_finalY hy
    rw [M.bind_ok (M.run_ensure_pos (all_ampInRange.mpr hy) _ _), M.bind_ok (M.run_ensure_pos (List.all_eq_true.mpr hcurve) _ _)] at heq
    have hbins := fun i => aget_synthesise (ch := ch) (length_floorCurve fl a n) (s.holdAmps a) i
    refine ⟨_, microUnit_of_ok heq, State.setCur_banksBut (s.holdAmps a) ch _, ?_, ?_, fun i hi => ?_, fun i hi => ?_⟩
    · exact State.bits_synthesise ch n _ (s.holdAmps a)
    · exact State.src_synthesise ch n _ (s.holdAmps a)
    · exact (hbins i).trans (if_pos hi)
    · exact (hbins i).trans (if_neg (Nat.not_lt.mpr hi))
  · rw [M.bind_error (M.run_ensure_neg (mt all_ampInRange.mp hy) _ _)] at heq
    exact microUnit_of_error heq

end Sys2Proof.Machine
end

section
/-! PROOF. What surrounds the pass loop of `RS_DECODE` (43_residue R280, R287, R288): the zeroed vectors, and the shares of an interleaved one. -/

namespace Sys2Proof.Machine

/-- The state with other work buffers. -/
def State.withWork (w : Work) (s : State) : State := s.mapWork fun _ => w

/-- Work buffers differ, but for the energy flags, and nothing else does. -/
def FlagsKept (s t : State) : Prop := ∃ w, t = s.withWork w ∧ w.hasEnergy = s.dec.work.hasEnergy ∧ w.needResidue = s.dec.work.needResidue

theorem FlagsKept.refl (s : State) : FlagsKept s s := ⟨_, rfl, rfl, rfl⟩

theorem FlagsKept.trans {s t u : State} (h : FlagsKept s t) (h' : FlagsKept t u) : FlagsKept s u := by
  obtain ⟨w, rfl, he, hn⟩ := h
  obtain ⟨w', rfl, he', hn'⟩ := h'
  exact ⟨w', rfl, he'.trans he, hn'.trans hn⟩

theorem FlagsKept.setCur (s : State) (ch : Nat) (v : List F32) : FlagsKept s (s.setCur ch v) := ⟨_, s.setCur_frame ch v, rfl, rfl⟩

-- the first elements of several channels

/-- The first elements of some current channels are replaced, one channel after the other. -/
def State.overlayAll (ps : List (Nat × List F32)) (s : State) : State := ps.foldl (fun u p => u.setCur p.1 (overlay p.2 (u.cur p.1))) s

section

variable {ps : List (Nat × List F32)} {c : Nat}

theorem State.overlayAll_cons (p : Nat × List F32) (ps : List (Nat × List F32)) (s : State) :
    s.overlayAll (p :: ps) = (s.setCur p.1 (overlay p.2 (s.cur p.1))).overlayAll ps := rfl

theorem State.overlayAll_concat (p : Nat × List F32) (ps : List (Nat × List F32)) (s : State) :
    s.overlayAll (ps ++ [p]) = (s.overlayAll ps).setCur p.1 (overlay p.2 ((s.overlayAll ps).cur p.1)) :=
  List.foldl_concat _ s p ps

/-- They change the two banks at most. -/
theorem State.overlayAll_frame (s : State) (ps : List (Nat × List F32)) :
    ∃ b₀ b₁, s.overlayAll ps = s.mapWork fun w => { w with buf0 := b₀, buf1 := b₁ } := by
  induction ps generalizing s with
  | nil => exact ⟨_, _, rfl⟩
  | cons p ps ih =>
    obtain ⟨b₀, b₁, h⟩ := ih (s.setCur p.1 (overlay p.2 (s.cur p.1)))
    refine ⟨b₀, b₁, ?_⟩
    rw [State.overlayAll_cons, h, State.setCur_frame]
    rfl

theorem State.overlayAll_flagsKept (s : State) (ps : List (Nat × List F32)) : FlagsKept s (s.overlayAll ps) := by
  obtain ⟨_, _, h⟩ := s.overlayAll_frame ps
  exact ⟨_, h, rfl, rfl⟩

@[simp] theorem State.interleave_overlayAll (ps : List (Nat × List F32)) (s : State) : (s.overlayAll ps).dec.work.interleave = s.dec.work.interleave := by
  obtain ⟨_, _, h⟩ := s.overlayAll_frame ps
  rw [h]
  rfl

theorem State.cur_overlayAll_of_notMem (h : c ∉ ps.map Prod.fst) (s : State) : (s.overlayAll ps).cur c = s.cur c := by
  induction ps generalizing s with
  | nil => rfl
  | cons p ps ih =>
    obtain ⟨hne, hps⟩ := not_or.mp (mt List.mem_cons.mpr h)
    rw [State.overlayAll_cons, ih hps, State.cur_setCur, if_neg hne]

theorem State.cur_overlayAll_of_mem (hnodup : (ps.map Prod.fst).Nodup) {v : List F32} (h : (c, v) ∈ ps) (s : State) :
    (s.overlayAll ps).cur c = overlay v (s.cur c) := by
  induction ps generalizing s with
  | nil => cases h
  | cons p ps ih =>
    obtain ⟨hp, hps⟩ := List.nodup_cons.mp hnodup
    rw [State.overlayAll_cons]
    rcases List.mem_cons.mp h with rfl | h
    · rw [State.cur_overlayAll_of_notMem hp, State.cur_setCur_self]
    · have hne : c ≠ p.1 := fun heq => hp (heq ▸ List.mem_map_of_mem (f := Prod.fst) h)
      rw [ih hps h, State.cur_setCur, if_neg hne]

end

-- the channels of a submap

theorem ascending_iff_pairwise {l : List Nat} : ascending l = true ↔ l.Pairwise (· < ·) := by
  rw [← List.isChain_iff_pairwise]
  induction l with
  | nil => exact ⟨fun _ => .nil, fun _ => rfl⟩
  | cons a l ih =>
    cases l with
    | nil => exact ⟨fun _ => .singleton a, fun _ => rfl⟩
    | cons b rest => rw [ascending, Bool.and_eq_true, decide_eq_true_eq, ih, List.isChain_cons_cons]

theorem nodup_of_ascending {l : List Nat} (h : ascending l = true) : l.Nodup := (ascending_iff_pairwise.mp h).imp Nat.ne_of_lt

theorem map_aget_range {α : Type} [Inhabited α] (l : List α) : (List.range l.length).map (aget l) = l :=
  List.ext_getElem (by simp) fun i hi _ => by
    rw [List.getElem_map, List.getElem_range, aget_of_lt]

-- before and after the pass loop

/-- The vectors of the named channels start as zeros (R288). -/
def State.zeroChans (chans : List Nat) (n : Nat) (s : State) : State := s.overlayAll (chans.map fun c => (c, List.replicate n f32Zero))

/-- The interleaved vector starts as zeros (R287). -/
def State.zeroInterleave (size : Nat) (s : State) : State :=
  s.mapWork fun w => { w with interleave := overlay (List.replicate size f32Zero) w.interleave }

/-- Every named channel gets its share of the interleaved vector (R287). -/
def State.shareOut (chans : List Nat) (n : Nat) (s : State) : State :=
  s.overlayAll ((List.range chans.length).map fun j => (aget chans j, deinterleave s.dec.work.interleave chans.length n j))

/-- The skipped channels are marked (R287). -/
def State.markSkipped (dnd : List Bool) (s : State) : State := s.mapWork fun w => { w with doNotDecode := overlay dnd w.doNotDecode }

section

variable {chans : List Nat} {n : Nat}

theorem forList_zeroSpectrum (chans : List Nat) (n : Nat) (s : State) : forList chans (zeroSpectrum n) s = .ok () (s.zeroChans chans n) := by
  induction chans generalizing s with
  | nil => rfl
  | cons c cs ih =>
    have hzero : zeroSpectrum n c s = .ok () (s.setCur c (overlay (List.replicate n f32Zero) (s.cur c))) := rfl
    rw [forList_cons, M.bind_ok hzero, ih]
    rfl

theorem forN_shareOut (chans : List Nat) (n : Nat) (s : State) :
    (forN chans.length 0 fun j => M.update fun s =>
        s.setCur (aget chans j) (overlay (deinterleave s.dec.work.interleave chans.length n j) (s.cur (aget chans j)))) s =
      .ok () (s.shareOut chans n) :=
  forN_ok (fun k => s.overlayAll ((List.range k).map fun j => (aget chans j, deinterleave s.dec.work.interleave chans.length n j))) chans.length 0
    fun k _ => by
      rw [M.run_update, Nat.zero_add, List.range_succ, List.map_append, List.map_singleton, State.overlayAll_concat,
        State.interleave_overlayAll]

variable (hasc : ascending chans = true)

include hasc

theorem aget_zeroChans {c : Nat} (hc : c ∈ chans) (s : State) (i : Nat) :
    aget ((s.zeroChans chans n).cur c) i = if i < n then f32Zero else aget (s.cur c) i := by
  have hnodup : ((chans.map fun c => (c, List.replicate n f32Zero)).map Prod.fst).Nodup := by
    rw [List.map_map]
    exact (List.map_id chans).symm ▸ nodup_of_ascending hasc
  rw [State.zeroChans, State.cur_overlayAll_of_mem hnodup (List.mem_map_of_mem hc), aget_overlay, List.length_replicate]
  refine if_ctx_congr Iff.rfl (fun hi => ?_) fun _ => rfl
  rw [aget_replicate, if_pos hi]

theorem aget_shareOut {j : Nat} (hj : j < chans.length) (s : State) (i : Nat) :
    aget ((s.shareOut chans n).cur (aget chans j)) i =
      if i < n then aget s.dec.work.interleave (i * chans.length + j) else aget (s.cur (aget chans j)) i := by
  have hnodup : (((List.range chans.length).map fun j => (aget chans j, deinterleave s.dec.work.interleave chans.length n j)).map Prod.fst).Nodup := by
    rw [List.map_map]
    exact (map_aget_range chans).symm ▸ nodup_of_ascending hasc
  rw [State.shareOut, State.cur_overlayAll_of_mem hnodup (List.mem_map_of_mem (List.mem_range.mpr hj)), aget_overlay, deinterleave, List.length_map,
    List.length_range]
  exact if_ctx_congr Iff.rfl (fun hi => aget_map_range _ _ _ hi) fun _ => rfl

end

-- RS_DECODE around the pass loop

section

variable {s u : State} {r n : Nat} {chans : List Nat} (hr : r < s.dec.counts.nResidues) (hn : 2 * n ≤ Config.maxBlock)
  (hch : ∀ c ∈ chans, c < s.dec.hdr.channels) (hasc : ascending chans = true) (hps : 0 < (s.residue r).partSize) (hnc : 0 < (s.residue r).nclass)

include hr hn hch hasc hps hnc

theorem residueDecode_eq {dnd : List Bool} (hdnd : dnd = doNotDecodeOf s.dec.work.needResidue chans) :
    residueDecode r chans n s =
      (if (s.residue r).rtype = 2 then residueInterleaved (s.residue r) chans dnd n else residueSeparate (s.residue r) chans dnd n) (s.markSkipped dnd) := by
  subst hdnd
  have hbins : binsOperand n s = .ok () s := M.run_ensure_pos hn _ s
  have hchans : chans.all (fun c => c < s.dec.hdr.channels) = true ∧ ascending chans = true := ⟨by simpa using hch, hasc⟩
  rw [residueDecode, M.bind_ok (residueOperand_ok hr), M.bind_ok hbins, M.bind_ok (M.run_read _ s)]
  rw [M.bind_ok (M.run_ensure_pos hchans _ s), M.bind_ok (M.run_read _ s), M.bind_ok (M.run_ensure_pos (And.intro hps hnc) _ s), M.bind_ok (M.run_read _ s)]
  rfl

theorem residueDecode_separate (ht : (s.residue r).rtype ≠ 2) {dnd : List Bool} (hdnd : dnd = doNotDecodeOf s.dec.work.needResidue chans)
    (h : residueInner (s.residue r) (chans.map fun c => { ref := .cur c, size := n }) dnd n ((s.markSkipped dnd).zeroChans chans n) = .ok () u) :
    residueDecode r chans n s = .ok () u := by
  rw [residueDecode_eq hr hn hch hasc hps hnc hdnd, if_neg ht, residueSeparate, M.bind_ok (forList_zeroSpectrum ..)]
  exact h

theorem residueDecode_joint (ht : (s.residue r).rtype = 2) {dnd : List Bool} (hdnd : dnd = doNotDecodeOf s.dec.work.needResidue chans)
    (h : residueJoint (s.residue r) dnd (n * chans.length) ((s.markSkipped dnd).zeroInterleave (n * chans.length)) = .ok () u) :
    residueDecode r chans n s = .ok () (u.shareOut chans n) := by
  rw [residueDecode_eq hr hn hch hasc hps hnc hdnd, if_pos ht, residueInterleaved, M.bind_ok (M.run_update _ _)]
  exact (M.bind_ok h).trans (forN_shareOut chans n u)

end

-- nothing to read (R281, R289, R290)

theorem forN_idle {body : Nat → M Unit} {s : State} (n i : Nat) (h : ∀ k, body k s = .ok () s) : forN n i body s = .ok () s :=
  forN_ok (fun _ => s) n i fun _ _ => h _

theorem forKept_idle {dnd : List Bool} (h : dnd.all id = true) (body : Nat → M Unit) (s : State) : forKept dnd body s = .ok () s := by
  refine forN_ok (fun _ => s) dnd.length 0 fun j hj => ?_
  have hskip : aget dnd (0 + j) = true := by
    rw [Nat.zero_add, aget_of_lt hj]
    exact List.all_eq_true.mp h _ (List.getElem_mem hj)
  rw [if_pos hskip]
  rfl

/-- Where every vector is skipped, or there is no partition, the pass loop does nothing. -/
theorem residueInner_idle {rs : Residue} {vs : List Vec} {dnd : List Bool} {size : Nat} {s : State} (hdim : (s.codebook rs.classbook).dim ≠ 0)
    (h : dnd.all id = true ∨ partitionsToRead rs size = 0) : residueInner rs vs dnd size s = .ok () s := by
  rw [residueInner, M.bind_ok (M.run_read _ s), M.bind_ok (M.run_ensure_pos hdim _ s)]
  refine forN_idle _ _ fun pass => ?_
  rcases h with hall | hnone
  · refine forN_idle _ _ fun g => ?_
    have hclass : classifyGroup rs dnd (s.codebook rs.classbook).dim pass g s = .ok () s := by
      rw [classifyGroup]
      split
      · exact forKept_idle hall _ s
      · rfl
    rw [residueGroup, M.bind_ok hclass]
    exact forN_idle _ _ fun q => forKept_idle hall _ s
  · have hgroups : (0 + (s.codebook rs.classbook).dim - 1) / (s.codebook rs.classbook).dim = 0 := Nat.div_eq_of_lt (by omega)
    rw [hnone, hgroups]
    rfl

theorem residueJoint_idle {rs : Residue} {dnd : List Bool} {size : Nat} {s : State} (hdim : (s.codebook rs.classbook).dim ≠ 0)
    (h : dnd.all id = true ∨ partitionsToRead rs size = 0) : residueJoint rs dnd size s = .ok () s := by
  rw [residueJoint]
  split
  next => rfl
  next hall => exact residueInner_idle hdim (.inr (h.resolve_left hall))

/-- `RS_DECODE` with nothing to read zeroes its vectors. -/
theorem residueDecode_idle {s : State} {r n size : Nat} {chans : List Nat} (hr : r < s.dec.counts.nResidues) (hn : 2 * n ≤ Config.maxBlock)
    (hch : ∀ c ∈ chans, c < s.dec.hdr.channels) (hasc : ascending chans = true) (hps : 0 < (s.residue r).partSize) (hnc : 0 < (s.residue r).nclass)
    (hdim : (s.codebook (s.residue r).classbook).dim ≠ 0) (hsize : size = if (s.residue r).rtype = 2 then n * chans.length else n)
    (hidle : (∀ c ∈ chans, aget s.dec.work.needResidue c = false) ∨ partitionsToRead (s.residue r) size = 0) :
    ∃ t, residueDecode r chans n s = .ok () t ∧ FlagsKept s t ∧ ∀ c ∈ chans, ∀ i, aget (t.cur c) i = if i < n then f32Zero else aget (s.cur c) i := by
  obtain ⟨dnd, hdnd⟩ : ∃ dnd, dnd = doNotDecodeOf s.dec.work.needResidue chans := ⟨_, rfl⟩
  have hskip : dnd.all id = true ∨ partitionsToRead (s.residue r) size = 0 := hidle.imp_left fun h => by
    rw [hdnd, doNotDecodeOf, List.all_map, List.all_eq_true]
    exact fun c hc => by simp [h c hc]
  have hmark : FlagsKept s (s.markSkipped dnd) := ⟨_, rfl, rfl, rfl⟩
  by_cases ht : (s.residue r).rtype = 2
  · rw [if_pos ht] at hsize
    rw [hsize] at hskip
    have hzero : FlagsKept (s.markSkipped dnd) ((s.markSkipped dnd).zeroInterleave (n * chans.length)) := ⟨_, rfl, rfl, rfl⟩
    refine ⟨_, residueDecode_joint hr hn hch hasc hps hnc ht hdnd (residueJoint_idle hdim hskip), (hmark.trans hzero).trans (State.overlayAll_flagsKept _ _),
      fun c hc i => ?_⟩
    obtain ⟨j, hj, rfl⟩ := List.getElem_of_mem hc
    rw [← aget_of_lt hj, aget_shareOut hasc hj]
    refine if_ctx_congr Iff.rfl (fun hi => ?_) fun _ => rfl
    have hp : i * chans.length + j < n * chans.length := by nlinarith
    rw [State.zeroInterleave]
    exact (aget_overlay _ _ _).trans (by rw [List.length_replicate, if_pos hp, aget_replicate, if_pos hp])
  · rw [if_neg ht] at hsize
    rw [hsize] at hskip
    obtain ⟨_, _, hzero⟩ := (s.markSkipped dnd).overlayAll_frame (chans.map fun c => (c, List.replicate n f32Zero))
    have hdim' : (((s.markSkipped dnd).zeroChans chans n).codebook (s.residue r).classbook).dim ≠ 0 := by
      rw [State.zeroChans, hzero]
      exact hdim
    exact ⟨_, residueDecode_separate hr hn hch hasc hps hnc ht hdnd (residueInner_idle hdim' hskip), hmark.trans (State.overlayAll_flagsKept _ _),
      fun c hc i => aget_zeroChans hasc hc _ i⟩

/-- Settles O35: the vectors are zeroed, and the pass loop finds nothing to read. -/
theorem residueZeroes : Obligations.ResidueZeroes := by
  intro s r chans n rs size hr hn hch hasc hps hnc hdim hidle
  obtain ⟨t, hrun, ⟨w, rfl, -, -⟩, hcur⟩ := residueDecode_idle hr hn hch hasc hps hnc hdim (size := size) rfl hidle
  refine ⟨_, microUnit_of_ok hrun, rfl, rfl, rfl, rfl, rfl, ?_, fun c hc => ⟨fun i hi => ?_, fun i hi => ?_⟩⟩
  · have hseen := ((residueDecode_framed r chans n).ok hrun).seen
    generalize s.withWork w = t at hseen
    exact banksBut_of_banksView (congrArg Prod.snd hseen)
  · exact (hcur c hc i).trans (if_pos hi)
  · exact (hcur c hc i).trans (if_neg (Nat.not_lt.mpr hi))

end Sys2Proof.Machine
end

section
/-! PROOF. The codewords of a residue (43_residue R282 to R286): a piece of the pass loop on the reads that it asks for, and what they add to the vectors. -/

namespace Sys2Proof.Machine

theorem State.bufSet_eq_withWork (r : BufRef) (v : List F32) (s : State) : s.bufSet r v = s.withWork (s.bufSet r v).dec.work := by
  cases r with
  | cur ch =>
    rw [State.bufSet, State.setCur]
    split <;> rfl
  | interleave => rfl

theorem State.bufGet_bufSet_of_ne {r r' : BufRef} (h : r' ≠ r) (v : List F32) (s : State) : (s.bufSet r v).bufGet r' = s.bufGet r' := by
  cases r with
  | cur ch =>
    cases r' with
    | cur ch' => exact (s.cur_setCur ch v ch').trans (if_neg fun heq => h (congrArg BufRef.cur heq))
    | interleave =>
      rw [State.bufSet, State.setCur]
      split <;> rfl
  | interleave =>
    cases r' with
    | cur ch' => rfl
    | interleave => exact absurd rfl h

theorem State.classif_bufSet (r : BufRef) (v : List F32) (s : State) : (s.bufSet r v).dec.work.classif = s.dec.work.classif := by
  cases r with
  | cur ch =>
    rw [State.bufSet, State.setCur]
    split <;> rfl
  | interleave => rfl

-- what reads add (R285, R286)

section

variable {s : State} {j i : Nat}

theorem State.addedAt_append (a b : List (ResidueRead × Code)) (x : F32) : s.addedAt j i (a ++ b) x = s.addedAt j i b (s.addedAt j i a x) := by
  induction a generalizing x with
  | nil => rfl
  | cons p a ih =>
    obtain ⟨r, k⟩ := p
    cases r with
    | cls v g => exact ih x
    | vec v b pos stride =>
      rw [List.cons_append, State.addedAt, State.addedAt]
      split <;> exact ih _

/-- Reads inside the vectors add nothing past their end. -/
theorem State.addedAt_past {size : Nat} {entry : Nat → Nat → Nat} (hi : size ≤ i) {l : List (ResidueRead × Code)} (hl : ∀ p ∈ l, p.1.ok s size entry p.2 = true)
    (x : F32) : s.addedAt j i l x = x := by
  induction l generalizing x with
  | nil => rfl
  | cons p l ih =>
    obtain ⟨r, k⟩ := p
    rw [List.forall_mem_cons] at hl
    obtain ⟨hp, hl⟩ := hl
    cases r with
    | cls v g => exact ih hl x
    | vec v b pos stride =>
      simp only [ResidueRead.ok, Bool.and_eq_true, decide_eq_true_eq] at hp
      rw [State.addedAt, if_neg, ih hl]
      rintro ⟨-, hle, hmod, hlt⟩
      have hdiv := Nat.div_add_mod' (i - pos) stride
      have hmul := Nat.mul_le_mul_right stride (show (i - pos) / stride ≤ (s.codebook b).dim - 1 by omega)
      omega

end

/-- The bits of the codewords of reads. -/
def codeBits (l : List (ResidueRead × Code)) : List Bool := l.flatMap fun p => p.2.bits

/-- Every codeword is one of its read's codebook, and stands for what the read asks for. -/
def LegalReads (s₀ : State) (rs : Residue) (size : Nat) (entry : Nat → Nat → Nat) (l : List (ResidueRead × Code)) : Prop :=
  ∀ p ∈ l, CodeOf s₀ (p.1.book rs) p.2 ∧ p.1.ok s₀ size entry p.2 = true

/-- The vectors of a decode: each of `size` elements, in a buffer of its own. -/
def VecsOk (vs : List Vec) (size : Nat) : Prop :=
  (∀ j, j < vs.length → (aget vs j).size = size) ∧ ∀ i j, i < vs.length → j < vs.length → (aget vs i).ref = (aget vs j).ref → i = j

/-- On the codewords of its reads, the piece takes exactly their bits, adds their vectors, and leaves `Q` of the classifications where `P` was before. -/
def Runs (s₀ : State) (rs : Residue) (vs : List Vec) (size : Nat) (entry : Nat → Nat → Nat) (P : List (List Nat) → Prop) (reads : List ResidueRead) (m : M Unit)
    (Q : List (List Nat) → Prop) : Prop :=
  ∀ ⦃u : State⦄ ⦃l : List (ResidueRead × Code)⦄, l.map Prod.fst = reads → LegalReads s₀ rs size entry l → TablesOf s₀ u → u.dec.bits.Valid →
    codeBits l <+: u.ahead → P u.dec.work.classif →
      ∃ w, m u = .ok () ((u.advance (codeBits l).length).withWork w) ∧ Q w.classif ∧
        ∀ j, j < vs.length → ∀ i, aget ((u.withWork w).bufGet (aget vs j).ref) i = s₀.addedAt j i l (aget (u.bufGet (aget vs j).ref) i)

section

variable {s₀ : State} {rs : Residue} {vs : List Vec} {size : Nat} {entry : Nat → Nat → Nat} {P Q R : List (List Nat) → Prop} {reads reads' : List ResidueRead}
  {m m' : M Unit}

theorem Runs.nil (hpq : ∀ cl, P cl → Q cl) : Runs s₀ rs vs size entry P [] (pure ()) Q := by
  intro u l hl _ _ hv _ hp
  obtain rfl := List.map_eq_nil_iff.mp hl
  refine ⟨u.dec.work, ?_, hpq _ hp, fun _ _ _ => rfl⟩
  rw [codeBits, List.flatMap_nil, List.length_nil, State.advance_zero hv]
  rfl

/-- What follows needs less. -/
theorem Runs.mono (hm : Runs s₀ rs vs size entry P reads m Q) (hqr : ∀ cl, Q cl → R cl) : Runs s₀ rs vs size entry P reads m R := by
  intro u l hl hlegal ht hv hp hpre
  obtain ⟨w, hrun, hq, hadd⟩ := hm hl hlegal ht hv hp hpre
  exact ⟨w, hrun, hqr _ hq, hadd⟩

theorem Runs.bind (hm : Runs s₀ rs vs size entry P reads m Q) (hm' : Runs s₀ rs vs size entry Q reads' m' R) :
    Runs s₀ rs vs size entry P (reads ++ reads') (do m; m') R := by
  intro u l hl hlegal ht hv hp hpre
  obtain ⟨a, b, rfl, ha, hb⟩ := List.map_eq_append_iff.mp hl
  rw [codeBits, List.flatMap_append] at hp ⊢
  obtain ⟨hpa, hpb⟩ := prefix_advance hv hp
  obtain ⟨w, hrun, hq, hadd⟩ := hm ha (fun p h => hlegal p (List.mem_append_left _ h)) ht hv hpa hpre
  obtain ⟨w', hrun', hr, hadd'⟩ := hm' (u := (u.advance (codeBits a).length).withWork w) hb (fun p h => hlegal p (List.mem_append_right _ h)) ht
    (State.advance_valid hv) hpb hq
  refine ⟨w', ?_, hr, fun j hj i => ?_⟩
  · rw [M.bind_ok hrun, hrun', List.length_append, ← State.advance_advance hv hpa.length_le]
    rfl
  · rw [State.addedAt_append, ← hadd j hj]
    exact hadd' j hj i

theorem Runs.read {α : Type} {f : State → α} {k : α → M Unit} {a : α} (ha : ∀ u, TablesOf s₀ u → P u.dec.work.classif → f u = a)
    (hk : Runs s₀ rs vs size entry P reads (k a) Q) : Runs s₀ rs vs size entry P reads (do let x ← M.read f; k x) Q := by
  intro u l hl hlegal ht hv hp hpre
  rw [M.bind_ok (M.run_read f u), ha u ht hpre]
  exact hk hl hlegal ht hv hp hpre

theorem Runs.ensure {p : Prop} [Decidable p] {x : Stop} (hp : p) (hm : Runs s₀ rs vs size entry P reads m Q) :
    Runs s₀ rs vs size entry P reads (do M.ensure p x; m) Q := by
  intro u l hl hlegal ht hv hpre hP
  rw [M.bind_ok (M.run_ensure_pos hp x u)]
  exact hm hl hlegal ht hv hpre hP

/-- A read that no codeword makes legal asks nothing of the piece. -/
theorem Runs.illegal {r : ResidueRead} (hr : r ∈ reads) (hbad : ∀ k, r.ok s₀ size entry k = false) : Runs s₀ rs vs size entry P reads m Q := by
  intro u l hl hlegal
  rw [← hl] at hr
  obtain ⟨p, hp, rfl⟩ := List.mem_map.mp hr
  exact absurd ((hlegal p hp).2.symm.trans (hbad p.2)) nofun

/-- A loop, with an invariant for each turn. -/
theorem Runs.forN {I : Nat → List (List Nat) → Prop} {f : Nat → List ResidueRead} {body : Nat → M Unit} {n lo : Nat}
    (h : ∀ x, lo ≤ x → x < lo + n → Runs s₀ rs vs size entry (I x) (f x) (body x) (I (x + 1))) :
    Runs s₀ rs vs size entry (I lo) ((List.range' lo n).flatMap f) (forN n lo body) (I (lo + n)) := by
  induction n generalizing lo with
  | zero => exact .nil fun _ h => h
  | succ n ih =>
    have hrest := ih (lo := lo + 1) fun x hlo hhi => h x (by omega) (by omega)
    rw [Nat.add_assoc, Nat.add_comm 1] at hrest
    rw [List.range'_succ, List.flatMap_cons]
    exact .bind (h lo le_rfl (by omega)) hrest

/-- The vectors that are not skipped. -/
def keptOf (dnd : List Bool) : List Nat := (List.range dnd.length).filter fun j => !aget dnd j

theorem flatMap_filter {α β : Type} (p : α → Bool) (f : α → List β) (l : List α) :
    (l.filter p).flatMap f = l.flatMap fun x => if p x = true then f x else [] := by
  induction l with
  | nil => rfl
  | cons x l ih => by_cases hx : p x = true <;> simp [hx, ih]

/-- The loop over the vectors that are not skipped. -/
theorem Runs.forKept {dnd : List Bool} {I : Nat → List (List Nat) → Prop} {f : Nat → List ResidueRead} {body : Nat → M Unit}
    (hkept : ∀ j, j ∈ keptOf dnd → Runs s₀ rs vs size entry (I j) (f j) (body j) (I (j + 1)))
    (hskip : ∀ j, j < dnd.length → aget dnd j = true → ∀ cl, I j cl → I (j + 1) cl) :
    Runs s₀ rs vs size entry (I 0) ((keptOf dnd).flatMap f) (forKept dnd body) (I dnd.length) := by
  rw [keptOf, flatMap_filter, List.range_eq_range']
  have hloop := Runs.forN (s₀ := s₀) (rs := rs) (vs := vs) (size := size) (entry := entry) (I := I) (n := dnd.length) (lo := 0)
    (f := fun j => if (!aget dnd j) = true then f j else []) (body := fun j => if aget dnd j then pure () else body j) fun j _ hj => ?_
  · rwa [Nat.zero_add] at hloop
  · rw [Nat.zero_add] at hj
    cases hd : aget dnd j with
    | true => exact .nil (hskip j hj hd)
    | false => exact hkept j (List.mem_filter.mpr ⟨List.mem_range.mpr hj, by rw [hd]; rfl⟩)

end

-- one vector (R208)

section

variable {s₀ : State} {rs : Residue} {vs : List Vec} {size : Nat} {entry : Nat → Nat → Nat} {P : List (List Nat) → Prop} (hvs : VecsOk vs size) {j : Nat}
  (hj : j < vs.length)

include hvs hj

theorem codebookVector_runs {b pos stride : Nat} (hstride : 1 ≤ stride) :
    Runs s₀ rs vs size entry P [.vec j b pos stride] (codebookVector b (aget vs j) pos stride) P := by
  intro u l hl hlegal ht hv hp hpre
  obtain ⟨p, l', rfl, hr, hl'⟩ := List.map_eq_cons_iff.mp hl
  obtain rfl := List.map_eq_nil_iff.mp hl'
  obtain ⟨r, k⟩ := p
  obtain rfl : r = .vec j b pos stride := hr
  obtain ⟨(hcode : CodeOf s₀ b k), hok⟩ := hlegal _ (List.mem_singleton_self _)
  simp only [ResidueRead.ok, Bool.and_eq_true, decide_eq_true_eq] at hok
  obtain ⟨⟨hlookup, hdim⟩, hsize⟩ := hok
  rw [codeBits, List.flatMap_singleton] at hp ⊢
  change k.bits <+: u.ahead at hp
  rw [← ht.codebook] at hlookup hdim hsize
  have hrun := codebookVector_ok hv (ht.codeOf hcode) hp hlookup hdim hstride (buf := aget vs j) (by rwa [hvs.1 j hj])
  rw [ht.codebook, State.bufSet_eq_withWork, ← Code.length_bits] at hrun
  refine ⟨_, hrun, ?_, fun j' hj' i => ?_⟩
  · rw [State.classif_bufSet]
    exact hpre
  · have hget : ∀ (v : List F32) (r : BufRef),
        (u.withWork ((u.advance k.bits.length).bufSet (aget vs j).ref v).dec.work).bufGet r = ((u.advance k.bits.length).bufSet (aget vs j).ref v).bufGet r := by
      intro v r
      conv_rhs => rw [State.bufSet_eq_withWork]
      cases r <;> rfl
    rw [hget, State.addedAt]
    by_cases heq : j' = j
    · subst heq
      rw [State.bufGet_bufSet, State.bufGet_advance, aget_addStrided hstride, length_vqVector]
      refine (if_congr ⟨fun h => ⟨rfl, h⟩, And.right⟩ rfl rfl).trans (apply_ite (s₀.addedAt j' i []) _ _ _).symm
    · rw [State.bufGet_bufSet_of_ne fun h => heq (hvs.2 j' j hj' hj h), State.bufGet_advance, if_neg fun h => heq h.1.symm]
      rfl

-- one partition (R284 to R286)

theorem decodePartition_runs {b off : Nat} :
    Runs s₀ rs vs size entry P (partitionReads rs.rtype rs.partSize (s₀.codebook b).dim j b off) (decodePartition rs b (aget vs j) off) P := by
  rw [partitionReads, decodePartition]
  split
  next hdim => exact .illegal (List.mem_singleton_self _) fun k => by simp [ResidueRead.ok, hdim]
  next hdim =>
    have hloop : ∀ {n : Nat} {pos : Nat → Nat} {stride : Nat}, (0 < n → 1 ≤ stride) →
        Runs s₀ rs vs size entry P ((List.range n).map fun i => .vec j b (pos i) stride) (forN n 0 fun i => codebookVector b (aget vs j) (pos i) stride) P := by
      intro n pos stride hstride
      rw [List.map_eq_flatMap, List.range_eq_range']
      exact .forN (I := fun _ => P) fun x _ hx => codebookVector_runs hvs hj (hstride (by omega))
    split
    · exact .read (fun u ht _ => by rw [ht.codebook]) (.ensure hdim (hloop fun h => h))
    · refine .read (fun u ht _ => by rw [ht.codebook]) ?_
      rw [if_neg hdim]
      exact hloop fun _ => le_rfl

end

end Sys2Proof.Machine
end

section
/-! PROOF. The pass loop of a residue (43_residue R281 to R287): the classifications of a group, its partitions, and the passes over all groups. -/

namespace Sys2Proof.Machine

-- the digits of a classification (R283)

theorem length_classDigits (nclass k t : Nat) : (classDigits nclass k t).length = k := by
  induction k generalizing t with
  | zero => rfl
  | succ k ih => rw [classDigits, List.length_append, ih, List.length_singleton]

theorem aget_classDigits {nclass k i : Nat} (hi : i < k) (t : Nat) : aget (classDigits nclass k t) i = t / nclass ^ (k - 1 - i) % nclass := by
  induction k generalizing t with
  | zero => cases hi
  | succ k ih =>
    rw [classDigits]
    rcases Nat.lt_succ_iff_lt_or_eq.mp hi with hlt | rfl
    · rw [aget_append_left (by rwa [length_classDigits]), ih hlt, Nat.div_div_eq_div_mul, ← Nat.pow_succ', show (k - 1 - i).succ = k + 1 - 1 - i by omega]
    · rw [aget_append_right (by rw [length_classDigits]), length_classDigits, Nat.sub_self, show i + 1 - 1 - i = 0 by omega, Nat.pow_zero, Nat.div_one]
      rfl

/-- The classifications of a vector after the digits of a group are written at `q`. -/
theorem aget_putDigits (q : Nat) (ds row : List Nat) (p : Nat) :
    aget (atake q row ++ overlay ds (row.drop q)) p = if q ≤ p ∧ p < q + ds.length then aget ds (p - q) else aget row p := by
  rcases Nat.lt_or_ge p q with hlt | hge
  · rw [aget_append_left (by rwa [length_atake]), aget_atake, if_pos hlt, if_neg (by omega)]
  · rw [aget_append_right (by rwa [length_atake]), length_atake, aget_overlay]
    refine if_congr (by omega) rfl ?_
    simp only [aget, List.getD_eq_getElem?_getD, List.getElem?_drop, Nat.add_sub_cancel' hge]

/-- The classifications of the first groups, `b j` of vector `j`, are the digits of their entries. -/
def Known (nclass cpc : Nat) (entry : Nat → Nat → Nat) (kept : List Nat) (b : Nat → Nat) (cl : List (List Nat)) : Prop :=
  ∀ j ∈ kept, ∀ q, q < b j * cpc → aget (aget cl j) q = classOf nclass cpc entry j q

section

variable {s₀ : State} {rs : Residue} {vs : List Vec} {size cpc : Nat} {entry : Nat → Nat → Nat} {kept : List Nat}

theorem Known.congr {nclass : Nat} {b b' : Nat → Nat} {cl : List (List Nat)} (h : Known nclass cpc entry kept b cl) (hb : ∀ j ∈ kept, b' j ≤ b j) :
    Known nclass cpc entry kept b' cl :=
  fun j hj q hq => h j hj q (hq.trans_le (Nat.mul_le_mul_right _ (hb j hj)))

/-- The groups below `g` of every vector, and group `g` of the vectors below `j`. -/
def groupsUpTo (g j : Nat) : Nat → Nat := fun i => if i < j then g + 1 else g

/-- The digits of group `g` of vector `j` come after those of the groups before. -/
theorem Known.putDigits {g j t : Nat} {cl : List (List Nat)} (h : Known rs.nclass cpc entry kept (groupsUpTo g j) cl) (ht : t = entry j g) :
    Known rs.nclass cpc entry kept (groupsUpTo g (j + 1))
      (aset cl j (atake (g * cpc) (aget cl j) ++ overlay (classDigits rs.nclass cpc t) ((aget cl j).drop (g * cpc)))) := by
  intro i hi q hq
  by_cases hij : i = j
  · subst hij
    rw [groupsUpTo, if_pos (Nat.lt_succ_self i), Nat.succ_mul] at hq
    rw [aget_aset_self, aget_putDigits, length_classDigits]
    split
    next hin =>
      have hdiv : q / cpc = g := Nat.div_eq_of_lt_le hin.1 (by rw [Nat.succ_mul]; exact hin.2)
      have hmod : q % cpc = q - g * cpc := by rw [← hdiv, Nat.mul_comm, Nat.mod_eq_sub]
      rw [aget_classDigits (by omega), classOf, hdiv, hmod, ht]
    next hout => exact h i hi q (by rw [groupsUpTo, if_neg (Nat.lt_irrefl i)]; omega)
  · rw [aget_aset_of_ne _ _ hij]
    refine h i hi q ?_
    have hiff : i < j + 1 ↔ i < j := by omega
    rwa [groupsUpTo, if_congr hiff rfl rfl] at hq

theorem classify_runs (g j : Nat) :
    Runs s₀ rs vs size entry (Known rs.nclass cpc entry kept (groupsUpTo g j)) [.cls j g] (classify rs cpc j (g * cpc))
      (Known rs.nclass cpc entry kept (groupsUpTo g (j + 1))) := by
  intro u l hl hlegal ht hv hp hpre
  obtain ⟨⟨r, k⟩, l', rfl, hr, hl'⟩ := List.map_eq_cons_iff.mp hl
  obtain rfl := List.map_eq_nil_iff.mp hl'
  obtain rfl : r = .cls j g := hr
  obtain ⟨(hcode : CodeOf s₀ rs.classbook k), hok⟩ := hlegal _ (List.mem_singleton_self _)
  rw [codeBits, List.flatMap_singleton] at hp ⊢
  change k.bits <+: u.ahead at hp
  have hentry : k.entry = entry j g := of_decide_eq_true hok
  rw [classify, M.bind_ok (codebookScalar_reads hcode hv hp ht)]
  exact ⟨_, rfl, hpre.putDigits hentry, fun j' _ i => by cases (aget vs j').ref <;> rfl⟩

/-- The classifications of a group (R282). -/
theorem classifyGroup_runs {dnd : List Bool} (g : Nat) :
    Runs s₀ rs vs size entry (Known rs.nclass cpc entry (keptOf dnd) fun _ => g) ((keptOf dnd).map fun j => .cls j g)
      (forKept dnd fun j => classify rs cpc j (g * cpc)) (Known rs.nclass cpc entry (keptOf dnd) fun _ => g + 1) := by
  have hloop := Runs.forKept (s₀ := s₀) (rs := rs) (vs := vs) (size := size) (entry := entry) (dnd := dnd)
    (I := fun j => Known rs.nclass cpc entry (keptOf dnd) (groupsUpTo g j)) (f := fun j => [.cls j g]) (body := fun j => classify rs cpc j (g * cpc))
    (fun j _ => classify_runs g j) fun j hj hd cl h => h.congr fun i hi => ?_
  · rw [List.map_eq_flatMap]
    refine hloop.mono fun cl h => h.congr fun i hi => ?_
    rw [groupsUpTo, if_pos (List.mem_range.mp (List.mem_filter.mp hi).1)]
  · have hkept := (List.mem_filter.mp hi).2
    have hne : i ≠ j := fun heq => by simp [heq, hd] at hkept
    have hiff : i < j + 1 ↔ i < j := by omega
    rw [groupsUpTo, groupsUpTo, if_congr hiff rfl rfl]

/-- The partitions of group `g`. -/
theorem filter_div_eq {cpc : Nat} (hcpc : cpc ≠ 0) (total g : Nat) :
    ((List.range total).filter fun q => q / cpc = g) = List.range' (g * cpc) (min cpc (total - g * cpc)) := by
  refine (List.pairwise_lt_range.filter _).sortedLT.eq_of_mem_iff (List.pairwise_lt_range' 1).sortedLT fun q => ?_
  rw [List.mem_filter, List.mem_range, decide_eq_true_eq, Nat.div_eq_iff (Nat.pos_of_ne_zero hcpc), List.mem_range'_1]
  omega

variable {dnd : List Bool} (hvs : VecsOk vs size) (hlen : dnd.length = vs.length)

include hvs hlen

/-- One partition of one vector in one pass (R282). -/
theorem residueCell_runs {b : Nat → Nat} {lim pass q j : Nat} (hj : j ∈ keptOf dnd) (hq : q < b j * cpc) :
    Runs s₀ rs vs size entry (Known rs.nclass cpc entry (keptOf dnd) b)
      (match aget (aget rs.books (classOf rs.nclass cpc entry j q)) pass with
      | none => []
      | some k => partitionReads rs.rtype rs.partSize (s₀.codebook k).dim j k (lim + q * rs.partSize))
      (residueCell rs vs lim pass q j) (Known rs.nclass cpc entry (keptOf dnd) b) := by
  refine .read (fun u _ h => h j hj q hq) ?_
  cases aget (aget rs.books (classOf rs.nclass cpc entry j q)) pass with
  | none => exact .nil fun _ h => h
  | some k => exact decodePartition_runs hvs (hlen ▸ List.mem_range.mp (List.mem_filter.mp hj).1)

theorem groupCells_runs (hcpc : cpc ≠ 0) {b g lim total pass : Nat} (hb : g < b) :
    Runs s₀ rs vs size entry (Known rs.nclass cpc entry (keptOf dnd) fun _ => b)
      (((List.range total).filter fun q => q / cpc = g).flatMap fun q => (keptOf dnd).flatMap fun j =>
        match aget (aget rs.books (classOf rs.nclass cpc entry j q)) pass with
        | none => []
        | some k => partitionReads rs.rtype rs.partSize (s₀.codebook k).dim j k (lim + q * rs.partSize))
      (forN (min cpc (total - g * cpc)) (g * cpc) fun q => forKept dnd fun j => residueCell rs vs lim pass q j)
      (Known rs.nclass cpc entry (keptOf dnd) fun _ => b) := by
  rw [filter_div_eq hcpc]
  refine .forN (I := fun _ => Known rs.nclass cpc entry (keptOf dnd) fun _ => b) fun q _ hq => ?_
  refine .forKept (I := fun _ => Known rs.nclass cpc entry (keptOf dnd) fun _ => b) (fun j hj => residueCell_runs hvs hlen hj ?_) fun _ _ _ _ h => h
  have hgroup := Nat.mul_le_mul_right cpc (Nat.succ_le_of_lt hb)
  rw [Nat.succ_mul] at hgroup
  omega

/-- The number of groups whose classifications are known before group `g` of a pass: pass 0 reads them, the later passes find all `groups` of them. -/
def knownBefore (groups pass g : Nat) : Nat := if pass = 0 then g else groups

theorem residueGroup_runs (hcpc : cpc ≠ 0) {groups g lim total pass : Nat} (hg : g < groups) :
    Runs s₀ rs vs size entry (Known rs.nclass cpc entry (keptOf dnd) fun _ => knownBefore groups pass g)
      (s₀.groupReads rs (keptOf dnd) lim total cpc entry pass g) (residueGroup rs vs dnd lim total cpc pass g)
      (Known rs.nclass cpc entry (keptOf dnd) fun _ => knownBefore groups pass (g + 1)) := by
  rw [State.groupReads, residueGroup, classifyGroup]
  by_cases hpass : pass = 0
  · rw [knownBefore, knownBefore, if_pos hpass, if_pos hpass, if_pos hpass, if_pos hpass]
    exact .bind (classifyGroup_runs g) (groupCells_runs hvs hlen hcpc (Nat.lt_succ_self g))
  · rw [knownBefore, knownBefore, if_neg hpass, if_neg hpass, if_neg hpass, if_neg hpass]
    exact .bind (.nil fun _ h => h) (groupCells_runs hvs hlen hcpc hg)

/-- All passes over all groups (R282). -/
theorem residueInner_runs (hcpc : (s₀.codebook rs.classbook).dim ≠ 0) :
    Runs s₀ rs vs size entry (fun _ => True) (s₀.residueReads rs (keptOf dnd) size entry) (residueInner rs vs dnd size) fun _ => True := by
  obtain ⟨cpc, hdim⟩ : ∃ cpc, (s₀.codebook rs.classbook).dim = cpc := ⟨_, rfl⟩
  obtain ⟨groups, hgroups⟩ : ∃ n, (partitionsToRead rs size + cpc - 1) / cpc = n := ⟨_, rfl⟩
  rw [hdim] at hcpc
  rw [residueInner]
  refine .read (fun u ht _ => (congrArg Codebook.dim (ht.codebook _)).trans hdim) (.ensure hcpc ?_)
  have hpasses := Runs.forN (s₀ := s₀) (rs := rs) (vs := vs) (size := size) (entry := entry) (n := Config.nPasses) (lo := 0)
    (I := fun pass => Known rs.nclass cpc entry (keptOf dnd) fun _ => knownBefore groups pass 0)
    (f := fun pass => (List.range groups).flatMap fun g =>
      s₀.groupReads rs (keptOf dnd) (limBegin rs size) (partitionsToRead rs size) cpc entry pass g)
    (body := fun pass => forN groups 0 fun g => residueGroup rs vs dnd (limBegin rs size) (partitionsToRead rs size) cpc pass g)
    fun pass _ _ => ?_
  · rw [State.residueReads, hdim]
    rw [← hgroups] at hpasses
    intro u l hl hlegal ht hv hp _
    exact hpasses.mono (fun _ _ => trivial) hl hlegal ht hv hp fun j _ q hq => by simp [knownBefore] at hq
  · have hall := Runs.forN (s₀ := s₀) (rs := rs) (vs := vs) (size := size) (entry := entry) (n := groups) (lo := 0)
      (I := fun g => Known rs.nclass cpc entry (keptOf dnd) fun _ => knownBefore groups pass g)
      (f := fun g => s₀.groupReads rs (keptOf dnd) (limBegin rs size) (partitionsToRead rs size) cpc entry pass g)
      (body := fun g => residueGroup rs vs dnd (limBegin rs size) (partitionsToRead rs size) cpc pass g)
      fun g _ hg => residueGroup_runs hvs hlen hcpc (by omega)
    rw [List.range_eq_range']
    refine hall.mono fun cl h => h.congr fun _ _ => ?_
    rw [knownBefore, knownBefore, if_neg (Nat.succ_ne_zero pass), Nat.zero_add]
    split <;> rfl

end

end Sys2Proof.Machine
end

section
/-! PROOF. `RS_DECODE` as a whole (43_residue R280 to R290): the sums that it leaves, and that it completes on streams that are long enough. -/

namespace Sys2Proof.Machine

-- the vectors and the reads of an RS_DECODE (R287)

theorem vecsOk_cur {chans : List Nat} (hasc : ascending chans = true) (n : Nat) :
    VecsOk (chans.map fun c => ({ ref := .cur c, size := n } : Vec)) n := by
  have hget : ∀ {j}, j < chans.length → aget (chans.map fun c => ({ ref := .cur c, size := n } : Vec)) j = { ref := .cur (aget chans j), size := n } :=
    fun hj => aget_map_of_lt _ hj
  refine ⟨fun j hj => ?_, fun i j hi hj h => ?_⟩
  · rw [List.length_map] at hj
    rw [hget hj]
  · rw [List.length_map] at hi hj
    rw [hget hi, hget hj] at h
    have hc : aget chans i = aget chans j := BufRef.cur.inj h
    rw [aget_of_lt hi, aget_of_lt hj] at hc
    exact (nodup_of_ascending hasc).getElem_inj_iff.mp hc

theorem vecsOk_interleave (size : Nat) : VecsOk [{ ref := .interleave, size := size }] size := by
  have hone : ∀ {j}, j < [({ ref := .interleave, size := size } : Vec)].length → j = 0 := fun h => Nat.lt_one_iff.mp h
  refine ⟨fun j hj => ?_, fun i j hi hj _ => (hone hi).trans (hone hj).symm⟩
  rw [hone hj]
  rfl

theorem keptOf_doNotDecodeOf (need : List Bool) (chans : List Nat) :
    keptOf (doNotDecodeOf need chans) = (List.range chans.length).filter fun j => aget need (aget chans j) := by
  rw [keptOf, doNotDecodeOf, List.length_map]
  refine List.filter_congr fun j hj => ?_
  rw [aget_map_of_lt _ (List.mem_range.mp hj), Bool.not_not]

theorem keptOf_eq_nil (dnd : List Bool) : keptOf dnd = [] ↔ dnd.all id = true := by
  rw [keptOf, List.filter_eq_nil_iff, List.all_eq_true]
  refine ⟨fun h b hb => ?_, fun h j hj => ?_⟩
  · obtain ⟨j, hj, rfl⟩ := List.getElem_of_mem hb
    have hskip := h j (List.mem_range.mpr hj)
    rw [aget_of_lt hj] at hskip
    simpa using hskip
  · have hskip := h _ (aget_mem (List.mem_range.mp hj))
    simpa using hskip

theorem residueReads_nil (s : State) (rs : Residue) (size : Nat) (entry : Nat → Nat → Nat) : s.residueReads rs [] size entry = [] := by
  simp [State.residueReads, State.groupReads]

/-- An interleaved decode writes no channel before the shares are given out. -/
theorem residueJoint_framed (rs : Residue) (dnd : List Bool) (size : Nat) : Keeps (Framed State.cur) (residueJoint rs dnd size) := by
  have hb := readBits_framed (view := State.cur) (fun _ _ => rfl) fun _ _ => rfl
  refine .ite (.pure Framed.chain _) (residueInner_keeps_vecs Framed.chain hb (fun _ _ => .dec rfl rfl) rfl (fun v hv => ?_) rs size)
  rw [List.mem_singleton.mp hv]
  exact fun _ _ => .dec rfl rfl

theorem State.zeroChans_eq_withWork (s : State) (chans : List Nat) (n : Nat) : ∃ w, s.zeroChans chans n = s.withWork w := by
  obtain ⟨_, _, h⟩ := s.overlayAll_frame (chans.map fun c => (c, List.replicate n f32Zero))
  exact ⟨_, h⟩

theorem State.shareOut_eq_withWork (s : State) (chans : List Nat) (n : Nat) : ∃ w, s.shareOut chans n = s.withWork w := by
  obtain ⟨_, _, h⟩ := s.overlayAll_frame ((List.range chans.length).map fun j => (aget chans j, deinterleave s.dec.work.interleave chans.length n j))
  exact ⟨_, h⟩

section

variable {s : State} {r n : Nat} {chans : List Nat} (hr : r < s.dec.counts.nResidues) (hn : 2 * n ≤ Config.maxBlock)
  (hch : ∀ c ∈ chans, c < s.dec.hdr.channels) (hasc : ascending chans = true) (hps : 0 < (s.residue r).partSize) (hnc : 0 < (s.residue r).nclass)
  (hv : s.dec.bits.Valid) (hdim : (s.codebook (s.residue r).classbook).dim ≠ 0) {entry : Nat → Nat → Nat} {l : List (ResidueRead × Code)}

include hr hn hch hasc hps hnc hv hdim

/-- Types 0 and 1: the vectors of the channels hold the sums. -/
theorem residueDecode_separate_reads (ht : (s.residue r).rtype ≠ 2)
    (hl : l.map Prod.fst = s.residueReads (s.residue r) (keptOf (doNotDecodeOf s.dec.work.needResidue chans)) n entry)
    (hlegal : LegalReads s (s.residue r) n entry l) (hp : codeBits l <+: s.ahead) :
    ∃ w, residueDecode r chans n s = .ok () ((s.advance (codeBits l).length).withWork w) ∧
      ∀ j, j < chans.length → ∀ i,
        aget ((s.withWork w).cur (aget chans j)) i = if i < n then s.addedAt j i l f32Zero else aget (s.cur (aget chans j)) i := by
  obtain ⟨dnd, hdnd⟩ : ∃ dnd, dnd = doNotDecodeOf s.dec.work.needResidue chans := ⟨_, rfl⟩
  rw [← hdnd] at hl
  obtain ⟨w₀, hstart⟩ := (s.markSkipped dnd).zeroChans_eq_withWork chans n
  have hlen : dnd.length = (chans.map fun c => ({ ref := .cur c, size := n } : Vec)).length := by rw [hdnd, doNotDecodeOf, List.length_map, List.length_map]
  obtain ⟨w, hrun, -, hadd⟩ := residueInner_runs (s₀ := s) (vecsOk_cur hasc n) hlen hdim (u := s.withWork w₀) hl hlegal ⟨rfl, rfl⟩ hv hp trivial
  refine ⟨w, residueDecode_separate hr hn hch hasc hps hnc ht hdnd ?_, fun j hj i => ?_⟩
  · rw [hstart]
    exact hrun
  · have hval := hadd j (by rwa [List.length_map]) i
    rw [aget_map_of_lt _ hj] at hval
    have hzero := aget_zeroChans (n := n) hasc (aget_mem hj) (s.markSkipped dnd) i
    rw [hstart] at hzero
    refine hval.trans ?_
    refine (congrArg (s.addedAt j i l) hzero).trans ?_
    split
    · rfl
    · exact State.addedAt_past (Nat.not_lt.mp ‹_›) (fun p h => (hlegal p h).2) _

/-- Type 2: the channels hold their shares of the sums of the interleaved vector. -/
theorem residueDecode_joint_reads (ht : (s.residue r).rtype = 2)
    (hl : l.map Prod.fst = s.residueReads (s.residue r) (if (doNotDecodeOf s.dec.work.needResidue chans).all id = true then [] else [0]) (n * chans.length) entry)
    (hlegal : LegalReads s (s.residue r) (n * chans.length) entry l) (hp : codeBits l <+: s.ahead) :
    ∃ w, residueDecode r chans n s = .ok () ((s.advance (codeBits l).length).withWork w) ∧
      ∀ j, j < chans.length → ∀ i,
        aget ((s.withWork w).cur (aget chans j)) i =
          if i < n then s.addedAt 0 (i * chans.length + j) l f32Zero else aget (s.cur (aget chans j)) i := by
  obtain ⟨dnd, hdnd⟩ : ∃ dnd, dnd = doNotDecodeOf s.dec.work.needResidue chans := ⟨_, rfl⟩
  rw [← hdnd] at hl
  obtain ⟨u, hu⟩ : ∃ u, u = (s.markSkipped dnd).zeroInterleave (n * chans.length) := ⟨_, rfl⟩
  have hzero : ∀ i, i < n * chans.length → aget u.dec.work.interleave i = f32Zero := fun i hi => by
    rw [hu]
    refine (aget_overlay _ _ _).trans ?_
    rw [List.length_replicate, if_pos hi, aget_replicate, if_pos hi]
  obtain ⟨t, w, hrun, hte, hsum⟩ : ∃ t w, residueJoint (s.residue r) dnd (n * chans.length) u = .ok () t ∧
      t = (s.advance (codeBits l).length).withWork w ∧ ∀ i, i < n * chans.length → aget w.interleave i = s.addedAt 0 i l f32Zero := by
    rw [residueJoint]
    by_cases hall : dnd.all id = true
    · rw [if_pos hall, residueReads_nil] at hl
      obtain rfl := List.map_eq_nil_iff.mp hl
      rw [if_pos hall, codeBits, List.flatMap_nil, List.length_nil, State.advance_zero hv]
      exact ⟨u, u.dec.work, rfl, by rw [hu]; rfl, hzero⟩
    · rw [if_neg hall] at hl ⊢
      obtain ⟨w, hrun, -, hadd⟩ := residueInner_runs (s₀ := s) (dnd := [false]) (vecsOk_interleave (n * chans.length)) rfl hdim (u := u)
        hl hlegal (hu ▸ ⟨rfl, rfl⟩) (hu ▸ hv) (hu ▸ hp) trivial
      refine ⟨_, w, hrun, by rw [hu]; rfl, fun i hi => ?_⟩
      exact (hadd 0 Nat.one_pos i).trans (congrArg (s.addedAt 0 i l) (hzero i hi))
  have hcur : t.cur = s.cur := ((residueJoint_framed _ _ _).ok hrun).seen.trans (by rw [hu]; rfl)
  obtain ⟨w', hshare⟩ := t.shareOut_eq_withWork chans n
  refine ⟨w', ?_, fun j hj i => ?_⟩
  · rw [residueDecode_joint hr hn hch hasc hps hnc ht hdnd (hu ▸ hrun), hshare, hte]
    rfl
  · have hval := aget_shareOut (n := n) hasc hj t i
    rw [hshare, hcur, hte] at hval
    refine hval.trans (if_ctx_congr Iff.rfl (fun hi => hsum _ ?_) fun _ => rfl)
    nlinarith

end

theorem codeBits_zip {reads : List ResidueRead} {ks : List Code} (h : ks.length = reads.length) : codeBits (reads.zip ks) = ks.flatMap Code.bits := by
  have hmap : (reads.zip ks).map Prod.snd = ks := List.map_snd_zip h.le
  conv_rhs => rw [← hmap]
  rw [codeBits, List.flatMap_map]

end Sys2Proof.Machine
end

section
/-! PROOF. `RS_DECODE` completes on streams that are long enough (43_residue R282 to R287): how many bits each piece of the pass loop can take. -/

namespace Sys2Proof.Machine

/-- From any state with the tables of `s₀` and `N` bits ahead the piece completes, and takes no more than these. -/
def Spends (s₀ : State) (N : Nat) (m : M Unit) : Prop :=
  ∀ ⦃u : State⦄, TablesOf s₀ u → u.dec.bits.Valid → N ≤ u.ahead.length → ∃ k w, k ≤ N ∧ m u = .ok () ((u.advance k).withWork w)

section

variable {s₀ : State} {N N' : Nat} {m m' : M Unit}

theorem Spends.pure (s₀ : State) (N : Nat) : Spends s₀ N (pure ()) := fun u _ hv _ => ⟨0, u.dec.work, Nat.zero_le _, by rw [State.advance_zero hv]; rfl⟩

theorem Spends.mono (h : Spends s₀ N m) (hle : N ≤ N') : Spends s₀ N' m := fun _ ht hv hn => by
  obtain ⟨k, w, hk, hrun⟩ := h ht hv (hle.trans hn)
  exact ⟨k, w, hk.trans hle, hrun⟩

theorem Spends.bind (h : Spends s₀ N m) (h' : Spends s₀ N' m') : Spends s₀ (N + N') (do m; m') := fun u ht hv hn => by
  obtain ⟨k, w, hk, hrun⟩ := h ht hv (by omega)
  have hahead : ((u.advance k).withWork w).ahead = u.ahead.drop k := State.ahead_advance hv (by omega)
  obtain ⟨k', w', hk', hrun'⟩ := h' (u := (u.advance k).withWork w) ht (State.advance_valid hv) (by rw [hahead, List.length_drop]; omega)
  refine ⟨k + k', w', by omega, ?_⟩
  rw [M.bind_ok hrun, hrun', ← State.advance_advance hv (by omega)]
  rfl

theorem Spends.read {α : Type} (f : State → α) {k : α → M Unit} (hk : ∀ u, TablesOf s₀ u → Spends s₀ N (k (f u))) : Spends s₀ N (do let x ← M.read f; k x) :=
  fun u ht hv hn => hk u ht ht hv hn

theorem Spends.ensure {p : Prop} [Decidable p] {x : Stop} (hp : p) (hm : Spends s₀ N m) : Spends s₀ N (do M.ensure p x; m) := fun u ht hv hn => by
  rw [M.bind_ok (M.run_ensure_pos hp x u)]
  exact hm ht hv hn

/-- A loop; `B x` bits are enough from turn `x` on. -/
theorem Spends.forN (B : Nat → Nat) {body : Nat → M Unit} {n lo : Nat} (h : ∀ x, lo ≤ x → x < lo + n → ∃ N, Spends s₀ N (body x) ∧ N + B (x + 1) ≤ B x) :
    Spends s₀ (B lo) (forN n lo body) := by
  induction n generalizing lo with
  | zero => exact .pure s₀ _
  | succ n ih =>
    obtain ⟨N, hfirst, hle⟩ := h lo le_rfl (by omega)
    exact (hfirst.bind (ih fun x hlo hhi => h x (by omega) (by omega))).mono hle

/-- A loop whose every turn is content with `N` bits. -/
theorem Spends.forN_const {body : Nat → M Unit} {n lo : Nat} (h : ∀ x, lo ≤ x → x < lo + n → Spends s₀ N (body x)) :
    Spends s₀ (n * N) (Machine.forN n lo body) := by
  have hloop := Spends.forN (s₀ := s₀) (fun x => (lo + n - x) * N) (body := body) (n := n) (lo := lo) fun x hlo hhi => ⟨N, h x hlo hhi, ?_⟩
  · rwa [Nat.add_sub_cancel_left] at hloop
  · rw [show lo + n - x = lo + n - (x + 1) + 1 by omega, Nat.succ_mul, Nat.add_comm]

theorem Spends.forKept {dnd : List Bool} {body : Nat → M Unit} (h : ∀ j, j < dnd.length → Spends s₀ N (body j)) :
    Spends s₀ (dnd.length * N) (Machine.forKept dnd body) := by
  refine .forN_const fun j _ hj => ?_
  rw [Nat.zero_add] at hj
  split
  · exact .pure s₀ N
  · exact h j hj

end

section

variable {codes : List Code} {k : Code} {s : State}

/-- Where the bits ahead begin with a codeword, the walk ends with an entry, at its end or before. -/
theorem scalarWalk_completes (hfit : ∀ k ∈ codes, k.Fits) (hk : k ∈ codes) (hv : s.dec.bits.Valid) (hp : k.bits <+: s.ahead) (fuel l : Nat) (hl : l < k.len)
    (hfuel : k.len ≤ l + fuel) :
    ∃ e n, n ≤ k.len ∧ scalarWalk codes fuel l (bitsNat (k.bits.take l).reverse) (s.advance l) = .ok e (s.advance n) := by
  have hlen := k.length_bits
  induction fuel generalizing l with
  | zero => omega
  | succ fuel ih =>
    have hlb : l < k.bits.length := by omega
    have hread := readBit_prefix hv hp hlb
    have hvalue : 2 * bitsNat (k.bits.take l).reverse + k.bits[l].toNat = bitsNat (k.bits.take (l + 1)).reverse := by
      rw [List.take_succ_eq_append_getElem hlb, List.reverse_concat, bitsNat, Nat.add_comm]
    cases hfind : findCode codes (l + 1) (2 * bitsNat (k.bits.take l).reverse + k.bits[l].toNat) with
    | some e => exact ⟨e, l + 1, hl, scalarWalk_hit hread hfind⟩
    | none =>
      have hmore : l + 1 < k.len := by
        refine lt_of_le_of_ne hl fun hend => ?_
        have hentry := findCode_eq_find? hfit k.bits
        rw [hvalue, hend, List.take_of_length_le hlen.le] at hfind
        rw [hlen, hfind] at hentry
        have hnone := List.find?_eq_none.mp (Option.map_eq_none_iff.mp hentry.symm) k hk
        exact hnone (decide_eq_true rfl)
      rw [scalarWalk_miss hread hfind, hvalue]
      exact ih (l + 1) hmore (by omega)

/-- A codebook in which every 32 bits begin with a codeword always finds one. -/
theorem codebookScalar_completes {c : Nat} (hc : c < s.dec.counts.nCodebooks) (hfit : ∀ k ∈ (s.codebook c).codes, k.Fits)
    (hall : Complete (s.codebook c).codes) (hv : s.dec.bits.Valid) (hlen : Config.maxCwLen ≤ s.ahead.length) :
    ∃ e n, n ≤ Config.maxCwLen ∧ codebookScalar c s = .ok e (s.advance n) := by
  obtain ⟨k, hk, hp⟩ := hall (s.ahead.take Config.maxCwLen) (by rw [List.length_take, Nat.min_eq_left hlen])
  obtain ⟨hlo, hhi, -⟩ := hfit k hk
  obtain ⟨e, n, hn, hwalk⟩ := scalarWalk_completes hfit hk hv (hp.trans (List.take_prefix _ _)) Config.maxCwLen 0 hlo (by omega)
  rw [State.advance_zero hv] at hwalk
  refine ⟨e, n, hn.trans hhi, ?_⟩
  rw [codebookScalar, M.bind_ok (bookOperand_ok hc), M.bind_ok (M.run_read ..)]
  exact hwalk

end

section

variable {s₀ : State} {rs : Residue} {vs : List Vec} {size : Nat} {b : Nat}

theorem codebookVector_spends {buf : Vec} {base stride : Nat} (hb : VectorBook s₀ rs.partSize b) (hstride : 1 ≤ stride)
    (hsize : base + ((s₀.codebook b).dim - 1) * stride < buf.size) : Spends s₀ 32 (codebookVector b buf base stride) := by
  intro u ht hv hn
  obtain ⟨hc, hfit, hall, hlookup, hdim, -⟩ := hb
  rw [← ht.codebook] at hfit hall hlookup hdim hsize
  rw [← ht.2] at hc
  obtain ⟨e, k, hk, hrun⟩ := codebookScalar_completes hc hfit hall hv hn
  obtain ⟨v, vs, hvec⟩ : ∃ v vs, vqVector (u.codebook b) e = v :: vs :=
    List.exists_cons_of_ne_nil fun hnil => hdim (by rw [← length_vqVector (u.codebook b) e, hnil]; rfl)
  have hlen := length_vqVector (u.codebook b) e
  rw [hvec, List.length_cons] at hlen
  refine ⟨k, ((u.advance k).bufSet buf.ref (addStrided stride base (v :: vs) ((u.advance k).bufGet buf.ref))).dec.work, hk, ?_⟩
  rw [codebookVector, M.bind_ok (bookOperand_ok hc), M.bind_ok (M.run_ensure_pos hstride _ u), M.bind_ok (M.run_read _ u),
    M.bind_ok (M.run_ensure_pos hlookup _ u), M.bind_ok (M.run_ensure_pos hdim _ u), M.bind_ok hrun, hvec,
    addElements_ok (by rwa [show vs.length = (u.codebook b).dim - 1 by omega]), ← State.bufSet_eq_withWork]

/-- The vectors of a partition of a book whose dimension divides its size fill it. -/
theorem decodePartition_spends {v : Vec} {off : Nat} (hb : VectorBook s₀ rs.partSize b) (hps : 0 < rs.partSize) (hoff : off + rs.partSize ≤ v.size) :
    Spends s₀ (rs.partSize * 32) (decodePartition rs b v off) := by
  obtain ⟨-, -, -, -, hdim, q, hq⟩ := id hb
  have hdpos := Nat.pos_of_ne_zero hdim
  have hdiv : rs.partSize / (s₀.codebook b).dim = q := by rw [hq, Nat.mul_div_cancel_left q hdpos]
  have hqpos : 0 < q := Nat.pos_of_ne_zero fun h => by simp [hq, h] at hps
  have hle : q * 32 ≤ rs.partSize * 32 := Nat.mul_le_mul_right 32 (hq ▸ Nat.le_mul_of_pos_left q hdpos)
  have hlast : ((s₀.codebook b).dim - 1) * q + q = rs.partSize := by rw [← Nat.succ_mul, Nat.succ_eq_add_one, Nat.sub_add_cancel hdpos, hq]
  rw [decodePartition]
  split
  · refine .read _ fun u ht => .ensure (by rwa [ht.codebook]) ?_
    rw [ht.codebook, hdiv]
    exact (Spends.forN_const fun i _ hi => codebookVector_spends hb hqpos (by omega)).mono hle
  · refine .read _ fun u ht => ?_
    rw [ht.codebook, if_neg hdim, show (rs.partSize + (s₀.codebook b).dim - 1) / (s₀.codebook b).dim = q by
      rw [Nat.add_sub_assoc hdpos, hq, Nat.mul_add_div hdpos, Nat.div_eq_of_lt (by omega), Nat.add_zero]]
    refine (Spends.forN_const fun i _ hi => codebookVector_spends hb le_rfl ?_).mono hle
    have hturn : (i + 1) * (s₀.codebook b).dim ≤ rs.partSize := by
      rw [hq, Nat.mul_comm]
      exact Nat.mul_le_mul_left _ (by omega)
    rw [Nat.succ_mul] at hturn
    omega

theorem aget_eq_some {α : Type} {l : List (Option α)} {i : Nat} {a : α} (h : aget l i = some a) : some a ∈ l := by
  by_cases hi : i < l.length
  · exact h ▸ aget_mem hi
  · rw [aget, List.getD_eq_default _ _ (Nat.not_lt.mp hi)] at h
    cases h

variable {dnd : List Bool} (hsize : ∀ j, j < dnd.length → (aget vs j).size = size) (hps : 0 < rs.partSize)
  (hbooks : ∀ row ∈ rs.books, ∀ b ∈ row, ∀ k ∈ b, VectorBook s₀ rs.partSize k)

include hsize hps hbooks

theorem residueCell_spends {pass q j : Nat} (hj : j < dnd.length) (hq : q < partitionsToRead rs size) :
    Spends s₀ (rs.partSize * 32) (residueCell rs vs (limBegin rs size) pass q j) := by
  refine .read _ fun u _ => ?_
  cases hbook : aget (aget rs.books (aget (aget u.dec.work.classif j) q)) pass with
  | none => exact .pure s₀ _
  | some b =>
    have hrow : aget rs.books (aget (aget u.dec.work.classif j) q) ∈ rs.books := by
      refine aget_mem (Nat.lt_of_not_le fun hge => ?_)
      have hnone : aget rs.books (aget (aget u.dec.work.classif j) q) = [] := List.getD_eq_default _ _ hge
      rw [hnone] at hbook
      cases hbook
    refine decodePartition_spends (hbooks _ hrow _ (aget_eq_some hbook) b rfl) hps ?_
    rw [hsize j hj, Nat.add_assoc, ← Nat.succ_mul]
    have hparts := Nat.mul_le_mul_right rs.partSize (Nat.succ_le_of_lt hq)
    have htotal : partitionsToRead rs size * rs.partSize ≤ min rs.endPos size - limBegin rs size := Nat.div_mul_le_self _ _
    have hpos : 0 < q.succ * rs.partSize := Nat.mul_pos (Nat.succ_pos q) hps
    omega

variable (hclass : rs.classbook < s₀.dec.counts.nCodebooks) (hfit : ∀ k ∈ (s₀.codebook rs.classbook).codes, k.Fits)
  (hall : Complete (s₀.codebook rs.classbook).codes)

include hclass hfit hall

omit hsize hps hbooks in
theorem classify_spends (cpc j q : Nat) : Spends s₀ 32 (classify rs cpc j q) := by
  intro u ht hv hn
  rw [← ht.codebook] at hfit hall
  rw [← ht.2] at hclass
  obtain ⟨e, k, hk, hrun⟩ := codebookScalar_completes hclass hfit hall hv hn
  exact ⟨k, _, hk, M.bind_ok hrun⟩

/-- One group in one pass: in pass 0 a classification for each vector, and the partitions. -/
theorem residueGroup_spends (cpc pass g : Nat) :
    Spends s₀ ((if pass = 0 then dnd.length * 32 else 0) + min cpc (partitionsToRead rs size - g * cpc) * (dnd.length * (rs.partSize * 32)))
      (residueGroup rs vs dnd (limBegin rs size) (partitionsToRead rs size) cpc pass g) := by
  refine .bind ?_ (.forN_const fun q _ hq => .forKept fun j hj => residueCell_spends hsize hps hbooks hj (by omega))
  rw [classifyGroup]
  split
  · exact .forKept fun j _ => classify_spends hclass hfit hall cpc j (g * cpc)
  · exact .pure s₀ 0

/-- All groups in one pass. -/
theorem residuePass_spends (cpc groups pass : Nat) :
    Spends s₀ (groups * (if pass = 0 then dnd.length * 32 else 0) + partitionsToRead rs size * (dnd.length * (rs.partSize * 32)))
      (forN groups 0 fun g => residueGroup rs vs dnd (limBegin rs size) (partitionsToRead rs size) cpc pass g) := by
  have hgroup := residueGroup_spends hsize hps hbooks hclass hfit hall cpc pass
  generalize (if pass = 0 then dnd.length * 32 else 0) = c at hgroup
  generalize dnd.length * (rs.partSize * 32) = d at hgroup
  have hloop := Spends.forN (s₀ := s₀) (fun g => (groups - g) * c + (partitionsToRead rs size - g * cpc) * d) (n := groups) (lo := 0)
    fun g _ hg => ⟨_, hgroup g, ?_⟩
  · simpa using hloop
  · have hgroups : groups - g = groups - (g + 1) + 1 := by omega
    have hrest : partitionsToRead rs size - (g + 1) * cpc = partitionsToRead rs size - g * cpc - cpc := by rw [Nat.succ_mul, Nat.sub_add_eq]
    have hparts : min cpc (partitionsToRead rs size - g * cpc) + (partitionsToRead rs size - g * cpc - cpc) = partitionsToRead rs size - g * cpc := by omega
    have hsum := congrArg (· * d) hparts
    simp only [Nat.add_mul] at hsum
    rw [hgroups, hrest, Nat.succ_mul]
    omega

/-- A classification for each vector and group, and in each pass the partitions. -/
theorem residueInner_spends (hdim : (s₀.codebook rs.classbook).dim ≠ 0) :
    Spends s₀ (32 * (dnd.length * (partitionsToRead rs size * (1 + 8 * rs.partSize)))) (residueInner rs vs dnd size) := by
  refine .read _ fun u ht => ?_
  rw [ht.codebook]
  generalize (s₀.codebook rs.classbook).dim = cpc at hdim
  refine .ensure hdim ?_
  have hpass := residuePass_spends hsize hps hbooks hclass hfit hall cpc ((partitionsToRead rs size + cpc - 1) / cpc)
  have hgroups : (partitionsToRead rs size + cpc - 1) / cpc ≤ partitionsToRead rs size := by
    refine Nat.le_of_lt_succ (Nat.div_lt_of_lt_mul ?_)
    have hle := Nat.le_mul_of_pos_left (partitionsToRead rs size) (Nat.pos_of_ne_zero hdim)
    rw [Nat.mul_succ]
    omega
  have hloop := Spends.forN (s₀ := s₀) (n := Config.nPasses) (lo := 0)
    (fun pass => (partitionsToRead rs size + cpc - 1) / cpc * (if pass = 0 then dnd.length * 32 else 0) +
      (8 - pass) * (partitionsToRead rs size * (dnd.length * (rs.partSize * 32))))
    fun pass _ hlt => ⟨_, hpass pass, ?_⟩
  · refine hloop.mono ?_
    rw [if_pos rfl]
    nlinarith [Nat.mul_le_mul_right (dnd.length * 32) hgroups]
  · have hlt8 : pass < 8 := by simpa using hlt
    rw [show 8 - pass = 8 - (pass + 1) + 1 by omega, Nat.succ_mul (8 - (pass + 1)), if_neg (Nat.succ_ne_zero pass)]
    omega

end

section

variable {s : State} {r n : Nat} {chans : List Nat} (hr : r < s.dec.counts.nResidues) (hn : 2 * n ≤ Config.maxBlock)
  (hch : ∀ c ∈ chans, c < s.dec.hdr.channels) (hasc : ascending chans = true) (hps : 0 < (s.residue r).partSize) (hnc : 0 < (s.residue r).nclass)
  (hv : s.dec.bits.Valid)

include hr hn hch hasc hps hnc hv

/-- An `RS_DECODE` completes where the pass loop has the bits that it can take. -/
theorem residueDecode_completes {size : Nat} (hsize : size = if (s.residue r).rtype = 2 then n * chans.length else n)
    (hinner : ∀ vs dnd, dnd.length ≤ chans.length + 1 → (∀ j, j < dnd.length → (aget vs j).size = size) →
      Spends s s.ahead.length (residueInner (s.residue r) vs dnd size)) :
    ∃ t, residueDecode r chans n s = .ok () t := by
  obtain ⟨dnd, hdnd⟩ : ∃ dnd, dnd = doNotDecodeOf s.dec.work.needResidue chans := ⟨_, rfl⟩
  by_cases ht : (s.residue r).rtype = 2
  · rw [if_pos ht] at hsize
    have hjoint : Spends s s.ahead.length (residueJoint (s.residue r) dnd (n * chans.length)) := by
      rw [residueJoint, ← hsize]
      split
      · exact .pure s _
      · exact hinner _ _ (Nat.succ_le_succ (Nat.zero_le _)) fun j hj => (vecsOk_interleave size).1 j hj
    obtain ⟨k, w, -, hrun⟩ := hjoint (u := (s.markSkipped dnd).zeroInterleave (n * chans.length)) ⟨rfl, rfl⟩ hv le_rfl
    exact ⟨_, residueDecode_joint hr hn hch hasc hps hnc ht hdnd hrun⟩
  · rw [if_neg ht] at hsize
    obtain ⟨w₀, hstart⟩ := (s.markSkipped dnd).zeroChans_eq_withWork chans n
    have hlen : dnd.length = chans.length := by rw [hdnd, doNotDecodeOf, List.length_map]
    obtain ⟨k, w, -, hrun⟩ := hinner (chans.map fun c => { ref := .cur c, size := n }) dnd (hlen.trans_le (Nat.le_succ _))
      (fun j hj => hsize ▸ (vecsOk_cur hasc n).1 j (by rwa [List.length_map, ← hlen])) (u := (s.markSkipped dnd).withWork w₀) ⟨rfl, rfl⟩ hv le_rfl
    rw [hsize] at hrun
    exact ⟨_, residueDecode_separate hr hn hch hasc hps hnc ht hdnd (hstart ▸ hrun)⟩

end

/-- Settles O36: the pass loop asks for the reads in their order, each adding its vector, and on long enough streams none of them can fail. -/
theorem residueCompletes : Obligations.ResidueCompletes := by
  refine ⟨?_, ?_⟩
  · intro s r chans n entry ks rs m joint size needed kept reads bits hr hn hch hasc hps hnc hv hdim hlen hlegal hp
    have hfst : (reads.zip ks).map Prod.fst = reads := List.map_fst_zip hlen.ge
    have hbits : codeBits (reads.zip ks) = bits := codeBits_zip hlen
    have hneeded : keptOf (doNotDecodeOf s.dec.work.needResidue chans) = needed := keptOf_doNotDecodeOf _ _
    suffices h : ∃ w, residueDecode r chans n s = .ok () ((s.advance (codeBits (reads.zip ks)).length).withWork w) ∧
        ∀ j, j < m → ∀ i, aget ((s.withWork w).cur (aget chans j)) i =
          if i < n then (if joint then s.addedAt 0 (i * m + j) (reads.zip ks) f32Zero else s.addedAt j i (reads.zip ks) f32Zero)
          else aget (s.cur (aget chans j)) i by
      obtain ⟨w, hrun, hval⟩ := h
      obtain ⟨t, ht⟩ : ∃ t, t = (s.advance (codeBits (reads.zip ks)).length).withWork w := ⟨_, rfl⟩
      have hcur : t.cur = (s.withWork w).cur := by rw [ht]; rfl
      rw [← ht] at hrun
      rw [← hcur] at hval
      rw [hbits] at ht
      have hframe := (residueDecode_framed r chans n).ok hrun
      obtain ⟨hphase, herr, -⟩ := hframe.outside .none
      refine ⟨_, microUnit_of_ok hrun, by rw [ht]; rfl, by rw [ht]; rfl, by rw [ht]; rfl, hphase, herr,
        banksBut_of_banksView (congrArg Prod.snd hframe.seen), fun j hj => ⟨fun i hi => ?_, fun i hi => ?_⟩⟩
      · exact (hval j hj i).trans (if_pos hi)
      · exact (hval j hj i).trans (if_neg (Nat.not_lt.mpr hi))
    rw [← hbits] at hp
    by_cases ht : joint
    · have hsize : size = n * m := if_pos ht
      have hkept : kept = if (doNotDecodeOf s.dec.work.needResidue chans).all id = true then [] else [0] := by
        simp only [kept, if_pos ht, ← hneeded, keptOf_eq_nil]
      simp only [if_pos ht]
      exact residueDecode_joint_reads hr hn hch hasc hps hnc hv hdim ht (hfst.trans (by rw [← hkept, ← hsize])) (hsize ▸ hlegal) hp
    · have hsize : size = n := if_neg ht
      have hkept : kept = keptOf (doNotDecodeOf s.dec.work.needResidue chans) := (if_neg ht).trans hneeded.symm
      simp only [if_neg ht]
      exact residueDecode_separate_reads hr hn hch hasc hps hnc hv hdim ht (hfst.trans (by rw [← hkept, ← hsize])) (hsize ▸ hlegal) hp
  · intro s r chans n rs size parts hr hn hch hasc hps hnc hv hclass hdim hfit hall hbooks hahead
    obtain ⟨t, hrun⟩ := residueDecode_completes hr hn hch hasc hps hnc hv (size := size) rfl fun vs dnd hlen hvs =>
      (residueInner_spends hvs hps hbooks hclass hfit hall hdim).mono
        ((Nat.mul_le_mul_left 32 (Nat.mul_le_mul_right _ hlen)).trans hahead)
    have hframe := (residueDecode_framed r chans n).ok hrun
    obtain ⟨hphase, herr, -, -, -, -, -, hsrc⟩ := hframe.outside .none
    exact ⟨_, microUnit_of_ok hrun, hphase, herr, congrArg (fun p : Decoder × _ => p.1.tabs) hframe.seen,
      banksBut_of_banksView (congrArg Prod.snd hframe.seen), hsrc⟩

end Sys2Proof.Machine
end

section
/-! PROOF. The latch of the micro-operations is outside the decoder (70_reset R443): the pieces of a frame run alike whatever it holds. -/

namespace Sys2Proof.Machine

/-- The latch of a run's state is set. -/
def relatch {α : Type} (r : Result) (x : EStateM.Result Stop State α) : EStateM.Result Stop State α :=
  match x with
  | .ok a t => .ok a (t.setResult r)
  | .error e t => .error e (t.setResult r)

/-- The piece neither reads nor writes the latch. -/
def LatchFree {α : Type} (m : M α) : Prop := ∀ (r : Result) (s : State), m (s.setResult r) = relatch r (m s)

section

variable {α β : Type} {m : M α} {f : α → M β}

theorem LatchFree.pure (a : α) : LatchFree (pure a : M α) := fun _ _ => rfl

theorem LatchFree.stop (x : Stop) : LatchFree (M.stop x : M α) := fun _ _ => rfl

theorem LatchFree.read {g : State → α} (h : ∀ r s, g (State.setResult r s) = g s) : LatchFree (M.read g) := fun r s => by
  rw [M.run_read, M.run_read, h]
  rfl

theorem LatchFree.update {g : State → State} (h : ∀ r s, g (State.setResult r s) = (g s).setResult r) : LatchFree (M.update g) := fun r s => by
  rw [M.run_update, M.run_update, h]
  rfl

theorem LatchFree.ensureAt {p : State → Prop} [∀ s, Decidable (p s)] (x : Stop) (h : ∀ r s, p (State.setResult r s) ↔ p s) :
    LatchFree (fun s => M.ensure (p s) x s) := fun r s => by
  by_cases hp : p s
  · exact (M.run_ensure_pos ((h r s).mpr hp) x _).trans (congrArg (relatch r) (M.run_ensure_pos hp x s).symm)
  · exact (M.run_ensure_neg (mt (h r s).mp hp) x _).trans (congrArg (relatch r) (M.run_ensure_neg hp x s).symm)

theorem LatchFree.ensure (p : Prop) [Decidable p] (x : Stop) : LatchFree (M.ensure p x) := .ensureAt x fun _ _ => Iff.rfl

theorem LatchFree.ite {p : Prop} [Decidable p] {m' : M α} (hm : LatchFree m) (hm' : LatchFree m') : LatchFree (if p then m else m') := by
  split <;> assumption

theorem LatchFree.bind (hm : LatchFree m) (hf : ∀ a, LatchFree (f a)) : LatchFree (m >>= f) := fun r s => by
  have h := hm r s
  cases hrun : m s with
  | ok a t =>
    rw [hrun] at h
    rw [M.bind_ok hrun, M.bind_ok h, hf a r t]
  | error x t =>
    rw [hrun] at h
    rw [M.bind_error hrun, M.bind_error h]
    rfl

theorem LatchFree.forN {body : Nat → M Unit} (h : ∀ i, LatchFree (body i)) (k i : Nat) : LatchFree (forN k i body) := by
  induction k generalizing i with
  | zero => exact .pure _
  | succ k ih => exact .bind (h i) fun _ => ih (i + 1)

theorem LatchFree.forList {body : α → M Unit} (h : ∀ x, LatchFree (body x)) (xs : List α) : LatchFree (forList xs body) := by
  induction xs with
  | nil => exact .pure _
  | cons x xs ih => exact .bind (h x) fun _ => ih

end

theorem setCur_setResult (ch : Nat) (v : List F32) (r : Result) (s : State) : (s.setResult r).setCur ch v = (s.setCur ch v).setResult r := by
  cases hsel : s.dec.frame.curSel <;> simp [State.setCur, State.setResult, State.mapWork, hsel]

theorem bufSet_setResult (b : BufRef) (v : List F32) (r : Result) (s : State) : (s.setResult r).bufSet b v = (s.bufSet b v).setResult r := by
  cases b with
  | cur ch => exact setCur_setResult ch v r s
  | interleave => rfl

theorem LatchFree.setCur (ch : Nat) {v : State → List F32} (hv : ∀ r s, v (State.setResult r s) = v s) : LatchFree (M.update fun s => s.setCur ch (v s)) :=
  .update fun r s => by rw [hv, setCur_setResult]

-- the Bit Reader

theorem pull_latchFree : LatchFree pull := by
  have hraw : LatchFree readU8Raw := fun r s => by
    unfold readU8Raw
    cases hb : s.src.bytes with
    | cons b bs => simp only [State.setResult, hb]; rfl
    | nil => cases ht : s.src.terminal <;> simp only [State.setResult, hb, ht] <;> rfl
  refine .bind hraw fun a => ?_
  cases a with
  | data b => exact .bind (.update fun _ _ => rfl) fun _ => .pure _
  | endOfStream => exact .pure _
  | ioError => exact .pure _

theorem fillBits_latchFree (n k : Nat) : LatchFree (fillBits n k) := by
  induction k with
  | zero => exact .pure _
  | succ k ih =>
    refine .bind (.read fun _ _ => rfl) fun held => .ite (.bind pull_latchFree fun a => ?_) (.pure _)
    cases a with
    | ok => exact ih
    | eos => exact .pure _
    | io => exact .pure _

theorem readBits_latchFree (n : Nat) : LatchFree (readBits n) := by
  refine .bind (.ensure _ _) fun _ => .bind (fillBits_latchFree n n) fun a => ?_
  cases a with
  | ok => exact .bind (.read fun _ _ => rfl) fun _ => .bind (.update fun _ _ => rfl) fun _ => .pure _
  | eos => exact .stop _
  | io => exact .stop _

-- the Codebook unit

theorem bookOperand_latchFree (c : Nat) : LatchFree (bookOperand c) := .ensureAt _ fun _ _ => Iff.rfl

theorem scalarWalk_latchFree (codes : List Code) (k l cw : Nat) : LatchFree (scalarWalk codes k l cw) := by
  induction k generalizing l cw with
  | zero => exact .stop _
  | succ k ih =>
    refine .bind (readBits_latchFree _) fun b => ?_
    cases findCode codes (l + 1) (2 * cw + b) with
    | some e => exact .pure _
    | none => exact ih _ _

theorem codebookScalar_latchFree (c : Nat) : LatchFree (codebookScalar c) :=
  .bind (bookOperand_latchFree c) fun _ => .bind (.read fun _ _ => rfl) fun _ => scalarWalk_latchFree _ _ _ _

theorem addInto_latchFree (buf : Vec) (i : Nat) (v : F32) : LatchFree (addInto buf i v) := by
  refine .bind (.ensure _ _) fun _ => .update fun r s => ?_
  have hget : (s.setResult r).bufGet buf.ref = s.bufGet buf.ref := s.bufGet_setResult r buf.ref
  rw [hget, bufSet_setResult]

theorem addElements_latchFree (buf : Vec) (stride i : Nat) (vs : List F32) : LatchFree (addElements buf stride i vs) := by
  induction vs generalizing i with
  | nil => exact .pure _
  | cons v vs ih => exact .bind (addInto_latchFree buf i v) fun _ => ih _

theorem codebookVector_latchFree (c : Nat) (buf : Vec) (base stride : Nat) : LatchFree (codebookVector c buf base stride) :=
  .bind (bookOperand_latchFree c) fun _ => .bind (.ensure _ _) fun _ => .bind (.read fun _ _ => rfl) fun _ => .bind (.ensure _ _) fun _ =>
    .bind (.ensure _ _) fun _ => .bind (codebookScalar_latchFree c) fun _ => addElements_latchFree _ _ _ _

-- the Floor unit

theorem chanOperand_latchFree (ch : Nat) : LatchFree (chanOperand ch) := .ensureAt _ fun _ _ => Iff.rfl

theorem floorOperand_latchFree (f : Nat) : LatchFree (floorOperand f) := .ensureAt _ fun _ _ => Iff.rfl

theorem readDim_latchFree (book : Option Nat) : LatchFree (readDim book) := by
  cases book with
  | none => exact .pure _
  | some b => exact codebookScalar_latchFree b

theorem readPartitionYs_latchFree (cls : FloorClass) (k cval : Nat) : LatchFree (readPartitionYs cls k cval) := by
  induction k generalizing cval with
  | zero => exact .pure _
  | succ k ih => exact .bind (readDim_latchFree _) fun _ => .bind (ih _) fun _ => .pure _

theorem readAllYs_latchFree (fl : Floor) (ks : List Nat) : LatchFree (readAllYs fl ks) := by
  induction ks with
  | nil => exact .pure _
  | cons k ks ih =>
    exact .bind (.ite (codebookScalar_latchFree _) (.pure _)) fun _ => .bind (readPartitionYs_latchFree _ _ _) fun _ => .bind ih fun _ => .pure _

theorem floorSilentPart_latchFree (ch f : Nat) : LatchFree (floorSilentPart ch f) :=
  .bind (chanOperand_latchFree ch) fun _ => .bind (floorOperand_latchFree f) fun _ => .update fun _ _ => rfl

theorem floorEnergyPart_latchFree (ch f : Nat) : LatchFree (floorEnergyPart ch f) :=
  .bind (chanOperand_latchFree ch) fun _ => .bind (floorOperand_latchFree f) fun _ => .bind (.update fun _ _ => rfl) fun _ =>
    .bind (.read fun _ _ => rfl) fun _ => .bind (readBits_latchFree _) fun _ => .bind (readBits_latchFree _) fun _ =>
      .bind (readAllYs_latchFree _ _) fun _ => .update fun _ _ => rfl

theorem floorDecode_latchFree (ch f : Nat) : LatchFree (floorDecode ch f) :=
  .bind (chanOperand_latchFree ch) fun _ => .bind (floorOperand_latchFree f) fun _ => .bind (readBits_latchFree _) fun _ =>
    .ite (floorEnergyPart_latchFree ch f) (floorSilentPart_latchFree ch f)

theorem binsOperand_latchFree (n : Nat) : LatchFree (binsOperand n) := .ensure _ _

theorem energyOperand_latchFree (ch : Nat) : LatchFree (energyOperand ch) := .ensureAt _ fun _ _ => Iff.rfl

theorem floorSynth_latchFree (ch f n : Nat) : LatchFree (floorSynth ch f n) :=
  .bind (chanOperand_latchFree ch) fun _ => .bind (floorOperand_latchFree f) fun _ => .bind (binsOperand_latchFree n) fun _ =>
    .bind (energyOperand_latchFree ch) fun _ => .bind (.read fun _ _ => rfl) fun _ => .bind (.ensure _ _) fun _ => .bind (.read fun _ _ => rfl) fun _ =>
      .bind (.update fun _ _ => rfl) fun _ => .bind (.ensure _ _) fun _ => .bind (.ensure _ _) fun _ => .setCur ch fun _ _ => rfl

-- the Inverse Transform unit and the Frame Orchestrator

theorem imdctChannel_latchFree (b : Bool) (ch : Nat) : LatchFree (imdctChannel b ch) :=
  .bind (chanOperand_latchFree ch) fun _ => .bind (energyOperand_latchFree ch) fun _ => .bind (.read fun _ _ => rfl) fun _ =>
    .setCur ch fun _ _ => rfl

theorem undone_setResult (n : Nat) (st : CouplingStep) (r : Result) (s : State) : (s.setResult r).undone n st = (s.undone n st).setResult r := by
  rw [State.undone, State.undone, setCur_setResult, setCur_setResult]
  rfl

theorem decoupleStep_latchFree (n : Nat) (st : CouplingStep) : LatchFree (decoupleStep n st) := fun r s => by
  rw [decoupleStep_ok, decoupleStep_ok, undone_setResult]
  rfl

theorem mappingOperand_latchFree (m : Nat) : LatchFree (mappingOperand m) := .ensureAt _ fun _ _ => Iff.rfl

theorem decoupleAll_latchFree (m n : Nat) : LatchFree (decoupleAll m n) :=
  .bind (mappingOperand_latchFree m) fun _ => .bind (binsOperand_latchFree n) fun _ => .bind (.read fun _ _ => rfl) fun _ =>
    .forList (decoupleStep_latchFree n) _

-- the Residue unit

theorem residueOperand_latchFree (r : Nat) : LatchFree (residueOperand r) := .ensureAt _ fun _ _ => Iff.rfl

theorem decodePartition_latchFree (rs : Residue) (book : Nat) (v : Vec) (off : Nat) : LatchFree (decodePartition rs book v off) := by
  unfold decodePartition
  refine .ite ?_ ?_
  · exact .bind (.read fun _ _ => rfl) fun _ => .bind (.ensure _ _) fun _ => .forN (fun _ => codebookVector_latchFree _ _ _ _) _ _
  · exact .bind (.read fun _ _ => rfl) fun _ => .forN (fun _ => codebookVector_latchFree _ _ _ _) _ _

theorem residueCell_latchFree (rs : Residue) (vs : List Vec) (lim pass q j : Nat) : LatchFree (residueCell rs vs lim pass q j) := by
  refine .bind (.read fun _ _ => rfl) fun cls => ?_
  cases aget (aget rs.books cls) pass with
  | none => exact .pure _
  | some book => exact decodePartition_latchFree rs book _ _

theorem forKept_latchFree {body : Nat → M Unit} (h : ∀ j, LatchFree (body j)) (dnd : List Bool) : LatchFree (forKept dnd body) :=
  .forN (fun j => .ite (.pure _) (h j)) _ _

theorem classifyGroup_latchFree (rs : Residue) (dnd : List Bool) (cpc pass g : Nat) : LatchFree (classifyGroup rs dnd cpc pass g) :=
  .ite (forKept_latchFree (fun _ => .bind (codebookScalar_latchFree _) fun _ => .update fun _ _ => rfl) dnd) (.pure _)

theorem residueInner_latchFree (rs : Residue) (vs : List Vec) (dnd : List Bool) (size : Nat) : LatchFree (residueInner rs vs dnd size) :=
  .bind (.read fun _ _ => rfl) fun cpc => .bind (.ensure _ _) fun _ =>
    .forN (fun pass => .forN (fun g => .bind (classifyGroup_latchFree rs dnd cpc pass g) fun _ =>
      .forN (fun _ => forKept_latchFree (fun _ => residueCell_latchFree rs vs _ _ _ _) dnd) _ _) _ _) _ _

theorem zeroSpectrum_latchFree (n c : Nat) : LatchFree (zeroSpectrum n c) := .setCur c fun _ _ => rfl

theorem residueDecode_latchFree (r : Nat) (chans : List Nat) (n : Nat) : LatchFree (residueDecode r chans n) :=
  .bind (residueOperand_latchFree r) fun _ => .bind (binsOperand_latchFree n) fun _ => .bind (.read fun _ _ => rfl) fun _ =>
    .bind (.ensure _ _) fun _ => .bind (.read fun _ _ => rfl) fun _ => .bind (.ensure _ _) fun _ => .bind (.read fun _ _ => rfl) fun _ =>
      .bind (.update fun _ _ => rfl) fun _ =>
        .ite
          (.bind (.update fun _ _ => rfl) fun _ => .bind (.ite (.pure _) (residueInner_latchFree _ _ _ _)) fun _ =>
            .forN (fun _ => .setCur _ fun _ _ => rfl) _ _)
          (.bind (.forList (zeroSpectrum_latchFree n) _) fun _ => residueInner_latchFree _ _ _ _)

end Sys2Proof.Machine
end

section
/-! PROOF. The frame of a packet is the sequence of its micro-operations, each as if issued alone (46_frame_output R360). -/

namespace Sys2Proof.Machine

/-- What a run answers. -/
def runOut (m : M Unit) (s : State) : Out :=
  match m s with
  | .ok _ t => .next t
  | .error x t => x.outcome t

theorem runOut_of_ok {m : M Unit} {s t : State} (h : m s = .ok () t) : runOut m s = .next t := by rw [runOut, h]

theorem runOut_of_error {m : M Unit} {s t : State} {x : Stop} (h : m s = .error x t) : runOut m s = x.outcome t := by rw [runOut, h]

theorem outcome_setResult (x : Stop) (r : Result) (s : State) : x.outcome (s.setResult r) = mapNext (State.setResult r) (x.outcome s) := by
  cases x with
  | raise c => cases c <;> rfl
  | fault f => rfl
  | refuse f => rfl

/-- A step and what follows it; a step that does not complete is the last. -/
def andThen (o : Out) (g : State → Out) : Out :=
  match o with
  | .next t => if t.phase = .failed then .next t else g t
  | o => o

theorem runSeq_cons (f : State → Out) (fs : List (State → Out)) (s : State) : runSeq (f :: fs) s = andThen (f s) (runSeq fs) := rfl

theorem runSeq_singleton (f : State → Out) (s : State) : runSeq [f] s = f s := by
  rw [runSeq_cons]
  cases f s with
  | next t => exact ite_self (c := t.phase = .failed) (Host.Outcome.next t)
  | fault e => rfl
  | refused r => rfl

theorem runSeq_append (fs gs : List (State → Out)) {s : State} (hs : s.phase ≠ .failed) : runSeq (fs ++ gs) s = andThen (runSeq fs s) (runSeq gs) := by
  induction fs generalizing s with
  | nil => exact (if_neg hs).symm
  | cons f fs ih =>
    rw [List.cons_append, runSeq_cons, runSeq_cons]
    cases f s with
    | next t =>
      by_cases ht : t.phase = .failed
      · simp only [andThen, if_pos ht]
      · simp only [andThen, if_neg ht]
        exact ih ht
    | fault e => rfl
    | refused r => rfl

/-- A step does not change `STATE`, nor what block is decoded. -/
abbrev BlockKept (s t : State) : Prop := t.phase = s.phase ∧ t.dec.frame.curFlag = s.dec.frame.curFlag ∧ t.dec.frame.curBlock = s.dec.frame.curBlock

theorem BlockKept.chain : Chain BlockKept := (Chain.eq _).and ((Chain.eq _).and (Chain.eq _))

theorem BlockKept.refl (s : State) : BlockKept s s := BlockKept.chain.refl s

theorem BlockKept.setCur (s : State) (ch : Nat) (v : List F32) : BlockKept s (s.setCur ch v) := by
  rw [State.setCur_frame]
  exact .refl s

theorem readBits_blockKept (n : Nat) : Keeps BlockKept (readBits n) := readBits_keeps BlockKept.chain (fun s _ => .refl s) (fun s _ => .refl s) n

/-- In a frame of block flag `b` and block size `c`, the outcome that the steps answer is that of the piece of work, but for the latch. -/
structure StepsOf (b : Bool) (c : Nat) (steps : State → Out) (m : M Unit) : Prop where
  outcome : ∀ s r, s.phase ≠ .failed → s.dec.frame.curFlag = b → s.dec.frame.curBlock = c →
    ∃ r', steps (State.setResult r s) = mapNext (State.setResult r') (runOut m s)
  kept : Keeps BlockKept m
  noCleanEnd : NoCleanEnd m

section

variable {b : Bool} {c : Nat} {f g : State → Out} {fs gs : List (State → Out)} {m m' : M Unit}

/-- A micro-operation issued alone. -/
theorem StepsOf.microUnit (hl : LatchFree m) (hk : Keeps BlockKept m) (he : NoCleanEnd m) : StepsOf b c (microUnit m) m := by
  refine ⟨fun s r _ _ _ => ?_, hk, he⟩
  have hrun := hl r s
  cases h : m s with
  | ok a t =>
    rw [h] at hrun
    exact ⟨.none, by rw [microUnit_of_ok hrun, runOut_of_ok h]; rfl⟩
  | error x t =>
    rw [h] at hrun
    exact ⟨r, by rw [microUnit_of_error hrun, runOut_of_error h, outcome_setResult]⟩

theorem StepsOf.update {u : State → State} (hl : ∀ r s, u (State.setResult r s) = (u s).setResult r) (hk : ∀ s, BlockKept s (u s)) :
    StepsOf b c (fun s => .next (u s)) (M.update u) :=
  ⟨fun s r _ _ _ => ⟨r, congrArg Host.Outcome.next (hl r s)⟩, .update hk, .update _⟩

theorem StepsOf.andThen (hf : StepsOf b c f m) (hg : StepsOf b c g m') : StepsOf b c (fun s => Machine.andThen (f s) g) (do m; m') := by
  refine ⟨fun s r hs hb hc => ?_, .bind BlockKept.chain hf.kept fun _ => hg.kept, .bind hf.noCleanEnd fun _ => hg.noCleanEnd⟩
  obtain ⟨r', hfirst⟩ := hf.outcome s r hs hb hc
  cases hm : m s with
  | ok a t =>
    obtain ⟨hphase, hflag, hblock⟩ := hf.kept.ok hm
    have ht : t.phase ≠ .failed := hphase ▸ hs
    obtain ⟨r'', hrest⟩ := hg.outcome t r' ht (hflag.trans hb) (hblock.trans hc)
    rw [runOut_of_ok hm] at hfirst
    refine ⟨r'', ?_⟩
    rw [hfirst, runOut, M.bind_ok hm, ← runOut, ← hrest]
    exact if_neg ht
  | error x t =>
    rw [runOut_of_error hm] at hfirst
    refine ⟨r', ?_⟩
    rw [hfirst, runOut_of_error (M.bind_error hm)]
    cases x with
    | raise k =>
      have hk : k ≠ .cleanEnd := fun heq => hf.noCleanEnd s t (heq ▸ hm)
      exact if_pos (State.raise_failed hk t)
    | fault e => rfl
    | refuse e => rfl

theorem StepsOf.nil : StepsOf b c (runSeq []) (pure ()) := ⟨fun _ r _ _ _ => ⟨r, rfl⟩, .pure BlockKept.chain _, .pure _⟩

theorem StepsOf.cons (hf : StepsOf b c f m) (hfs : StepsOf b c (runSeq fs) m') : StepsOf b c (runSeq (f :: fs)) (do m; m') := hf.andThen hfs

theorem StepsOf.single (hf : StepsOf b c f m) : StepsOf b c (runSeq [f]) m := by
  rwa [show runSeq [f] = f from funext (runSeq_singleton f)]

theorem StepsOf.append (hfs : StepsOf b c (runSeq fs) m) (hgs : StepsOf b c (runSeq gs) m') : StepsOf b c (runSeq (fs ++ gs)) (do m; m') := by
  obtain ⟨hout, hkept, hend⟩ := hfs.andThen hgs
  refine ⟨fun s r hs hb hc => ?_, hkept, hend⟩
  rw [runSeq_append fs gs (s := s.setResult r) hs]
  exact hout s r hs hb hc

theorem StepsOf.forN {step : Nat → State → Out} {body : Nat → M Unit} (h : ∀ i, StepsOf b c (step i) (body i)) (n lo : Nat) :
    StepsOf b c (runSeq ((List.range' lo n).map step)) (forN n lo body) := by
  induction n generalizing lo with
  | zero => exact .nil
  | succ n ih => exact (h lo).cons (ih (lo + 1))

theorem StepsOf.forN_zero {step : Nat → State → Out} {body : Nat → M Unit} (h : ∀ i, StepsOf b c (step i) (body i)) (n : Nat) :
    StepsOf b c (runSeq ((List.range n).map step)) (Machine.forN n 0 body) := by
  rw [List.range_eq_range']
  exact .forN h n 0

end

-- the pieces of a frame

section

variable (b : Bool) (c : Nat) (mp : Mapping)

theorem floorStep (ch f : Nat) : StepsOf b c (exec (.flDecode ch f)) (floorDecode ch f) :=
  .microUnit (floorDecode_latchFree ch f) (floorDecode_keeps BlockKept.chain readBits_blockKept ⟨fun s _ => .refl s, fun s _ => .refl s⟩ f)
    (floorDecode_noCleanEnd ch f)

theorem residueStep (r : Nat) (chans : List Nat) (n : Nat) : StepsOf b c (exec (.rsDecode r chans n)) (residueDecode r chans n) :=
  .microUnit (residueDecode_latchFree r chans n)
    (residueDecode_keeps BlockKept.chain readBits_blockKept ⟨fun s _ => .refl s, fun s _ => .refl s, fun s _ => .refl s, BlockKept.setCur⟩ r chans n)
    (residueDecode_noCleanEnd r chans n)

theorem decoupleStep_steps (m n : Nat) : StepsOf b c (exec (.decouple m n)) (decoupleAll m n) :=
  .microUnit (decoupleAll_latchFree m n) (decoupleAll_keeps BlockKept.chain BlockKept.setCur m n) fun s t => decoupleAll_noRaise m n s t _

theorem synthStep (ch n : Nat) : StepsOf b c (ifEnergy ch (.flSynth ch (aget mp.subFloor (aget mp.mux ch)) n) id) (synthChannel mp n ch) := by
  have hsynth : StepsOf b c (exec (.flSynth ch (floorOf mp ch) n)) (floorSynth ch (floorOf mp ch) n) :=
    .microUnit (floorSynth_latchFree ch _ n) (floorSynth_keeps BlockKept.chain ⟨fun s _ _ => .refl s, fun s v => .setCur s ch v⟩ _ n)
      fun s t => floorSynth_noRaise ch _ n s t _
  refine ⟨fun s r hs hb hc => ?_, .bind BlockKept.chain (.read BlockKept.chain _) fun _ => .ite hsynth.kept (.pure BlockKept.chain _),
    .bind (.read _) fun _ => .ite hsynth.noCleanEnd (.pure _)⟩
  have hrun : synthChannel mp n ch s = (if aget s.dec.work.hasEnergy ch then floorSynth ch (floorOf mp ch) n else pure ()) s := rfl
  by_cases he : aget s.dec.work.hasEnergy ch = true
  · rw [if_pos he] at hrun
    obtain ⟨r', hout⟩ := hsynth.outcome s r hs hb hc
    exact ⟨r', (if_pos he).trans (hout.trans (by rw [runOut, runOut, hrun]))⟩
  · rw [if_neg he] at hrun
    exact ⟨r, (if_neg he).trans (by rw [runOut_of_ok hrun]; rfl)⟩

/-- The block of a channel is zeroed (R369). -/
def State.zeroBlock (ch c : Nat) (s : State) : State := s.setCur ch (overlay (List.replicate c f32Zero) (s.cur ch))

theorem transformStep (ch : Nat) : StepsOf b c (ifEnergy ch (.imdct b ch) (State.zeroBlock ch c)) (transformChannel ch) := by
  have himdct : ∀ b', StepsOf b c (exec (.imdct b' ch)) (imdctChannel b' ch) := fun b' =>
    .microUnit (imdctChannel_latchFree b' ch) (imdctChannel_keeps BlockKept.chain (fun s v => .setCur s ch v) b') fun s t => imdctChannel_noRaise b' ch s t _
  refine ⟨fun s r hs hb hc => ?_, .bind BlockKept.chain (.read BlockKept.chain _) fun _ => .bind BlockKept.chain (.read BlockKept.chain _) fun b' =>
      .ite (himdct b').kept (.update fun s => .setCur s ch _),
    .bind (.read _) fun _ => .bind (.read _) fun b' => .ite (himdct b').noCleanEnd (.update _)⟩
  have hrun : transformChannel ch s =
      (if aget s.dec.work.hasEnergy ch then imdctChannel s.dec.frame.curFlag ch else M.update (State.zeroBlock ch s.dec.frame.curBlock)) s := by
    cases he : aget s.dec.work.hasEnergy ch <;> simp only [transformChannel, M.run_bind, M.run_read, he] <;> rfl
  rw [hb, hc] at hrun
  by_cases he : aget s.dec.work.hasEnergy ch = true
  · rw [if_pos he] at hrun
    obtain ⟨r', hout⟩ := (himdct b).outcome s r hs hb hc
    exact ⟨r', (if_pos he).trans (hout.trans (by rw [runOut, runOut, hrun]))⟩
  · rw [if_neg he] at hrun
    refine ⟨r, (if_neg he).trans ?_⟩
    rw [runOut_of_ok hrun, State.zeroBlock, State.cur_setResult, setCur_setResult]
    rfl

/-- The frame of an audio packet on mapping `m`, whose entry is `mp`, after the exchange of the banks (R360). -/
def frameWork (m : Nat) (mp : Mapping) (channels n : Nat) : M Unit := do
  forN channels 0 fun ch => floorDecode ch (floorOf mp ch)
  propagateFlags channels mp.steps
  forN mp.submaps 0 fun sub => residueDecode (aget mp.subResidue sub) (chansOf mp channels sub) n
  decoupleAll m n
  forN channels 0 (synthChannel mp n)
  forN channels 0 transformChannel
  M.update State.dropFloorY
  alignBits
  M.update (State.mapFrame fun f => { f with framePending := true })

theorem frameBody_run {m : Nat} {s : State} (hm : m < s.dec.counts.nMappings) :
    frameBody m s = frameWork m (s.mapping m) s.dec.hdr.channels (s.dec.frame.curBlock / 2) s.swapBanks := by
  have hmap : mappingOperand m s = .ok () s := M.run_ensure_pos hm _ s
  rw [frameBody_eq, M.bind_ok hmap]
  rfl

/-- The steps of R360 are the frame. -/
theorem frameSteps_of (m channels : Nat) :
    StepsOf b c (runSeq (frameSteps m mp channels c b)) (do M.update State.swapBanks; frameWork m mp channels (c / 2)) := by
  simp only [frameSteps, List.append_assoc, List.cons_append, List.nil_append]
  refine .cons (.update (fun _ _ => rfl) fun s => .refl s) (.append (.forN_zero (fun ch => floorStep b c ch _) _)
    (.cons (.update (fun _ _ => rfl) fun s => .refl s) (.append (.forN_zero (fun sub => residueStep b c _ _ _) _)
      (.cons (decoupleStep_steps b c m _) (.append (.forN_zero (fun ch => synthStep b c mp ch _) _)
        (.append (.forN_zero (fun ch => transformStep b c ch) _) ?_))))))
  exact .cons (.update (fun _ _ => rfl) fun s => .refl s) (.cons (.microUnit (.update fun _ _ => rfl) (.update fun s => .refl s) (.update _))
    (.single (.update (fun _ _ => rfl) fun s => .refl s)))

end

end Sys2Proof.Machine
end

section
/-! PROOF. `DECODE` on a packet of any mode (46_frame_output R360 to R365): the header, the outcome of its frame, and the propagation of the energy flags. -/

namespace Sys2Proof.Machine

-- the header of a packet (R361, R362)

/-- The block of a packet of mode `k` is chosen. -/
def State.openFrame (k : Nat) (s : State) : State :=
  s.mapFrame fun f => { f with curFlag := (s.mode k).blockFlag, curBlock := s.block (s.mode k).blockFlag }

section

variable {s : State} {k w : Nat} (hmb : s.dec.counts.modeBits ≤ 6) (hk : k < 2 ^ s.dec.counts.modeBits) (hw : w < 4) (hkn : k < s.dec.counts.nModes)
  (hv : s.dec.bits.Valid)

include hmb hk hw hkn hv

theorem packetHeader_ok (hr : s.Reads (modeFields s k w)) : packetHeader s = .ok (s.mode k).mapping ((s.past (modeFields s k w)).openFrame k) := by
  have hmode := readBits_past hv (by omega) hk hr
  have hkn' : k < (s.past [(s.dec.counts.modeBits, k)]).dec.counts.nModes := hkn
  rw [packetHeader, M.bind_ok (M.run_read _ s), M.bind_ok hmode, M.bind_ok (M.run_read _ _), M.bind_ok (M.run_ensure_pos hkn' _ _), M.bind_ok (M.run_read _ _),
    M.bind_ok (M.run_update _ _)]
  have hsame : (s.past [(s.dec.counts.modeBits, k)]).mode k = s.mode k := rfl
  rw [hsame]
  by_cases hflag : (s.mode k).blockFlag = true
  · rw [modeFields, if_pos hflag] at hr ⊢
    have hfirst : s.Reads [(s.dec.counts.modeBits, k)] := hr.left (gs := [(2, w)])
    have hflags := readBits_past (s := (s.past [(s.dec.counts.modeBits, k)]).openFrame k) (State.past_valid hv) (by decide) hw
      (hr.right hv (fs := [(s.dec.counts.modeBits, k)]))
    rw [if_pos hflag]
    refine (M.bind_ok hflags).trans ?_
    rw [show [(s.dec.counts.modeBits, k), (2, w)] = [(s.dec.counts.modeBits, k)] ++ [(2, w)] from rfl, State.past_append hv hfirst]
    rfl
  · rw [modeFields, if_neg hflag, if_neg hflag]
    rfl

theorem audioPacket_run (hr : s.Reads (modeFields s k w)) :
    audioPacket s = frameBody (s.mode k).mapping ((s.past (modeFields s k w)).openFrame k) :=
  M.bind_ok (packetHeader_ok hmb hk hw hkn hv hr)

theorem decodePacket_run (hr : s.Reads ((1, 0) :: modeFields s k w)) :
    decodePacket s = frameBody (s.mode k).mapping ((s.past ((1, 0) :: modeFields s k w)).openFrame k) := by
  have hrun := audioPacket_run (s := s.past [(1, 0)]) hmb hk hw hkn (State.past_valid hv) (hr.right hv (fs := [(1, 0)]))
  rw [decodePacket_of_some (tryReadBits_audio hv hr), if_neg Nat.zero_ne_one, hrun,
    show (1, 0) :: modeFields s k w = [(1, 0)] ++ modeFields s k w from rfl, State.past_append hv (hr.left (fs := [(1, 0)]))]
  rfl

end

-- the frame as its steps

/-- The steps of R360 answer what the frame answers, but for the latch. -/
theorem runFrame_eq {s : State} {k : Nat} (hs : s.phase ≠ .failed) (hm : (s.mode k).mapping < s.dec.counts.nMappings) :
    ∃ r, s.runFrame k = mapNext (State.setResult r) (runOut (frameBody (s.mode k).mapping) (s.openFrame k)) := by
  obtain ⟨r, hout⟩ := (frameSteps_of (s.mode k).blockFlag (s.block (s.mode k).blockFlag) (s.mapping (s.mode k).mapping) (s.mode k).mapping
    s.dec.hdr.channels).outcome (s.openFrame k) s.result hs rfl rfl
  have hframe : frameBody (s.mode k).mapping (s.openFrame k) = _ := frameBody_run (s := s.openFrame k) hm
  refine ⟨r, hout.trans (congrArg (mapNext (State.setResult r)) ?_)⟩
  rw [runOut, runOut, hframe]
  rfl

/-- Outcomes that differ in the latch alone are one when both are completed alike. -/
theorem mapNext_outcome {f : State → State} {x : Stop} {r : Result} {t : State} (h : ∀ c, x = .raise c → f ((t.raise c).setResult r) = t.raise c) :
    mapNext f (mapNext (State.setResult r) (x.outcome t)) = x.outcome t := by
  cases x with
  | raise c => exact congrArg Host.Outcome.next (h c rfl)
  | fault e => rfl
  | refuse e => rfl

theorem State.raise_latch (c : Cause) (r : Result) (t : State) : { (t.raise c).setResult r with ret := retDone (t.raise c).err, result := t.result } = t.raise c := by
  cases c <;> rfl

section

variable {s : State} {k w : Nat} (hmb : s.dec.counts.modeBits ≤ 6) (hk : k < 2 ^ s.dec.counts.modeBits) (hw : w < 4) (hkn : k < s.dec.counts.nModes)
  (hm : (s.mode k).mapping < s.dec.counts.nMappings)

include hmb hk hw hkn hm

theorem exec_cmdDecode_eq (hp : s.phase = .ready) (hf : s.dec.frame.framePending = false) (hv : s.dec.bits.Valid) (hr : s.Reads ((1, 0) :: modeFields s k w)) :
    exec .cmdDecode s =
      mapNext (fun t => { t with ret := retDone t.err, result := s.result }) ((s.past ((1, 0) :: modeFields s k w)).runFrame k) := by
  have hrun := decodePacket_run hmb hk hw hkn hv hr
  obtain ⟨r, hframe⟩ := runFrame_eq (s := s.past ((1, 0) :: modeFields s k w)) (k := k) (by rw [State.past, State.advance_phase, hp]; nofun) hm
  have hsame : (s.past ((1, 0) :: modeFields s k w)).mode k = s.mode k := rfl
  rw [hframe, hsame, runOut, ← hrun]
  cases h : decodePacket s with
  | ok a t =>
    have hq := decodePacket_quiet.ok h
    rw [← hq.result]
    exact command_of_ok (m := decodePacket) ⟨hp, hf⟩ h
  | error x t =>
    have hq := decodePacket_quiet.error h
    rw [← hq.result]
    exact (command_of_error (m := decodePacket) ⟨hp, hf⟩ h).trans (mapNext_outcome fun c _ => State.raise_latch c r t).symm

theorem exec_packetAudio_eq (hp : s.phase ≠ .failed) (hv : s.dec.bits.Valid) (hr : s.Reads (modeFields s k w)) :
    exec .packetAudio s =
      mapNext (fun t => { t with result := if t.phase = .failed then s.result else .none }) ((s.past (modeFields s k w)).runFrame k) := by
  have hrun := audioPacket_run hmb hk hw hkn hv hr
  obtain ⟨r, hframe⟩ := runFrame_eq (s := s.past (modeFields s k w)) (k := k) hp hm
  have hsame : (s.past (modeFields s k w)).mode k = s.mode k := rfl
  rw [hframe, hsame, runOut, ← hrun]
  cases h : audioPacket s with
  | ok a t =>
    have ht : t.phase ≠ .failed := (quiet_updates.audioPacket.ok h).phase ▸ hp
    refine (microUnit_of_ok (m := audioPacket) h).trans (congrArg Host.Outcome.next ?_)
    exact congrArg (fun r' => t.setResult r') (if_neg ht).symm
  | error x t =>
    have hq := quiet_updates.audioPacket.error h
    refine (microUnit_of_error (m := audioPacket) h).trans (mapNext_outcome fun c hx => ?_).symm
    have hc : c ≠ .cleanEnd := fun heq => audioPacket_noCleanEnd s t (by rw [h, hx, heq])
    have hfailed : ((t.raise c).setResult r).phase = .failed := State.raise_failed hc t
    rw [if_pos hfailed, ← hq.result, ← State.raise_result]
    rfl

end

-- propagation (R365)

theorem aget_propagate_nil {channels c : Nat} (h : c < channels) (energy : List Bool) : aget (propagate channels energy []) c = aget energy c := by
  rw [propagate, List.foldl_nil, aget_atake, if_pos h]

theorem aget_propagateStep (need : List Bool) (st : CouplingStep) (c : Nat) :
    aget (propagateStep need st) c = true ↔ aget need c = true ∨ ((c = st.mag ∨ c = st.ang) ∧ (aget need st.mag = true ∨ aget need st.ang = true)) := by
  rw [propagateStep]
  split
  next h =>
    rw [Bool.or_eq_true] at h
    rw [aget_aset, aget_aset]
    by_cases hang : c = st.ang
    · rw [if_pos hang]
      exact ⟨fun _ => .inr ⟨.inr hang, h⟩, fun _ => rfl⟩
    · rw [if_neg hang]
      by_cases hmag : c = st.mag
      · rw [if_pos hmag]
        exact ⟨fun _ => .inr ⟨.inl hmag, h⟩, fun _ => rfl⟩
      · rw [if_neg hmag]
        exact ⟨.inl, fun h' => h'.resolve_right fun hc => hc.1.elim hmag hang⟩
  next h =>
    rw [Bool.or_eq_true] at h
    exact ⟨.inl, fun h' => h'.resolve_right fun hc => h hc.2⟩

/-- Without energy nothing spreads. -/
theorem propagate_silent {channels : Nat} {energy : List Bool} (h : ∀ c, c < channels → aget energy c = false) (steps : List CouplingStep) :
    propagate channels energy steps = atake channels energy := by
  have hnone : ∀ c, aget (atake channels energy) c = false := fun c => by
    rw [aget_atake]
    split
    next hc => exact h c hc
    next => rfl
  rw [propagate]
  induction steps with
  | nil => rfl
  | cons st steps ih =>
    have hstep : propagateStep (atake channels energy) st = atake channels energy := by
      rw [propagateStep, hnone, hnone]
      rfl
    rw [List.foldl_cons, hstep, ih]

end Sys2Proof.Machine
end

section
/-! PROOF. A packet in which no channel has energy (46_frame_output R360 to R370): every piece of its frame completes, and the block is zeros. -/

namespace Sys2Proof.Machine

/-- A loop that keeps an invariant completes. -/
theorem forN_inv (I : Nat → State → Prop) {body : Nat → M Unit} {n lo : Nat}
    (h : ∀ k, lo ≤ k → k < lo + n → ∀ s, I k s → ∃ t, body k s = .ok () t ∧ I (k + 1) t) {s : State} (hs : I lo s) :
    ∃ t, forN n lo body s = .ok () t ∧ I (lo + n) t := by
  induction n generalizing lo s with
  | zero => exact ⟨s, rfl, hs⟩
  | succ n ih =>
    obtain ⟨u, hfirst, hu⟩ := h lo le_rfl (by omega) s hs
    obtain ⟨t, hrest, ht⟩ := ih (fun k hlo hhi => h k (by omega) (by omega)) hu
    rw [Nat.add_assoc, Nat.add_comm 1] at ht
    exact ⟨t, (M.bind_ok hfirst).trans hrest, ht⟩

/-- A loop from 0 that keeps an invariant completes. -/
theorem forN_zero_inv (I : Nat → State → Prop) {body : Nat → M Unit} {n : Nat} (h : ∀ k, k < n → ∀ s, I k s → ∃ t, body k s = .ok () t ∧ I (k + 1) t)
    {s : State} (hs : I 0 s) : ∃ t, forN n 0 body s = .ok () t ∧ I n t := by
  have hloop := forN_inv I (n := n) (lo := 0) (fun k _ hk => h k (by omega)) hs
  rwa [Nat.zero_add] at hloop

/-- No channel below `channels` has energy. -/
def NoEnergy (channels : Nat) (w : Work) : Prop := ∀ ch, ch < channels → aget w.hasEnergy ch = false

/-- The fields of `k` silent floors. -/
abbrev silentFloors (k : Nat) : List (Nat × Nat) := List.replicate k (1, 0)

section

variable {s : State}

/-- Silent floors, one after the other (R241). -/
theorem floors_silent {floor : Nat → Nat} (hf : ∀ ch, ch < s.dec.hdr.channels → floor ch < s.dec.counts.nFloors) (hv : s.dec.bits.Valid)
    (hr : s.Reads (silentFloors s.dec.hdr.channels)) :
    ∃ w, (forN s.dec.hdr.channels 0 fun ch => floorDecode ch (floor ch)) s = .ok () ((s.past (silentFloors s.dec.hdr.channels)).withWork w) ∧
      NoEnergy s.dec.hdr.channels w := by
  have hloop := forN_zero_inv (fun k t => ∃ w, t = (s.past (silentFloors k)).withWork w ∧ NoEnergy k w) (body := fun ch => floorDecode ch (floor ch))
    (n := s.dec.hdr.channels) (s := s) ?_ ⟨s.dec.work, by rw [silentFloors, List.replicate_zero, State.past_nil hv]; rfl, fun _ h => absurd h (Nat.not_lt_zero _)⟩
  · obtain ⟨t, hrun, w, rfl, hw⟩ := hloop
    exact ⟨w, hrun, hw⟩
  · rintro k hk t ⟨w, rfl, hw⟩
    have hsplit : silentFloors s.dec.hdr.channels = silentFloors k ++ ([(1, 0)] ++ silentFloors (s.dec.hdr.channels - (k + 1))) := by
      rw [silentFloors, silentFloors, silentFloors, ← List.replicate_one, ← List.replicate_add, ← List.replicate_add, ← Nat.add_assoc, Nat.add_sub_cancel' hk]
    rw [hsplit] at hr
    have hbit : (s.past (silentFloors k)).Reads [(1, 0)] := (hr.right hv).left
    have hrun := floorDecode_eq (s := (s.past (silentFloors k)).withWork w) (f := floor k) hk (hf k hk) (State.past_valid hv) false hbit
    have hnext : s.past (silentFloors (k + 1)) = (s.past (silentFloors k)).past [(1, 0)] := by
      rw [silentFloors, List.replicate_succ', State.past_append hv hr.left]
    rw [hnext]
    refine ⟨_, hrun.trans (floorSilentPart_ok hk (hf k hk)), _, rfl, fun ch hch => ?_⟩
    rcases Nat.lt_succ_iff_lt_or_eq.mp hch with hlt | rfl
    · exact (aget_aset_of_ne _ _ hlt.ne).trans (hw ch hlt)
    · exact aget_aset_self _ _ _

theorem undone_flagsKept (n : Nat) (steps : List CouplingStep) (s : State) : FlagsKept s (steps.foldl (fun u st => u.undone n st) s) := by
  induction steps generalizing s with
  | nil => exact .refl s
  | cons st steps ih => exact ((FlagsKept.setCur s st.mag _).trans (FlagsKept.setCur _ st.ang _)).trans (ih _)

theorem decoupleAll_run {m n : Nat} (hm : m < s.dec.counts.nMappings) (hn : 2 * n ≤ Config.maxBlock) :
    ∃ t, decoupleAll m n s = .ok () t ∧ FlagsKept s t := by
  have hmap : mappingOperand m s = .ok () s := M.run_ensure_pos hm _ _
  have hbins : binsOperand n s = .ok () s := M.run_ensure_pos hn _ _
  refine ⟨_, ?_, undone_flagsKept n (s.mapping m).steps.reverse s⟩
  rw [decoupleAll, M.bind_ok hmap, M.bind_ok hbins, M.bind_ok (M.run_read _ s), forList_decoupleStep]

/-- The residues of channels that need none (R289). -/
theorem residues_silent {mp : Mapping} {n : Nat} (hn : 2 * n ≤ Config.maxBlock)
    (hneed : ∀ ch, ch < s.dec.hdr.channels → aget s.dec.work.needResidue ch = false)
    (hsub : ∀ sub, sub < mp.submaps →
      aget mp.subResidue sub < s.dec.counts.nResidues ∧ 0 < (s.residue (aget mp.subResidue sub)).partSize ∧
        0 < (s.residue (aget mp.subResidue sub)).nclass ∧ (s.codebook (s.residue (aget mp.subResidue sub)).classbook).dim ≠ 0) :
    ∃ t, (forN mp.submaps 0 fun sub => residueDecode (aget mp.subResidue sub) (chansOf mp s.dec.hdr.channels sub) n) s = .ok () t ∧ FlagsKept s t := by
  refine forN_zero_inv (fun _ => FlagsKept s) (fun sub hlt t ht => ?_) (.refl s)
  obtain ⟨hr, hps, hnc, hdim⟩ := hsub sub hlt
  obtain ⟨w, rfl, -, hw⟩ := id ht
  have hch : ∀ c ∈ chansOf mp s.dec.hdr.channels sub, c < s.dec.hdr.channels := fun c hc => List.mem_range.mp (List.mem_filter.mp hc).1
  obtain ⟨u, hrun, hu, -⟩ := residueDecode_idle (s := s.withWork w) hr hn hch
    (ascending_iff_pairwise.mpr (List.pairwise_lt_range.filter _)) hps hnc hdim rfl (.inl fun c hc => (congrArg (aget · c) hw).trans (hneed c (hch c hc)))
  exact ⟨u, hrun, ht.trans hu⟩

/-- No floor curve where no channel has energy (R368). -/
theorem synths_silent {channels n : Nat} {mp : Mapping} (hw : NoEnergy channels s.dec.work) : forN channels 0 (synthChannel mp n) s = .ok () s := by
  refine forN_ok (fun _ => s) channels 0 fun k hk => ?_
  have he : ¬aget s.dec.work.hasEnergy (0 + k) = true := by rw [Nat.zero_add, hw k hk]; nofun
  rw [synthChannel, M.bind_ok (M.run_read _ s), if_neg he]
  rfl

/-- Every channel without energy gets a block of zeros (R369). -/
theorem transforms_silent {channels : Nat} (hw : NoEnergy channels s.dec.work) :
    ∃ t, forN channels 0 transformChannel s = .ok () t ∧ FlagsKept s t ∧
      ∀ ch, ch < channels → ∀ i, i < s.dec.frame.curBlock → aget (t.cur ch) i = f32Zero := by
  refine forN_zero_inv (fun k t => FlagsKept s t ∧ ∀ ch, ch < k → ∀ i, i < s.dec.frame.curBlock → aget (t.cur ch) i = f32Zero) ?_
    ⟨.refl s, fun _ h => absurd h (Nat.not_lt_zero _)⟩
  rintro k hk t ⟨ht, hzero⟩
  obtain ⟨w, rfl, hwe, -⟩ := id ht
  have he : ¬aget (s.withWork w).dec.work.hasEnergy k = true := by
    have hoff : aget (s.withWork w).dec.work.hasEnergy k = false := (congrArg (aget · k) hwe).trans (hw k hk)
    rw [hoff]
    nofun
  refine ⟨(s.withWork w).zeroBlock k s.dec.frame.curBlock, ?_, ht.trans (.setCur _ k _), fun ch hch i hi => ?_⟩
  · rw [transformChannel, M.bind_ok (M.run_read _ _), M.bind_ok (M.run_read _ _), if_neg he]
    rfl
  · rw [State.zeroBlock, State.cur_setCur]
    split
    next heq => rw [aget_overlay, List.length_replicate, if_pos hi, aget_replicate, if_pos hi]
    next hne => exact hzero ch (by omega) i hi

/-- The end of a frame (R370). -/
def State.endFrame (s : State) : State := (s.dropFloorY.mapBits fun _ => BitReader.empty).mapFrame fun f => { f with framePending := true }

/-- The frame of a packet without energy, after the exchange of the banks. -/
theorem frameWork_silent {m n : Nat} {mp : Mapping} (hm : m < s.dec.counts.nMappings) (hn : 2 * n ≤ Config.maxBlock)
    (hfloor : ∀ ch, ch < s.dec.hdr.channels → floorOf mp ch < s.dec.counts.nFloors)
    (hsub : ∀ sub, sub < mp.submaps →
      aget mp.subResidue sub < s.dec.counts.nResidues ∧ 0 < (s.residue (aget mp.subResidue sub)).partSize ∧
        0 < (s.residue (aget mp.subResidue sub)).nclass ∧ (s.codebook (s.residue (aget mp.subResidue sub)).classbook).dim ≠ 0)
    (hv : s.dec.bits.Valid) (hr : s.Reads (silentFloors s.dec.hdr.channels)) :
    ∃ w, frameWork m mp s.dec.hdr.channels n s = .ok () ((s.past (silentFloors s.dec.hdr.channels)).withWork w).endFrame ∧
      ∀ ch, ch < s.dec.hdr.channels → aget w.hasEnergy ch = false ∧ aget w.needResidue ch = false ∧
        ∀ i, i < s.dec.frame.curBlock → aget ((s.withWork w).cur ch) i = f32Zero := by
  obtain ⟨w₁, hfloors, henergy⟩ := floors_silent hfloor hv hr
  obtain ⟨w₂, hw₂⟩ : ∃ w₂, w₂ = { w₁ with needResidue := overlay (propagate s.dec.hdr.channels w₁.hasEnergy mp.steps) w₁.needResidue } := ⟨_, rfl⟩
  have hneed : ∀ ch, ch < s.dec.hdr.channels → aget w₂.needResidue ch = false := fun ch hch => by
    rw [hw₂]
    refine (aget_overlay _ _ ch).trans ?_
    rw [propagate_silent henergy, length_atake, if_pos hch, aget_atake, if_pos hch, henergy ch hch]
  have hprop : propagateFlags s.dec.hdr.channels mp.steps ((s.past (silentFloors s.dec.hdr.channels)).withWork w₁) =
      .ok () ((s.past (silentFloors s.dec.hdr.channels)).withWork w₂) := by
    rw [hw₂]
    rfl
  obtain ⟨t₃, hres, w₃, rfl, he₃, hn₃⟩ := residues_silent (s := (s.past (silentFloors s.dec.hdr.channels)).withWork w₂) hn hneed hsub
  obtain ⟨t₄, hdec, w₄, rfl, he₄, hn₄⟩ := decoupleAll_run (s := (s.past (silentFloors s.dec.hdr.channels)).withWork w₃) hm hn
  have henergy₄ : NoEnergy s.dec.hdr.channels w₄ := fun ch hch =>
    (congrArg (aget · ch) (he₄.trans (he₃.trans (congrArg Work.hasEnergy hw₂)))).trans (henergy ch hch)
  have hsynth := synths_silent (s := (s.past (silentFloors s.dec.hdr.channels)).withWork w₄) (n := n) (mp := mp) henergy₄
  obtain ⟨t₅, htrans, ⟨w₅, rfl, he₅, hn₅⟩, hzero⟩ := transforms_silent (s := (s.past (silentFloors s.dec.hdr.channels)).withWork w₄) henergy₄
  refine ⟨w₅, ?_, fun ch hch => ⟨?_, ?_, hzero ch hch⟩⟩
  · exact (M.bind_ok hfloors).trans ((M.bind_ok hprop).trans ((M.bind_ok hres).trans ((M.bind_ok hdec).trans ((M.bind_ok hsynth).trans (M.bind_ok htrans)))))
  · exact (congrArg (aget · ch) he₅).trans (henergy₄ ch hch)
  · exact (congrArg (aget · ch) (hn₅.trans (hn₄.trans hn₃))).trans (hneed ch hch)

end

-- the packet

section

variable {s : State} {k w : Nat} (hp : SilentPacket s k w)

include hp

/-- The frame of such a packet, from the state after its header. -/
theorem frameBody_silent (hv : s.dec.bits.Valid) (hr : s.Reads (silentFloors s.dec.hdr.channels)) :
    ∃ t, frameBody (s.mode k).mapping (s.openFrame k) = .ok () t ∧ SilentFrame s t k ∧ t.src = (s.past (silentFloors s.dec.hdr.channels)).src ∧
      t.srcPos = (s.past (silentFloors s.dec.hdr.channels)).srcPos := by
  obtain ⟨-, -, -, -, hm, hblock, hfloor, hsub⟩ := hp
  obtain ⟨w', hwork, hflags⟩ := frameWork_silent (s := (s.openFrame k).swapBanks) (n := s.block (s.mode k).blockFlag / 2) hm
    (by omega) hfloor hsub hv hr
  have hrun := (frameBody_run (s := s.openFrame k) hm).trans hwork
  have hprev := (frameBody_decodeKept hrun).2
  exact ⟨_, hrun, ⟨rfl, rfl, rfl, rfl, rfl, rfl, hflags, hprev⟩, rfl, rfl⟩

end

/-- Settles O9: the steps of R360 are the frame, energy spreads step by step, and without energy every piece completes. -/
theorem silentPacketDecodes : Obligations.SilentPacketDecodes := by
  refine ⟨fun s k w hmb hk hw hkn hm => ⟨fun hp hf hb hr => ?_, fun hp hv hr => ?_⟩, fun channels energy steps st c => ⟨fun hc => ?_, ?_⟩, fun s k w hp => ?_⟩
  · exact exec_cmdDecode_eq hmb hk hw hkn hm hp hf (AtBoundary.valid hb) hr
  · exact exec_packetAudio_eq hmb hk hw hkn hm hp hv hr
  · exact aget_propagate_nil hc energy
  · rw [propagate, List.foldl_concat]
    exact aget_propagateStep _ st c
  obtain ⟨hmb, hk, hw, hkn, -⟩ := id hp
  refine ⟨fun hready hf hb hr => ?_, fun hv hr => ?_⟩
  · have hv := AtBoundary.valid hb
    have hhead : s.Reads ((1, 0) :: modeFields s k w) := hr.left (gs := silentFloors s.dec.hdr.channels)
    have hfields : (1, 0) :: silentFields s k w = ((1, 0) :: modeFields s k w) ++ silentFloors s.dec.hdr.channels := rfl
    rw [hfields, State.past_append hv hhead]
    obtain ⟨t, hrun, hsilent, hsrc, hpos⟩ := frameBody_silent (s := s.past ((1, 0) :: modeFields s k w)) (k := k) (w := w) hp (State.past_valid hv)
      (hr.right hv (fs := (1, 0) :: modeFields s k w))
    have hdecode := (decodePacket_run hmb hk hw hkn hv hhead).trans hrun
    have hq := decodePacket_quiet.ok hdecode
    exact ⟨_, exec_cmdDecode_of_ok hready hf hdecode, hsilent, hq.phase.trans hready, hq.err, congrArg retDone hq.err, hsrc, hpos, hq.out, hq.cmd, hq.script,
      hq.result⟩
  · have hhead : s.Reads (modeFields s k w) := hr.left
    rw [silentFields, State.past_append hv hhead]
    obtain ⟨t, hrun, hsilent, hsrc, hpos⟩ := frameBody_silent (s := s.past (modeFields s k w)) (k := k) (w := w) hp (State.past_valid hv) (hr.right hv)
    have haudio := (audioPacket_run hmb hk hw hkn hv hhead).trans hrun
    have hq := quiet_updates.audioPacket.ok haudio
    exact ⟨_, microUnit_of_ok haudio, hsilent, hq.phase, hq.err, hq.ret, hsrc, hpos, hq.out, hq.cmd, hq.script, rfl⟩

end Sys2Proof.Machine
end
